-- ==== Sys2Proof/Word.lean ====
section
/-! DEFINITION. The two word types of the block (00_scope.md R15: a byte is 8 bits, registers are 32 bits, everything is
unsigned) and the size of a bus access. -/

namespace Sys2Proof

/-- A byte (R15). -/
abbrev Byte := BitVec 8

/-- A 32-bit register value or host data word (R13, R100). -/
abbrev Word := BitVec 32

end Sys2Proof
end

