-- ==== Sys2Proof/Syntax.lean ====
section
/-! DEFINITION. The instructions of the block: the 29 operations of 30_encoding.md R302, one constructor per row of
spec/opcode_table.json, each with exactly the operand fields R302 gives it. -/

namespace Sys2Proof

/-- The pin selector of PIN and of a PTRAM entry (R305, 41_sequencer.md R454): 0 MODE, 1 RESET, 2 DATA, 3 PINMUX. -/
inductive Pin where
  | mode | reset | data | pinmux
  deriving DecidableEq, Repr

/-- The operations of R302. A Bool operand is its one-bit field (true is 1); `nresp` is NRESP, `imm8` is IMM8. -/
inductive Instr where
  /-- 0x01 SEND_FRAME (40_codec.md R420). -/
  | sendFrame (msel ftr fbc : Bool)
  /-- 0x02 RECV_FRAME (R421). -/
  | recvFrame (msel : Bool)
  /-- 0x03 RECV (42_command.md R505). -/
  | recv (msel : Bool)
  /-- 0x04 ENCODE (40_codec.md R422). -/
  | encode (msel ftr fbc : Bool)
  /-- 0x05 DECODE (R423). -/
  | decode (msel : Bool)
  /-- 0x06 RAW_SEND (R424). -/
  | rawSend
  /-- 0x07 RAW_RECV (R425). -/
  | rawRecv
  /-- 0x10 ENTRY (41_sequencer.md R460). -/
  | entry
  /-- 0x11 PIN (R470): the pin selector IMM8[1:0] and the level IMM8[2]. -/
  | pin (p : Pin) (lvl : Bool)
  /-- 0x12 DELAY (R471). -/
  | delay
  /-- 0x13 BAUD (R472). -/
  | baud
  /-- 0x14 UNLOCK (R473). -/
  | unlock
  /-- 0x20 RESET (42_command.md R510). -/
  | reset
  /-- 0x21 READ (R511). -/
  | read
  /-- 0x22 PROGRAM (R512). -/
  | program
  /-- 0x23 VERIFY (R513). -/
  | verify
  /-- 0x24 BLOCK_ERASE (R514). -/
  | blockErase
  /-- 0x25 CHECKSUM (R515). -/
  | checksum
  /-- 0x26 CHECKSUMS (R516). -/
  | checksums
  /-- 0x27 CHIP_ERASE (R520). -/
  | chipErase (nresp : BitVec 3) (chk : Bool)
  /-- 0x28 SEC_SET (R521). -/
  | secSet (nresp : BitVec 3) (chk : Bool)
  /-- 0x29 SEC_GET (R522). -/
  | secGet (nresp : BitVec 3) (chk : Bool)
  /-- 0x2A SEC_RELEASE (R523). -/
  | secRelease (nresp : BitVec 3) (chk : Bool)
  /-- 0x2B SIGNATURE (R524). -/
  | signature (nresp : BitVec 3) (chk : Bool)
  /-- 0x2C OPT_READ (R525). -/
  | optRead (nresp : BitVec 3) (chk : Bool)
  /-- 0x2D OPT_WRITE (R526). -/
  | optWrite (nresp : BitVec 3) (chk : Bool)
  /-- 0x2E STATUS (R527). -/
  | status (nresp : BitVec 3) (chk : Bool)
  /-- 0x2F RAW_CMD (R528): IMM8 is the opcode byte. -/
  | rawCmd (imm8 : Byte) (nresp : BitVec 3) (chk fbc : Bool)
  /-- 0x30 END (R530). -/
  | endSession
  deriving DecidableEq, Repr

end Sys2Proof
end

