-- ==== Sys2Proof/WellFormed.lean ====
section
/-! DEFINITION. Which instructions are legal command words (30_encoding.md R301): the field widths are the types of
Syntax.lean, so two checks are left, "MSEL = 0 with FTR = 1 is illegal for SEND_FRAME and ENCODE" and "CHK = 1 with
NRESP = 0 is illegal". -/

namespace Sys2Proof

/-- R301: a frame with the command marker SOH ends with ETX. -/
def footerFits (msel ftr : Bool) : Bool := msel || !ftr

/-- R301: CHK checks the first response, so it needs one. -/
def checkFits (nresp : BitVec 3) (chk : Bool) : Bool := !chk || nresp != 0

/-- The checks of R301 on each operation. -/
def Instr.wellFormed : Instr → Bool
  | .sendFrame msel ftr _ => footerFits msel ftr
  | .recvFrame _ => true
  | .recv _ => true
  | .encode msel ftr _ => footerFits msel ftr
  | .decode _ => true
  | .rawSend => true
  | .rawRecv => true
  | .entry => true
  | .pin _ _ => true
  | .delay => true
  | .baud => true
  | .unlock => true
  | .reset => true
  | .read => true
  | .program => true
  | .verify => true
  | .blockErase => true
  | .checksum => true
  | .checksums => true
  | .chipErase n c => checkFits n c
  | .secSet n c => checkFits n c
  | .secGet n c => checkFits n c
  | .secRelease n c => checkFits n c
  | .signature n c => checkFits n c
  | .optRead n c => checkFits n c
  | .optWrite n c => checkFits n c
  | .status n c => checkFits n c
  | .rawCmd _ n c _ => checkFits n c
  | .endSession => true

end Sys2Proof
end

