-- ==== Sys2Proof/Decode.lean ====
section
/-! DEFINITION. The decoder of command words, total on any 32-bit word and rejecting by name (30_encoding.md R300-R306),
and after it the encoder, written from the same tables. -/

namespace Sys2Proof

/-- The fields of a command word (R300), named as the rule names them. -/
structure Fields where
  op : BitVec 8
  imm8 : BitVec 8
  nresp : BitVec 3
  chk : Bool
  fbc : Bool
  ftr : Bool
  msel : Bool
  reserved : BitVec 9
  deriving DecidableEq, Repr

/-- The field layout of R300: OP 7:0, IMM8 15:8, NRESP 18:16, CHK 19, FBC 20, FTR 21, MSEL 22, reserved 31:23. -/
def Fields.ofWord (w : Word) : Fields :=
  { op := w.extractLsb' 0 8, imm8 := w.extractLsb' 8 8, nresp := w.extractLsb' 16 3
    chk := w.getLsbD 19, fbc := w.getLsbD 20, ftr := w.getLsbD 21, msel := w.getLsbD 22
    reserved := w.extractLsb' 23 9 }

/-- The same layout, put together (R300, R331). -/
def Fields.toWord (f : Fields) : Word :=
  f.reserved ++ (BitVec.ofBool f.msel ++ (BitVec.ofBool f.ftr ++ (BitVec.ofBool f.fbc ++
    (BitVec.ofBool f.chk ++ (f.nresp ++ (f.imm8 ++ f.op))))))

/-- Why a command word is illegal (R301, R303, 60_exceptions.md R601); every reason ends the command with ERR = BADOP. -/
inductive Illegal where
  /-- bits 31:23 are not 0 (R300) -/
  | reservedBits
  /-- OP is 0x00, 0x08-0x0F, 0x15-0x1F or 0x31-0xFF (R303) -/
  | reservedOp
  /-- a field the operation does not take is not 0 (R301) -/
  | unusedField
  /-- MSEL = 0 with FTR = 1 on SEND_FRAME or ENCODE (R301) -/
  | commandFooter
  /-- CHK = 1 with NRESP = 0 (R301) -/
  | checkWithoutResponse
  /-- IMM8[7:3] of PIN is not 0 (R305) -/
  | pinImmediate
  /-- fewer than the four bytes of a command word (R306) -/
  | shortWord
  deriving DecidableEq, Repr

/-- The fields an operation does not take must be 0 (R301): each flag of `uses` says that the operation takes the field. -/
structure Uses where
  imm8 : Bool := false
  nresp : Bool := false
  chk : Bool := false
  fbc : Bool := false
  ftr : Bool := false
  msel : Bool := false
  deriving DecidableEq, Repr

/-- Every field outside `u` is 0. -/
def Fields.within (f : Fields) (u : Uses) : Bool :=
  (u.imm8 || f.imm8 == 0) && (u.nresp || f.nresp == 0) && (u.chk || !f.chk) && (u.fbc || !f.fbc)
    && (u.ftr || !f.ftr) && (u.msel || !f.msel)

/-- The pin selector IMM8[1:0] (R305). -/
def pinOfBits (b : BitVec 2) : Pin :=
  if b = 0 then .mode else if b = 1 then .reset else if b = 2 then .data else .pinmux

/-- The number of a pin (R305). -/
def bitsOfPin : Pin → BitVec 2
  | .mode => 0
  | .reset => 1
  | .data => 2
  | .pinmux => 3

/-- An operation without operands (R302). -/
def plain (f : Fields) (i : Instr) : Except Illegal Instr :=
  if f.within {} then .ok i else .error .unusedField

/-- An operation with MSEL only (R302). -/
def withMarker (f : Fields) (mk : Bool → Instr) : Except Illegal Instr :=
  if f.within { msel := true } then .ok (mk f.msel) else .error .unusedField

/-- SEND_FRAME and ENCODE: MSEL, FTR, FBC (R302). -/
def withFooter (f : Fields) (mk : Bool → Bool → Bool → Instr) : Except Illegal Instr :=
  if f.within { msel := true, ftr := true, fbc := true } then
    if footerFits f.msel f.ftr then .ok (mk f.msel f.ftr f.fbc) else .error .commandFooter
  else .error .unusedField

/-- The single-exchange operations: NRESP, CHK (R302, 42_command.md R519). -/
def withResponses (f : Fields) (mk : BitVec 3 → Bool → Instr) : Except Illegal Instr :=
  if f.within { nresp := true, chk := true } then
    if checkFits f.nresp f.chk then .ok (mk f.nresp f.chk) else .error .checkWithoutResponse
  else .error .unusedField

/-- PIN: IMM8 holds the selector and the level, its bits 7:3 are 0 (R305). -/
def decodePin (f : Fields) : Except Illegal Instr :=
  if f.within { imm8 := true } then
    if f.imm8.extractLsb' 3 5 = 0 then .ok (.pin (pinOfBits (f.imm8.extractLsb' 0 2)) (f.imm8.getLsbD 2))
    else .error .pinImmediate
  else .error .unusedField

/-- RAW_CMD: IMM8, NRESP, CHK, FBC (R302, R305). -/
def decodeRawCmd (f : Fields) : Except Illegal Instr :=
  if f.within { imm8 := true, nresp := true, chk := true, fbc := true } then
    if checkFits f.nresp f.chk then .ok (.rawCmd f.imm8 f.nresp f.chk f.fbc) else .error .checkWithoutResponse
  else .error .unusedField

/-- The operation map of R302 on the field OP; every other value is reserved (R303). -/
def decodeFields (f : Fields) : Except Illegal Instr :=
  if f.reserved != 0 then .error .reservedBits else
  match f.op.toNat with
  | 0x01 => withFooter f .sendFrame
  | 0x02 => withMarker f .recvFrame
  | 0x03 => withMarker f .recv
  | 0x04 => withFooter f .encode
  | 0x05 => withMarker f .decode
  | 0x06 => plain f .rawSend
  | 0x07 => plain f .rawRecv
  | 0x10 => plain f .entry
  | 0x11 => decodePin f
  | 0x12 => plain f .delay
  | 0x13 => plain f .baud
  | 0x14 => plain f .unlock
  | 0x20 => plain f .reset
  | 0x21 => plain f .read
  | 0x22 => plain f .program
  | 0x23 => plain f .verify
  | 0x24 => plain f .blockErase
  | 0x25 => plain f .checksum
  | 0x26 => plain f .checksums
  | 0x27 => withResponses f .chipErase
  | 0x28 => withResponses f .secSet
  | 0x29 => withResponses f .secGet
  | 0x2A => withResponses f .secRelease
  | 0x2B => withResponses f .signature
  | 0x2C => withResponses f .optRead
  | 0x2D => withResponses f .optWrite
  | 0x2E => withResponses f .status
  | 0x2F => decodeRawCmd f
  | 0x30 => plain f .endSession
  | _ => .error .reservedOp

/-- The decoder (R304): every 32-bit word is one operation with its operands, or illegal by name. -/
def decodeWord (w : Word) : Except Illegal Instr := decodeFields (Fields.ofWord w)

/-- Four bytes in host byte order, the lowest offset first, as one word (20_memory.md R204). -/
def wordOfBytes (b0 b1 b2 b3 : Byte) : Word := b3 ++ (b2 ++ (b1 ++ b0))

/-- The decoder on bytes as the bus carries them, with the rest of the list (R204, R306). -/
def decodeBytes : List Byte → Except Illegal (Instr × List Byte)
  | b0 :: b1 :: b2 :: b3 :: rest =>
    match decodeWord (wordOfBytes b0 b1 b2 b3) with
    | .ok i => .ok (i, rest)
    | .error e => .error e
  | _ => .error .shortWord

/-- The bytes of a table word of `nbits` bits, bit 0 the least significant bit of the first byte, filled with zeros to
the four bytes of a command word. -/
def bytesOfTableWord (nbits w : Nat) : List Byte :=
  let v : Word := BitVec.ofNat 32 (w % 2 ^ nbits)
  [v.extractLsb' 0 8, v.extractLsb' 8 8, v.extractLsb' 16 8, v.extractLsb' 24 8]

/-- The instruction the decoder reads from a word of spec/opcode_table.json. -/
def decodeTableWord (nbits w : Nat) : Option Instr :=
  match decodeBytes (bytesOfTableWord nbits w) with
  | .ok (i, _) => some i
  | .error _ => none

/-- The number OP of an operation (R302). -/
def Instr.opNumber : Instr → BitVec 8
  | .sendFrame _ _ _ => 0x01
  | .recvFrame _ => 0x02
  | .recv _ => 0x03
  | .encode _ _ _ => 0x04
  | .decode _ => 0x05
  | .rawSend => 0x06
  | .rawRecv => 0x07
  | .entry => 0x10
  | .pin _ _ => 0x11
  | .delay => 0x12
  | .baud => 0x13
  | .unlock => 0x14
  | .reset => 0x20
  | .read => 0x21
  | .program => 0x22
  | .verify => 0x23
  | .blockErase => 0x24
  | .checksum => 0x25
  | .checksums => 0x26
  | .chipErase _ _ => 0x27
  | .secSet _ _ => 0x28
  | .secGet _ _ => 0x29
  | .secRelease _ _ => 0x2A
  | .signature _ _ => 0x2B
  | .optRead _ _ => 0x2C
  | .optWrite _ _ => 0x2D
  | .status _ _ => 0x2E
  | .rawCmd _ _ _ _ => 0x2F
  | .endSession => 0x30

/-- The word of an operation number and nothing else. -/
def Fields.plainOf (op : BitVec 8) : Fields :=
  { op := op, imm8 := 0, nresp := 0, chk := false, fbc := false, ftr := false, msel := false, reserved := 0 }

/-- The fields of an instruction's word (R331): OP of R302, the operands in their fields, everything else 0. -/
def encodeFields (i : Instr) : Fields :=
  let f := Fields.plainOf i.opNumber
  match i with
  | .sendFrame msel ftr fbc => { f with msel := msel, ftr := ftr, fbc := fbc }
  | .recvFrame msel => { f with msel := msel }
  | .recv msel => { f with msel := msel }
  | .encode msel ftr fbc => { f with msel := msel, ftr := ftr, fbc := fbc }
  | .decode msel => { f with msel := msel }
  | .pin p lvl => { f with imm8 := (0 : BitVec 5) ++ (BitVec.ofBool lvl ++ bitsOfPin p) }
  | .chipErase n c => { f with nresp := n, chk := c }
  | .secSet n c => { f with nresp := n, chk := c }
  | .secGet n c => { f with nresp := n, chk := c }
  | .secRelease n c => { f with nresp := n, chk := c }
  | .signature n c => { f with nresp := n, chk := c }
  | .optRead n c => { f with nresp := n, chk := c }
  | .optWrite n c => { f with nresp := n, chk := c }
  | .status n c => { f with nresp := n, chk := c }
  | .rawCmd imm n c fbc => { f with imm8 := imm, nresp := n, chk := c, fbc := fbc }
  | .rawSend => f
  | .rawRecv => f
  | .entry => f
  | .delay => f
  | .baud => f
  | .unlock => f
  | .reset => f
  | .read => f
  | .program => f
  | .verify => f
  | .blockErase => f
  | .checksum => f
  | .checksums => f
  | .endSession => f

/-- The command word of an instruction (R300, R331). -/
def encode (i : Instr) : Word := (encodeFields i).toWord

end Sys2Proof
end

