-- ==== Sys2Proof/Config.lean ====
section
/-! DEFINITION. What is fixed for this hardware (00_scope.md R13, 10_state.md R101, 40_codec.md R404) and the FREE VALUES:
opaque constants without a body, for the values the spec leaves unspecified. -/

namespace Sys2Proof.Config

/-- The ID register's value, "RFPI" (R101). -/
def idValue : Word := 0x52465049
/-- The window offset of CMD (R100). -/
def cmdOffset : Nat := 0x004
/-- The window offset of TXBUF's byte 0 (R142). -/
def txBase : Nat := 0x10000
/-- The window offset of RXBUF's byte 0 (R143). -/
def rxBase : Nat := 0x20000
/-- The window offset after RXBUF's last byte (R100). -/
def rxEnd : Nat := 0x30000
/-- BUF_CAP, the bytes of each buffer (R13, D19). -/
def bufCap : Nat := 65536
/-- MAX_SKIP, the discards a hunt allows (R13, D20, 93_implementation_defined.md I2). -/
def maxSkip : Nat := 256
/-- The command-frame marker SOH (R19, R310). -/
def soh : Byte := 0x01
/-- The footer ETX (R19). -/
def etx : Byte := 0x03
/-- The footer ETB (R19). -/
def etb : Byte := 0x17
/-- The padding rounds of the extended entry (R13, 41_sequencer.md R462). -/
def paddingRounds : Nat := 30
/-- The bit-rate negotiation byte of the extended entry (R462). -/
def syncRequest : Byte := 0x55
/-- The echo the extended entry requires (R462). -/
def syncEcho : Byte := 0xC1
/-- The zero bytes of the alternate entry (R13, R464). -/
def alternateZeros : Nat := 16
/-- The checksum window of CHECKSUMS (R13, 42_command.md R516). -/
def checksumWindow : Nat := 256
/-- The largest legal block size (R133, R144). -/
def maxBlock : Nat := 0x1000000

/-- FREE VALUE (log 8): the byte of TXBUF or RXBUF at window offset `a` that nothing has written since block reset number
`epoch`; "Contents at reset unspecified" (R142, R143, 93_implementation_defined.md I4). -/
opaque unwrittenByte (epoch a : Nat) : Byte

/-- FREE VALUE (log 9): the `n`-th byte drawn by a host read of RXBUF while BUSY = 1, "an unspecified value" (R143, I3). -/
opaque busyByte (n : Nat) : Byte

/-- FREE VALUE (log 10): BAUD0, the channel bit rate after reset (70_reset_and_hazards.md R700, I9). -/
opaque baud0 : Word

end Sys2Proof.Config
end

