-- ==== Sys2Proof/Machine/State.lean ====
section
/-! DEFINITION. The state of the block as plain data (10_state.md), the two ways a step can stop, and the state right
after reset (70_reset_and_hazards.md R700). -/

namespace Sys2Proof.Machine

/-- The error codes of 60_exceptions.md R600; codes 12-15 are never produced, so they have no constructor. -/
inductive Err where
  | none | invalidFrame | invalidHeader | invalidFooter | invalidChecksum | noResponse | noAck
  | param | state | config | overflow | badop
  deriving DecidableEq, Repr

/-- The session states of STATUS.STATE (R151). -/
inductive Sess where
  | unknown | reset | ready | reading | programming | erasing | verifying | exchanging
  deriving DecidableEq, Repr

/-- The device families of PROFILE.FAMILY (R3, R130). -/
inductive Family where
  | generic | ext4 | sw8 | alt
  deriving DecidableEq, Repr

/-- The locked profile registers (R130-R141, R145), field by field, each at the width the rule gives; reserved bits read
0 and are not stored (R113). -/
structure Profile where
  /-- PROFILE bits 1:0 -/
  family : Family
  /-- PROFILE bits 4:2, address width in bytes, legal 1..4 -/
  addrW : BitVec 3
  /-- PROFILE bit 5, true: 2-byte length field -/
  lenW : Bool
  /-- PROFILE bit 6, false UART, true SPI -/
  chan : Bool
  /-- PROFILE bit 7 -/
  poll : Bool
  /-- PROFILE bits 15:8 -/
  pulses : Byte
  /-- PROFILE bit 16, false ETB, true ETX -/
  dftr : Bool
  /-- MARKERS bits 7:0 -/
  stxTx : Byte
  /-- MARKERS bits 15:8 -/
  stxRx : Byte
  /-- ACK_CODE bits 7:0 -/
  ackCode : Byte
  /-- BLKSZ_A bits 24:0 -/
  blkA : BitVec 25
  /-- BLKSZ_B bits 24:0 -/
  blkB : BitVec 25
  /-- BLK_SPLIT -/
  blkSplit : Word
  /-- BAUD_SW -/
  baudSw : Word
  /-- ALTCFG bits 7:0 -/
  probe : Byte
  /-- ALTCFG bits 15:8 -/
  unlockCmd : Byte
  /-- LOCK_ADDR bits 23:0 -/
  lockAddr : BitVec 24
  /-- KEY_LO, key bytes 0..3 -/
  keyLo : Word
  /-- KEY_HI bits 23:0, key bytes 4..6 -/
  keyHi : BitVec 24
  /-- T_FRAME -/
  tFrame : Word
  /-- T_HUNT -/
  tHunt : Word
  /-- T_PULSE -/
  tPulse : Word
  /-- T_SETTLE -/
  tSettle : Word
  /-- T_ECHO -/
  tEcho : Word
  /-- T_SYNC -/
  tSync : Word
  /-- T_SPACING -/
  tSpacing : Word
  /-- the 14 opcode registers, bits 7:0 -/
  opc : Vector Byte 14
  /-- the pulse-train memory -/
  ptram : Vector Word 64
  deriving DecidableEq, Repr

/-- The locked registers by name (R145). -/
inductive LockedReg where
  | profile | markers | ackCode | blkszA | blkszB | blkSplit | baudSw | altcfg | lockAddr | keyLo | keyHi
  | tFrame | tHunt | tPulse | tSettle | tEcho | tSync | tSpacing
  | opc (k : Fin 14) | ptram (i : Fin 64)
  deriving DecidableEq, Repr

/-- The registers of the window by name (R100). -/
inductive Reg where
  | id | cmd | status | ctrl | arg0 | arg1 | txlen | rxlen | rxframes | timeout | now | cfgvalid
  | lastst | diag | skipcnt | rxflen (j : Fin 8) | locked (r : LockedReg)
  deriving DecidableEq, Repr

/-- LASTST (R116): the status byte and VALID. -/
structure LastStatus where
  byte : Byte
  valid : Bool
  deriving DecidableEq, Repr

/-- DIAG (R117). -/
structure Diag where
  rcsum : Byte
  ccsum : Byte
  footer : Byte
  bodyOk : Bool
  deriving DecidableEq, Repr

/-- A deadline `(t0, dur)` (00_scope.md R16, D3). -/
structure Deadline where
  t0 : Word
  dur : Word
  deriving DecidableEq, Repr

/-- The hidden controller state of R153, not host-visible; TSNAP and TACC are R110's. -/
structure Hidden where
  tsnap : Word
  tacc : Word
  /-- the deadline of the running receive or hunt -/
  huntDl : Deadline
  /-- the length-field or body deadline of the running decode -/
  frameDl : Deadline
  /-- the deadline of an entry sequence's single-byte wait -/
  waitDl : Deadline
  /-- hunt counter -/
  skipped : Nat
  /-- first-byte flag of the decoder -/
  first : Bool
  /-- attempts of the running receive -/
  attempts : Nat
  /-- PTRAM entry index -/
  ptIndex : Nat
  /-- pulse, round or zero-byte counter of the entry sequences -/
  entryCount : Nat
  /-- data frames READ has asked for -/
  readCount : Nat
  /-- start of the running window of CHECKSUMS -/
  window : Nat
  /-- read index k of DECODE (40_codec.md R423) -/
  txIndex : Nat
  deriving DecidableEq, Repr

/-- A byte of the RX stream with its arrival time (R152). -/
structure RxByte where
  arrival : Nat
  byte : Byte
  deriving DecidableEq, Repr

/-- The observable events of R154, each with `Now()`. -/
inductive Event where
  | pin (p : Pin) (v : Bool) (t : Word)
  | txb (b : Byte) (t : Word)
  | rxb (b : Byte) (t : Word)
  | baud (r : Word) (t : Word)
  | done (e : Err) (t : Word)
  deriving DecidableEq, Repr

/-- The size of a bus access (20_memory.md R208): 1, 2 or 4 bytes. -/
inductive Size where
  | byte | half | word
  deriving DecidableEq, Repr

/-- What the outside can do at the host side: a bus read or write (R208) or asserting the reset input for `hold` ticks
(70_reset_and_hazards.md R700). -/
inductive HostAct where
  | read (addr : BitVec 18) (sz : Size)
  | write (addr : BitVec 18) (sz : Size) (v : Word)
  | reset (hold : Nat)
  deriving DecidableEq, Repr

/-- A host action with its time. `first` orders it against the block's own update at the same tick (60_exceptions.md
R621: such events "are ordered by the bus"): true is before it. -/
structure HostInput where
  tick : Nat
  first : Bool
  act : HostAct
  deriving DecidableEq, Repr

/-- The answer to a bus access (R206-R208). -/
inductive BusResp where
  | data (v : Word)
  | written
  | busError
  deriving DecidableEq, Repr

/-- The contents of the buffers: cells keyed by window offset, strictly rising; an address that is not listed holds
nothing that was written since reset (log 8). -/
abbrev Memory := List Host.Cell

/-- The state of the block (INVENTORY.md, "State"). -/
structure State where
  /-- CMD (R102) -/
  cmd : Word
  /-- STATUS bits 0-4 (R103) -/
  busy : Bool
  done : Bool
  ackok : Bool
  wign : Bool
  ovr : Bool
  /-- STATUS.ERR -/
  err : Err
  /-- STATUS.STATE -/
  sess : Sess
  /-- STATUS bits 16-19, the driven levels (R150) -/
  pinMode : Bool
  pinReset : Bool
  pinData : Bool
  pinMux : Bool
  /-- CTRL.IE (R105) -/
  ie : Bool
  /-- ARG0, ARG1 (R106) -/
  arg0 : Word
  arg1 : Word
  /-- TXLEN, RXLEN (R107, R108) -/
  txlen : BitVec 17
  rxlen : BitVec 17
  /-- RXFRAMES, RXFLEN0-7 (R119, R120) -/
  rxframes : Word
  rxflen : Vector (BitVec 17) 8
  /-- TIMEOUT (R109) -/
  timeout : Word
  /-- CFGVALID (R112) -/
  cfgvalid : Word
  /-- LASTST, DIAG, SKIPCNT (R116-R118) -/
  lastst : LastStatus
  diag : Diag
  skipcnt : BitVec 9
  /-- the locked profile registers (R145) -/
  prof : Profile
  /-- TXBUF and RXBUF (R142, R143) -/
  mem : Memory
  /-- the channel's bit rate (41_sequencer.md R472) -/
  rate : Word
  /-- hidden controller state (R153) -/
  hid : Hidden
  /-- bytes of the RX stream, oldest first: those with `arrival ≤ time` are delivered and unread (R152), the others are
  the environment's deliveries to come (log 3) -/
  rx : List RxByte
  /-- the event history (R154), oldest first -/
  events : List Event
  /-- ticks since the end of reset; NOW is this modulo 2^32 (R111, log 4) -/
  time : Nat
  /-- the model's own: host actions to come (log 2) -/
  host : List HostInput
  /-- the model's own: the environment's draws of elapsed time to come (log 3, log 6) -/
  lags : List Nat
  /-- the model's own: bus responses given, oldest first (log 16) -/
  resp : List BusResp
  /-- the model's own: free bytes drawn so far (log 9) -/
  draws : Nat
  /-- the model's own: block resets so far (log 8) -/
  epoch : Nat
  deriving DecidableEq, Repr

/-- How a step can stop the model. -/
inductive Fault where
  /-- Raised by the retry loop of 42_command.md R504 and the page loop of R511 if their bound ran out: the "stuck" of
  93_implementation_defined.md I20, an environment that delivers without end. Safe: the stream of a state is finite, and
  no command reaches it (log 13). -/
  | endlessInput
  deriving DecidableEq, Repr

/-- What the model gives no meaning. -/
inductive Refusal where
  /-- Raised only by an arm of exec whose instruction has no meaning yet; safe. No arm uses it. -/
  | notModelled (mnemonic : String)
  deriving DecidableEq, Repr

/-- The profile registers at reset (R100, R700, D16). -/
def Profile.reset : Profile :=
  { family := .generic, addrW := 3, lenW := false, chan := false, poll := false, pulses := 0, dftr := false
    stxTx := 0x02, stxRx := 0x02, ackCode := 0
    blkA := 0x1000, blkB := 0x1000, blkSplit := 0, baudSw := 0
    probe := 0, unlockCmd := 0, lockAddr := 0, keyLo := 0, keyHi := 0
    tFrame := 1000000, tHunt := 1000000, tPulse := 0, tSettle := 0, tEcho := 0, tSync := 0, tSpacing := 0
    opc := (Vector.replicate 14 0).set 13 0x70
    ptram := Vector.replicate 64 0x00000008 }

/-- The hidden state at reset: "undefined, not used until a command sets it" (R700); DESIGN CHOICE, log 11. -/
def Hidden.reset : Hidden :=
  { tsnap := 0, tacc := 0, huntDl := ⟨0, 0⟩, frameDl := ⟨0, 0⟩, waitDl := ⟨0, 0⟩
    skipped := 0, first := false, attempts := 0, ptIndex := 0, entryCount := 0, readCount := 0, window := 0
    txIndex := 0 }

/-- The block right after reset (R700). The model's own fields are DESIGN CHOICE (log 2, 3, 8, 9, 16). -/
def State.reset : State :=
  { cmd := 0, busy := false, done := false, ackok := false, wign := false, ovr := false
    err := .none, sess := .unknown
    pinMode := false, pinReset := false, pinData := false, pinMux := false
    ie := false, arg0 := 0, arg1 := 0, txlen := 0, rxlen := 0, rxframes := 0, rxflen := Vector.replicate 8 0
    timeout := 1000000, cfgvalid := 0x20000000
    lastst := ⟨0, false⟩, diag := ⟨0, 0, 0, false⟩, skipcnt := 0
    prof := Profile.reset, mem := [], rate := Config.baud0, hid := Hidden.reset
    rx := [], events := [], time := 0, host := [], lags := [], resp := [], draws := 0, epoch := 0 }

end Sys2Proof.Machine
end

