-- ==== Sys2Proof/Machine/Ops.lean ====
section
/-! DEFINITION. The named operations over memory, registers and history: the buffers, NOW, the history, the latching of an
accepted command (42_command.md R500) and the ONE shared completion, which is also the only form an error takes (R506,
60_exceptions.md R603). -/

namespace Sys2Proof.Machine

/-! ### Buffer memory -/

/-- The byte written at a window offset, none if nothing has written it since reset. -/
def Memory.find : Memory → Nat → Option Byte
  | [], _ => none
  | (k, b) :: m, a => if k = a then some b else Memory.find m a

/-- Writing a byte: the cells stay strictly rising, an old cell of the address is replaced. -/
def Memory.put : Memory → Nat → Byte → Memory
  | [], a, b => [(a, b)]
  | (k, c) :: m, a, b =>
    if a < k then (a, b) :: (k, c) :: m
    else if a = k then (a, b) :: m
    else (k, c) :: Memory.put m a b

/-- The keys rise strictly, from `lo` on, and stay below `hi`. -/
def Memory.risingFrom (hi : Nat) : Nat → Memory → Bool
  | _, [] => true
  | lo, (k, _) :: m => decide (lo ≤ k) && decide (k < hi) && Memory.risingFrom hi (k + 1) m

/-- The canonical form (log 8): strictly rising addresses inside TXBUF and RXBUF (10_state.md R142, R143). -/
def Memory.wf (m : Memory) : Bool := Memory.risingFrom Config.rxEnd Config.txBase m

/-- The byte at a window offset of a buffer: what was written there, else the free value of log 8. -/
def State.byteAt (s : State) (a : Nat) : Byte := (s.mem.find a).getD (Config.unwrittenByte s.epoch a)

/-- TX[i] (00_scope.md R16). -/
def State.txByte (s : State) (i : Nat) : Byte := s.byteAt (Config.txBase + i)

/-- RX[i] (R16). -/
def State.rxByte (s : State) (i : Nat) : Byte := s.byteAt (Config.rxBase + i)

/-- TX[0..TXLEN-1] (R107, R142). -/
def State.txPayload (s : State) : List Byte := (List.range s.txlen.toNat).map s.txByte

/-- RX[0..RXLEN-1] (R108). -/
def State.rxPayload (s : State) : List Byte := (List.range s.rxlen.toNat).map s.rxByte

/-- Bytes written from offset `a` upward. -/
def Memory.putAll : Memory → Nat → List Byte → Memory
  | m, _, [] => m
  | m, a, b :: bs => Memory.putAll (m.put a b) (a + 1) bs

/-- The assignments of `RXappend` (R16): RX[RXLEN..] <- bs, RXLEN <- RXLEN + len(bs). -/
def State.rxStore (s : State) (bs : List Byte) : State :=
  { s with mem := s.mem.putAll (Config.rxBase + s.rxlen.toNat) bs
           rxlen := BitVec.ofNat 17 (s.rxlen.toNat + bs.length) }

/-- RXLEN, RXFRAMES and RXFLEN0-7 set to 0 before an RX-writing op's first transfer (10_state.md R143, R500). -/
def State.clearRx (s : State) : State :=
  { s with rxlen := 0, rxframes := 0, rxflen := Vector.replicate 8 0 }

/-! ### Time and history -/

/-- NOW (R111): the tick counter modulo 2^32. -/
def State.now (s : State) : Word := BitVec.ofNat 32 s.time

/-- An observable event joins the history (R154). -/
def State.record (s : State) (e : Event) : State := { s with events := s.events ++ [e] }

/-- `Expired((t0, d))` = `(Now() - t0) mod 2^32 >= d` (00_scope.md R16). -/
def State.expired (s : State) (dl : Deadline) : Bool := decide (dl.dur.toNat ≤ (s.now - dl.t0).toNat)

/-- The ticks left until a deadline expires, 0 if it has expired (R18, D3, log 5). -/
def State.left (s : State) (dl : Deadline) : Nat := dl.dur.toNat - (s.now - dl.t0).toNat

/-! ### Profile values -/

/-- CFGVALID bit k (R112). -/
def State.valid (s : State) (k : Nat) : Bool := s.cfgvalid.getLsbD k

/-- The opcode byte of OPC register k (R140). -/
def State.opcode (s : State) (k : Fin 14) : Byte := s.prof.opc.get k

/-! ### Accepting a command, and ending it -/

/-- The latching part of acceptance, up to the checks (42_command.md R500, 10_state.md R102, R110). -/
def State.accept (s : State) (w : Word) : State :=
  { s with cmd := w, busy := true, done := false, err := .none, ackok := false
           hid := { s.hid with tsnap := s.timeout, tacc := s.now } }

/-- `Finish(e)` (R506): STATE, ERR, BUSY = 0 and DONE = 1 in one atomic update, and the event DONE. This is also the
entry of every error (60_exceptions.md R603): nothing else is saved or changed. -/
def State.finish (s : State) (final : Sess) (e : Err) : State :=
  { s with sess := final, err := e, busy := false, done := true, events := s.events ++ [.done e s.now] }

/-- The next command after an error needs no return operation (R604): the host writes 1 to DONE or the next acceptance
clears it. This is the former, the write-1-to-clear of STATUS (10_state.md R104). -/
def State.clearSticky (s : State) (v : Word) : State :=
  { s with done := s.done && !v.getLsbD 1, wign := s.wign && !v.getLsbD 3, ovr := s.ovr && !v.getLsbD 4 }

/-! ### Block reset -/

/-- Deliveries seen from the end of a reset that ends at tick `t`: those up to `t` are discarded (70_reset_and_hazards.md
R700), NOW counts from 0 again. -/
def rebaseRx (t : Nat) : List RxByte → List RxByte
  | [] => []
  | x :: xs => if x.arrival ≤ t then rebaseRx t xs else { x with arrival := x.arrival - t } :: rebaseRx t xs

/-- Host actions to come, seen from the end of a reset that ends at tick `t` (log 12). -/
def rebaseHost (t : Nat) (hs : List HostInput) : List HostInput := hs.map fun h => { h with tick := h.tick - t }

/-- The reset input asserted for `hold` ticks (R700): every piece of state takes its reset value, a running command
ends without completing. What is not the block's goes on: deliveries and host actions to come, the draws, and the
responses given (log 12). -/
def State.blockReset (s : State) (hold : Nat) : State :=
  { State.reset with
    rx := rebaseRx (s.time + hold) s.rx
    host := rebaseHost (s.time + hold) s.host
    lags := s.lags, resp := s.resp, draws := s.draws, epoch := s.epoch + 1 }

end Sys2Proof.Machine
end

