-- ==== Sys2Proof/Machine/Flags.lean ====
section
/-! DEFINITION. Every computation of a flag: the STATUS word and its fields (10_state.md R103), the interrupt
(60_exceptions.md R620), the response check (42_command.md R502) and the CFGVALID bits (R112). -/

namespace Sys2Proof.Machine

/-- The code of an error (60_exceptions.md R600). -/
def Err.code : Err → BitVec 4
  | .none => 0
  | .invalidFrame => 1
  | .invalidHeader => 2
  | .invalidFooter => 3
  | .invalidChecksum => 4
  | .noResponse => 5
  | .noAck => 6
  | .param => 7
  | .state => 8
  | .config => 9
  | .overflow => 10
  | .badop => 11

/-- The code of a session state (R151). -/
def Sess.code : Sess → BitVec 3
  | .unknown => 0
  | .reset => 1
  | .ready => 2
  | .reading => 3
  | .programming => 4
  | .erasing => 5
  | .verifying => 6
  | .exchanging => 7

/-- IRQ = STATUS.DONE and CTRL.IE (R620). -/
def State.irq (s : State) : Bool := s.done && s.ie

/-- A one-bit field at bit k of a word. -/
def bitAt (b : Bool) (k : Nat) : Word := (BitVec.ofBool b).setWidth 32 <<< k

/-- A field of any width at bit k of a word. -/
def fieldAt {n : Nat} (v : BitVec n) (k : Nat) : Word := v.setWidth 32 <<< k

/-- The STATUS word (R103). -/
def State.statusWord (s : State) : Word :=
  bitAt s.busy 0 ||| bitAt s.done 1 ||| bitAt s.ackok 2 ||| bitAt s.wign 3 ||| bitAt s.ovr 4 ||| bitAt s.irq 5
    ||| fieldAt s.err.code 8 ||| fieldAt s.sess.code 12
    ||| bitAt s.pinMode 16 ||| bitAt s.pinReset 17 ||| bitAt s.pinData 18 ||| bitAt s.pinMux 19

/-- `chk_return(p)` = `len(p) >= 1 and p[0] = ACK_CODE` (42_command.md R502, D26). -/
def State.chkReturn (s : State) (p : List Byte) : Bool :=
  match p with
  | [] => false
  | b :: _ => b == s.prof.ackCode

/-- The CFGVALID bit of ACK_CODE (R112). -/
def ackCodeBit : Nat := 1

/-- `CFGVALID.ACK_CODE and chk_return(p)`, the value RECV_FRAME, DECODE, RECV and the exchange ops give ACKOK
(40_codec.md R421, 42_command.md R519). -/
def State.ackFlag (s : State) (p : List Byte) : Bool := s.valid ackCodeBit && s.chkReturn p

/-- An ignored write sets WIGN (10_state.md R114, R115, R143, R144). -/
def State.setWign (s : State) : State := { s with wign := true }

/-- A CMD write while BUSY = 1 sets OVR (R102). -/
def State.setOvr (s : State) : State := { s with ovr := true }

/-- The data pin is driven only while PINMUX = 0 (R150): the level on the pin, none while the UART owns it. -/
def State.drivenData (s : State) : Option Bool := if s.pinMux then none else some s.pinData

end Sys2Proof.Machine
end

