-- ==== Sys2Proof/Machine/Operands.lean ====
section
/-! DEFINITION. Every operand form: big-endian fields (20_memory.md R202), the length field and frame build
(30_encoding.md R310-R316, 40_codec.md R400-R404), address ranges (R315), block sizes (10_state.md R133), the unlock
exchange's bytes (41_sequencer.md R473), the pulse train (R450) and the registers an op needs (R460, 42_command.md). -/

namespace Sys2Proof.Machine

/-- `be_N(v)` (00_scope.md R15). -/
def beBytes : Nat → Nat → List Byte
  | 0, _ => []
  | n + 1, v => BitVec.ofNat 8 (v / 256 ^ n) :: beBytes n v

/-- The checksum of R400: acc <- (acc - b) mod 256 over the bytes, from 0. -/
def csum (bs : List Byte) : Byte := bs.foldl (fun acc b => acc - b) 0

/-- The length field of a payload of n bytes (R312): `lenW` true is the 2-byte field. -/
def lenField (lenW : Bool) (n : Nat) : List Byte := if lenW then beBytes 2 n else [BitVec.ofNat 8 n]

/-- `maxpay` (R402). -/
def maxPay (lenW : Bool) : Nat := if lenW then 65535 else 256

/-- A payload length is encodable (R402). -/
def encodable (lenW : Bool) (n : Nat) : Bool := decide (1 ≤ n) && decide (n ≤ maxPay lenW)

/-- `build(m, p, f, x)` (R403). -/
def buildFrame (lenW : Bool) (m : Byte) (p : List Byte) (f : Byte) (x : Bool) : List Byte :=
  let lb := lenField lenW p.length
  [m] ++ lb ++ p ++ [csum (lb ++ p) + (if x then 1 else 0)] ++ [f]

/-- `CmdFrame(p)` (R404). -/
def State.cmdFrame (s : State) (p : List Byte) : List Byte := buildFrame s.prof.lenW Config.soh p Config.etx false

/-- The footer PROFILE.DFTR selects (R404, R130). -/
def State.dataFooter (s : State) : Byte := if s.prof.dftr then Config.etx else Config.etb

/-- `DataFrame(p)` (R404). -/
def State.dataFrame (s : State) (p : List Byte) : List Byte :=
  buildFrame s.prof.lenW s.prof.stxTx p s.dataFooter false

/-- The marker MSEL selects for sending (R300, R420). -/
def State.sendMarker (s : State) (msel : Bool) : Byte := if msel then s.prof.stxTx else Config.soh

/-- The marker MSEL selects for receiving (R300, R421). -/
def State.recvMarker (s : State) (msel : Bool) : Byte := if msel then s.prof.stxRx else Config.soh

/-- The footer FTR selects (R300, R420). -/
def ftrFooter (ftr : Bool) : Byte := if ftr then Config.etb else Config.etx

/-- The frame of SEND_FRAME and ENCODE (R420, R422). -/
def State.operandFrame (s : State) (msel ftr fbc : Bool) : List Byte :=
  buildFrame s.prof.lenW (s.sendMarker msel) s.txPayload (ftrFooter ftr) fbc

/-- W = ADDR_W, the address width in bytes (R130). -/
def State.addrBytes (s : State) : Nat := s.prof.addrW.toNat

/-- `amax` = 2^(8*ADDR_W) - 1 (42_command.md R503, 20_memory.md R201). -/
def State.amax (s : State) : Nat := 2 ^ (8 * s.addrBytes) - 1

/-- `range(s, e)` (R315, R503). -/
def State.range (s : State) (a e : Nat) : List Byte := beBytes s.addrBytes a ++ beBytes s.addrBytes e

/-- `block_size(a)` (10_state.md R133). -/
def State.blockSize (s : State) (a : Nat) : Nat :=
  if a < s.prof.blkSplit.toNat then s.prof.blkA.toNat else s.prof.blkB.toNat

/-- The unlock key, byte 0 first (10_state.md R137, 41_sequencer.md R473). -/
def Profile.keyBytes (p : Profile) : List Byte :=
  [p.keyLo.extractLsb' 0 8, p.keyLo.extractLsb' 8 8, p.keyLo.extractLsb' 16 8, p.keyLo.extractLsb' 24 8,
    p.keyHi.extractLsb' 0 8, p.keyHi.extractLsb' 8 8, p.keyHi.extractLsb' 16 8]

/-- The 11 unframed bytes of the unlock exchange (R473, R318). -/
def Profile.unlockBytes (p : Profile) : List Byte := [p.unlockCmd] ++ beBytes 3 p.lockAddr.toNat ++ p.keyBytes

/-! ### The pulse train -/

/-- END of a PTRAM entry, bit 3 (10_state.md R141). -/
def trainEnd (e : Word) : Bool := e.getLsbD 3

/-- The pin of a PTRAM entry, bits 1:0 (R141). -/
def trainPin (e : Word) : Pin := pinOfBits (e.extractLsb' 0 2)

/-- The level of a PTRAM entry, bit 2 (R141). -/
def trainLevel (e : Word) : Bool := e.getLsbD 2

/-- The delay of a PTRAM entry, bits 31:8 (R141). -/
def trainDelay (e : Word) : Nat := (e.extractLsb' 8 24).toNat

/-- The train: the entries before the first END, all 64 if none has END (41_sequencer.md R450). -/
def State.train (s : State) : List Word := s.prof.ptram.toList.takeWhile fun e => !trainEnd e

/-- The reserved bits 7:4 of every entry of the train are 0 (R450). -/
def State.trainClean (s : State) : Bool := s.train.all fun e => e.extractLsb' 4 4 == 0

/-! ### The registers an op needs -/

/-- The OPC registers by name (10_state.md R140). -/
def opcReset : Fin 14 := 0
def opcRead : Fin 14 := 1
def opcProgram : Fin 14 := 2
def opcVerify : Fin 14 := 3
def opcErase : Fin 14 := 4
def opcChecksum : Fin 14 := 5
def opcChipErase : Fin 14 := 6
def opcSecSet : Fin 14 := 7
def opcSecGet : Fin 14 := 8
def opcSecRelease : Fin 14 := 9
def opcSignature : Fin 14 := 10
def opcOptRead : Fin 14 := 11
def opcOptWrite : Fin 14 := 12
def opcStatus : Fin 14 := 13

/-- OPC register k's CFGVALID bit is 16 + k (R140). -/
def opcBit (k : Fin 14) : Nat := 16 + k.val

/-- Every register of a list of CFGVALID bits is written (R112). -/
def State.written (s : State) (bits : List Nat) : Bool := bits.all s.valid

/-- The entry table of 41_sequencer.md R460: the CFGVALID bits the family's sequence needs. -/
def entryNeeds : Family → List Nat
  | .generic => [0, 7, 8]
  | .ext4 => [0, 7, 8, 9]
  | .sw8 => [12, 2, 10]
  | .alt => [12, 3, 9, 11]

/-- The unlock exchange needs ALTCFG, LOCK_ADDR, KEY_LO, KEY_HI (R473). -/
def unlockNeeds : List Nat := [3, 4, 5, 6]

/-- The family runs the PTRAM train in its entry sequence (R450). -/
def Family.usesTrain : Family → Bool
  | .generic => false
  | .ext4 => false
  | .sw8 => true
  | .alt => true

/-- The CONFIG check of an entry sequence (R450, R460): its registers written, and the train valid if it runs one. -/
def State.entryReady (s : State) : Bool :=
  s.written (entryNeeds s.prof.family) && (!s.prof.family.usesTrain || s.trainClean)

/-- What RESET needs beside the entry sequence (42_command.md R510). -/
def State.resetNeeds (s : State) : List Nat :=
  if s.prof.family = .alt then unlockNeeds else [opcBit opcReset, ackCodeBit]

end Sys2Proof.Machine
end

