-- ==== Sys2Proof/Machine/Bus.lean ====
section
/-! DEFINITION. The host window: the register map (10_state.md R100-R145), the access rules (20_memory.md R204-R210) and
the bus read and write of R208. -/

namespace Sys2Proof.Machine

/-! ### Names of the window's registers -/

/-- The locked registers by window offset (R100, R140, R141). -/
def LockedReg.ofOffset (o : Nat) : Option LockedReg :=
  match o with
  | 0x080 => some .profile
  | 0x084 => some .markers
  | 0x088 => some .ackCode
  | 0x08C => some .blkszA
  | 0x090 => some .blkszB
  | 0x094 => some .blkSplit
  | 0x098 => some .baudSw
  | 0x09C => some .altcfg
  | 0x0A0 => some .lockAddr
  | 0x0A4 => some .keyLo
  | 0x0A8 => some .keyHi
  | 0x0B0 => some .tFrame
  | 0x0B4 => some .tHunt
  | 0x0B8 => some .tPulse
  | 0x0BC => some .tSettle
  | 0x0C0 => some .tEcho
  | 0x0C4 => some .tSync
  | 0x0C8 => some .tSpacing
  | _ =>
    if 0x100 ≤ o ∧ o < 0x138 ∧ o % 4 = 0 then some (.opc (Fin.ofNat 14 ((o - 0x100) / 4)))
    else if 0x200 ≤ o ∧ o < 0x300 ∧ o % 4 = 0 then some (.ptram (Fin.ofNat 64 ((o - 0x200) / 4)))
    else none

/-- The registers of the window by offset (R100); every other offset is unassigned (R113). -/
def Reg.ofOffset (o : Nat) : Option Reg :=
  match o with
  | 0x000 => some .id
  | 0x004 => some .cmd
  | 0x008 => some .status
  | 0x00C => some .ctrl
  | 0x010 => some .arg0
  | 0x014 => some .arg1
  | 0x018 => some .txlen
  | 0x01C => some .rxlen
  | 0x020 => some .rxframes
  | 0x024 => some .timeout
  | 0x028 => some .now
  | 0x02C => some .cfgvalid
  | 0x030 => some .lastst
  | 0x034 => some .diag
  | 0x038 => some .skipcnt
  | _ =>
    if 0x040 ≤ o ∧ o < 0x060 ∧ o % 4 = 0 then some (.rxflen (Fin.ofNat 8 ((o - 0x040) / 4)))
    else (LockedReg.ofOffset o).map .locked

/-- The window offset of a locked register (R100). -/
def LockedReg.offset : LockedReg → Nat
  | .profile => 0x080
  | .markers => 0x084
  | .ackCode => 0x088
  | .blkszA => 0x08C
  | .blkszB => 0x090
  | .blkSplit => 0x094
  | .baudSw => 0x098
  | .altcfg => 0x09C
  | .lockAddr => 0x0A0
  | .keyLo => 0x0A4
  | .keyHi => 0x0A8
  | .tFrame => 0x0B0
  | .tHunt => 0x0B4
  | .tPulse => 0x0B8
  | .tSettle => 0x0BC
  | .tEcho => 0x0C0
  | .tSync => 0x0C4
  | .tSpacing => 0x0C8
  | .opc k => 0x100 + 4 * k.val
  | .ptram i => 0x200 + 4 * i.val

/-- The window offset of a register (R100). -/
def Reg.offset : Reg → Nat
  | .id => 0x000
  | .cmd => 0x004
  | .status => 0x008
  | .ctrl => 0x00C
  | .arg0 => 0x010
  | .arg1 => 0x014
  | .txlen => 0x018
  | .rxlen => 0x01C
  | .rxframes => 0x020
  | .timeout => 0x024
  | .now => 0x028
  | .cfgvalid => 0x02C
  | .lastst => 0x030
  | .diag => 0x034
  | .skipcnt => 0x038
  | .rxflen j => 0x040 + 4 * j.val
  | .locked r => r.offset

/-! ### Reading a register -/

/-- The FAMILY field (R130). -/
def Family.code : Family → BitVec 2
  | .generic => 0
  | .ext4 => 1
  | .sw8 => 2
  | .alt => 3

/-- The family a FAMILY field names (R130). -/
def Family.ofBits (b : BitVec 2) : Family :=
  if b = 0 then .generic else if b = 1 then .ext4 else if b = 2 then .sw8 else .alt

/-- The PROFILE word (R130). -/
def Profile.profileWord (p : Profile) : Word :=
  fieldAt p.family.code 0 ||| fieldAt p.addrW 2 ||| bitAt p.lenW 5 ||| bitAt p.chan 6 ||| bitAt p.poll 7
    ||| fieldAt p.pulses 8 ||| bitAt p.dftr 16

/-- The value of a locked register (R130-R141); reserved bits read 0 (R113). -/
def Profile.read (p : Profile) : LockedReg → Word
  | .profile => p.profileWord
  | .markers => fieldAt p.stxTx 0 ||| fieldAt p.stxRx 8
  | .ackCode => fieldAt p.ackCode 0
  | .blkszA => fieldAt p.blkA 0
  | .blkszB => fieldAt p.blkB 0
  | .blkSplit => p.blkSplit
  | .baudSw => p.baudSw
  | .altcfg => fieldAt p.probe 0 ||| fieldAt p.unlockCmd 8
  | .lockAddr => fieldAt p.lockAddr 0
  | .keyLo => p.keyLo
  | .keyHi => fieldAt p.keyHi 0
  | .tFrame => p.tFrame
  | .tHunt => p.tHunt
  | .tPulse => p.tPulse
  | .tSettle => p.tSettle
  | .tEcho => p.tEcho
  | .tSync => p.tSync
  | .tSpacing => p.tSpacing
  | .opc k => fieldAt (p.opc.get k) 0
  | .ptram i => p.ptram.get i

/-- The LASTST word (R116). -/
def LastStatus.word (l : LastStatus) : Word := fieldAt l.byte 0 ||| bitAt l.valid 8

/-- The DIAG word (R117). -/
def Diag.word (d : Diag) : Word :=
  fieldAt d.rcsum 0 ||| fieldAt d.ccsum 8 ||| fieldAt d.footer 16 ||| bitAt d.bodyOk 24

/-- The value a register reads as (R101-R141). -/
def State.regRead (s : State) : Reg → Word
  | .id => Config.idValue
  | .cmd => s.cmd
  | .status => s.statusWord
  | .ctrl => bitAt s.ie 0
  | .arg0 => s.arg0
  | .arg1 => s.arg1
  | .txlen => fieldAt s.txlen 0
  | .rxlen => fieldAt s.rxlen 0
  | .rxframes => s.rxframes
  | .timeout => s.timeout
  | .now => s.now
  | .cfgvalid => s.cfgvalid
  | .lastst => s.lastst.word
  | .diag => s.diag.word
  | .skipcnt => fieldAt s.skipcnt 0
  | .rxflen j => fieldAt (s.rxflen.get j) 0
  | .locked r => s.prof.read r

/-! ### Writing a register -/

/-- The markers MARKERS may hold (R131). -/
def markerLegal (b : Byte) : Bool := b == 0x02 || b == 0x11 || b == 0x81

/-- A written value that stores a legal block size (R133, R144). -/
def blockLegal (v : Word) : Bool := v != 0 && decide (v.toNat ≤ Config.maxBlock)

/-- A write stores legal values only (R144); log 14 for the reserved bits. -/
def LockedReg.legal (r : LockedReg) (v : Word) : Bool :=
  match r with
  | .profile => decide (1 ≤ (v.extractLsb' 2 3).toNat) && decide ((v.extractLsb' 2 3).toNat ≤ 4)
  | .markers => markerLegal (v.extractLsb' 0 8) && markerLegal (v.extractLsb' 8 8)
  | .blkszA => blockLegal v
  | .blkszB => blockLegal v
  | .baudSw => v != 0
  | .ackCode => true
  | .blkSplit => true
  | .altcfg => true
  | .lockAddr => true
  | .keyLo => true
  | .keyHi => true
  | .tFrame => true
  | .tHunt => true
  | .tPulse => true
  | .tSettle => true
  | .tEcho => true
  | .tSync => true
  | .tSpacing => true
  | .opc _ => true
  | .ptram _ => true

/-- The register's CFGVALID bit (R112); none for the registers that are valid at reset. -/
def LockedReg.validBit : LockedReg → Option Nat
  | .profile => some 0
  | .ackCode => some ackCodeBit
  | .baudSw => some 2
  | .altcfg => some 3
  | .lockAddr => some 4
  | .keyLo => some 5
  | .keyHi => some 6
  | .tPulse => some 7
  | .tSettle => some 8
  | .tEcho => some 9
  | .tSync => some 10
  | .tSpacing => some 11
  | .ptram _ => some 12
  | .opc k => some (opcBit k)
  | .markers => none
  | .blkszA => none
  | .blkszB => none
  | .blkSplit => none
  | .tFrame => none
  | .tHunt => none

/-- Storing a value in a locked register (R130-R141); reserved bits are ignored (R113). -/
def Profile.write (p : Profile) (r : LockedReg) (v : Word) : Profile :=
  match r with
  | .profile =>
    { p with family := Family.ofBits (v.extractLsb' 0 2), addrW := v.extractLsb' 2 3
             lenW := v.getLsbD 5, chan := v.getLsbD 6, poll := v.getLsbD 7
             pulses := v.extractLsb' 8 8, dftr := v.getLsbD 16 }
  | .markers => { p with stxTx := v.extractLsb' 0 8, stxRx := v.extractLsb' 8 8 }
  | .ackCode => { p with ackCode := v.extractLsb' 0 8 }
  | .blkszA => { p with blkA := v.extractLsb' 0 25 }
  | .blkszB => { p with blkB := v.extractLsb' 0 25 }
  | .blkSplit => { p with blkSplit := v }
  | .baudSw => { p with baudSw := v }
  | .altcfg => { p with probe := v.extractLsb' 0 8, unlockCmd := v.extractLsb' 8 8 }
  | .lockAddr => { p with lockAddr := v.extractLsb' 0 24 }
  | .keyLo => { p with keyLo := v }
  | .keyHi => { p with keyHi := v.extractLsb' 0 24 }
  | .tFrame => { p with tFrame := v }
  | .tHunt => { p with tHunt := v }
  | .tPulse => { p with tPulse := v }
  | .tSettle => { p with tSettle := v }
  | .tEcho => { p with tEcho := v }
  | .tSync => { p with tSync := v }
  | .tSpacing => { p with tSpacing := v }
  | .opc k => { p with opc := p.opc.set k.val (v.extractLsb' 0 8) k.isLt }
  | .ptram i => { p with ptram := p.ptram.set i.val v i.isLt }

/-- CFGVALID with the bit of an accepted write set (R112). -/
def markValid (cfg : Word) : Option Nat → Word
  | none => cfg
  | some k => cfg ||| ((1 : Word) <<< k)

/-- The lock (R115): a locked register accepts a write only while STATE = UNKNOWN and BUSY = 0. -/
def State.unlocked (s : State) : Bool := s.sess == .unknown && !s.busy

/-- A host write to a locked register (R114, R115, R144, R112). -/
def State.lockedWrite (s : State) (r : LockedReg) (v : Word) : State :=
  if s.unlocked && r.legal v then
    { s with prof := s.prof.write r v, cfgvalid := markValid s.cfgvalid r.validBit }
  else s.setWign

/-- A host write to a register other than an accepted CMD write (R101-R120). A CMD write reaches this only while
BUSY = 1 (R102): it is dropped and sets OVR. Read-only registers ignore writes without WIGN (R113). -/
def State.regWrite (s : State) (r : Reg) (v : Word) : State :=
  match r with
  | .cmd => s.setOvr
  | .status => s.clearSticky v
  | .ctrl => { s with ie := v.getLsbD 0 }
  | .timeout => { s with timeout := v }
  | .arg0 => if s.busy then s.setWign else { s with arg0 := v }
  | .arg1 => if s.busy then s.setWign else { s with arg1 := v }
  | .txlen =>
    if s.busy || decide (Config.bufCap < v.toNat) then s.setWign else { s with txlen := v.extractLsb' 0 17 }
  | .locked r => s.lockedWrite r v
  | .id => s
  | .rxlen => s
  | .rxframes => s
  | .now => s
  | .cfgvalid => s
  | .lastst => s
  | .diag => s
  | .skipcnt => s
  | .rxflen _ => s

/-! ### Bus accesses -/

/-- The bytes of an access (20_memory.md R208). -/
def Size.bytes : Size → Nat
  | .byte => 1
  | .half => 2
  | .word => 4

/-- The regions of the window (R200, R206, R207). -/
inductive Region where
  | regs | tx | rx
  deriving DecidableEq, Repr

/-- The region of an offset; 0x30000-0x3FFFF is reserved and behaves as unassigned registers (R206, R113). -/
def Region.ofOffset (a : Nat) : Region :=
  if Config.txBase ≤ a ∧ a < Config.rxBase then .tx
  else if Config.rxBase ≤ a ∧ a < Config.rxEnd then .rx
  else .regs

/-- The access rules (R206, R207): 32-bit accesses at multiples of 4 in the register regions, natural alignment in the
buffers. -/
def accessLegal (a : Nat) (sz : Size) : Bool :=
  match Region.ofOffset a with
  | .regs => sz == .word && a % 4 == 0
  | .tx => a % sz.bytes == 0
  | .rx => a % sz.bytes == 0

/-- Bytes assembled by R204: the lowest offset is bits 7:0. -/
def leWord : List Byte → Word
  | [] => 0
  | b :: bs => (leWord bs <<< 8) ||| b.setWidth 32

/-- The bytes of the low end of a value, lowest offset first (R204). -/
def leBytes : Nat → Word → List Byte
  | 0, _ => []
  | n + 1, v => v.extractLsb' 0 8 :: leBytes n (v >>> 8)

/-- The n bytes of the buffers from offset a. -/
def State.bufBytes (s : State) (a n : Nat) : List Byte := (List.range n).map fun i => s.byteAt (a + i)

/-- The n bytes a read of RXBUF draws while BUSY = 1 (R143; log 9). -/
def State.freeBytes (s : State) (n : Nat) : List Byte := (List.range n).map fun i => Config.busyByte (s.draws + i)

/-- A response joins the responses given (log 16). -/
def State.respond (s : State) (r : BusResp) : State := { s with resp := s.resp ++ [r] }

/-- `MemRead(addr, n)` (R208): the value or a bus error; no state of the block changes (R209). -/
def State.busRead (s : State) (addr : BitVec 18) (sz : Size) : State :=
  let a := addr.toNat
  if accessLegal a sz then
    match Region.ofOffset a with
    | .regs => s.respond (.data (match Reg.ofOffset a with | some r => s.regRead r | none => 0))
    | .tx => s.respond (.data (leWord (s.bufBytes a sz.bytes)))
    | .rx =>
      if s.busy then { s.respond (.data (leWord (s.freeBytes sz.bytes))) with draws := s.draws + sz.bytes }
      else s.respond (.data (leWord (s.bufBytes a sz.bytes)))
  else s.respond .busError

/-- The effect of a legal write (R208, 10_state.md R113, R114, R143). -/
def State.writeEffect (s : State) (a : Nat) (sz : Size) (v : Word) : State :=
  match Region.ofOffset a with
  | .regs => match Reg.ofOffset a with | some r => s.regWrite r v | none => s
  | .tx => if s.busy then s.setWign else { s with mem := s.mem.putAll a (leBytes sz.bytes v) }
  | .rx => s.setWign

/-- `MemWrite(addr, n, v)` (R208), but for the CMD write that is accepted, which Step.lean takes. -/
def State.busWrite (s : State) (addr : BitVec 18) (sz : Size) (v : Word) : State :=
  if accessLegal addr.toNat sz then (s.writeEffect addr.toNat sz v).respond .written else s.respond .busError

end Sys2Proof.Machine
end

