-- ==== Sys2Proof/Machine/Channel.lean ====
section
/-! DEFINITION. The controller while a command runs: a state transformer that can stop, and the transport and time
primitives of 00_scope.md R16 and R18 on it. Host accesses and the reset input are served at every primitive, at their
times, so the rules for BUSY = 1 apply to them (10_state.md R102, R109, R114, R143; log 1, log 6, log 7). -/

namespace Sys2Proof.Machine

/-- How an op's pseudocode ends early. -/
inductive Stop where
  /-- `raise E` (R16) -/
  | raised (e : Err)
  /-- the reset input was asserted: the command ends without completing (70_reset_and_hazards.md R700) -/
  | blockReset
  /-- the bound of a retry loop ran out (log 13) -/
  | endless
  deriving DecidableEq, Repr

/-- A piece of an op's pseudocode. -/
abbrev Ctl := EStateM Stop State

/-- `raise E` (R16, 60_exceptions.md R603). -/
def raise {α : Type} (e : Err) : Ctl α := throw (.raised e)

/-- A write of hidden state (10_state.md R153). -/
def mark (f : Hidden → Hidden) : Ctl Unit := modify fun s => { s with hid := f s.hid }

/-! ### Time, and the host while a command runs -/

/-- The host action takes effect before the block's update at tick `t` (60_exceptions.md R621). -/
def HostInput.due (h : HostInput) (t : Nat) : Bool := decide (h.tick < t) || (decide (h.tick = t) && h.first)

/-- Time goes on to tick `t`; the host actions due by then take effect in issue order (20_memory.md R214), each at its
own time. -/
def serve (t : Nat) : List HostInput → Ctl Unit
  | [] => modify fun s => { s with time := max s.time t }
  | h :: hs =>
    if h.due t then
      match h.act with
      | .read a sz => do
        modify fun s => { s with host := hs, time := max s.time h.tick }.busRead a sz
        serve t hs
      | .write a sz v => do
        modify fun s => { s with host := hs, time := max s.time h.tick }.busWrite a sz v
        serve t hs
      | .reset hold => do
        modify fun s => { s with host := hs, time := max s.time h.tick }.blockReset hold
        throw .blockReset
    else modify fun s => { s with time := max s.time t }

/-- Time goes on to tick `t`. -/
def advance (t : Nat) : Ctl Unit := do
  let s ← get
  serve t s.host

/-- The environment draws the next amount of elapsed time, 0 when no draw is left (00_scope.md R12, D4; log 6). -/
def drawLag : Ctl Nat := do
  let s ← get
  set { s with lags := s.lags.tail }
  pure (s.lags.headD 0)

/-- Internal processing, or the end of a send, a pin change or a receive: an environment-chosen time >= 0 passes (D4). -/
def pass : Ctl Unit := do
  let l ← drawLag
  let s ← get
  advance (s.time + l)

/-- `Wait(d)`: at least d ticks pass (R16, D4). -/
def wait (d : Nat) : Ctl Unit := do
  let l ← drawLag
  let s ← get
  advance (s.time + d + l)

/-- `Deadline(d)` = `(Now(), d)` (R16), kept as the deadline of a length field or body (10_state.md R153). -/
def frameDeadline (d : Word) : Ctl Deadline := do
  let s ← get
  mark fun h => { h with frameDl := ⟨s.now, d⟩ }
  pure ⟨s.now, d⟩

/-- `Deadline(d)`, kept as the deadline of an entry sequence's single-byte wait. -/
def waitDeadline (d : Word) : Ctl Deadline := do
  let s ← get
  mark fun h => { h with waitDl := ⟨s.now, d⟩ }
  pure ⟨s.now, d⟩

/-! ### The channel -/

/-- `ChSend(s)` (R16): the bytes in order, each the event TXB (10_state.md R154). -/
def chSend : List Byte → Ctl Unit
  | [] => pure ()
  | b :: bs => do
    modify fun s => s.record (.txb b s.now)
    pass
    chSend bs

/-- The oldest byte leaves the RX stream (R152), the event RXB. -/
def takeByte (x : RxByte) : Ctl (Option Byte) := do
  modify fun s => { s with rx := s.rx.tail }.record (.rxb x.byte s.now)
  pass
  pure (some x.byte)

/-- The deadline ends the wait: TIMEOUT. -/
def timeoutAt (t : Nat) : Ctl (Option Byte) := do
  advance t
  pass
  pure none

/-- `ChRecv(dl)` (R18): a byte that has arrived is returned at once; one that arrives before the deadline is waited for;
otherwise the deadline passes and none (TIMEOUT) is returned, a late byte staying in the stream (log 5). -/
def chRecv (dl : Deadline) : Ctl (Option Byte) := do
  let s ← get
  match s.rx with
  | [] => timeoutAt (s.time + s.left dl)
  | x :: _ =>
    if x.arrival ≤ s.time then takeByte x
    else if x.arrival < s.time + s.left dl then do
      advance x.arrival
      takeByte x
    else timeoutAt (s.time + s.left dl)

/-! ### The pins and the bit rate -/

/-- The level of a pin as PinSet leaves it (41_sequencer.md R454, 10_state.md R150). -/
def State.withPin (s : State) (p : Pin) (v : Bool) : State :=
  match p with
  | .mode => { s with pinMode := v }
  | .reset => { s with pinReset := v }
  | .data => { s with pinData := v }
  | .pinmux => { s with pinMux := v }

/-- `PinSet(p, v)` (R454): the level and the event PIN, also when the level does not change. -/
def pinSet (p : Pin) (v : Bool) : Ctl Unit := do
  modify fun s => (s.withPin p v).record (.pin p v s.now)
  pass

/-- `Reconfigure(baud)` (R16, R463): the new rate and the event BAUD. -/
def reconfigure (r : Word) : Ctl Unit := do
  modify fun s => { s with rate := r }.record (.baud r s.now)
  pass

/-! ### Results -/

/-- ACKOK <- b (42_command.md, D51). -/
def setAckok (b : Bool) : Ctl Unit := modify fun s => { s with ackok := b }

/-- `RXappend(s)` (R16): OVERFLOW if RXBUF cannot hold it, nothing stored then. -/
def rxAppend (bs : List Byte) : Ctl Unit := do
  let s ← get
  if Config.bufCap < s.rxlen.toNat + bs.length then raise .overflow else set (s.rxStore bs)

/-- RXFRAMES <- RXFRAMES + 1, RXFLEN[RXFRAMES] <- n if there is such a register (42_command.md R503, 10_state.md R120). -/
def State.countFrame (s : State) (n : Nat) : State :=
  { s with
    rxflen := if h : s.rxframes.toNat < 8 then s.rxflen.set s.rxframes.toNat (BitVec.ofNat 17 n) h else s.rxflen
    rxframes := s.rxframes + 1 }

/-- `Store(p)` (R503). -/
def store (p : List Byte) : Ctl Unit := do
  rxAppend p
  modify fun s => s.countFrame p.length

end Sys2Proof.Machine
end

