-- ==== Sys2Proof/Machine/Frame.lean ====
section
/-! DEFINITION. Receiving frames: the decoder (40_codec.md R410-R412), the receive with retry (42_command.md R504) and the
frames the controller sends (R503). -/

namespace Sys2Proof.Machine

/-- Where a decode reads its bytes (R410): the channel, or TXBUF for DECODE (R423). -/
inductive Source where
  | channel | buffer
  deriving DecidableEq, Repr

/-- The offline reader of R423: the next byte of TX[0..TXLEN-1], TIMEOUT at its end; no time passes. -/
def bufferByte : Ctl (Option Byte) := do
  let s ← get
  if s.hid.txIndex < s.txlen.toNat then do
    mark fun h => { h with txIndex := h.txIndex + 1 }
    pure (some (s.txByte s.hid.txIndex))
  else pure none

/-- `get(dl)` of R410. -/
def getByte (src : Source) (dl : Deadline) : Ctl (Option Byte) :=
  match src with
  | .channel => chRecv dl
  | .buffer => bufferByte

/-- SKIPCNT <- n (10_state.md R118). -/
def setSkip (n : Nat) : Ctl Unit := modify fun s => { s with skipcnt := BitVec.ofNat 9 n }

/-- DIAG <- d (R117). -/
def setDiag (d : Diag) : Ctl Unit := modify fun s => { s with diag := d }

/-- LASTST <- b | 1 << 8 (R116). -/
def setLast (b : Byte) : Ctl Unit := modify fun s => { s with lastst := ⟨b, true⟩ }

/-- Step 1 of R410, the hunt: none when the marker was found. `allowed` is how many more discards are allowed,
`skipped` how many there were. -/
def hunt (src : Source) (m : Byte) (dl : Deadline) (allowed skipped : Nat) (first : Bool) : Ctl (Option Err) := do
  mark fun h => { h with skipped := skipped, first := first }
  let r ← getByte src dl
  match r with
  | none => do
    setSkip skipped
    pure (some .noResponse)
  | some b =>
    if b = m then do
      setSkip skipped
      pure none
    else if first && b == 0 then do
      setSkip skipped
      pure (some .noResponse)
    else
      match allowed with
      | 0 => do
        setSkip (skipped + 1)
        pure (some .invalidHeader)
      | k + 1 => hunt src m dl k (skipped + 1) false

/-- Step 2 of R410, the length field (30_encoding.md R313): its bytes and the payload length L. -/
def lengthField (src : Source) (lenW : Bool) (dl : Deadline) : Ctl (Option (List Byte × Nat)) := do
  let h ← getByte src dl
  match h with
  | none => pure none
  | some h =>
    if lenW then do
      let l ← getByte src dl
      match l with
      | none => pure none
      | some l =>
        let n := 256 * h.toNat + l.toNat
        pure (if n = 0 then none else some ([h, l], n))
    else pure (some ([h], if h = 0 then 256 else h.toNat))

/-- Step 3 of R410, the body: up to n bytes, ended early by TIMEOUT. -/
def readUpTo (src : Source) (dl : Deadline) : Nat → Ctl (List Byte)
  | 0 => pure []
  | n + 1 => do
    let r ← getByte src dl
    match r with
    | none => pure []
    | some b => do
      let bs ← readUpTo src dl n
      pure (b :: bs)

/-- A footer the decoder accepts (R410 step 4). -/
def footerLegal (f : Byte) : Bool := f == Config.etb || f == Config.etx

/-- Steps 4 to 6 of R410 on a body, with the DIAG of step 3. -/
def checkBody (lb : List Byte) (n : Nat) (buf : List Byte) : Ctl (Except Err (List Byte)) :=
  if buf.length < n + 2 then do
    setDiag ⟨0, 0, 0, false⟩
    pure (.error .invalidFooter)
  else do
    let p := buf.take n
    let rc := buf.getD n 0
    let ft := buf.getD (n + 1) 0
    let cc := csum (lb ++ p)
    setDiag ⟨rc, cc, ft, true⟩
    if !footerLegal ft then pure (.error .invalidFooter)
    else if rc != cc then pure (.error .invalidChecksum)
    else do
      setLast (p.headD 0)
      pure (.ok p)

/-- `Decode(m, hdl, get)` (R410). -/
def decodeFrame (src : Source) (m : Byte) (hdl : Deadline) : Ctl (Except Err (List Byte)) := do
  let found ← hunt src m hdl Config.maxSkip 0 true
  match found with
  | some e => pure (.error e)
  | none => do
    let s ← get
    let ldl ← frameDeadline s.prof.tFrame
    let len ← lengthField src s.prof.lenW ldl
    match len with
    | none => pure (.error .invalidHeader)
    | some (lb, n) => do
      let bdl ← frameDeadline s.prof.tFrame
      let buf ← readUpTo src bdl (n + 2)
      checkBody lb n buf

/-- `SendCmd(opc, args)` (42_command.md R503). -/
def sendCmd (opc : Byte) (args : List Byte) : Ctl Unit := do
  let s ← get
  chSend (s.cmdFrame (opc :: args))

/-- `SendData(p)` (R503). -/
def sendData (p : List Byte) : Ctl Unit := do
  let s ← get
  chSend (s.dataFrame p)

/-- The status request of POLL = 1 before every attempt after the first (R504, D25). -/
def pollRequest (attempt : Nat) : Ctl Unit := do
  let s ← get
  if attempt != 0 && s.prof.poll then sendCmd (s.opcode opcStatus) [] else pure ()

/-- The loop of R504. `bound` attempts suffice for every state (log 13). -/
def recvLoop (m : Byte) (dl : Deadline) : Nat → Nat → Ctl (List Byte)
  | 0, _ => throw .endless
  | bound + 1, attempt => do
    mark fun h => { h with attempts := attempt }
    pollRequest attempt
    let r ← decodeFrame .channel m dl
    match r with
    | .ok p => pure p
    | .error _ => do
      let s ← get
      if s.expired dl then raise .invalidFrame else recvLoop m dl bound (attempt + 1)

/-- The receive with retry against a given deadline (R504). -/
def recvUntil (m : Byte) (dl : Deadline) : Ctl (List Byte) := do
  mark fun h => { h with huntDl := dl }
  let s ← get
  recvLoop m dl (s.rx.length + s.lags.length + 1) 0

/-- `Recv(m)` (R504): the deadline `(Now(), TSNAP)` starts when this receive starts. -/
def recvFrame (m : Byte) : Ctl (List Byte) := do
  let s ← get
  recvUntil m ⟨s.now, s.hid.tsnap⟩

end Sys2Proof.Machine
end

