-- ==== Sys2Proof/Machine/Command.lean ====
section
/-! DEFINITION. Running an accepted command: the acceptance checks in their order (42_command.md R500), the session state
while it runs and at its end (R501), and its completion (R506). -/

namespace Sys2Proof.Machine

/-- The acceptance checks after BADOP (R500), true when the check passes. -/
structure Gate where
  /-- the family supports the op (R507) -/
  familyOk : Bool := true
  /-- STATE = READY if the op needs it -/
  stateOk : Bool := true
  /-- the registers it needs are written, the PTRAM train is valid -/
  configOk : Bool := true
  /-- its operands are in range -/
  paramOk : Bool := true
  deriving DecidableEq, Repr

/-- The first check that fails, with its error (R500, R602). -/
def Gate.refusal (g : Gate) : Option Err :=
  if !g.familyOk then some .config
  else if !g.stateOk then some .state
  else if !g.configOk then some .config
  else if !g.paramOk then some .param
  else none

/-- A row of the state table R501; none is "unchanged". A final STATE is given by the completion alone (R211), also to the
ops whose pseudocode has a line for it (`STATE <- UNKNOWN` of ENTRY and END, log 23). -/
structure Phase where
  running : Option Sess
  onOk : Option Sess
  onError : Option Sess
  deriving DecidableEq, Repr

/-- Ops 0x01-0x07, 0x11-0x14 (R501). -/
def Phase.unchanged : Phase := ⟨none, none, none⟩
/-- ENTRY (R501). -/
def Phase.entry : Phase := ⟨some .reset, some .unknown, some .unknown⟩
/-- RESET (R501). -/
def Phase.resetOp : Phase := ⟨some .reset, some .ready, some .unknown⟩
/-- The session ops, with their state while running (R501). -/
def Phase.session (running : Sess) : Phase := ⟨some running, some .ready, some .ready⟩
/-- END (R501). -/
def Phase.endOp : Phase := ⟨none, some .unknown, some .unknown⟩

/-- The state in which an op's pseudocode starts (R500, R501): RX results cleared if it writes RXBUF, STATE set. -/
def State.begin (s : State) (rx : Bool) (ph : Phase) : State :=
  { (if rx then s.clearRx else s) with sess := ph.running.getD s.sess }

/-- The pseudocode after a stretch of internal processing (D4, log 6). Nothing stands between its last line and the
completion, so what it does last (ACKOK <- b) and the completion are one update of STATUS (20_memory.md R211, log 23). -/
def runBody (body : Ctl Unit) : Ctl Unit := do
  pass
  body

/-- An accepted command from its checks to its completion (R500, R506); a refused one leaves STATE unchanged (R501). -/
def command (g : Gate) (rx : Bool) (ph : Phase) (body : Ctl Unit) (s : State) : Host.Outcome State Fault Refusal :=
  match g.refusal with
  | some e => .next (s.finish s.sess e)
  | none =>
    match runBody body (s.begin rx ph) with
    | .ok _ t => .next (t.finish (ph.onOk.getD t.sess) .none)
    | .error (.raised e) t => .next (t.finish (ph.onError.getD t.sess) e)
    | .error .blockReset t => .next t
    | .error .endless _ => .fault .endlessInput

end Sys2Proof.Machine
end

