-- ==== Sys2Proof/Machine/Codec.lean ====
section
/-! DEFINITION. The codec operations 0x01, 0x02, 0x04-0x07 (40_codec.md R420-R425) and RECV 0x03 (42_command.md R505). -/

namespace Sys2Proof.Machine

/-- SEND_FRAME (R420). -/
def execSendFrame (msel ftr fbc : Bool) (s : State) : Host.Outcome State Fault Refusal :=
  command { paramOk := encodable s.prof.lenW s.txlen.toNat } false .unchanged
    (do
      let s ← get
      chSend (s.operandFrame msel ftr fbc))
    s

/-- The end of RECV_FRAME and DECODE (R421, R423): an error is raised, a payload stored and checked. -/
def deliver (r : Except Err (List Byte)) : Ctl Unit :=
  match r with
  | .error e => raise e
  | .ok p => do
    store p
    let s ← get
    setAckok (s.ackFlag p)

/-- RECV_FRAME (R421). -/
def execRecvFrame (msel : Bool) (s : State) : Host.Outcome State Fault Refusal :=
  command {} true .unchanged
    (do
      let s ← get
      mark fun h => { h with huntDl := ⟨s.hid.tacc, s.prof.tHunt⟩ }
      let r ← decodeFrame .channel (s.recvMarker msel) ⟨s.hid.tacc, s.prof.tHunt⟩
      deliver r)
    s

/-- RECV (42_command.md R505): its receive starts at acceptance, so its deadline is (TACC, TSNAP) (D24, 90_conflicts.md
C8). -/
def execRecv (msel : Bool) (s : State) : Host.Outcome State Fault Refusal :=
  command {} true .unchanged
    (do
      let s ← get
      let p ← recvUntil (s.recvMarker msel) ⟨s.hid.tacc, s.hid.tsnap⟩
      store p
      let s ← get
      setAckok (s.ackFlag p))
    s

/-- ENCODE (R422). -/
def execEncode (msel ftr fbc : Bool) (s : State) : Host.Outcome State Fault Refusal :=
  command { paramOk := encodable s.prof.lenW s.txlen.toNat } true .unchanged
    (do
      let s ← get
      rxAppend (s.operandFrame msel ftr fbc))
    s

/-- DECODE (R423); its hunt deadline plays no part, the reader ignores it. -/
def execDecode (msel : Bool) (s : State) : Host.Outcome State Fault Refusal :=
  command {} true .unchanged
    (do
      let s ← get
      mark fun h => { h with txIndex := 0 }
      let r ← decodeFrame .buffer (s.recvMarker msel) s.hid.huntDl
      deliver r)
    s

/-- RAW_SEND (R424). -/
def execRawSend (s : State) : Host.Outcome State Fault Refusal :=
  command {} false .unchanged
    (do
      let s ← get
      chSend s.txPayload)
    s

/-- The loop of RAW_RECV (R425): each byte is stored as it arrives, one deadline for all. -/
def rawRecvLoop (dl : Deadline) : Nat → Ctl Unit
  | 0 => pure ()
  | n + 1 => do
    let r ← chRecv dl
    match r with
    | none => raise .noResponse
    | some b => do
      modify fun s => s.rxStore [b]
      rawRecvLoop dl n

/-- RAW_RECV (R425). -/
def execRawRecv (s : State) : Host.Outcome State Fault Refusal :=
  command { paramOk := s.arg0 != 0 && decide (s.arg0.toNat ≤ Config.bufCap) } true .unchanged
    (do
      let s ← get
      mark fun h => { h with huntDl := ⟨s.hid.tacc, s.hid.tsnap⟩ }
      rawRecvLoop ⟨s.hid.tacc, s.hid.tsnap⟩ s.arg0.toNat)
    s

end Sys2Proof.Machine
end

