-- ==== Sys2Proof/Machine/Sequencer.lean ====
section
/-! DEFINITION. The entry sequences and the pin operations 0x10-0x14 (41_sequencer.md). -/

namespace Sys2Proof.Machine

/-- `RunTrain()` (R451) over the entries from index i on. -/
def runTrain : Nat → List Word → Ctl Unit
  | _, [] => pure ()
  | i, e :: es => do
    mark fun h => { h with ptIndex := i }
    if trainEnd e then pure ()
    else do
      pinSet (trainPin e) (trainLevel e)
      wait (trainDelay e)
      runTrain (i + 1) es

/-- The pulses of R452, `k` of them left. -/
def pulseLoop (tPulse : Nat) : Nat → Ctl Unit
  | 0 => pure ()
  | k + 1 => do
    mark fun h => { h with entryCount := k + 1 }
    pinSet .mode false
    wait tPulse
    pinSet .mode true
    wait tPulse
    pulseLoop tPulse k

/-- `PulsePart()` (R452). -/
def pulsePart (p : Profile) : Ctl Unit := do
  pinSet .reset false
  wait p.tPulse.toNat
  pulseLoop p.tPulse.toNat p.pulses.toNat
  pinSet .reset true
  wait p.tSettle.toNat

/-- `EntryGeneric()` (R461): it reads nothing and cannot fail. -/
def entryGeneric (p : Profile) : Ctl Bool := do
  pulsePart p
  if p.chan then pure true
  else do
    chSend [0x00, 0x00]
    pure true

/-- The padding rounds of R462, `k` of them left: true when a 0x00 was echoed. -/
def paddingLoop (tEcho : Word) : Nat → Ctl Bool
  | 0 => pure false
  | k + 1 => do
    mark fun h => { h with entryCount := k + 1 }
    chSend [0x00]
    let dl ← waitDeadline tEcho
    let r ← chRecv dl
    if r = some 0x00 then pure true else paddingLoop tEcho k

/-- `EntryExt4()` (R462). -/
def entryExt4 (p : Profile) : Ctl Bool := do
  pulsePart p
  let ok ← paddingLoop p.tEcho Config.paddingRounds
  if ok then do
    chSend [Config.syncRequest]
    let dl ← waitDeadline p.tEcho
    let r ← chRecv dl
    pure (r == some Config.syncEcho)
  else pure false

/-- `EntrySw8()` (R463). -/
def entrySw8 (p : Profile) : Ctl Bool := do
  pinSet .pinmux false
  runTrain 0 p.ptram.toList
  pinSet .pinmux true
  reconfigure p.baudSw
  let dl ← waitDeadline p.tSync
  let r ← chRecv dl
  pure (r == some 0x00)

/-- The zero bytes of R464, `k` of them left. -/
def zeroLoop (tSpacing : Nat) : Nat → Ctl Unit
  | 0 => pure ()
  | k + 1 => do
    mark fun h => { h with entryCount := k + 1 }
    chSend [0x00]
    wait tSpacing
    zeroLoop tSpacing k

/-- `EntryAlt()` (R464). -/
def entryAlt (p : Profile) : Ctl Bool := do
  runTrain 0 p.ptram.toList
  zeroLoop p.tSpacing.toNat Config.alternateZeros
  chSend [p.probe]
  let dl ← waitDeadline p.tEcho
  let r ← chRecv dl
  pure (r == some p.probe)

/-- The entry sequence of the profile's family (R460, 00_scope.md R3): false is FAIL. -/
def entrySequence (p : Profile) : Ctl Bool :=
  match p.family with
  | .generic => entryGeneric p
  | .ext4 => entryExt4 p
  | .sw8 => entrySw8 p
  | .alt => entryAlt p

/-- ENTRY (R460). STATE is RESET while it runs; its `STATE <- UNKNOWN` is part of the completion (R501, R211; DEDUCED,
log 23). -/
def execEntry (s : State) : Host.Outcome State Fault Refusal :=
  command { configOk := s.entryReady } false .entry
    (do
      let s ← get
      let ok ← entrySequence s.prof
      if ok then pure () else raise .noResponse)
    s

/-- PIN (R470). -/
def execPin (p : Pin) (lvl : Bool) (s : State) : Host.Outcome State Fault Refusal :=
  command {} false .unchanged (pinSet p lvl) s

/-- DELAY (R471). -/
def execDelay (s : State) : Host.Outcome State Fault Refusal :=
  command {} false .unchanged
    (do
      let s ← get
      wait s.arg0.toNat)
    s

/-- BAUD (R472). -/
def execBaud (s : State) : Host.Outcome State Fault Refusal :=
  command { paramOk := s.arg0 != 0 } false .unchanged
    (do
      let s ← get
      reconfigure s.arg0)
    s

/-- UNLOCK (R473). -/
def execUnlock (s : State) : Host.Outcome State Fault Refusal :=
  command { familyOk := s.prof.family == .alt, configOk := s.written unlockNeeds } false .unchanged
    (do
      let s ← get
      chSend s.prof.unlockBytes)
    s

end Sys2Proof.Machine
end

