-- ==== Sys2Proof/Machine/Session.lean ====
section
/-! DEFINITION. RESET 0x20, the session operations 0x21-0x26, the single-exchange operations 0x27-0x2F and END 0x30
(42_command.md). -/

namespace Sys2Proof.Machine

/-- The checks of every session op (R507, R500): a framed family and STATE = READY. -/
def State.sessionGate (s : State) (needs : List Nat) (param : Bool) : Gate :=
  { familyOk := s.prof.family != .alt, stateOk := s.sess == .ready, configOk := s.written needs, paramOk := param }

/-- RESET (R510). -/
def execReset (s : State) : Host.Outcome State Fault Refusal :=
  command { configOk := s.entryReady && s.written s.resetNeeds } true .resetOp
    (do
      let s ← get
      let ok ← entrySequence s.prof
      if !ok then raise .noResponse
      else if s.prof.family = .alt then chSend s.prof.unlockBytes
      else do
        sendCmd (s.opcode opcReset) []
        let p ← recvFrame s.prof.stxRx
        store p
        setAckok (s.chkReturn p)
        if s.chkReturn p then pure () else raise .noAck)
    s

/-- The loop of READ (R511): an acknowledgment data frame, then a data frame, while RXLEN < n. `bound` iterations
suffice, since every payload has a byte (log 13). -/
def readLoop (n : Nat) : Nat → Ctl Unit
  | 0 => do
    let s ← get
    if s.rxlen.toNat < n then throw .endless else pure ()
  | bound + 1 => do
    let s ← get
    if s.rxlen.toNat < n then do
      mark fun h => { h with readCount := h.readCount + 1 }
      sendData [s.prof.ackCode]
      let p ← recvFrame s.prof.stxRx
      store p
      readLoop n bound
    else pure ()

/-- READ (R511). -/
def execRead (s : State) : Host.Outcome State Fault Refusal :=
  command
    (s.sessionGate [opcBit opcRead, ackCodeBit]
      (s.arg1 != 0 && decide (s.arg1.toNat ≤ Config.bufCap)
        && decide (s.arg0.toNat + s.arg1.toNat - 1 ≤ s.amax)))
    true (.session .reading)
    (do
      let s ← get
      mark fun h => { h with readCount := 0 }
      sendCmd (s.opcode opcRead) (s.range s.arg0.toNat (s.arg0.toNat + s.arg1.toNat - 1))
      let st ← recvFrame s.prof.stxRx
      if s.chkReturn st then do
        setAckok true
        readLoop s.arg1.toNat s.arg1.toNat
      else raise .noAck)
    s

/-- The payload of the data frame of PROGRAM and VERIFY (R512, R513, 30_encoding.md R317). -/
def State.transferPayload (s : State) (opc : Byte) : List Byte :=
  if s.prof.family = .ext4 then opc :: s.txPayload else s.txPayload

/-- Its length, without reading TXBUF. -/
def State.transferLength (s : State) : Nat :=
  if s.prof.family = .ext4 then s.txlen.toNat + 1 else s.txlen.toNat

/-- The range and payload of PROGRAM and VERIFY fit (R512, R513). -/
def State.transferFits (s : State) : Bool :=
  decide (s.arg0.toNat + s.txlen.toNat - 1 ≤ s.amax) && decide (s.transferLength ≤ maxPay s.prof.lenW)

/-- The exchange of PROGRAM and VERIFY (R512, R513). -/
def transfer (opc : Byte) : Ctl Unit := do
  let s ← get
  sendCmd opc (s.range s.arg0.toNat (s.arg0.toNat + s.txlen.toNat - 1))
  let st ← recvFrame s.prof.stxRx
  if s.chkReturn st then do
    sendData (s.transferPayload opc)
    let f ← recvFrame s.prof.stxRx
    store f
    setAckok (s.chkReturn f)
  else raise .noAck

/-- PROGRAM (R512). -/
def execProgram (s : State) : Host.Outcome State Fault Refusal :=
  command (s.sessionGate [opcBit opcProgram, ackCodeBit] (s.txlen != 0 && s.transferFits)) true
    (.session .programming)
    (do
      let s ← get
      transfer (s.opcode opcProgram))
    s

/-- VERIFY (R513): without data it completes with no traffic. -/
def execVerify (s : State) : Host.Outcome State Fault Refusal :=
  command (s.sessionGate [opcBit opcVerify, ackCodeBit] (s.txlen == 0 || s.transferFits)) true
    (.session .verifying)
    (do
      let s ← get
      if s.txlen = 0 then pure () else transfer (s.opcode opcVerify))
    s

/-- BLOCK_ERASE (R514). -/
def execBlockErase (s : State) : Host.Outcome State Fault Refusal :=
  command
    (s.sessionGate [opcBit opcErase, ackCodeBit]
      (decide (s.arg0.toNat + s.blockSize s.arg0.toNat - 1 ≤ s.amax)))
    true (.session .erasing)
    (do
      let s ← get
      sendCmd (s.opcode opcErase) (s.range s.arg0.toNat (s.arg0.toNat + s.blockSize s.arg0.toNat - 1))
      let s1 ← recvFrame s.prof.stxRx
      store s1
      if s.chkReturn s1 then do
        let s2 ← recvFrame s.prof.stxRx
        store s2
        if s.chkReturn s2 then setAckok true else raise .noAck
      else raise .noAck)
    s

/-- The operands of CHECKSUM and CHECKSUMS are in range (R515). -/
def State.checksumFits (s : State) : Bool :=
  decide (s.arg0.toNat ≤ s.arg1.toNat) && decide (s.arg1.toNat ≤ s.amax)

/-- CHECKSUM (R515). -/
def execChecksum (s : State) : Host.Outcome State Fault Refusal :=
  command (s.sessionGate [opcBit opcChecksum] s.checksumFits) true (.session .verifying)
    (do
      let s ← get
      sendCmd (s.opcode opcChecksum) (s.range s.arg0.toNat s.arg1.toNat)
      let p ← recvFrame s.prof.stxRx
      store p)
    s

/-- The windows of CHECKSUMS (R516) from w on; `more` windows follow this one, and the last ends at e. -/
def windowLoop (e : Nat) (more w : Nat) : Ctl Unit := do
  mark fun h => { h with window := w }
  let s ← get
  sendCmd (s.opcode opcChecksum) (s.range w (min (w + (Config.checksumWindow - 1)) e))
  let p ← recvFrame s.prof.stxRx
  store p
  match more with
  | 0 => pure ()
  | k + 1 => windowLoop e k (w + Config.checksumWindow)

/-- CHECKSUMS (R516): floor((e - s) / 256) + 1 windows. -/
def execChecksums (s : State) : Host.Outcome State Fault Refusal :=
  command (s.sessionGate [opcBit opcChecksum] s.checksumFits) true (.session .verifying)
    (do
      let s ← get
      windowLoop s.arg1.toNat ((s.arg1.toNat - s.arg0.toNat) / Config.checksumWindow) s.arg0.toNat)
    s

/-! ### Single-exchange operations (R519) -/

/-- The responses of R519, `n` of them left; the first one is checked. -/
def respLoop (chk : Bool) : Nat → Bool → Ctl Unit
  | 0, _ => pure ()
  | n + 1, first => do
    let s ← get
    let p ← recvFrame s.prof.stxRx
    store p
    if first then do
      let s ← get
      setAckok (s.ackFlag p)
      if chk && !s.ackFlag p then raise .noAck else respLoop chk n false
    else respLoop chk n false

/-- `Exchange(opc, x)` (R519). -/
def exchange (opc : Byte) (x : Bool) (nresp : BitVec 3) (chk : Bool) : Ctl Unit := do
  let s ← get
  chSend (buildFrame s.prof.lenW Config.soh (opc :: s.txPayload) Config.etx x)
  respLoop chk nresp.toNat true

/-- The checks of R519: the op's registers, ACK_CODE if CHK = 1, and the payload length. -/
def State.exchangeGate (s : State) (needs : List Nat) (chk : Bool) : Gate :=
  s.sessionGate (if chk then ackCodeBit :: needs else needs) (decide (1 + s.txlen.toNat ≤ maxPay s.prof.lenW))

/-- An exchange op with an OPC register (R520-R527). -/
def exchangeOp (running : Sess) (k : Fin 14) (nresp : BitVec 3) (chk : Bool) (s : State) :
    Host.Outcome State Fault Refusal :=
  command (s.exchangeGate [opcBit k] chk) true (.session running)
    (do
      let s ← get
      exchange (s.opcode k) false nresp chk)
    s

/-- CHIP_ERASE (R520). -/
def execChipErase (nresp : BitVec 3) (chk : Bool) (s : State) : Host.Outcome State Fault Refusal :=
  exchangeOp .erasing opcChipErase nresp chk s

/-- SEC_SET (R521). -/
def execSecSet (nresp : BitVec 3) (chk : Bool) (s : State) : Host.Outcome State Fault Refusal :=
  exchangeOp .exchanging opcSecSet nresp chk s

/-- SEC_GET (R522). -/
def execSecGet (nresp : BitVec 3) (chk : Bool) (s : State) : Host.Outcome State Fault Refusal :=
  exchangeOp .exchanging opcSecGet nresp chk s

/-- SEC_RELEASE (R523). -/
def execSecRelease (nresp : BitVec 3) (chk : Bool) (s : State) : Host.Outcome State Fault Refusal :=
  exchangeOp .exchanging opcSecRelease nresp chk s

/-- SIGNATURE (R524). -/
def execSignature (nresp : BitVec 3) (chk : Bool) (s : State) : Host.Outcome State Fault Refusal :=
  exchangeOp .exchanging opcSignature nresp chk s

/-- OPT_READ (R525). -/
def execOptRead (nresp : BitVec 3) (chk : Bool) (s : State) : Host.Outcome State Fault Refusal :=
  exchangeOp .exchanging opcOptRead nresp chk s

/-- OPT_WRITE (R526). -/
def execOptWrite (nresp : BitVec 3) (chk : Bool) (s : State) : Host.Outcome State Fault Refusal :=
  exchangeOp .exchanging opcOptWrite nresp chk s

/-- STATUS (R527). -/
def execStatus (nresp : BitVec 3) (chk : Bool) (s : State) : Host.Outcome State Fault Refusal :=
  exchangeOp .exchanging opcStatus nresp chk s

/-- RAW_CMD (R528): the opcode is IMM8, the checksum corrupted if FBC = 1; no OPC register is needed. -/
def execRawCmd (imm8 : Byte) (nresp : BitVec 3) (chk fbc : Bool) (s : State) :
    Host.Outcome State Fault Refusal :=
  command (s.exchangeGate [] chk) true (.session .exchanging) (exchange imm8 fbc nresp chk) s

/-- END (R530). Its `STATE <- UNKNOWN` is part of the completion (R501, R211; DEDUCED, log 23). -/
def execEndSession (s : State) : Host.Outcome State Fault Refusal := command {} false .endOp (pure ()) s

end Sys2Proof.Machine
end

