-- ==== Sys2Proof/Machine/Dispatch.lean ====
section
/-! DEFINITION. The dispatch: one arm per instruction (30_encoding.md R302). -/

namespace Sys2Proof.Machine

/-- The meaning of an instruction on a state in which its command word has been accepted. -/
def exec (i : Instr) (s : State) : Host.Outcome State Fault Refusal :=
  match i with
  | .sendFrame msel ftr fbc => Sys2Proof.Machine.execSendFrame msel ftr fbc s
  | .recvFrame msel => Sys2Proof.Machine.execRecvFrame msel s
  | .recv msel => Sys2Proof.Machine.execRecv msel s
  | .encode msel ftr fbc => Sys2Proof.Machine.execEncode msel ftr fbc s
  | .decode msel => Sys2Proof.Machine.execDecode msel s
  | .rawSend => Sys2Proof.Machine.execRawSend s
  | .rawRecv => Sys2Proof.Machine.execRawRecv s
  | .entry => Sys2Proof.Machine.execEntry s
  | .pin p lvl => Sys2Proof.Machine.execPin p lvl s
  | .delay => Sys2Proof.Machine.execDelay s
  | .baud => Sys2Proof.Machine.execBaud s
  | .unlock => Sys2Proof.Machine.execUnlock s
  | .reset => Sys2Proof.Machine.execReset s
  | .read => Sys2Proof.Machine.execRead s
  | .program => Sys2Proof.Machine.execProgram s
  | .verify => Sys2Proof.Machine.execVerify s
  | .blockErase => Sys2Proof.Machine.execBlockErase s
  | .checksum => Sys2Proof.Machine.execChecksum s
  | .checksums => Sys2Proof.Machine.execChecksums s
  | .chipErase nresp chk => Sys2Proof.Machine.execChipErase nresp chk s
  | .secSet nresp chk => Sys2Proof.Machine.execSecSet nresp chk s
  | .secGet nresp chk => Sys2Proof.Machine.execSecGet nresp chk s
  | .secRelease nresp chk => Sys2Proof.Machine.execSecRelease nresp chk s
  | .signature nresp chk => Sys2Proof.Machine.execSignature nresp chk s
  | .optRead nresp chk => Sys2Proof.Machine.execOptRead nresp chk s
  | .optWrite nresp chk => Sys2Proof.Machine.execOptWrite nresp chk s
  | .status nresp chk => Sys2Proof.Machine.execStatus nresp chk s
  | .rawCmd imm8 nresp chk fbc => Sys2Proof.Machine.execRawCmd imm8 nresp chk fbc s
  | .endSession => Sys2Proof.Machine.execEndSession s

end Sys2Proof.Machine
end

