-- ==== Sys2Proof/Machine/Fetch.lean ====
section
/-! DEFINITION. How the machine comes to its next command: the host's next action is taken, and a 32-bit write to CMD
while BUSY = 0 is a command (10_state.md R102). -/

namespace Sys2Proof.Machine

/-- One tick passes while no command runs and the host does nothing (10_state.md R111, 60_exceptions.md R636; log 4). -/
def State.idle (s : State) : State := { s with time := s.time + 1 }

/-- The host's next action leaves the queue, and time goes on to its tick. -/
def State.take (s : State) (h : HostInput) (hs : List HostInput) : State :=
  { s with host := hs, time := max s.time h.tick }

/-- The command word of a bus write that starts a command: 32 bits at CMD, with BUSY = 0 (R102, 20_memory.md R206). -/
def State.commandWord (s : State) (addr : BitVec 18) (sz : Size) (v : Word) : Option Word :=
  if addr.toNat = Config.cmdOffset ∧ sz = .word ∧ s.busy = false then some v else none

/-- The write of a command word as a host action at the current time. -/
def commandInput (t : Nat) (w : Word) : HostInput := ⟨t, true, .write 0x004 .word w⟩

end Sys2Proof.Machine
end

