-- ==== Sys2Proof/Machine/Step.lean ====
section
/-! DEFINITION. One step of the machine: the host's next action, or one idle tick. An accepted command runs to its
completion within its step (log 1). -/

namespace Sys2Proof.Machine

/-- A word written to CMD is accepted (42_command.md R500): decoded and run, or completed with BADOP (R601). -/
def runCommand (w : Word) (s : State) : Host.Outcome State Fault Refusal :=
  match decodeWord w with
  | .ok i => exec i (s.accept w)
  | .error _ => .next ((s.accept w).finish s.sess .badop)

/-- One step. -/
def step (s : State) : Host.Outcome State Fault Refusal :=
  match s.host with
  | [] => .next s.idle
  | h :: hs =>
    match h.act with
    | .read addr sz => .next ((s.take h hs).busRead addr sz)
    | .write addr sz v =>
      match s.commandWord addr sz v with
      | some w => runCommand w ((s.take h hs).respond .written)
      | none => .next ((s.take h hs).busWrite addr sz v)
    | .reset hold => .next ((s.take h hs).blockReset hold)

/-- The state with a table word as the host's next action, a write to CMD at the current time, and BUSY = 0, which the
acceptance needs (R102). -/
def State.withFetchWord (s : State) (nbits w : Nat) : State :=
  { s with busy := false, host := commandInput s.time (BitVec.ofNat 32 (w % 2 ^ nbits)) :: s.host }

end Sys2Proof.Machine
end

