-- ==== Sys2Proof/Safety.lean ====
section
/-! DEFINITION. The terms the statements use: what the event history shows (10_state.md R154), a running command, bytes and
frames waiting in the RX stream, what a step may leave changed, and the invariant of the machine between steps. -/

namespace Sys2Proof

/-! ### Classes of operations -/

/-- The session operations 0x21-0x2F (42_command.md R500, R507). -/
def Instr.isSession : Instr → Bool
  | .read => true
  | .program => true
  | .verify => true
  | .blockErase => true
  | .checksum => true
  | .checksums => true
  | .chipErase _ _ => true
  | .secSet _ _ => true
  | .secGet _ _ => true
  | .secRelease _ _ => true
  | .signature _ _ => true
  | .optRead _ _ => true
  | .optWrite _ _ => true
  | .status _ _ => true
  | .rawCmd _ _ _ _ => true
  | .sendFrame _ _ _ => false
  | .recvFrame _ => false
  | .recv _ => false
  | .encode _ _ _ => false
  | .decode _ => false
  | .rawSend => false
  | .rawRecv => false
  | .entry => false
  | .pin _ _ => false
  | .delay => false
  | .baud => false
  | .unlock => false
  | .reset => false
  | .endSession => false

/-- The ops that write RXBUF, 0x02-0x05, 0x07 and 0x20-0x2F (30_encoding.md R302, 10_state.md R143). -/
def Instr.writesRx : Instr → Bool
  | .sendFrame _ _ _ => false
  | .rawSend => false
  | .entry => false
  | .pin _ _ => false
  | .delay => false
  | .baud => false
  | .unlock => false
  | .endSession => false
  | .recvFrame _ => true
  | .recv _ => true
  | .encode _ _ _ => true
  | .decode _ => true
  | .rawRecv => true
  | .reset => true
  | .read => true
  | .program => true
  | .verify => true
  | .blockErase => true
  | .checksum => true
  | .checksums => true
  | .chipErase _ _ => true
  | .secSet _ _ => true
  | .secGet _ _ => true
  | .secRelease _ _ => true
  | .signature _ _ => true
  | .optRead _ _ => true
  | .optWrite _ _ => true
  | .status _ _ => true
  | .rawCmd _ _ _ _ => true

/-- STATE after a command that ran and ended with `e`, from the state before it (the last two columns of R501). -/
def Instr.sessAfter (i : Instr) (before : Machine.Sess) (e : Machine.Err) : Machine.Sess :=
  match i with
  | .entry => .unknown
  | .reset => if e = .none then .ready else .unknown
  | .endSession => .unknown
  | i => if i.isSession then .ready else before

end Sys2Proof

namespace Sys2Proof.Machine

/-! ### What the history shows (R154) -/

/-- The byte of a TXB event. -/
def Event.sentByte : Event → Option Byte
  | .txb b _ => some b
  | .pin _ _ _ => none
  | .rxb _ _ => none
  | .baud _ _ => none
  | .done _ _ => none

/-- The byte of an RXB event. -/
def Event.readByte : Event → Option Byte
  | .rxb b _ => some b
  | .pin _ _ _ => none
  | .txb _ _ => none
  | .baud _ _ => none
  | .done _ _ => none

/-- The pin and level of a PIN event. -/
def Event.pinLevel : Event → Option (Pin × Bool)
  | .pin p v _ => some (p, v)
  | .txb _ _ => none
  | .rxb _ _ => none
  | .baud _ _ => none
  | .done _ _ => none

/-- The rate of a BAUD event. -/
def Event.newRate : Event → Option Word
  | .baud r _ => some r
  | .pin _ _ _ => none
  | .txb _ _ => none
  | .rxb _ _ => none
  | .done _ _ => none

/-- The error code of a DONE event. -/
def Event.doneCode : Event → Option Err
  | .done e _ => some e
  | .pin _ _ _ => none
  | .txb _ _ => none
  | .rxb _ _ => none
  | .baud _ _ => none

/-- All bytes the block has sent since reset, in wire order. -/
def State.sent (s : State) : List Byte := s.events.filterMap Event.sentByte
/-- All bytes the block has read from the stream since reset. -/
def State.consumed (s : State) : List Byte := s.events.filterMap Event.readByte
/-- All pin settings since reset. -/
def State.pinSettings (s : State) : List (Pin × Bool) := s.events.filterMap Event.pinLevel
/-- All bit rates set since reset. -/
def State.rates (s : State) : List Word := s.events.filterMap Event.newRate
/-- The outcomes of all commands completed since reset. -/
def State.outcomes (s : State) : List Err := s.events.filterMap Event.doneCode

/-! ### A running command -/

/-- The codes an op's pseudocode raises once its acceptance checks have passed (60_exceptions.md R600: 1-6 and 10). The
others are NONE and the refusals at acceptance PARAM, STATE, CONFIG and BADOP. -/
def Err.raisable : Err → Bool
  | .invalidFrame => true
  | .invalidHeader => true
  | .invalidFooter => true
  | .invalidChecksum => true
  | .noResponse => true
  | .noAck => true
  | .overflow => true
  | .none => false
  | .param => false
  | .state => false
  | .config => false
  | .badop => false

/-- The reset input is not asserted by the host actions to come. -/
def NoReset (hs : List HostInput) : Prop := ∀ h ∈ hs, ∀ d, h.act ≠ .reset d

/-- The state a command's meaning starts from: accepted (42_command.md R500), and the reset input stays released. -/
structure Accepted (s : State) : Prop where
  busy : s.busy = true
  done : s.done = false
  err : s.err = .none
  ackok : s.ackok = false
  noReset : NoReset s.host

/-- A command has completed with code e (R506). -/
structure Completed (t : State) (e : Err) : Prop where
  idle : t.busy = false
  done : t.done = true
  err : t.err = e

/-- A session op may run: a framed family and STATE = READY (R500, R507). -/
structure SessionOpen (s : State) : Prop where
  framed : s.prof.family ≠ .alt
  ready : s.sess = .ready

/-! ### The RX stream -/

/-- The stream begins with the bytes `bs`, all of them delivered, and goes on with `rest` (10_state.md R152). -/
def Queued (s : State) (bs : List Byte) (rest : List RxByte) : Prop :=
  ∃ pre, s.rx = pre ++ rest ∧ pre.map RxByte.byte = bs ∧ ∀ x ∈ pre, x.arrival ≤ s.time

/-- A frame the environment delivers: its payload and its footer. -/
abbrev Reply := List Byte × Byte

/-- The reply can be a frame: an encodable payload and an accepted footer (40_codec.md R402, R410). -/
def Reply.fits (s : State) (r : Reply) : Prop :=
  encodable s.prof.lenW r.1.length = true ∧ (r.2 = Config.etx ∨ r.2 = Config.etb)

/-- The bytes of replies as data frames with the marker STX_RX (R403). -/
def State.replyBytes (s : State) (rs : List Reply) : List Byte :=
  rs.flatMap fun r => buildFrame s.prof.lenW s.prof.stxRx r.1 r.2 false

/-- The stream begins with these replies, all of them delivered. -/
structure Replies (s : State) (rs : List Reply) (rest : List RxByte) : Prop where
  fits : ∀ r ∈ rs, Reply.fits s r
  queued : Queued s (s.replyBytes rs) rest

/-- A first response that is, or is not, an ACK (42_command.md R502). -/
def Reply.acks (s : State) (r : Reply) : Prop := s.chkReturn r.1 = true

/-- RXBUF holds these payloads and nothing else: RX[0..RXLEN-1], RXFRAMES and RXFLEN0-7 (10_state.md R119, R120). -/
structure RxHolds (t : State) (ps : List (List Byte)) : Prop where
  bytes : t.rxPayload = ps.flatten
  length : t.rxlen.toNat = ps.flatten.length
  frames : t.rxframes = BitVec.ofNat 32 ps.length
  lengths : ∀ j : Fin 8, t.rxflen.get j = BitVec.ofNat 17 ((ps[j.val]?.getD []).length)

/-- RXBUF holds these bytes, which are not frame payloads (ENCODE, RAW_RECV): RXFRAMES and RXFLEN0-7 are 0. -/
structure RxHoldsRaw (t : State) (bs : List Byte) : Prop where
  bytes : t.rxPayload = bs
  length : t.rxlen.toNat = bs.length
  frames : t.rxframes = 0
  lengths : ∀ j : Fin 8, t.rxflen.get j = 0

/-- Bytes the hunt for the marker m discards (40_codec.md R410 step 1): none is the marker, and the first is not 0x00. -/
structure Junk (m : Byte) (bs : List Byte) : Prop where
  notMarker : ∀ b ∈ bs, b ≠ m
  notSilence : bs.head? ≠ some 0
  bounded : bs.length ≤ Config.maxSkip

/-- Bytes a decode attempt for the marker m takes and fails on (40_codec.md R410, R411): a first byte 0x00; 257 bytes without
the marker; a 2-byte length of 0; a frame with another checksum or a footer that is none. -/
inductive FailedAttempt (lenW : Bool) (m : Byte) : List Byte → Prop where
  | silence (hm : m ≠ 0) : FailedAttempt lenW m [0]
  | noMarker (bs : List Byte) (h : ∀ b ∈ bs, b ≠ m) (h0 : bs.head? ≠ some 0) (hl : bs.length = 257) :
    FailedAttempt lenW m bs
  | noLength (junk : List Byte) (hw : lenW = true) (hj : Junk m junk) : FailedAttempt lenW m (junk ++ [m, 0, 0])
  | badFrame (junk p : List Byte) (c f : Byte) (hj : Junk m junk) (hp : encodable lenW p.length = true)
    (h : c ≠ csum (lenField lenW p.length ++ p) ∨ (f ≠ Config.etx ∧ f ≠ Config.etb)) :
    FailedAttempt lenW m (junk ++ ([m] ++ lenField lenW p.length ++ p ++ [c] ++ [f]))

/-! ### The entry sequences (41_sequencer.md R452, R461-R464) -/

/-- The pin settings of the pulse part. -/
def Profile.pulsePins (p : Profile) : List (Pin × Bool) :=
  (Pin.reset, false) :: (List.replicate p.pulses.toNat [(Pin.mode, false), (Pin.mode, true)]).flatten ++ [(Pin.reset, true)]

/-- The pin settings of the pulse train. -/
def State.trainPins (s : State) : List (Pin × Bool) := s.train.map fun e => (trainPin e, trainLevel e)

/-- All pin settings of the family's entry sequence. -/
def State.entryPins (s : State) : List (Pin × Bool) :=
  match s.prof.family with
  | .generic => s.prof.pulsePins
  | .ext4 => s.prof.pulsePins
  | .sw8 => (Pin.pinmux, false) :: s.trainPins ++ [(Pin.pinmux, true)]
  | .alt => s.trainPins

/-- The bytes the sequence sends when its handshake succeeds, EXT4's first echo being the answer to its first round. -/
def State.entrySends (s : State) : List Byte :=
  match s.prof.family with
  | .generic => if s.prof.chan then [] else [0, 0]
  | .ext4 => [0x00, 0x55]
  | .sw8 => []
  | .alt => List.replicate 16 0 ++ [s.prof.probe]

/-- The bytes the handshake then reads. -/
def State.entryReads (s : State) : List Byte :=
  match s.prof.family with
  | .generic => []
  | .ext4 => [0x00, 0xC1]
  | .sw8 => [0x00]
  | .alt => [s.prof.probe]

/-- The bit rates the sequence sets. -/
def State.entryRates (s : State) : List Word :=
  match s.prof.family with
  | .generic => []
  | .ext4 => []
  | .sw8 => [s.prof.baudSw]
  | .alt => []

/-- The least time the sequence takes (70_reset_and_hazards.md R741). -/
def State.entryTicks (s : State) : Nat :=
  match s.prof.family with
  | .generic => s.prof.tPulse.toNat * (1 + 2 * s.prof.pulses.toNat) + s.prof.tSettle.toNat
  | .ext4 => s.prof.tPulse.toNat * (1 + 2 * s.prof.pulses.toNat) + s.prof.tSettle.toNat
  | .sw8 => (s.train.map trainDelay).sum
  | .alt => (s.train.map trainDelay).sum + 16 * s.prof.tSpacing.toNat

/-! ### What a command leaves alone -/

/-- The registers no command writes (10_state.md R123, 20_memory.md R215): the operands, the profile, CFGVALID, CMD,
TSNAP and TACC, and TXBUF. -/
structure SameConfig (s t : State) : Prop where
  cmd : t.cmd = s.cmd
  arg0 : t.arg0 = s.arg0
  arg1 : t.arg1 = s.arg1
  txlen : t.txlen = s.txlen
  cfgvalid : t.cfgvalid = s.cfgvalid
  prof : t.prof = s.prof
  tsnap : t.hid.tsnap = s.hid.tsnap
  tacc : t.hid.tacc = s.hid.tacc
  epoch : t.epoch = s.epoch
  txbuf : ∀ i, i < Config.bufCap → t.txByte i = s.txByte i

/-- What only the host changes: TIMEOUT, CTRL, WIGN, OVR and the model's record of the host. -/
structure SameHostSide (s t : State) : Prop where
  timeout : t.timeout = s.timeout
  ie : t.ie = s.ie
  wign : t.wign = s.wign
  ovr : t.ovr = s.ovr
  host : t.host = s.host
  resp : t.resp = s.resp
  draws : t.draws = s.draws

/-- The pins and the bit rate. -/
structure SamePins (s t : State) : Prop where
  mode : t.pinMode = s.pinMode
  reset : t.pinReset = s.pinReset
  data : t.pinData = s.pinData
  mux : t.pinMux = s.pinMux
  rate : t.rate = s.rate
  settings : t.pinSettings = s.pinSettings
  rates : t.rates = s.rates

/-- The receive side: RXLEN, RXFRAMES, RXFLEN0-7, every byte of both buffers, and the diagnostics. -/
structure SameRx (s t : State) : Prop where
  rxlen : t.rxlen = s.rxlen
  rxframes : t.rxframes = s.rxframes
  rxflen : t.rxflen = s.rxflen
  bytes : ∀ a, t.byteAt a = s.byteAt a
  lastst : t.lastst = s.lastst
  diag : t.diag = s.diag
  skipcnt : t.skipcnt = s.skipcnt

/-- The diagnostics of the decoder. -/
structure SameDiag (s t : State) : Prop where
  lastst : t.lastst = s.lastst
  diag : t.diag = s.diag
  skipcnt : t.skipcnt = s.skipcnt

/-- A command that writes RXBUF stores at RX[0..RXLEN-1] of its final RXLEN (10_state.md R143) and nowhere else. -/
def RxStoresOnly (s t : State) : Prop :=
  ∀ a, (a < Config.rxBase ∨ Config.rxBase + t.rxlen.toNat ≤ a) → t.byteAt a = s.byteAt a

/-- The stream lost only bytes at its front, each of them read: the event RXB (10_state.md R152, R154). -/
def StreamReadInOrder (s t : State) : Prop :=
  ∃ k, t.rx = s.rx.drop k ∧ t.consumed = s.consumed ++ (s.rx.take k).map RxByte.byte

/-! ### Host accesses between commands -/

/-- The next host action, and the ones after it. -/
def NextAct (s : State) (act : HostAct) : Prop := ∃ h hs, s.host = h :: hs ∧ h.act = act

/-- The state s with the time and the model's record of the host of t: `t = s.served t` says that an access changed
nothing of the block. -/
def State.served (s t : State) : State :=
  { s with time := t.time, host := t.host, resp := t.resp, draws := t.draws }

/-- The window address of a register (10_state.md R100). -/
def Reg.addr (r : Reg) : BitVec 18 := BitVec.ofNat 18 r.offset

/-- The bits of a locked register that are not reserved (R130-R141). -/
def LockedReg.mask : LockedReg → Word
  | .profile => 0x0001FFFF
  | .markers => 0x0000FFFF
  | .ackCode => 0x000000FF
  | .blkszA => 0x01FFFFFF
  | .blkszB => 0x01FFFFFF
  | .altcfg => 0x0000FFFF
  | .lockAddr => 0x00FFFFFF
  | .keyHi => 0x00FFFFFF
  | .opc _ => 0x000000FF
  | .blkSplit => 0xFFFFFFFF
  | .baudSw => 0xFFFFFFFF
  | .keyLo => 0xFFFFFFFF
  | .tFrame => 0xFFFFFFFF
  | .tHunt => 0xFFFFFFFF
  | .tPulse => 0xFFFFFFFF
  | .tSettle => 0xFFFFFFFF
  | .tEcho => 0xFFFFFFFF
  | .tSync => 0xFFFFFFFF
  | .tSpacing => 0xFFFFFFFF
  | .ptram _ => 0xFFFFFFFF

/-- The written values R144 calls illegal. -/
def LockedReg.Illegal (r : LockedReg) (v : Word) : Prop :=
  match r with
  | .profile => ¬ (1 ≤ v.toNat / 4 % 8 ∧ v.toNat / 4 % 8 ≤ 4)
  | .markers => ¬ ((v.toNat % 256 = 0x02 ∨ v.toNat % 256 = 0x11 ∨ v.toNat % 256 = 0x81) ∧
      (v.toNat / 256 % 256 = 0x02 ∨ v.toNat / 256 % 256 = 0x11 ∨ v.toNat / 256 % 256 = 0x81))
  | .blkszA => v.toNat % 0x2000000 = 0 ∨ 0x1000000 < v.toNat
  | .blkszB => v.toNat % 0x2000000 = 0 ∨ 0x1000000 < v.toNat
  | .baudSw => v = 0
  | .ackCode => False
  | .blkSplit => False
  | .altcfg => False
  | .lockAddr => False
  | .keyLo => False
  | .keyHi => False
  | .tFrame => False
  | .tHunt => False
  | .tPulse => False
  | .tSettle => False
  | .tEcho => False
  | .tSync => False
  | .tSpacing => False
  | .opc _ => False
  | .ptram _ => False

/-! ### The invariant between steps -/

/-- What holds of the machine whenever no step is under way: no command runs and STATE is UNKNOWN or READY (42_command.md
R501); memory is canonical; every stored register value is legal (10_state.md R144); CFGVALID and the registers agree
(R112, D15); the receive counts and the diagnostics are in range (R108, R117-R120). -/
structure State.Inv (s : State) : Prop where
  idle : s.busy = false
  settled : s.sess = .unknown ∨ s.sess = .ready
  mem : s.mem.wf = true
  addrW : 1 ≤ s.prof.addrW.toNat ∧ s.prof.addrW.toNat ≤ 4
  stxTx : markerLegal s.prof.stxTx = true
  stxRx : markerLegal s.prof.stxRx = true
  blkA : 1 ≤ s.prof.blkA.toNat ∧ s.prof.blkA.toNat ≤ Config.maxBlock
  blkB : 1 ≤ s.prof.blkB.toNat ∧ s.prof.blkB.toNat ≤ Config.maxBlock
  baudSw : s.valid 2 = true → s.prof.baudSw ≠ 0
  unwritten : ∀ r k, LockedReg.validBit r = some k → s.valid k = false → s.prof.read r = Profile.reset.read r
  opcStatus : s.valid 29 = true
  validReserved : ∀ k, k = 13 ∨ k = 14 ∨ k = 15 ∨ k = 30 ∨ k = 31 → s.valid k = false
  txlen : s.txlen.toNat ≤ Config.bufCap
  rxlen : s.rxlen.toNat ≤ Config.bufCap
  frames : s.rxframes.toNat ≤ s.rxlen.toNat
  flens : ∀ j : Fin 8, s.rxframes.toNat ≤ j.val → s.rxflen.get j = 0
  lastst : s.lastst.valid = false → s.lastst.byte = 0
  diag : s.diag.bodyOk = false → s.diag = ⟨0, 0, 0, false⟩
  skipcnt : s.skipcnt.toNat ≤ 257

end Sys2Proof.Machine
end

