-- ==== Sys2Proof/Certificates/Slice0/Obligations.lean ====
section
/-! DEFINITION. The statements for the provers. A statement about `exec` is about a state in which the command word has
been accepted (`Accepted`, 42_command.md R500): BUSY = 1, DONE, ERR and ACKOK cleared, and the reset input not asserted by
the host actions to come. Other host accesses may arrive while the command runs, and the draws of elapsed time are free,
unless a statement says otherwise. -/

open Sys2Proof Sys2Proof.Machine

/-! ### Encoding -/

/-- Decoding the encoding of a well-formed instruction gives it back (R300, R301, R302, R305). -/
def Obligations.DecodeEncodeRoundTrip : Prop :=
  ∀ i : Instr, i.wellFormed = true → decodeWord (encode i) = .ok i

/-- A word the decoder accepts is the encoding of the well-formed instruction it names, so no two words name one
instruction and no bit of a word is ignored (R304). -/
def Obligations.DecodedWordIsTheEncoding : Prop :=
  ∀ (w : Word) (i : Instr), decodeWord w = .ok i → i.wellFormed = true ∧ encode i = w

/-- R303: a word with a reserved OP completes with BADOP, and every other OP has a legal word. -/
def Obligations.ReservedOperationsAreRefused : Prop :=
  ∀ w : Word,
    let op := w.toNat % 256
    let reserved := op = 0 ∨ (0x08 ≤ op ∧ op ≤ 0x0F) ∨ (0x15 ≤ op ∧ op ≤ 0x1F) ∨ 0x31 ≤ op
    (reserved → ∀ s : State, runCommand w s = .next ((s.accept w).finish s.sess .badop)) ∧
    (¬ reserved → ∃ i : Instr, i.wellFormed = true ∧ (encode i).toNat % 256 = op)

/-- A command word is illegal in one of the ways R601 lists. -/
def IllegalWord (w : Word) : Prop :=
  let f := Fields.ofWord w
  let op := w.toNat % 256
  let framing := op = 0x01 ∨ op = 0x04
  let marked := framing ∨ op = 0x02 ∨ op = 0x03 ∨ op = 0x05
  let exchanging := 0x27 ≤ op ∧ op ≤ 0x2F
  (op = 0 ∨ (0x08 ≤ op ∧ op ≤ 0x0F) ∨ (0x15 ≤ op ∧ op ≤ 0x1F) ∨ 0x31 ≤ op) ∨
  0x800000 ≤ w.toNat ∨
  (f.imm8 ≠ 0 ∧ op ≠ 0x11 ∧ op ≠ 0x2F) ∨ (f.nresp ≠ 0 ∧ ¬ exchanging) ∨ (f.chk = true ∧ ¬ exchanging) ∨
  (f.fbc = true ∧ ¬ framing ∧ op ≠ 0x2F) ∨ (f.ftr = true ∧ ¬ framing) ∨ (f.msel = true ∧ ¬ marked) ∨
  (framing ∧ f.msel = false ∧ f.ftr = true) ∨ (f.chk = true ∧ f.nresp = 0) ∨
  (op = 0x11 ∧ 8 ≤ f.imm8.toNat)

/-- R601: the illegal words, and no others, complete with BADOP. The word stays in CMD; beside CMD and the completion (BUSY,
DONE, ERR, ACKOK and the DONE event) only the TSNAP and TACC copies change. A command of a legal word never ends with
BADOP. -/
def Obligations.IllegalWordsCompleteWithBadop : Prop :=
  ∀ (w : Word) (s : State),
    (IllegalWord w ↔ ∃ e, decodeWord w = .error e) ∧
    (IllegalWord w → runCommand w s = .next
      { s with cmd := w, busy := false, done := true, ackok := false, err := .badop
               hid := { s.hid with tsnap := s.timeout, tacc := s.now }
               events := s.events ++ [.done .badop s.now] }) ∧
    (¬ IllegalWord w → ∃ t, runCommand w s = .next t ∧ t.err ≠ .badop)

/-- Command words from R331 and from examples of the rules decode to their operations. -/
def Obligations.SampleWordsDecode : Prop :=
  decodeWord 0x00600001 = .ok (.sendFrame true true false) ∧ decodeWord 0x00400003 = .ok (.recv true) ∧
  decodeWord 0x0001002E = .ok (.status 1 false) ∧ decodeWord 0x0019702F = .ok (.rawCmd 0x70 1 true true) ∧
  decodeWord 0x00000021 = .ok .read ∧ decodeWord 0x00000611 = .ok (.pin .data true) ∧
  decodeWord 0x00000030 = .ok .endSession

/-- What each step is. A write to CMD while BUSY = 0 runs its word: `exec` of the decoded instruction on the state in which
the word has been accepted, if the decoder takes it (O3 and O4 say what an illegal word does). Every other host access is a
bus access and runs no instruction, the reset input is a block reset, and without a host action one idle tick passes. That
a command runs within one step is log 1, that commands come as host actions log 2. -/
def Obligations.StepRunsTheDecodedCommand : Prop :=
  (∀ (s : State) (h : HostInput) (hs : List HostInput), s.host = h :: hs →
    (∀ w, h.act = .write Reg.cmd.addr .word w → s.busy = false →
      step s = runCommand w ((s.take h hs).respond .written)) ∧
    (∀ a sz v, h.act = .write a sz v → s.busy = true ∨ a ≠ Reg.cmd.addr ∨ sz ≠ .word →
      step s = .next ((s.take h hs).busWrite a sz v)) ∧
    (∀ a sz, h.act = .read a sz → step s = .next ((s.take h hs).busRead a sz)) ∧
    (∀ n, h.act = .reset n → step s = .next ((s.take h hs).blockReset n))) ∧
  (∀ s : State, s.host = [] → step s = .next s.idle) ∧
  (∀ (s : State) (w : Word) (i : Instr), decodeWord w = .ok i → runCommand w s = exec i (s.accept w)) ∧
  (∀ (s : State) (w : Word), ∃ t : State, step (s.withFetchWord 32 w.toNat) = runCommand w t ∧ t.prof = s.prof ∧
    t.host = s.host ∧ t.sess = s.sess)

/-! ### Reset and the invariant -/

/-- Every register of R100 reads its reset value after reset (R100, R700). -/
def Obligations.ResetRegisterValues : Prop :=
  let r := State.reset
  r.regRead .id = 0x52465049 ∧ r.regRead .timeout = 0x000F4240 ∧ r.regRead .cfgvalid = 0x20000000 ∧
  r.regRead (.locked .profile) = 0x0000000C ∧ r.regRead (.locked .markers) = 0x00000202 ∧
  r.regRead (.locked .blkszA) = 0x1000 ∧ r.regRead (.locked .blkszB) = 0x1000 ∧
  r.regRead (.locked .tFrame) = 0x000F4240 ∧ r.regRead (.locked .tHunt) = 0x000F4240 ∧
  r.regRead (.locked (.opc 13)) = 0x70 ∧ (∀ i, r.regRead (.locked (.ptram i)) = 8) ∧
  (∀ k, k ≠ 13 → r.regRead (.locked (.opc k)) = 0) ∧
  (∀ q ∈ [Reg.cmd, .status, .ctrl, .arg0, .arg1, .txlen, .rxlen, .rxframes, .now, .lastst, .diag, .skipcnt,
      .locked .ackCode, .locked .blkSplit, .locked .baudSw, .locked .altcfg, .locked .lockAddr, .locked .keyLo,
      .locked .keyHi, .locked .tPulse, .locked .tSettle, .locked .tEcho, .locked .tSync, .locked .tSpacing],
    r.regRead q = 0) ∧
  (∀ j, r.regRead (.rxflen j) = 0) ∧ r.irq = false ∧ r.rx = [] ∧ r.events = []

/-- The invariant holds right after reset. -/
def Obligations.ResetMeetsTheInvariant : Prop := State.reset.Inv

/-- Every step from a state that meets the invariant answers a next state that meets it. -/
def Obligations.EveryStepKeepsTheInvariant : Prop :=
  ∀ s : State, s.Inv → ∃ t, step s = .next t ∧ t.Inv

/-- The reset input between commands, and at any moment inside one: every register takes its reset value, the history and
the hidden state are those after reset (the hidden values are log 11), and the running command ends without DONE (R700). The
second clause: let an instruction whose checks pass complete at time t.time with all earlier host actions served; a reset
that falls due before that time, at acceptance, in a wait, a send, a receive or a pin change, ends it so. That a byte which
arrives by the last tick of the reset is discarded is log 12; the values of what survives are left out. -/
def Obligations.ResetInputClearsTheBlock : Prop :=
  let cleared := fun (t : State) =>
    (∀ q : Reg, t.regRead q = State.reset.regRead q) ∧ t.busy = false ∧ t.events = [] ∧ t.irq = false ∧
    t.mem = [] ∧ t.rate = Config.baud0 ∧ t.hid = State.reset.hid ∧ ∀ x ∈ t.rx, 0 < x.arrival
  (∀ (s : State) (n : Nat), NextAct s (.reset n) → ∃ t, step s = .next t ∧ cleared t) ∧
  (∀ (i : Instr) (s t : State) (h : HostInput) (later : List HostInput) (n : Nat), Accepted s → exec i s = .next t →
    t.err ≠ .config → t.err ≠ .state → t.err ≠ .param → t.host = [] → h.act = .reset n → h.tick < t.time →
    ∃ u, exec i { s with host := s.host ++ h :: later } = .next u ∧ cleared u)

/-! ### Host accesses -/

/-- R206, R207: exactly the accesses of a wrong width or alignment get a bus error, at any time, and have no effect; an
access to a buffer that gets none stays inside one 4-byte group. -/
def Obligations.WrongAccessesGetABusError : Prop :=
  ∀ (s : State) (a : BitVec 18) (sz : Size) (v : Word) (act : HostAct), act = .read a sz ∨ act = .write a sz v →
    NextAct s act → (s.busy = false → act ≠ .write Reg.cmd.addr .word v) →
    let buffer := 0x10000 ≤ a.toNat ∧ a.toNat < 0x30000
    let wrong := if buffer then a.toNat % sz.bytes ≠ 0 else sz ≠ .word ∨ a.toNat % 4 ≠ 0
    ∃ t, step s = .next t ∧ (wrong ↔ t.resp = s.resp ++ [.busError]) ∧ (wrong → t = s.served t) ∧
      (buffer → ¬ wrong → a.toNat / 4 = (a.toNat + sz.bytes - 1) / 4)

/-- A host write to TXBUF while BUSY = 0 stores the low bytes of its value, the lowest offset bits 7:0 (R204), and no other
byte; a read of the same place returns them. -/
def Obligations.BufferAccessesAreLittleEndian : Prop :=
  ∀ (s : State) (a : BitVec 18) (sz : Size) (v : Word), s.busy = false → 0x10000 ≤ a.toNat → a.toNat < 0x20000 →
    a.toNat % sz.bytes = 0 → NextAct s (.write a sz v) →
    ∃ t, step s = .next t ∧ t.resp = s.resp ++ [.written] ∧
      (∀ i, i < sz.bytes → t.byteAt (a.toNat + i) = v.extractLsb' (8 * i) 8) ∧
      (∀ x, (x < a.toNat ∨ a.toNat + sz.bytes ≤ x) → t.byteAt x = s.byteAt x) ∧
      t = { (s.served t) with mem := t.mem } ∧
      (t.busRead a sz).resp = t.resp ++ [.data (v &&& BitVec.ofNat 32 (2 ^ (8 * sz.bytes) - 1))]

/-- Host writes to RXBUF at any time change no byte and set WIGN (R143, R208); so do writes to TXBUF while BUSY = 1. -/
def Obligations.IgnoredBufferWritesSetWign : Prop :=
  ∀ (s : State) (a : BitVec 18) (sz : Size) (v : Word), a.toNat % sz.bytes = 0 → NextAct s (.write a sz v) →
    (0x20000 ≤ a.toNat ∧ a.toNat < 0x30000) ∨ (s.busy = true ∧ 0x10000 ≤ a.toNat ∧ a.toNat < 0x20000) →
    ∃ t, step s = .next t ∧ t.resp = s.resp ++ [.written] ∧ t = s.setWign.served t

/-- R114: while BUSY = 1, writes to ARG0, ARG1, TXLEN, TXBUF and the locked registers are ignored and set WIGN; TIMEOUT and
CTRL take the value, STATUS clears its bits, and a CMD write is dropped and sets OVR. The last clause is the model's way of
serving the host inside a command (log 1, log 7): while a command lets time pass, a host write that has fallen due takes
effect as this bus write. -/
def Obligations.WritesWhileBusy : Prop :=
  ∀ (s : State) (v : Word), s.busy = true →
    (∀ r : Reg, r = .arg0 ∨ r = .arg1 ∨ r = .txlen ∨ (∃ q, r = .locked q) →
      s.busWrite r.addr .word v = s.setWign.respond .written) ∧
    (∀ (a : BitVec 18) (sz : Size), 0x10000 ≤ a.toNat → a.toNat < 0x20000 → a.toNat % sz.bytes = 0 →
      s.busWrite a sz v = s.setWign.respond .written) ∧
    s.busWrite Reg.timeout.addr .word v = { s with timeout := v }.respond .written ∧
    s.busWrite Reg.ctrl.addr .word v = { s with ie := v.getLsbD 0 }.respond .written ∧
    s.busWrite Reg.status.addr .word v = (s.clearSticky v).respond .written ∧
    s.busWrite Reg.cmd.addr .word v = { s with ovr := true }.respond .written ∧
    (∀ (t : Nat) (h : HostInput) (hs : List HostInput) (a : BitVec 18) (sz : Size), h.due t = true →
      h.act = .write a sz v → serve t (h :: hs) s = serve t hs ((s.take h hs).busWrite a sz v))

/-- R115: a locked register takes a legal value only while STATE = UNKNOWN and BUSY = 0; at any other time the write is
ignored and sets WIGN. -/
def Obligations.LockedRegistersNeedUnknown : Prop :=
  ∀ (s : State) (r : LockedReg) (v : Word), NextAct s (.write (Reg.locked r).addr .word v) →
    ∃ t, step s = .next t ∧
      (s.sess = .unknown → s.busy = false → ¬ r.Illegal v → t.prof.read r = v &&& r.mask ∧ t.wign = s.wign) ∧
      (s.sess ≠ .unknown ∨ s.busy = true → t = s.setWign.served t)

/-- The CFGVALID bit of each locked register, none for those that are valid at reset and have no bit (R112, R140). -/
def cfgvalidBit : LockedReg → Option Nat
  | .profile => some 0
  | .ackCode => some 1
  | .baudSw => some 2
  | .altcfg => some 3
  | .lockAddr => some 4
  | .keyLo => some 5
  | .keyHi => some 6
  | .tPulse => some 7
  | .tSettle => some 8
  | .tEcho => some 9
  | .tSync => some 10
  | .tSpacing => some 11
  | .ptram _ => some 12
  | .opc k => some (16 + k.val)
  | .markers => none
  | .blkszA => none
  | .blkszB => none
  | .blkSplit => none
  | .tFrame => none
  | .tHunt => none

/-- An accepted write to a locked register stores the bits that are not reserved, sets the register's CFGVALID bit, and
changes no other register (R112, R113, R130-R141). -/
def Obligations.LockedWritesStoreAndMarkValid : Prop :=
  ∀ (s : State) (r : LockedReg) (v : Word), NextAct s (.write (Reg.locked r).addr .word v) → s.sess = .unknown →
    s.busy = false → ¬ r.Illegal v →
    ∃ t, step s = .next t ∧ t = { s with prof := t.prof, cfgvalid := t.cfgvalid }.served t ∧
      t.regRead (.locked r) = v &&& r.mask ∧
      (∀ q, q ≠ r → t.regRead (.locked q) = s.regRead (.locked q)) ∧
      (∀ k, t.valid k = (s.valid k || cfgvalidBit r == some k))

/-- R144: a write in time that would store an illegal value changes nothing in the register, sets no CFGVALID bit, and sets
WIGN. -/
def Obligations.IllegalValuesAreIgnored : Prop :=
  ∀ (s : State) (v : Word), s.busy = false →
    (∀ r : LockedReg, s.sess = .unknown → r.Illegal v → NextAct s (.write (Reg.locked r).addr .word v) →
      ∃ t, step s = .next t ∧ t = s.setWign.served t) ∧
    (65536 < v.toNat → NextAct s (.write Reg.txlen.addr .word v) →
      ∃ t, step s = .next t ∧ t = s.setWign.served t)

/-- Unassigned offsets read 0 and ignore writes; read-only registers ignore writes without WIGN (R113, R101). -/
def Obligations.UnassignedAndReadOnlyOffsets : Prop :=
  (∀ (s : State) (a : BitVec 18), a.toNat % 4 = 0 → (a.toNat < 0x10000 ∨ 0x30000 ≤ a.toNat) →
    (∀ r : Reg, r.addr ≠ a) →
    (NextAct s (.read a .word) → ∃ t, step s = .next t ∧ t.resp = s.resp ++ [.data 0] ∧ t = s.served t) ∧
    (∀ v, NextAct s (.write a .word v) → ∃ t, step s = .next t ∧ t.resp = s.resp ++ [.written] ∧ t = s.served t)) ∧
  (∀ (s : State) (r : Reg) (v : Word),
    r = .id ∨ r = .rxlen ∨ r = .rxframes ∨ r = .now ∨ r = .cfgvalid ∨ r = .lastst ∨ r = .diag ∨ r = .skipcnt ∨
      (∃ j, r = .rxflen j) →
    NextAct s (.write r.addr .word v) → ∃ t, step s = .next t ∧ t = s.served t)

/-- R104: a write to STATUS clears those of DONE, WIGN and OVR whose bit is 1 in the value, and changes nothing else,
whether or not BUSY = 1. -/
def Obligations.StatusWritesClearStickyBits : Prop :=
  ∀ (s : State) (v : Word), NextAct s (.write Reg.status.addr .word v) →
    ∃ t, step s = .next t ∧ t.done = (s.done && !v.getLsbD 1) ∧ t.wign = (s.wign && !v.getLsbD 3) ∧
      t.ovr = (s.ovr && !v.getLsbD 4) ∧ t = { s with done := t.done, wign := t.wign, ovr := t.ovr }.served t

/-- The operand and control registers take what is written while BUSY = 0, with their reserved bits dropped (R105, R106,
R107, R109). -/
def Obligations.OperandWritesAreStored : Prop :=
  ∀ (s : State) (v : Word), s.busy = false →
    (NextAct s (.write Reg.arg0.addr .word v) → ∃ t, step s = .next t ∧ t = { s with arg0 := v }.served t) ∧
    (NextAct s (.write Reg.arg1.addr .word v) → ∃ t, step s = .next t ∧ t = { s with arg1 := v }.served t) ∧
    (v.toNat ≤ 65536 → NextAct s (.write Reg.txlen.addr .word v) →
      ∃ t, step s = .next t ∧ t = { s with txlen := BitVec.ofNat 17 v.toNat }.served t ∧ t.regRead .txlen = v) ∧
    (NextAct s (.write Reg.timeout.addr .word v) → ∃ t, step s = .next t ∧ t = { s with timeout := v }.served t) ∧
    (NextAct s (.write Reg.ctrl.addr .word v) →
      ∃ t, step s = .next t ∧ t = { s with ie := t.ie }.served t ∧ t.regRead .ctrl = v &&& 1)

/-- R209: a read of a register or buffer changes no state; R208: a read of a register returns its value. -/
def Obligations.ReadsHaveNoSideEffects : Prop :=
  (∀ (s : State) (a : BitVec 18) (sz : Size), NextAct s (.read a sz) → ∃ t, step s = .next t ∧ t = s.served t) ∧
  (∀ (s : State) (h : HostInput) (hs : List HostInput) (r : Reg), s.host = h :: hs → h.act = .read r.addr .word →
    ∃ t, step s = .next t ∧ t.resp = s.resp ++ [.data ((s.take h hs).regRead r)]) ∧
  (∀ (s : State) (a : BitVec 18) (sz : Size), s.busy = false → 0x10000 ≤ a.toNat → a.toNat < 0x30000 →
    a.toNat % sz.bytes = 0 → NextAct s (.read a sz) →
    ∃ (t : State) (v : Word), step s = .next t ∧ t.resp = s.resp ++ [.data v] ∧ v.toNat < 2 ^ (8 * sz.bytes) ∧
      ∀ i, i < sz.bytes → v.extractLsb' (8 * i) 8 = s.byteAt (a.toNat + i))

/-- The STATUS word has its fields at the bits R103 gives, reserved bits 0, and IRQ is DONE and CTRL.IE (R620). ERR holds the
code R600 gives each error, STATE the code R151 gives each session state. -/
def Obligations.StatusWordLayout : Prop :=
  ∀ s : State,
    let w := s.regRead .status
    w.getLsbD 0 = s.busy ∧ w.getLsbD 1 = s.done ∧ w.getLsbD 2 = s.ackok ∧ w.getLsbD 3 = s.wign ∧ w.getLsbD 4 = s.ovr ∧
    w.getLsbD 5 = (s.done && s.ie) ∧ w.extractLsb' 6 2 = 0 ∧ w.getLsbD 15 = false ∧ w.getLsbD 16 = s.pinMode ∧
    w.getLsbD 17 = s.pinReset ∧ w.getLsbD 18 = s.pinData ∧ w.getLsbD 19 = s.pinMux ∧ w.extractLsb' 20 12 = 0 ∧
    (∀ c ∈ [(Err.none, 0), (.invalidFrame, 1), (.invalidHeader, 2), (.invalidFooter, 3), (.invalidChecksum, 4),
        (.noResponse, 5), (.noAck, 6), (.param, 7), (.state, 8), (.config, 9), (.overflow, 10), (.badop, 11)],
      s.err = c.1 ↔ (w.extractLsb' 8 4).toNat = c.2) ∧
    (∀ c ∈ [(Sess.unknown, 0), (.reset, 1), (.ready, 2), (.reading, 3), (.programming, 4), (.erasing, 5), (.verifying, 6),
        (.exchanging, 7)],
      s.sess = c.1 ↔ (w.extractLsb' 12 3).toNat = c.2)

/-! ### Acceptance and completion -/

/-- Every accepted command finishes exactly once (R500, R506, R110): after a CMD write while BUSY = 0, with the reset input
released, CMD holds the word, TSNAP and TACC hold TIMEOUT and the time of acceptance, BUSY = 0, DONE = 1, and the history
has gained one DONE event, with the code in ERR. -/
def Obligations.EveryCommandFinishesOnce : Prop :=
  ∀ (s : State) (h : HostInput) (hs : List HostInput) (w : Word), s.host = h :: hs →
    h.act = .write Reg.cmd.addr .word w → s.busy = false → NoReset hs →
    ∃ t, step s = .next t ∧ Completed t t.err ∧ t.cmd = w ∧ t.hid.tsnap = s.timeout ∧
      t.hid.tacc = BitVec.ofNat 32 (max s.time h.tick) ∧ t.outcomes = s.outcomes ++ [t.err]

/-- No command changes the operands, the profile, CFGVALID or TXBUF, whatever the host writes meanwhile (R114, R215). -/
def Obligations.CommandsKeepTheirOperands : Prop :=
  ∀ (i : Instr) (s : State), Accepted s → ∃ t, exec i s = .next t ∧ SameConfig s t

/-- STATE after a command (the last two columns of R501): unchanged when it was refused at acceptance with CONFIG, STATE or
PARAM, else as the table says. -/
def Obligations.SessionStateTable : Prop :=
  ∀ (i : Instr) (s : State), Accepted s → ∃ t, exec i s = .next t ∧
    (t.err = .config ∨ t.err = .state ∨ t.err = .param → t = s.finish s.sess t.err) ∧
    (t.err ≠ .config → t.err ≠ .state → t.err ≠ .param → t.sess = i.sessAfter s.sess t.err)

/-- A session op while STATE is not READY is refused with STATE, before its register and parameter checks (R500, R602). -/
def Obligations.SessionOpsNeedReady : Prop :=
  ∀ (i : Instr) (s : State), i.isSession = true → s.prof.family ≠ .alt → s.sess ≠ .ready →
    exec i s = .next (s.finish s.sess .state)

/-- R507: with FAMILY = ALT the ops 0x21-0x2F, and with another family UNLOCK, are refused with CONFIG, before any other
check; every other op is accepted in every family: none is refused with CONFIG in a state in which every register is
written and the train is valid. -/
def Obligations.FamilyRestrictions : Prop :=
  ∀ (i : Instr) (s : State),
    (i.isSession = true → s.prof.family = .alt → exec i s = .next (s.finish s.sess .config)) ∧
    (i = .unlock → s.prof.family ≠ .alt → exec i s = .next (s.finish s.sess .config)) ∧
    (i.isSession = false → i ≠ .unlock → Accepted s → (∀ k, k ≤ 29 → s.valid k = true ∨ k = 13 ∨ k = 14 ∨ k = 15) →
      s.trainClean = true → ∃ t, exec i s = .next t ∧ t.err ≠ .config)

/-- The CFGVALID bits of the registers an op needs (R460, R473, R510-R516, R519-R528). -/
def configNeeds (i : Instr) (f : Family) : List Nat :=
  let entry := match f with
    | .generic => [0, 7, 8]
    | .ext4 => [0, 7, 8, 9]
    | .sw8 => [12, 2, 10]
    | .alt => [12, 3, 9, 11]
  let ack := fun (c : Bool) => if c then [1] else []
  match i with
  | .entry => entry
  | .reset => entry ++ if f = .alt then [3, 4, 5, 6] else [16, 1]
  | .unlock => [3, 4, 5, 6]
  | .read => [17, 1]
  | .program => [18, 1]
  | .verify => [19, 1]
  | .blockErase => [20, 1]
  | .checksum => [21]
  | .checksums => [21]
  | .chipErase _ c => 22 :: ack c
  | .secSet _ c => 23 :: ack c
  | .secGet _ c => 24 :: ack c
  | .secRelease _ c => 25 :: ack c
  | .signature _ c => 26 :: ack c
  | .optRead _ c => 27 :: ack c
  | .optWrite _ c => 28 :: ack c
  | .status _ c => 29 :: ack c
  | .rawCmd _ _ c _ => ack c
  | _ => []

/-- An op that needs an unwritten register, or runs a train with a nonzero reserved field, is refused with CONFIG before
its parameter check (R450, R460, R473, R500, R510-R519). -/
def Obligations.UnwrittenRegistersAreRefused : Prop :=
  ∀ (i : Instr) (s : State), (i.isSession = true → SessionOpen s) →
    (∃ k ∈ configNeeds i s.prof.family, s.valid k = false) ∨
      ((i = .entry ∨ i = .reset) ∧ (s.prof.family = .sw8 ∨ s.prof.family = .alt) ∧
        ∃ e ∈ s.train, e.extractLsb' 4 4 ≠ 0) →
    exec i s = .next (s.finish s.sess .config)

/-- The largest payload of a frame (R402). -/
def largestPayload (s : State) : Nat := if s.prof.lenW then 65535 else 256

/-- The PARAM conditions of the ops (R420, R422, R425, R472, R511-R516, R519). -/
def paramBad (i : Instr) (s : State) : Prop :=
  let a := s.arg0.toNat
  let e := s.arg1.toNat
  let k := s.txlen.toNat
  let amax := 2 ^ (8 * s.prof.addrW.toNat) - 1
  let payload := if s.prof.family = .ext4 then k + 1 else k
  let block := if a < s.prof.blkSplit.toNat then s.prof.blkA.toNat else s.prof.blkB.toNat
  match i with
  | .sendFrame _ _ _ => k = 0 ∨ largestPayload s < k
  | .encode _ _ _ => k = 0 ∨ largestPayload s < k
  | .rawRecv => a = 0 ∨ 65536 < a
  | .baud => a = 0
  | .read => e = 0 ∨ 65536 < e ∨ amax < a + e - 1
  | .program => k = 0 ∨ amax < a + k - 1 ∨ largestPayload s < payload
  | .verify => 1 ≤ k ∧ (amax < a + k - 1 ∨ largestPayload s < payload)
  | .blockErase => amax < a + block - 1
  | .checksum => e < a ∨ amax < e
  | .checksums => e < a ∨ amax < e
  | .chipErase _ _ => largestPayload s < 1 + k
  | .secSet _ _ => largestPayload s < 1 + k
  | .secGet _ _ => largestPayload s < 1 + k
  | .secRelease _ _ => largestPayload s < 1 + k
  | .signature _ _ => largestPayload s < 1 + k
  | .optRead _ _ => largestPayload s < 1 + k
  | .optWrite _ _ => largestPayload s < 1 + k
  | .status _ _ => largestPayload s < 1 + k
  | .rawCmd _ _ _ _ => largestPayload s < 1 + k
  | _ => False

/-- An operand out of range is refused with PARAM, once the checks before it pass (R500), and only then does a command
complete with PARAM. -/
def Obligations.OutOfRangeOperandsAreRefused : Prop :=
  ∀ (i : Instr) (s : State), Accepted s → (i.isSession = true → SessionOpen s) →
    (∀ k ∈ configNeeds i s.prof.family, s.valid k = true) →
    (paramBad i s → exec i s = .next (s.finish s.sess .param)) ∧
    (¬ paramBad i s → ∃ t, exec i s = .next t ∧ t.err ≠ .param)

/-! ### What a command leaves unchanged -/

/-- The ops that only send, or only let time pass: nothing changes but the channel's sent bytes. -/
def Obligations.SendingOpsFrame : Prop :=
  ∀ (i : Instr) (s : State), Accepted s → (∃ m f b, i = .sendFrame m f b) ∨ i = .rawSend ∨ i = .unlock ∨ i = .delay →
    ∃ t, exec i s = .next t ∧ SameConfig s t ∧ SamePins s t ∧ SameRx s t ∧ t.ackok = s.ackok ∧ t.sess = s.sess ∧
      t.rx = s.rx ∧ t.consumed = s.consumed ∧ (i = .delay → t.sent = s.sent) ∧ (s.host = [] → SameHostSide s t)

/-- PIN, BAUD, ENTRY and END leave the receive side, ACKOK and the operands alone; PIN, BAUD and END also the channel's
bytes, and END the pins (R460, R470, R472, R530). -/
def Obligations.PinOpsFrame : Prop :=
  ∀ (i : Instr) (s : State), Accepted s → (∃ p v, i = .pin p v) ∨ i = .baud ∨ i = .entry ∨ i = .endSession →
    ∃ t, exec i s = .next t ∧ SameConfig s t ∧ SameRx s t ∧ t.ackok = s.ackok ∧ StreamReadInOrder s t ∧
      (i ≠ .entry → t.sent = s.sent ∧ t.rx = s.rx ∧ t.consumed = s.consumed) ∧
      (i = .endSession → SamePins s t) ∧ (s.host = [] → SameHostSide s t)

/-- ENCODE and DECODE leave the channel and the pins alone and store only at RX[0..RXLEN-1] (R422, R423). -/
def Obligations.OfflineCodecFrame : Prop :=
  ∀ (i : Instr) (s : State), Accepted s → (∃ m f b, i = .encode m f b) ∨ (∃ m, i = .decode m) →
    ∃ t, exec i s = .next t ∧ SameConfig s t ∧ SamePins s t ∧ t.sess = s.sess ∧ t.sent = s.sent ∧ t.rx = s.rx ∧
      t.consumed = s.consumed ∧ RxStoresOnly s t ∧
      ((∃ m f b, i = .encode m f b) → SameDiag s t ∧ t.ackok = s.ackok) ∧ (s.host = [] → SameHostSide s t)

/-- RECV_FRAME, RECV and RAW_RECV leave the pins alone, store only at RX[0..RXLEN-1] and read the stream in order;
RECV_FRAME and RAW_RECV send nothing, and RAW_RECV leaves the diagnostics and ACKOK alone (R421, R425, R505). -/
def Obligations.ReceivingOpsFrame : Prop :=
  ∀ (i : Instr) (s : State), Accepted s → (∃ m, i = .recvFrame m) ∨ (∃ m, i = .recv m) ∨ i = .rawRecv →
    ∃ t, exec i s = .next t ∧ SameConfig s t ∧ SamePins s t ∧ t.sess = s.sess ∧ RxStoresOnly s t ∧
      StreamReadInOrder s t ∧ ((∀ m, i ≠ .recv m) → t.sent = s.sent) ∧
      (i = .rawRecv → SameDiag s t ∧ t.ackok = s.ackok) ∧ (s.host = [] → SameHostSide s t)

/-- RESET and the session ops store only at RX[0..RXLEN-1] and read the stream in order; the session ops leave the pins and
the bit rate alone, and CHECKSUM and CHECKSUMS leave ACKOK alone (R510-R528). -/
def Obligations.SessionOpsFrame : Prop :=
  ∀ (i : Instr) (s : State), Accepted s → i = .reset ∨ i.isSession = true →
    ∃ t, exec i s = .next t ∧ SameConfig s t ∧ RxStoresOnly s t ∧ StreamReadInOrder s t ∧
      (i.isSession = true → SamePins s t) ∧ (i = .checksum ∨ i = .checksums → t.ackok = s.ackok) ∧
      (s.host = [] → SameHostSide s t)

/-! ### Codec -/

/-- R401: the checksum is the negated byte sum, and appending it makes the byte sum 0 modulo 256. -/
def Obligations.ChecksumClosedForm : Prop :=
  ∀ bs : List Byte,
    (csum bs).toNat = (256 - (bs.map BitVec.toNat).sum % 256) % 256 ∧
    ((bs.map BitVec.toNat).sum + (csum bs).toNat) % 256 = 0 ∧
    ((bs ++ [csum bs]).map BitVec.toNat).sum % 256 = 0

/-- R316: the payload and frame sizes of the two length-field widths, all of them reached. -/
def Obligations.FrameSizes : Prop :=
  ∀ (lenW : Bool) (m f : Byte) (x : Bool),
    (∀ p : List Byte, encodable lenW p.length = true →
      let n := (buildFrame lenW m p f x).length
      if lenW then 1 ≤ p.length ∧ p.length ≤ 65535 ∧ 6 ≤ n ∧ n ≤ 65540
      else 1 ≤ p.length ∧ p.length ≤ 256 ∧ 5 ≤ n ∧ n ≤ 260) ∧
    (∀ n, (if lenW then 6 ≤ n ∧ n ≤ 65540 else 5 ≤ n ∧ n ≤ 260) →
      ∃ p : List Byte, encodable lenW p.length = true ∧ (buildFrame lenW m p f x).length = n)

/-- SEND_FRAME, RAW_SEND and UNLOCK complete and send exactly their bytes: the frame of R403 with the marker, footer and
corruption of the operands (R420), TX[0..TXLEN-1] (R424), and the 11 bytes of the unlock exchange (R473). -/
def Obligations.SendingOpsSendTheirBytes : Prop :=
  ∀ s : State, Accepted s →
    (∀ msel ftr fbc, 1 ≤ s.txlen.toNat → s.txlen.toNat ≤ largestPayload s →
      ∃ t, exec (.sendFrame msel ftr fbc) s = .next t ∧ Completed t .none ∧
        t.sent = s.sent ++ buildFrame s.prof.lenW (if msel then s.prof.stxTx else 0x01) s.txPayload
          (if ftr then 0x17 else 0x03) fbc) ∧
    (∃ t, exec .rawSend s = .next t ∧ Completed t .none ∧ t.sent = s.sent ++ s.txPayload) ∧
    (s.prof.family = .alt → (∀ k ∈ [3, 4, 5, 6], s.valid k = true) →
      ∃ t, exec .unlock s = .next t ∧ Completed t .none ∧
        t.sent = s.sent ++ [s.prof.unlockCmd, s.prof.lockAddr.extractLsb' 16 8, s.prof.lockAddr.extractLsb' 8 8,
          s.prof.lockAddr.extractLsb' 0 8, s.prof.keyLo.extractLsb' 0 8, s.prof.keyLo.extractLsb' 8 8,
          s.prof.keyLo.extractLsb' 16 8, s.prof.keyLo.extractLsb' 24 8, s.prof.keyHi.extractLsb' 0 8,
          s.prof.keyHi.extractLsb' 8 8, s.prof.keyHi.extractLsb' 16 8])

/-- A built frame byte by byte: marker, length field big-endian, payload, checksum (plus 1 if corrupted), footer (R310-R314,
R403); the frames the controller builds itself, with the marker SOH and ETX, or STX_TX and the footer DFTR selects (R404);
and an address range, start before end, each ADDR_W bytes big-endian (R315). -/
def Obligations.FrameLayout : Prop :=
  (∀ (lenW : Bool) (m f : Byte) (p : List Byte) (x : Bool), encodable lenW p.length = true →
    let frame := buildFrame lenW m p f x
    let k := if lenW then 2 else 1
    frame.length = k + p.length + 3 ∧ frame[0]? = some m ∧
    (lenW = false → (frame[1]?.map BitVec.toNat) = some (p.length % 256)) ∧
    (lenW = true → (frame[1]?.map BitVec.toNat) = some (p.length / 256) ∧
      (frame[2]?.map BitVec.toNat) = some (p.length % 256)) ∧
    (∀ j, j < p.length → frame[1 + k + j]? = p[j]?) ∧
    frame[1 + k + p.length]? = some (csum ((frame.drop 1).take (k + p.length)) + (if x then 1 else 0)) ∧
    frame[2 + k + p.length]? = some f) ∧
  (∀ (s : State) (p : List Byte), s.cmdFrame p = buildFrame s.prof.lenW 0x01 p 0x03 false ∧
    s.dataFrame p = buildFrame s.prof.lenW s.prof.stxTx p (if s.prof.dftr then 0x03 else 0x17) false) ∧
  (∀ (s : State) (a e : Nat),
    let w := s.prof.addrW.toNat
    (s.range a e).length = 2 * w ∧
    ∀ j, j < w → ((s.range a e)[j]?.map BitVec.toNat) = some (a / 256 ^ (w - 1 - j) % 256) ∧
      ((s.range a e)[w + j]?.map BitVec.toNat) = some (e / 256 ^ (w - 1 - j) % 256))

/-- ENCODE stores in RXBUF the frame SEND_FRAME would send, or ends with OVERFLOW and RXLEN = 0 when it does not fit
(R422). -/
def Obligations.EncodeStoresTheFrame : Prop :=
  ∀ (s : State) (msel ftr fbc : Bool), Accepted s → 1 ≤ s.txlen.toNat → s.txlen.toNat ≤ largestPayload s →
    let frame := buildFrame s.prof.lenW (if msel then s.prof.stxTx else 0x01) s.txPayload (if ftr then 0x17 else 0x03) fbc
    (frame.length ≤ 65536 → ∃ t, exec (.encode msel ftr fbc) s = .next t ∧ Completed t .none ∧ RxHoldsRaw t frame) ∧
    (65536 < frame.length → ∃ t, exec (.encode msel ftr fbc) s = .next t ∧ Completed t .overflow ∧ RxHoldsRaw t [])

/-- What a successful decode attempt leaves behind (R411, R421): the payload in RXBUF, ACKOK by the response check, LASTST,
SKIPCNT and DIAG. -/
structure DecodedAs (s t : State) (skipped : Nat) (p : List Byte) (f : Byte) : Prop where
  rx : RxHolds t [p]
  ackok : t.ackok = (s.valid 1 && (p.head? == some s.prof.ackCode))
  lastst : t.lastst = ⟨p.headD 0, true⟩
  skipcnt : t.skipcnt.toNat = skipped
  diag : t.diag = ⟨csum (lenField s.prof.lenW p.length ++ p), csum (lenField s.prof.lenW p.length ++ p), f, true⟩

/-- DECODE of a TXBUF that holds junk, a frame and anything after it returns the frame's payload (R413, R423). -/
def Obligations.DecodeReturnsThePayload : Prop :=
  ∀ (s : State) (msel : Bool) (junk p after : List Byte) (f : Byte), Accepted s →
    let m := if msel then s.prof.stxRx else 0x01
    Junk m junk → encodable s.prof.lenW p.length = true → f = 0x03 ∨ f = 0x17 →
    s.txPayload = junk ++ buildFrame s.prof.lenW m p f false ++ after →
    ∃ t, exec (.decode msel) s = .next t ∧ Completed t .none ∧ DecodedAs s t junk.length p f

/-- A decode attempt, from TXBUF or from the channel, on a frame of which only the checksum byte, or only the footer, was
changed (R414): INVALID_CHECKSUM, and INVALID_FOOTER. -/
def Obligations.CorruptedFramesAreRejected : Prop :=
  ∀ (s : State) (i : Instr) (msel : Bool) (p : List Byte) (c f : Byte), Accepted s →
    let m := if msel then s.prof.stxRx else 0x01
    let lb := lenField s.prof.lenW p.length
    let bytes := [m] ++ lb ++ p ++ [c] ++ [f]
    encodable s.prof.lenW p.length = true →
    (i = .decode msel ∧ s.txPayload = bytes) ∨ (i = .recvFrame msel ∧ ∃ rest, Queued s bytes rest) →
    (c ≠ csum (lb ++ p) → f = 0x03 ∨ f = 0x17 →
      ∃ t, exec i s = .next t ∧ Completed t .invalidChecksum ∧ RxHolds t []) ∧
    (f ≠ 0x03 → f ≠ 0x17 → ∃ t, exec i s = .next t ∧ Completed t .invalidFooter ∧ RxHolds t [])

/-- DECODE where no frame is returned, with what it leaves in SKIPCNT, DIAG and LASTST (R410, R411, R412): an empty buffer, a
first byte 0x00 or at most 256 bytes without the marker give NO_RESPONSE; 257 bytes without it, a missing length byte and a
2-byte length of 0 INVALID_HEADER; a body that ends early and a footer that is none INVALID_FOOTER; a checksum that differs
INVALID_CHECKSUM. SKIPCNT counts the discarded bytes, DIAG changes when the body was reached, LASTST never. -/
def Obligations.DecodeErrors : Prop :=
  ∀ (s : State) (msel : Bool) (bs : List Byte), Accepted s → s.txPayload = bs →
    let m := if msel then s.prof.stxRx else 0x01
    let lenW := s.prof.lenW
    let fails := fun (e : Err) (skipped : Nat) (d : Diag) => ∃ t, exec (.decode msel) s = .next t ∧ Completed t e ∧
      RxHolds t [] ∧ t.skipcnt.toNat = skipped ∧ t.diag = d ∧ t.lastst = s.lastst
    (bs.head? = some 0 → m ≠ 0 → fails .noResponse 0 s.diag) ∧
    ((∀ b ∈ bs, b ≠ m) → bs.head? ≠ some 0 → bs.length ≤ 256 → fails .noResponse bs.length s.diag) ∧
    (∀ junk after, (∀ b ∈ junk, b ≠ m) → junk.head? ≠ some 0 → junk.length = 257 → bs = junk ++ after →
      fails .invalidHeader 257 s.diag) ∧
    (∀ junk after, Junk m junk → bs = junk ++ m :: after → after.length ≤ lenW.toNat →
      fails .invalidHeader junk.length s.diag) ∧
    (∀ junk after, Junk m junk → lenW = true → bs = junk ++ m :: 0 :: 0 :: after →
      fails .invalidHeader junk.length s.diag) ∧
    (∀ junk p f k, Junk m junk → encodable lenW p.length = true → bs = junk ++ (buildFrame lenW m p f false).take k →
      lenW.toNat + 2 ≤ k → k ≤ lenW.toNat + p.length + 3 → fails .invalidFooter junk.length ⟨0, 0, 0, false⟩) ∧
    (∀ junk p c f after, Junk m junk → encodable lenW p.length = true →
      bs = junk ++ ([m] ++ lenField lenW p.length ++ p ++ [c] ++ [f]) ++ after →
      let sum := csum (lenField lenW p.length ++ p)
      (f ≠ 0x03 → f ≠ 0x17 → fails .invalidFooter junk.length ⟨c, sum, f, true⟩) ∧
      (f = 0x03 ∨ f = 0x17 → c ≠ sum → fails .invalidChecksum junk.length ⟨c, sum, f, true⟩))

/-- RECV_FRAME on a stream that holds junk and then a frame returns the payload and takes exactly those bytes (R411, R413,
R421); on an empty stream it ends with NO_RESPONSE once T_HUNT has passed since acceptance. -/
def Obligations.RecvFrameReturnsThePayload : Prop :=
  ∀ (s : State) (msel : Bool), Accepted s →
    let m := if msel then s.prof.stxRx else 0x01
    (∀ (junk p : List Byte) (f : Byte) (rest : List RxByte), Junk m junk → encodable s.prof.lenW p.length = true →
      f = 0x03 ∨ f = 0x17 → Queued s (junk ++ buildFrame s.prof.lenW m p f false) rest →
      ∃ t, exec (.recvFrame msel) s = .next t ∧ Completed t .none ∧ DecodedAs s t junk.length p f ∧ t.rx = rest) ∧
    (s.rx = [] → ∃ t, exec (.recvFrame msel) s = .next t ∧ Completed t .noResponse ∧ RxHolds t [] ∧
      (s.lags = [] → s.hid.tacc = s.now → s.time + s.prof.tHunt.toNat ≤ t.time))

/-- RECV on a stream that holds attempts it fails on, then junk and a frame, returns the payload: at its first attempt when
there are none before it, else by retrying, as long as the draws of elapsed time do not lead to the deadline (log 6). With
POLL = 1 it sends the status request before each attempt but the first, with POLL = 0 nothing (R504, R505). -/
def Obligations.RecvReturnsThePayload : Prop :=
  ∀ (s : State) (msel : Bool) (failed : List (List Byte)) (junk p : List Byte) (f : Byte) (rest : List RxByte), Accepted s →
    let m := if msel then s.prof.stxRx else 0x01
    (∀ b ∈ failed, FailedAttempt s.prof.lenW m b) →
    (failed ≠ [] → s.hid.tacc = s.now ∧ s.lags.sum < s.hid.tsnap.toNat) →
    Junk m junk → encodable s.prof.lenW p.length = true → f = 0x03 ∨ f = 0x17 →
    Queued s (failed.flatten ++ junk ++ buildFrame s.prof.lenW m p f false) rest →
    ∃ t, exec (.recv msel) s = .next t ∧ Completed t .none ∧ DecodedAs s t junk.length p f ∧ t.rx = rest ∧
      t.sent = s.sent ++ if s.prof.poll then
        (List.replicate failed.length (buildFrame s.prof.lenW 0x01 [s.opcode 13] 0x03 false)).flatten else []

/-- R508, for RECV with sends and processing taken as 0 ticks: with nothing in the stream at acceptance and a frame whose
marker arrives a ticks later, its other bytes within T_FRAME of the marker, RECV returns the payload if a < TIMEOUT; if
a >= TIMEOUT it ends with INVALID_FRAME and the frame stays in the stream. -/
def Obligations.RecvTimingLaw : Prop :=
  ∀ (s : State) (p : List Byte) (f : Byte) (a : Nat), Accepted s → s.lags = [] → s.hid.tacc = s.now → 0 < a →
    encodable s.prof.lenW p.length = true → f = 0x03 ∨ f = 0x17 →
    s.rx.map RxByte.byte = buildFrame s.prof.lenW s.prof.stxRx p f false →
    (s.rx.head?.map RxByte.arrival) = some (s.time + a) →
    (∀ x ∈ s.rx, s.time + a ≤ x.arrival ∧ (x.arrival = s.time + a ∨ x.arrival < s.time + a + s.prof.tFrame.toNat)) →
    ∃ t, exec (.recv true) s = .next t ∧
      (a < s.hid.tsnap.toNat → Completed t .none ∧ DecodedAs s t 0 p f ∧ t.rx = []) ∧
      (s.hid.tsnap.toNat ≤ a → Completed t .invalidFrame ∧ RxHolds t [] ∧ t.rx = s.rx)

/-- RECV ends with NONE or INVALID_FRAME and with no decode error, and with INVALID_FRAME only when TIMEOUT ticks have
passed since acceptance (R504, R505, R602). -/
def Obligations.RecvFailsOnlyAtItsDeadline : Prop :=
  ∀ (s : State) (msel : Bool), Accepted s →
    ∃ t, exec (.recv msel) s = .next t ∧ (t.err = .none ∨ t.err = .invalidFrame) ∧
      (t.err = .invalidFrame → t.expired ⟨s.hid.tacc, s.hid.tsnap⟩ = true)

/-- RAW_RECV stores the ARG0 bytes waiting in the stream; if the stream ends before, NO_RESPONSE, with the bytes that came
kept (R425). -/
def Obligations.RawRecvStoresTheBytes : Prop :=
  ∀ (s : State) (bs : List Byte) (rest : List RxByte), Accepted s → 1 ≤ s.arg0.toNat → s.arg0.toNat ≤ 65536 →
    Queued s bs rest →
    (bs.length = s.arg0.toNat →
      ∃ t, exec .rawRecv s = .next t ∧ Completed t .none ∧ RxHoldsRaw t bs ∧ t.rx = rest) ∧
    (bs.length < s.arg0.toNat → rest = [] →
      ∃ t, exec .rawRecv s = .next t ∧ Completed t .noResponse ∧ RxHoldsRaw t bs ∧ t.rx = [])

/-! ### Sequencer -/

/-- PIN sets its pin to its level, leaves the others, and the history gains exactly one PIN event, also when the level does
not change (R454, R470). -/
def Obligations.PinSetsOnePin : Prop :=
  ∀ (s : State) (p : Pin) (v : Bool), Accepted s →
    ∃ t, exec (.pin p v) s = .next t ∧ Completed t .none ∧ t.sess = s.sess ∧ t.rate = s.rate ∧
      t.pinMode = (if p = .mode then v else s.pinMode) ∧ t.pinReset = (if p = .reset then v else s.pinReset) ∧
      t.pinData = (if p = .data then v else s.pinData) ∧ t.pinMux = (if p = .pinmux then v else s.pinMux) ∧
      t.pinSettings = s.pinSettings ++ [(p, v)]

/-- DELAY lets at least ARG0 ticks pass, BAUD sets the bit rate to ARG0 with one BAUD event, END sets STATE to UNKNOWN; all
three complete (R471, R472, R530). -/
def Obligations.DelayBaudAndEnd : Prop :=
  ∀ s : State, Accepted s →
    (∃ t, exec .delay s = .next t ∧ Completed t .none ∧ t.sess = s.sess ∧ s.time + s.arg0.toNat ≤ t.time) ∧
    (s.arg0 ≠ 0 → ∃ t, exec .baud s = .next t ∧ Completed t .none ∧ t.sess = s.sess ∧ t.rate = s.arg0 ∧
      t.rates = s.rates ++ [s.arg0] ∧ t.pinMode = s.pinMode ∧ t.pinReset = s.pinReset ∧ t.pinData = s.pinData ∧
      t.pinMux = s.pinMux) ∧
    (∃ t, exec .endSession s = .next t ∧ Completed t .none ∧ t.sess = .unknown)

/-- The registers and the train an entry sequence needs are there (R450, R460). -/
def EntryConfigured (s : State) : Prop :=
  (∀ k ∈ configNeeds .entry s.prof.family, s.valid k = true) ∧
    (s.prof.family = .sw8 ∨ s.prof.family = .alt → s.trainClean = true)

/-- ENTRY with the bytes its handshake waits for already delivered completes: the pins, bytes and bit rate of the family's
sequence in their order, the least time of R741, and STATE = UNKNOWN (R452, R460-R464). -/
def Obligations.EntrySucceeds : Prop :=
  ∀ (s : State) (rest : List RxByte), Accepted s → EntryConfigured s → Queued s s.entryReads rest →
    ∃ t, exec .entry s = .next t ∧ Completed t .none ∧ t.sess = .unknown ∧ t.sent = s.sent ++ s.entrySends ∧
      t.pinSettings = s.pinSettings ++ s.entryPins ∧ t.rates = s.rates ++ s.entryRates ∧
      s.time + s.entryTicks ≤ t.time ∧ t.rx = rest

/-- ENTRY whose handshake fails ends with NO_RESPONSE after the same pins: SW8 and ALT on a wrong byte or on none, EXT4 on a
wrong echo of 0x55, and on 30 rounds without a 0x00, which send 30 bytes and no 0x55 (R462-R465). -/
def Obligations.EntryHandshakeFailures : Prop :=
  ∀ s : State, Accepted s → EntryConfigured s →
    let fails := fun (bytes : List Byte) (rest : List RxByte) => ∃ t, exec .entry s = .next t ∧
      Completed t .noResponse ∧ t.sess = .unknown ∧ t.sent = s.sent ++ bytes ∧
      t.pinSettings = s.pinSettings ++ s.entryPins ∧ t.rx = rest
    (∀ b rest, s.prof.family = .sw8 → Queued s [b] rest → b ≠ 0x00 → fails [] rest) ∧
    (s.prof.family = .sw8 → s.rx = [] → fails [] []) ∧
    (∀ b rest, s.prof.family = .alt → Queued s [b] rest → b ≠ s.prof.probe → fails s.entrySends rest) ∧
    (s.prof.family = .alt → s.rx = [] → fails s.entrySends []) ∧
    (∀ bs b rest, s.prof.family = .ext4 → Queued s (bs ++ [0x00, b]) rest → bs.length < 30 → (∀ x ∈ bs, x ≠ 0x00) →
      b ≠ 0xC1 → fails (List.replicate (bs.length + 1) 0x00 ++ [0x55]) rest) ∧
    (∀ bs rest, s.prof.family = .ext4 → Queued s bs rest → bs.length = 30 → (∀ x ∈ bs, x ≠ 0x00) →
      fails (List.replicate 30 0x00) rest) ∧
    (s.prof.family = .ext4 → s.rx = [] → fails (List.replicate 30 0x00) [])

/-! ### Sessions -/

/-- RESET with the handshake's bytes and, for the framed families, a response delivered: on an ACK it reaches READY with
ACKOK = 1; on another status it ends with NO_ACK and STATE = UNKNOWN; the response is in RXBUF either way. The alternate
family sends the unlock exchange and reads nothing more (R510). -/
def Obligations.ResetReachesReady : Prop :=
  ∀ (s : State) (r : Reply) (rest : List RxByte), Accepted s → EntryConfigured s →
    (∀ k ∈ configNeeds .reset s.prof.family, s.valid k = true) →
    (s.prof.family ≠ .alt → r.fits s → Queued s (s.entryReads ++ s.replyBytes [r]) rest →
      ∃ t, exec .reset s = .next t ∧ RxHolds t [r.1] ∧ t.rx = rest ∧ t.lastst = ⟨r.1.headD 0, true⟩ ∧
        t.sent = s.sent ++ s.entrySends ++ s.cmdFrame [s.opcode 0] ∧ t.pinSettings = s.pinSettings ++ s.entryPins ∧
        (r.acks s → Completed t .none ∧ t.sess = .ready ∧ t.ackok = true) ∧
        (¬ r.acks s → Completed t .noAck ∧ t.sess = .unknown ∧ t.ackok = false)) ∧
    (s.prof.family = .alt → Queued s s.entryReads rest →
      ∃ t, exec .reset s = .next t ∧ Completed t .none ∧ t.sess = .ready ∧ RxHolds t [] ∧ t.rx = rest ∧
        t.sent = s.sent ++ s.entrySends ++ s.prof.unlockBytes)

/-- READ sends the command with its range, and after an ACK one acknowledgment data frame for each data frame it waits for,
until ARG1 bytes are in RXBUF; the payloads are there in order (R511). -/
def Obligations.ReadCollectsTheData : Prop :=
  ∀ (s : State) (st : Reply) (ds : List Reply) (rest : List RxByte), Accepted s → SessionOpen s →
    (∀ k ∈ configNeeds .read s.prof.family, s.valid k = true) → ¬ paramBad .read s →
    Replies s (st :: ds) rest → st.acks s → ds ≠ [] →
    ((ds.dropLast.map Prod.fst).flatten.length < s.arg1.toNat ∧ s.arg1.toNat ≤ (ds.map Prod.fst).flatten.length ∧
      (ds.map Prod.fst).flatten.length ≤ 65536) →
    ∃ t, exec .read s = .next t ∧ Completed t .none ∧ t.sess = .ready ∧ t.ackok = true ∧ t.rx = rest ∧
      RxHolds t (ds.map Prod.fst) ∧
      t.sent = s.sent ++ s.cmdFrame (s.opcode 1 :: s.range s.arg0.toNat (s.arg0.toNat + s.arg1.toNat - 1)) ++
        (List.replicate ds.length (s.dataFrame [s.prof.ackCode])).flatten

/-- PROGRAM and VERIFY with data: the command with its range, after an ACK the data frame (with the opcode again for EXT4),
and the final status in RXBUF, which sets ACKOK and does not fail the op (R317, R512, R513). VERIFY without data completes
with no traffic. -/
def Obligations.ProgramAndVerifyTransfer : Prop :=
  (∀ (s : State) (i : Instr) (k : Fin 14) (st fin : Reply) (rest : List RxByte), Accepted s → SessionOpen s →
    (i = .program ∧ k = 2) ∨ (i = .verify ∧ k = 3 ∧ 1 ≤ s.txlen.toNat) →
    (∀ b ∈ configNeeds i s.prof.family, s.valid b = true) → ¬ paramBad i s → Replies s [st, fin] rest → st.acks s →
    ∃ t, exec i s = .next t ∧ Completed t .none ∧ t.sess = .ready ∧ t.ackok = s.chkReturn fin.1 ∧ t.rx = rest ∧
      RxHolds t [fin.1] ∧
      t.sent = s.sent ++ s.cmdFrame (s.opcode k :: s.range s.arg0.toNat (s.arg0.toNat + s.txlen.toNat - 1)) ++
        s.dataFrame (if s.prof.family = .ext4 then s.opcode k :: s.txPayload else s.txPayload)) ∧
  (∀ s : State, Accepted s → SessionOpen s → (∀ b ∈ [19, 1], s.valid b = true) → s.txlen = 0 →
    ∃ t, exec .verify s = .next t ∧ Completed t .none ∧ t.sess = .ready ∧ t.ackok = false ∧ RxHolds t [] ∧
      t.sent = s.sent ∧ t.rx = s.rx)

/-- BLOCK_ERASE sends the range of one block at ARG0 and completes when both statuses are ACK, both in RXBUF (R133, R514). -/
def Obligations.BlockEraseNeedsTwoAcks : Prop :=
  ∀ (s : State) (s1 s2 : Reply) (rest : List RxByte), Accepted s → SessionOpen s →
    (∀ b ∈ configNeeds .blockErase s.prof.family, s.valid b = true) → ¬ paramBad .blockErase s → s1.acks s →
    Replies s [s1, s2] rest → s1.1.length + s2.1.length ≤ 65536 →
    ∃ t, exec .blockErase s = .next t ∧ t.sess = .ready ∧ t.rx = rest ∧ RxHolds t [s1.1, s2.1] ∧
      (s2.acks s → Completed t .none ∧ t.ackok = true) ∧ (¬ s2.acks s → Completed t .noAck ∧ t.ackok = false) ∧
      t.sent = s.sent ++ s.cmdFrame (s.opcode 4 :: s.range s.arg0.toNat (s.arg0.toNat +
        (if s.arg0.toNat < s.prof.blkSplit.toNat then s.prof.blkA.toNat else s.prof.blkB.toNat) - 1))

/-- CHECKSUM sends one command over [ARG0, ARG1]; CHECKSUMS one for each 256-byte window from ARG0, the last clipped to
ARG1; each answer is in RXBUF (R515, R516). -/
def Obligations.ChecksumsCoverTheRange : Prop :=
  ∀ (s : State) (rs : List Reply) (rest : List RxByte), Accepted s → SessionOpen s → s.valid 21 = true →
    ¬ paramBad .checksum s → Replies s rs rest → (rs.map Prod.fst).flatten.length ≤ 65536 →
    let a := s.arg0.toNat
    let e := s.arg1.toNat
    let answered := fun (i : Instr) (ranges : List (Nat × Nat)) => rs.length = ranges.length →
      ∃ t, exec i s = .next t ∧ Completed t .none ∧ t.sess = .ready ∧ t.ackok = false ∧ t.rx = rest ∧
        RxHolds t (rs.map Prod.fst) ∧
        t.sent = s.sent ++ (ranges.map fun r => s.cmdFrame (s.opcode 5 :: s.range r.1 r.2)).flatten
    answered .checksum [(a, e)] ∧
    answered .checksums ((List.range ((e - a) / 256 + 1)).map fun k => (a + 256 * k, min (a + 256 * k + 255) e))

/-- The opcode register of an exchange op, none for RAW_CMD (R520-R528), with its operands NRESP and CHK. -/
def exchangeOperands : Instr → Option (Option (Fin 14) × BitVec 3 × Bool)
  | .chipErase n c => some (some 6, n, c)
  | .secSet n c => some (some 7, n, c)
  | .secGet n c => some (some 8, n, c)
  | .secRelease n c => some (some 9, n, c)
  | .signature n c => some (some 10, n, c)
  | .optRead n c => some (some 11, n, c)
  | .optWrite n c => some (some 12, n, c)
  | .status n c => some (some 13, n, c)
  | .rawCmd _ n c _ => some (none, n, c)
  | _ => none

/-- The frame an exchange op sends (R519): its opcode and TX[0..TXLEN-1], the checksum corrupted for RAW_CMD with FBC = 1. -/
def exchangeFrame (s : State) : Instr → List Byte
  | .rawCmd imm _ _ fbc => buildFrame s.prof.lenW 0x01 (imm :: s.txPayload) 0x03 fbc
  | i => match exchangeOperands i with
    | some (some k, _, _) => s.cmdFrame (s.opcode k :: s.txPayload)
    | _ => []

/-- The nine exchange ops send one command frame and receive NRESP responses, all in RXBUF; ACKOK is the check of the first
(R519-R528). -/
def Obligations.ExchangeOpsReceiveTheirResponses : Prop :=
  ∀ (i : Instr) (s : State) (k : Option (Fin 14)) (n : BitVec 3) (chk : Bool) (rs : List Reply) (rest : List RxByte),
    exchangeOperands i = some (k, n, chk) → Accepted s → SessionOpen s →
    (∀ b ∈ configNeeds i s.prof.family, s.valid b = true) → ¬ paramBad i s → Replies s rs rest →
    rs.length = n.toNat → (rs.map Prod.fst).flatten.length ≤ 65536 →
    (chk = true → ∀ r ∈ rs.head?, r.acks s) →
    ∃ t, exec i s = .next t ∧ Completed t .none ∧ t.sess = .ready ∧ t.rx = rest ∧ RxHolds t (rs.map Prod.fst) ∧
      t.ackok = (s.valid 1 && rs.head?.any fun r => s.chkReturn r.1) ∧ t.sent = s.sent ++ exchangeFrame s i

/-- A first status that is not ACK ends READ, PROGRAM, VERIFY and BLOCK_ERASE, and the exchange ops with CHK = 1, with
NO_ACK; the command frame has been sent once and nothing more (R511-R514, R519, R724), and STATE is READY. -/
def Obligations.NackEndsSessionOps : Prop :=
  ∀ (i : Instr) (s : State) (r : Reply) (rest : List RxByte), Accepted s → SessionOpen s →
    (∀ b ∈ configNeeds i s.prof.family, s.valid b = true) → ¬ paramBad i s → Replies s [r] rest → ¬ r.acks s →
    let a := s.arg0.toNat
    let nack := fun (frame : List Byte) (stored : List (List Byte)) => ∃ t, exec i s = .next t ∧ Completed t .noAck ∧
      t.sess = .ready ∧ t.ackok = false ∧ t.rx = rest ∧ RxHolds t stored ∧ t.lastst = ⟨r.1.headD 0, true⟩ ∧
      t.sent = s.sent ++ frame
    (i = .read → nack (s.cmdFrame (s.opcode 1 :: s.range a (a + s.arg1.toNat - 1))) []) ∧
    (i = .program → nack (s.cmdFrame (s.opcode 2 :: s.range a (a + s.txlen.toNat - 1))) []) ∧
    (i = .verify → s.txlen ≠ 0 → nack (s.cmdFrame (s.opcode 3 :: s.range a (a + s.txlen.toNat - 1))) []) ∧
    (i = .blockErase → nack (s.cmdFrame (s.opcode 4 :: s.range a (a + s.blockSize a - 1))) [r.1]) ∧
    (∀ k n, exchangeOperands i = some (k, n, true) → n ≠ 0 → nack (exchangeFrame s i) [r.1])

/-- R724: PROGRAM, VERIFY, BLOCK_ERASE, CHIP_ERASE and OPT_WRITE send their command frame at most once, whatever the device
answers: without POLL the bytes sent are nothing, the command frame, or for PROGRAM and VERIFY the command frame and the
data frame once. -/
def Obligations.NoFlashCommandIsRepeated : Prop :=
  ∀ (i : Instr) (s : State), Accepted s → s.prof.poll = false →
    let a := s.arg0.toNat
    let sends := fun (cmd data : List Byte) => ∃ t, exec i s = .next t ∧
      (t.sent = s.sent ∨ t.sent = s.sent ++ cmd ∨ t.sent = s.sent ++ cmd ++ data)
    (i = .program → sends (s.cmdFrame (s.opcode 2 :: s.range a (a + s.txlen.toNat - 1)))
      (s.dataFrame (if s.prof.family = .ext4 then s.opcode 2 :: s.txPayload else s.txPayload))) ∧
    (i = .verify → sends (s.cmdFrame (s.opcode 3 :: s.range a (a + s.txlen.toNat - 1)))
      (s.dataFrame (if s.prof.family = .ext4 then s.opcode 3 :: s.txPayload else s.txPayload))) ∧
    (i = .blockErase → sends (s.cmdFrame (s.opcode 4 :: s.range a (a + s.blockSize a - 1))) []) ∧
    ((∃ n c, i = .chipErase n c ∨ i = .optWrite n c) → sends (exchangeFrame s i) [])
end

