-- ==== Sys2Proof/Laws/State.lean ====
section
/-! SUPPORT. One lemma per field of State and named update, true by rfl, so that no proof unfolds a record update. -/

namespace Sys2Proof.Machine

/-! ### accept -/
@[simp] theorem State.accept_cmd (s : State) (w : Word) : (s.accept w).cmd = w := rfl
@[simp] theorem State.accept_busy (s : State) (w : Word) : (s.accept w).busy = true := rfl
@[simp] theorem State.accept_done (s : State) (w : Word) : (s.accept w).done = false := rfl
@[simp] theorem State.accept_ackok (s : State) (w : Word) : (s.accept w).ackok = false := rfl
@[simp] theorem State.accept_wign (s : State) (w : Word) : (s.accept w).wign = s.wign := rfl
@[simp] theorem State.accept_ovr (s : State) (w : Word) : (s.accept w).ovr = s.ovr := rfl
@[simp] theorem State.accept_err (s : State) (w : Word) : (s.accept w).err = .none := rfl
@[simp] theorem State.accept_sess (s : State) (w : Word) : (s.accept w).sess = s.sess := rfl
@[simp] theorem State.accept_pinMode (s : State) (w : Word) : (s.accept w).pinMode = s.pinMode := rfl
@[simp] theorem State.accept_pinReset (s : State) (w : Word) : (s.accept w).pinReset = s.pinReset := rfl
@[simp] theorem State.accept_pinData (s : State) (w : Word) : (s.accept w).pinData = s.pinData := rfl
@[simp] theorem State.accept_pinMux (s : State) (w : Word) : (s.accept w).pinMux = s.pinMux := rfl
@[simp] theorem State.accept_ie (s : State) (w : Word) : (s.accept w).ie = s.ie := rfl
@[simp] theorem State.accept_arg0 (s : State) (w : Word) : (s.accept w).arg0 = s.arg0 := rfl
@[simp] theorem State.accept_arg1 (s : State) (w : Word) : (s.accept w).arg1 = s.arg1 := rfl
@[simp] theorem State.accept_txlen (s : State) (w : Word) : (s.accept w).txlen = s.txlen := rfl
@[simp] theorem State.accept_rxlen (s : State) (w : Word) : (s.accept w).rxlen = s.rxlen := rfl
@[simp] theorem State.accept_rxframes (s : State) (w : Word) : (s.accept w).rxframes = s.rxframes := rfl
@[simp] theorem State.accept_rxflen (s : State) (w : Word) : (s.accept w).rxflen = s.rxflen := rfl
@[simp] theorem State.accept_timeout (s : State) (w : Word) : (s.accept w).timeout = s.timeout := rfl
@[simp] theorem State.accept_cfgvalid (s : State) (w : Word) : (s.accept w).cfgvalid = s.cfgvalid := rfl
@[simp] theorem State.accept_lastst (s : State) (w : Word) : (s.accept w).lastst = s.lastst := rfl
@[simp] theorem State.accept_diag (s : State) (w : Word) : (s.accept w).diag = s.diag := rfl
@[simp] theorem State.accept_skipcnt (s : State) (w : Word) : (s.accept w).skipcnt = s.skipcnt := rfl
@[simp] theorem State.accept_prof (s : State) (w : Word) : (s.accept w).prof = s.prof := rfl
@[simp] theorem State.accept_mem (s : State) (w : Word) : (s.accept w).mem = s.mem := rfl
@[simp] theorem State.accept_rate (s : State) (w : Word) : (s.accept w).rate = s.rate := rfl
@[simp] theorem State.accept_hid (s : State) (w : Word) : (s.accept w).hid = { s.hid with tsnap := s.timeout, tacc := s.now } := rfl
@[simp] theorem State.accept_rx (s : State) (w : Word) : (s.accept w).rx = s.rx := rfl
@[simp] theorem State.accept_events (s : State) (w : Word) : (s.accept w).events = s.events := rfl
@[simp] theorem State.accept_time (s : State) (w : Word) : (s.accept w).time = s.time := rfl
@[simp] theorem State.accept_host (s : State) (w : Word) : (s.accept w).host = s.host := rfl
@[simp] theorem State.accept_lags (s : State) (w : Word) : (s.accept w).lags = s.lags := rfl
@[simp] theorem State.accept_resp (s : State) (w : Word) : (s.accept w).resp = s.resp := rfl
@[simp] theorem State.accept_draws (s : State) (w : Word) : (s.accept w).draws = s.draws := rfl
@[simp] theorem State.accept_epoch (s : State) (w : Word) : (s.accept w).epoch = s.epoch := rfl

/-! ### finish -/
@[simp] theorem State.finish_cmd (s : State) (q : Sess) (e : Err) : (s.finish q e).cmd = s.cmd := rfl
@[simp] theorem State.finish_busy (s : State) (q : Sess) (e : Err) : (s.finish q e).busy = false := rfl
@[simp] theorem State.finish_done (s : State) (q : Sess) (e : Err) : (s.finish q e).done = true := rfl
@[simp] theorem State.finish_ackok (s : State) (q : Sess) (e : Err) : (s.finish q e).ackok = s.ackok := rfl
@[simp] theorem State.finish_wign (s : State) (q : Sess) (e : Err) : (s.finish q e).wign = s.wign := rfl
@[simp] theorem State.finish_ovr (s : State) (q : Sess) (e : Err) : (s.finish q e).ovr = s.ovr := rfl
@[simp] theorem State.finish_err (s : State) (q : Sess) (e : Err) : (s.finish q e).err = e := rfl
@[simp] theorem State.finish_sess (s : State) (q : Sess) (e : Err) : (s.finish q e).sess = q := rfl
@[simp] theorem State.finish_pinMode (s : State) (q : Sess) (e : Err) : (s.finish q e).pinMode = s.pinMode := rfl
@[simp] theorem State.finish_pinReset (s : State) (q : Sess) (e : Err) : (s.finish q e).pinReset = s.pinReset := rfl
@[simp] theorem State.finish_pinData (s : State) (q : Sess) (e : Err) : (s.finish q e).pinData = s.pinData := rfl
@[simp] theorem State.finish_pinMux (s : State) (q : Sess) (e : Err) : (s.finish q e).pinMux = s.pinMux := rfl
@[simp] theorem State.finish_ie (s : State) (q : Sess) (e : Err) : (s.finish q e).ie = s.ie := rfl
@[simp] theorem State.finish_arg0 (s : State) (q : Sess) (e : Err) : (s.finish q e).arg0 = s.arg0 := rfl
@[simp] theorem State.finish_arg1 (s : State) (q : Sess) (e : Err) : (s.finish q e).arg1 = s.arg1 := rfl
@[simp] theorem State.finish_txlen (s : State) (q : Sess) (e : Err) : (s.finish q e).txlen = s.txlen := rfl
@[simp] theorem State.finish_rxlen (s : State) (q : Sess) (e : Err) : (s.finish q e).rxlen = s.rxlen := rfl
@[simp] theorem State.finish_rxframes (s : State) (q : Sess) (e : Err) : (s.finish q e).rxframes = s.rxframes := rfl
@[simp] theorem State.finish_rxflen (s : State) (q : Sess) (e : Err) : (s.finish q e).rxflen = s.rxflen := rfl
@[simp] theorem State.finish_timeout (s : State) (q : Sess) (e : Err) : (s.finish q e).timeout = s.timeout := rfl
@[simp] theorem State.finish_cfgvalid (s : State) (q : Sess) (e : Err) : (s.finish q e).cfgvalid = s.cfgvalid := rfl
@[simp] theorem State.finish_lastst (s : State) (q : Sess) (e : Err) : (s.finish q e).lastst = s.lastst := rfl
@[simp] theorem State.finish_diag (s : State) (q : Sess) (e : Err) : (s.finish q e).diag = s.diag := rfl
@[simp] theorem State.finish_skipcnt (s : State) (q : Sess) (e : Err) : (s.finish q e).skipcnt = s.skipcnt := rfl
@[simp] theorem State.finish_prof (s : State) (q : Sess) (e : Err) : (s.finish q e).prof = s.prof := rfl
@[simp] theorem State.finish_mem (s : State) (q : Sess) (e : Err) : (s.finish q e).mem = s.mem := rfl
@[simp] theorem State.finish_rate (s : State) (q : Sess) (e : Err) : (s.finish q e).rate = s.rate := rfl
@[simp] theorem State.finish_hid (s : State) (q : Sess) (e : Err) : (s.finish q e).hid = s.hid := rfl
@[simp] theorem State.finish_rx (s : State) (q : Sess) (e : Err) : (s.finish q e).rx = s.rx := rfl
@[simp] theorem State.finish_events (s : State) (q : Sess) (e : Err) : (s.finish q e).events = s.events ++ [.done e s.now] := rfl
@[simp] theorem State.finish_time (s : State) (q : Sess) (e : Err) : (s.finish q e).time = s.time := rfl
@[simp] theorem State.finish_host (s : State) (q : Sess) (e : Err) : (s.finish q e).host = s.host := rfl
@[simp] theorem State.finish_lags (s : State) (q : Sess) (e : Err) : (s.finish q e).lags = s.lags := rfl
@[simp] theorem State.finish_resp (s : State) (q : Sess) (e : Err) : (s.finish q e).resp = s.resp := rfl
@[simp] theorem State.finish_draws (s : State) (q : Sess) (e : Err) : (s.finish q e).draws = s.draws := rfl
@[simp] theorem State.finish_epoch (s : State) (q : Sess) (e : Err) : (s.finish q e).epoch = s.epoch := rfl

/-! ### record -/
@[simp] theorem State.record_cmd (s : State) (e : Event) : (s.record e).cmd = s.cmd := rfl
@[simp] theorem State.record_busy (s : State) (e : Event) : (s.record e).busy = s.busy := rfl
@[simp] theorem State.record_done (s : State) (e : Event) : (s.record e).done = s.done := rfl
@[simp] theorem State.record_ackok (s : State) (e : Event) : (s.record e).ackok = s.ackok := rfl
@[simp] theorem State.record_wign (s : State) (e : Event) : (s.record e).wign = s.wign := rfl
@[simp] theorem State.record_ovr (s : State) (e : Event) : (s.record e).ovr = s.ovr := rfl
@[simp] theorem State.record_err (s : State) (e : Event) : (s.record e).err = s.err := rfl
@[simp] theorem State.record_sess (s : State) (e : Event) : (s.record e).sess = s.sess := rfl
@[simp] theorem State.record_pinMode (s : State) (e : Event) : (s.record e).pinMode = s.pinMode := rfl
@[simp] theorem State.record_pinReset (s : State) (e : Event) : (s.record e).pinReset = s.pinReset := rfl
@[simp] theorem State.record_pinData (s : State) (e : Event) : (s.record e).pinData = s.pinData := rfl
@[simp] theorem State.record_pinMux (s : State) (e : Event) : (s.record e).pinMux = s.pinMux := rfl
@[simp] theorem State.record_ie (s : State) (e : Event) : (s.record e).ie = s.ie := rfl
@[simp] theorem State.record_arg0 (s : State) (e : Event) : (s.record e).arg0 = s.arg0 := rfl
@[simp] theorem State.record_arg1 (s : State) (e : Event) : (s.record e).arg1 = s.arg1 := rfl
@[simp] theorem State.record_txlen (s : State) (e : Event) : (s.record e).txlen = s.txlen := rfl
@[simp] theorem State.record_rxlen (s : State) (e : Event) : (s.record e).rxlen = s.rxlen := rfl
@[simp] theorem State.record_rxframes (s : State) (e : Event) : (s.record e).rxframes = s.rxframes := rfl
@[simp] theorem State.record_rxflen (s : State) (e : Event) : (s.record e).rxflen = s.rxflen := rfl
@[simp] theorem State.record_timeout (s : State) (e : Event) : (s.record e).timeout = s.timeout := rfl
@[simp] theorem State.record_cfgvalid (s : State) (e : Event) : (s.record e).cfgvalid = s.cfgvalid := rfl
@[simp] theorem State.record_lastst (s : State) (e : Event) : (s.record e).lastst = s.lastst := rfl
@[simp] theorem State.record_diag (s : State) (e : Event) : (s.record e).diag = s.diag := rfl
@[simp] theorem State.record_skipcnt (s : State) (e : Event) : (s.record e).skipcnt = s.skipcnt := rfl
@[simp] theorem State.record_prof (s : State) (e : Event) : (s.record e).prof = s.prof := rfl
@[simp] theorem State.record_mem (s : State) (e : Event) : (s.record e).mem = s.mem := rfl
@[simp] theorem State.record_rate (s : State) (e : Event) : (s.record e).rate = s.rate := rfl
@[simp] theorem State.record_hid (s : State) (e : Event) : (s.record e).hid = s.hid := rfl
@[simp] theorem State.record_rx (s : State) (e : Event) : (s.record e).rx = s.rx := rfl
@[simp] theorem State.record_events (s : State) (e : Event) : (s.record e).events = s.events ++ [e] := rfl
@[simp] theorem State.record_time (s : State) (e : Event) : (s.record e).time = s.time := rfl
@[simp] theorem State.record_host (s : State) (e : Event) : (s.record e).host = s.host := rfl
@[simp] theorem State.record_lags (s : State) (e : Event) : (s.record e).lags = s.lags := rfl
@[simp] theorem State.record_resp (s : State) (e : Event) : (s.record e).resp = s.resp := rfl
@[simp] theorem State.record_draws (s : State) (e : Event) : (s.record e).draws = s.draws := rfl
@[simp] theorem State.record_epoch (s : State) (e : Event) : (s.record e).epoch = s.epoch := rfl

/-! ### respond -/
@[simp] theorem State.respond_cmd (s : State) (r : BusResp) : (s.respond r).cmd = s.cmd := rfl
@[simp] theorem State.respond_busy (s : State) (r : BusResp) : (s.respond r).busy = s.busy := rfl
@[simp] theorem State.respond_done (s : State) (r : BusResp) : (s.respond r).done = s.done := rfl
@[simp] theorem State.respond_ackok (s : State) (r : BusResp) : (s.respond r).ackok = s.ackok := rfl
@[simp] theorem State.respond_wign (s : State) (r : BusResp) : (s.respond r).wign = s.wign := rfl
@[simp] theorem State.respond_ovr (s : State) (r : BusResp) : (s.respond r).ovr = s.ovr := rfl
@[simp] theorem State.respond_err (s : State) (r : BusResp) : (s.respond r).err = s.err := rfl
@[simp] theorem State.respond_sess (s : State) (r : BusResp) : (s.respond r).sess = s.sess := rfl
@[simp] theorem State.respond_pinMode (s : State) (r : BusResp) : (s.respond r).pinMode = s.pinMode := rfl
@[simp] theorem State.respond_pinReset (s : State) (r : BusResp) : (s.respond r).pinReset = s.pinReset := rfl
@[simp] theorem State.respond_pinData (s : State) (r : BusResp) : (s.respond r).pinData = s.pinData := rfl
@[simp] theorem State.respond_pinMux (s : State) (r : BusResp) : (s.respond r).pinMux = s.pinMux := rfl
@[simp] theorem State.respond_ie (s : State) (r : BusResp) : (s.respond r).ie = s.ie := rfl
@[simp] theorem State.respond_arg0 (s : State) (r : BusResp) : (s.respond r).arg0 = s.arg0 := rfl
@[simp] theorem State.respond_arg1 (s : State) (r : BusResp) : (s.respond r).arg1 = s.arg1 := rfl
@[simp] theorem State.respond_txlen (s : State) (r : BusResp) : (s.respond r).txlen = s.txlen := rfl
@[simp] theorem State.respond_rxlen (s : State) (r : BusResp) : (s.respond r).rxlen = s.rxlen := rfl
@[simp] theorem State.respond_rxframes (s : State) (r : BusResp) : (s.respond r).rxframes = s.rxframes := rfl
@[simp] theorem State.respond_rxflen (s : State) (r : BusResp) : (s.respond r).rxflen = s.rxflen := rfl
@[simp] theorem State.respond_timeout (s : State) (r : BusResp) : (s.respond r).timeout = s.timeout := rfl
@[simp] theorem State.respond_cfgvalid (s : State) (r : BusResp) : (s.respond r).cfgvalid = s.cfgvalid := rfl
@[simp] theorem State.respond_lastst (s : State) (r : BusResp) : (s.respond r).lastst = s.lastst := rfl
@[simp] theorem State.respond_diag (s : State) (r : BusResp) : (s.respond r).diag = s.diag := rfl
@[simp] theorem State.respond_skipcnt (s : State) (r : BusResp) : (s.respond r).skipcnt = s.skipcnt := rfl
@[simp] theorem State.respond_prof (s : State) (r : BusResp) : (s.respond r).prof = s.prof := rfl
@[simp] theorem State.respond_mem (s : State) (r : BusResp) : (s.respond r).mem = s.mem := rfl
@[simp] theorem State.respond_rate (s : State) (r : BusResp) : (s.respond r).rate = s.rate := rfl
@[simp] theorem State.respond_hid (s : State) (r : BusResp) : (s.respond r).hid = s.hid := rfl
@[simp] theorem State.respond_rx (s : State) (r : BusResp) : (s.respond r).rx = s.rx := rfl
@[simp] theorem State.respond_events (s : State) (r : BusResp) : (s.respond r).events = s.events := rfl
@[simp] theorem State.respond_time (s : State) (r : BusResp) : (s.respond r).time = s.time := rfl
@[simp] theorem State.respond_host (s : State) (r : BusResp) : (s.respond r).host = s.host := rfl
@[simp] theorem State.respond_lags (s : State) (r : BusResp) : (s.respond r).lags = s.lags := rfl
@[simp] theorem State.respond_resp (s : State) (r : BusResp) : (s.respond r).resp = s.resp ++ [r] := rfl
@[simp] theorem State.respond_draws (s : State) (r : BusResp) : (s.respond r).draws = s.draws := rfl
@[simp] theorem State.respond_epoch (s : State) (r : BusResp) : (s.respond r).epoch = s.epoch := rfl

/-! ### take -/
@[simp] theorem State.take_cmd (s : State) (h : HostInput) (hs : List HostInput) : (s.take h hs).cmd = s.cmd := rfl
@[simp] theorem State.take_busy (s : State) (h : HostInput) (hs : List HostInput) : (s.take h hs).busy = s.busy := rfl
@[simp] theorem State.take_done (s : State) (h : HostInput) (hs : List HostInput) : (s.take h hs).done = s.done := rfl
@[simp] theorem State.take_ackok (s : State) (h : HostInput) (hs : List HostInput) : (s.take h hs).ackok = s.ackok := rfl
@[simp] theorem State.take_wign (s : State) (h : HostInput) (hs : List HostInput) : (s.take h hs).wign = s.wign := rfl
@[simp] theorem State.take_ovr (s : State) (h : HostInput) (hs : List HostInput) : (s.take h hs).ovr = s.ovr := rfl
@[simp] theorem State.take_err (s : State) (h : HostInput) (hs : List HostInput) : (s.take h hs).err = s.err := rfl
@[simp] theorem State.take_sess (s : State) (h : HostInput) (hs : List HostInput) : (s.take h hs).sess = s.sess := rfl
@[simp] theorem State.take_pinMode (s : State) (h : HostInput) (hs : List HostInput) : (s.take h hs).pinMode = s.pinMode := rfl
@[simp] theorem State.take_pinReset (s : State) (h : HostInput) (hs : List HostInput) : (s.take h hs).pinReset = s.pinReset := rfl
@[simp] theorem State.take_pinData (s : State) (h : HostInput) (hs : List HostInput) : (s.take h hs).pinData = s.pinData := rfl
@[simp] theorem State.take_pinMux (s : State) (h : HostInput) (hs : List HostInput) : (s.take h hs).pinMux = s.pinMux := rfl
@[simp] theorem State.take_ie (s : State) (h : HostInput) (hs : List HostInput) : (s.take h hs).ie = s.ie := rfl
@[simp] theorem State.take_arg0 (s : State) (h : HostInput) (hs : List HostInput) : (s.take h hs).arg0 = s.arg0 := rfl
@[simp] theorem State.take_arg1 (s : State) (h : HostInput) (hs : List HostInput) : (s.take h hs).arg1 = s.arg1 := rfl
@[simp] theorem State.take_txlen (s : State) (h : HostInput) (hs : List HostInput) : (s.take h hs).txlen = s.txlen := rfl
@[simp] theorem State.take_rxlen (s : State) (h : HostInput) (hs : List HostInput) : (s.take h hs).rxlen = s.rxlen := rfl
@[simp] theorem State.take_rxframes (s : State) (h : HostInput) (hs : List HostInput) : (s.take h hs).rxframes = s.rxframes := rfl
@[simp] theorem State.take_rxflen (s : State) (h : HostInput) (hs : List HostInput) : (s.take h hs).rxflen = s.rxflen := rfl
@[simp] theorem State.take_timeout (s : State) (h : HostInput) (hs : List HostInput) : (s.take h hs).timeout = s.timeout := rfl
@[simp] theorem State.take_cfgvalid (s : State) (h : HostInput) (hs : List HostInput) : (s.take h hs).cfgvalid = s.cfgvalid := rfl
@[simp] theorem State.take_lastst (s : State) (h : HostInput) (hs : List HostInput) : (s.take h hs).lastst = s.lastst := rfl
@[simp] theorem State.take_diag (s : State) (h : HostInput) (hs : List HostInput) : (s.take h hs).diag = s.diag := rfl
@[simp] theorem State.take_skipcnt (s : State) (h : HostInput) (hs : List HostInput) : (s.take h hs).skipcnt = s.skipcnt := rfl
@[simp] theorem State.take_prof (s : State) (h : HostInput) (hs : List HostInput) : (s.take h hs).prof = s.prof := rfl
@[simp] theorem State.take_mem (s : State) (h : HostInput) (hs : List HostInput) : (s.take h hs).mem = s.mem := rfl
@[simp] theorem State.take_rate (s : State) (h : HostInput) (hs : List HostInput) : (s.take h hs).rate = s.rate := rfl
@[simp] theorem State.take_hid (s : State) (h : HostInput) (hs : List HostInput) : (s.take h hs).hid = s.hid := rfl
@[simp] theorem State.take_rx (s : State) (h : HostInput) (hs : List HostInput) : (s.take h hs).rx = s.rx := rfl
@[simp] theorem State.take_events (s : State) (h : HostInput) (hs : List HostInput) : (s.take h hs).events = s.events := rfl
@[simp] theorem State.take_time (s : State) (h : HostInput) (hs : List HostInput) : (s.take h hs).time = max s.time h.tick := rfl
@[simp] theorem State.take_host (s : State) (h : HostInput) (hs : List HostInput) : (s.take h hs).host = hs := rfl
@[simp] theorem State.take_lags (s : State) (h : HostInput) (hs : List HostInput) : (s.take h hs).lags = s.lags := rfl
@[simp] theorem State.take_resp (s : State) (h : HostInput) (hs : List HostInput) : (s.take h hs).resp = s.resp := rfl
@[simp] theorem State.take_draws (s : State) (h : HostInput) (hs : List HostInput) : (s.take h hs).draws = s.draws := rfl
@[simp] theorem State.take_epoch (s : State) (h : HostInput) (hs : List HostInput) : (s.take h hs).epoch = s.epoch := rfl

/-! ### idle -/
@[simp] theorem State.idle_cmd (s : State) : s.idle.cmd = s.cmd := rfl
@[simp] theorem State.idle_busy (s : State) : s.idle.busy = s.busy := rfl
@[simp] theorem State.idle_done (s : State) : s.idle.done = s.done := rfl
@[simp] theorem State.idle_ackok (s : State) : s.idle.ackok = s.ackok := rfl
@[simp] theorem State.idle_wign (s : State) : s.idle.wign = s.wign := rfl
@[simp] theorem State.idle_ovr (s : State) : s.idle.ovr = s.ovr := rfl
@[simp] theorem State.idle_err (s : State) : s.idle.err = s.err := rfl
@[simp] theorem State.idle_sess (s : State) : s.idle.sess = s.sess := rfl
@[simp] theorem State.idle_pinMode (s : State) : s.idle.pinMode = s.pinMode := rfl
@[simp] theorem State.idle_pinReset (s : State) : s.idle.pinReset = s.pinReset := rfl
@[simp] theorem State.idle_pinData (s : State) : s.idle.pinData = s.pinData := rfl
@[simp] theorem State.idle_pinMux (s : State) : s.idle.pinMux = s.pinMux := rfl
@[simp] theorem State.idle_ie (s : State) : s.idle.ie = s.ie := rfl
@[simp] theorem State.idle_arg0 (s : State) : s.idle.arg0 = s.arg0 := rfl
@[simp] theorem State.idle_arg1 (s : State) : s.idle.arg1 = s.arg1 := rfl
@[simp] theorem State.idle_txlen (s : State) : s.idle.txlen = s.txlen := rfl
@[simp] theorem State.idle_rxlen (s : State) : s.idle.rxlen = s.rxlen := rfl
@[simp] theorem State.idle_rxframes (s : State) : s.idle.rxframes = s.rxframes := rfl
@[simp] theorem State.idle_rxflen (s : State) : s.idle.rxflen = s.rxflen := rfl
@[simp] theorem State.idle_timeout (s : State) : s.idle.timeout = s.timeout := rfl
@[simp] theorem State.idle_cfgvalid (s : State) : s.idle.cfgvalid = s.cfgvalid := rfl
@[simp] theorem State.idle_lastst (s : State) : s.idle.lastst = s.lastst := rfl
@[simp] theorem State.idle_diag (s : State) : s.idle.diag = s.diag := rfl
@[simp] theorem State.idle_skipcnt (s : State) : s.idle.skipcnt = s.skipcnt := rfl
@[simp] theorem State.idle_prof (s : State) : s.idle.prof = s.prof := rfl
@[simp] theorem State.idle_mem (s : State) : s.idle.mem = s.mem := rfl
@[simp] theorem State.idle_rate (s : State) : s.idle.rate = s.rate := rfl
@[simp] theorem State.idle_hid (s : State) : s.idle.hid = s.hid := rfl
@[simp] theorem State.idle_rx (s : State) : s.idle.rx = s.rx := rfl
@[simp] theorem State.idle_events (s : State) : s.idle.events = s.events := rfl
@[simp] theorem State.idle_time (s : State) : s.idle.time = s.time + 1 := rfl
@[simp] theorem State.idle_host (s : State) : s.idle.host = s.host := rfl
@[simp] theorem State.idle_lags (s : State) : s.idle.lags = s.lags := rfl
@[simp] theorem State.idle_resp (s : State) : s.idle.resp = s.resp := rfl
@[simp] theorem State.idle_draws (s : State) : s.idle.draws = s.draws := rfl
@[simp] theorem State.idle_epoch (s : State) : s.idle.epoch = s.epoch := rfl

/-! ### setWign -/
@[simp] theorem State.setWign_cmd (s : State) : s.setWign.cmd = s.cmd := rfl
@[simp] theorem State.setWign_busy (s : State) : s.setWign.busy = s.busy := rfl
@[simp] theorem State.setWign_done (s : State) : s.setWign.done = s.done := rfl
@[simp] theorem State.setWign_ackok (s : State) : s.setWign.ackok = s.ackok := rfl
@[simp] theorem State.setWign_wign (s : State) : s.setWign.wign = true := rfl
@[simp] theorem State.setWign_ovr (s : State) : s.setWign.ovr = s.ovr := rfl
@[simp] theorem State.setWign_err (s : State) : s.setWign.err = s.err := rfl
@[simp] theorem State.setWign_sess (s : State) : s.setWign.sess = s.sess := rfl
@[simp] theorem State.setWign_pinMode (s : State) : s.setWign.pinMode = s.pinMode := rfl
@[simp] theorem State.setWign_pinReset (s : State) : s.setWign.pinReset = s.pinReset := rfl
@[simp] theorem State.setWign_pinData (s : State) : s.setWign.pinData = s.pinData := rfl
@[simp] theorem State.setWign_pinMux (s : State) : s.setWign.pinMux = s.pinMux := rfl
@[simp] theorem State.setWign_ie (s : State) : s.setWign.ie = s.ie := rfl
@[simp] theorem State.setWign_arg0 (s : State) : s.setWign.arg0 = s.arg0 := rfl
@[simp] theorem State.setWign_arg1 (s : State) : s.setWign.arg1 = s.arg1 := rfl
@[simp] theorem State.setWign_txlen (s : State) : s.setWign.txlen = s.txlen := rfl
@[simp] theorem State.setWign_rxlen (s : State) : s.setWign.rxlen = s.rxlen := rfl
@[simp] theorem State.setWign_rxframes (s : State) : s.setWign.rxframes = s.rxframes := rfl
@[simp] theorem State.setWign_rxflen (s : State) : s.setWign.rxflen = s.rxflen := rfl
@[simp] theorem State.setWign_timeout (s : State) : s.setWign.timeout = s.timeout := rfl
@[simp] theorem State.setWign_cfgvalid (s : State) : s.setWign.cfgvalid = s.cfgvalid := rfl
@[simp] theorem State.setWign_lastst (s : State) : s.setWign.lastst = s.lastst := rfl
@[simp] theorem State.setWign_diag (s : State) : s.setWign.diag = s.diag := rfl
@[simp] theorem State.setWign_skipcnt (s : State) : s.setWign.skipcnt = s.skipcnt := rfl
@[simp] theorem State.setWign_prof (s : State) : s.setWign.prof = s.prof := rfl
@[simp] theorem State.setWign_mem (s : State) : s.setWign.mem = s.mem := rfl
@[simp] theorem State.setWign_rate (s : State) : s.setWign.rate = s.rate := rfl
@[simp] theorem State.setWign_hid (s : State) : s.setWign.hid = s.hid := rfl
@[simp] theorem State.setWign_rx (s : State) : s.setWign.rx = s.rx := rfl
@[simp] theorem State.setWign_events (s : State) : s.setWign.events = s.events := rfl
@[simp] theorem State.setWign_time (s : State) : s.setWign.time = s.time := rfl
@[simp] theorem State.setWign_host (s : State) : s.setWign.host = s.host := rfl
@[simp] theorem State.setWign_lags (s : State) : s.setWign.lags = s.lags := rfl
@[simp] theorem State.setWign_resp (s : State) : s.setWign.resp = s.resp := rfl
@[simp] theorem State.setWign_draws (s : State) : s.setWign.draws = s.draws := rfl
@[simp] theorem State.setWign_epoch (s : State) : s.setWign.epoch = s.epoch := rfl

/-! ### setOvr -/
@[simp] theorem State.setOvr_cmd (s : State) : s.setOvr.cmd = s.cmd := rfl
@[simp] theorem State.setOvr_busy (s : State) : s.setOvr.busy = s.busy := rfl
@[simp] theorem State.setOvr_done (s : State) : s.setOvr.done = s.done := rfl
@[simp] theorem State.setOvr_ackok (s : State) : s.setOvr.ackok = s.ackok := rfl
@[simp] theorem State.setOvr_wign (s : State) : s.setOvr.wign = s.wign := rfl
@[simp] theorem State.setOvr_ovr (s : State) : s.setOvr.ovr = true := rfl
@[simp] theorem State.setOvr_err (s : State) : s.setOvr.err = s.err := rfl
@[simp] theorem State.setOvr_sess (s : State) : s.setOvr.sess = s.sess := rfl
@[simp] theorem State.setOvr_pinMode (s : State) : s.setOvr.pinMode = s.pinMode := rfl
@[simp] theorem State.setOvr_pinReset (s : State) : s.setOvr.pinReset = s.pinReset := rfl
@[simp] theorem State.setOvr_pinData (s : State) : s.setOvr.pinData = s.pinData := rfl
@[simp] theorem State.setOvr_pinMux (s : State) : s.setOvr.pinMux = s.pinMux := rfl
@[simp] theorem State.setOvr_ie (s : State) : s.setOvr.ie = s.ie := rfl
@[simp] theorem State.setOvr_arg0 (s : State) : s.setOvr.arg0 = s.arg0 := rfl
@[simp] theorem State.setOvr_arg1 (s : State) : s.setOvr.arg1 = s.arg1 := rfl
@[simp] theorem State.setOvr_txlen (s : State) : s.setOvr.txlen = s.txlen := rfl
@[simp] theorem State.setOvr_rxlen (s : State) : s.setOvr.rxlen = s.rxlen := rfl
@[simp] theorem State.setOvr_rxframes (s : State) : s.setOvr.rxframes = s.rxframes := rfl
@[simp] theorem State.setOvr_rxflen (s : State) : s.setOvr.rxflen = s.rxflen := rfl
@[simp] theorem State.setOvr_timeout (s : State) : s.setOvr.timeout = s.timeout := rfl
@[simp] theorem State.setOvr_cfgvalid (s : State) : s.setOvr.cfgvalid = s.cfgvalid := rfl
@[simp] theorem State.setOvr_lastst (s : State) : s.setOvr.lastst = s.lastst := rfl
@[simp] theorem State.setOvr_diag (s : State) : s.setOvr.diag = s.diag := rfl
@[simp] theorem State.setOvr_skipcnt (s : State) : s.setOvr.skipcnt = s.skipcnt := rfl
@[simp] theorem State.setOvr_prof (s : State) : s.setOvr.prof = s.prof := rfl
@[simp] theorem State.setOvr_mem (s : State) : s.setOvr.mem = s.mem := rfl
@[simp] theorem State.setOvr_rate (s : State) : s.setOvr.rate = s.rate := rfl
@[simp] theorem State.setOvr_hid (s : State) : s.setOvr.hid = s.hid := rfl
@[simp] theorem State.setOvr_rx (s : State) : s.setOvr.rx = s.rx := rfl
@[simp] theorem State.setOvr_events (s : State) : s.setOvr.events = s.events := rfl
@[simp] theorem State.setOvr_time (s : State) : s.setOvr.time = s.time := rfl
@[simp] theorem State.setOvr_host (s : State) : s.setOvr.host = s.host := rfl
@[simp] theorem State.setOvr_lags (s : State) : s.setOvr.lags = s.lags := rfl
@[simp] theorem State.setOvr_resp (s : State) : s.setOvr.resp = s.resp := rfl
@[simp] theorem State.setOvr_draws (s : State) : s.setOvr.draws = s.draws := rfl
@[simp] theorem State.setOvr_epoch (s : State) : s.setOvr.epoch = s.epoch := rfl

/-! ### clearSticky -/
@[simp] theorem State.clearSticky_cmd (s : State) (v : Word) : (s.clearSticky v).cmd = s.cmd := rfl
@[simp] theorem State.clearSticky_busy (s : State) (v : Word) : (s.clearSticky v).busy = s.busy := rfl
@[simp] theorem State.clearSticky_done (s : State) (v : Word) : (s.clearSticky v).done = (s.done && !v.getLsbD 1) := rfl
@[simp] theorem State.clearSticky_ackok (s : State) (v : Word) : (s.clearSticky v).ackok = s.ackok := rfl
@[simp] theorem State.clearSticky_wign (s : State) (v : Word) : (s.clearSticky v).wign = (s.wign && !v.getLsbD 3) := rfl
@[simp] theorem State.clearSticky_ovr (s : State) (v : Word) : (s.clearSticky v).ovr = (s.ovr && !v.getLsbD 4) := rfl
@[simp] theorem State.clearSticky_err (s : State) (v : Word) : (s.clearSticky v).err = s.err := rfl
@[simp] theorem State.clearSticky_sess (s : State) (v : Word) : (s.clearSticky v).sess = s.sess := rfl
@[simp] theorem State.clearSticky_pinMode (s : State) (v : Word) : (s.clearSticky v).pinMode = s.pinMode := rfl
@[simp] theorem State.clearSticky_pinReset (s : State) (v : Word) : (s.clearSticky v).pinReset = s.pinReset := rfl
@[simp] theorem State.clearSticky_pinData (s : State) (v : Word) : (s.clearSticky v).pinData = s.pinData := rfl
@[simp] theorem State.clearSticky_pinMux (s : State) (v : Word) : (s.clearSticky v).pinMux = s.pinMux := rfl
@[simp] theorem State.clearSticky_ie (s : State) (v : Word) : (s.clearSticky v).ie = s.ie := rfl
@[simp] theorem State.clearSticky_arg0 (s : State) (v : Word) : (s.clearSticky v).arg0 = s.arg0 := rfl
@[simp] theorem State.clearSticky_arg1 (s : State) (v : Word) : (s.clearSticky v).arg1 = s.arg1 := rfl
@[simp] theorem State.clearSticky_txlen (s : State) (v : Word) : (s.clearSticky v).txlen = s.txlen := rfl
@[simp] theorem State.clearSticky_rxlen (s : State) (v : Word) : (s.clearSticky v).rxlen = s.rxlen := rfl
@[simp] theorem State.clearSticky_rxframes (s : State) (v : Word) : (s.clearSticky v).rxframes = s.rxframes := rfl
@[simp] theorem State.clearSticky_rxflen (s : State) (v : Word) : (s.clearSticky v).rxflen = s.rxflen := rfl
@[simp] theorem State.clearSticky_timeout (s : State) (v : Word) : (s.clearSticky v).timeout = s.timeout := rfl
@[simp] theorem State.clearSticky_cfgvalid (s : State) (v : Word) : (s.clearSticky v).cfgvalid = s.cfgvalid := rfl
@[simp] theorem State.clearSticky_lastst (s : State) (v : Word) : (s.clearSticky v).lastst = s.lastst := rfl
@[simp] theorem State.clearSticky_diag (s : State) (v : Word) : (s.clearSticky v).diag = s.diag := rfl
@[simp] theorem State.clearSticky_skipcnt (s : State) (v : Word) : (s.clearSticky v).skipcnt = s.skipcnt := rfl
@[simp] theorem State.clearSticky_prof (s : State) (v : Word) : (s.clearSticky v).prof = s.prof := rfl
@[simp] theorem State.clearSticky_mem (s : State) (v : Word) : (s.clearSticky v).mem = s.mem := rfl
@[simp] theorem State.clearSticky_rate (s : State) (v : Word) : (s.clearSticky v).rate = s.rate := rfl
@[simp] theorem State.clearSticky_hid (s : State) (v : Word) : (s.clearSticky v).hid = s.hid := rfl
@[simp] theorem State.clearSticky_rx (s : State) (v : Word) : (s.clearSticky v).rx = s.rx := rfl
@[simp] theorem State.clearSticky_events (s : State) (v : Word) : (s.clearSticky v).events = s.events := rfl
@[simp] theorem State.clearSticky_time (s : State) (v : Word) : (s.clearSticky v).time = s.time := rfl
@[simp] theorem State.clearSticky_host (s : State) (v : Word) : (s.clearSticky v).host = s.host := rfl
@[simp] theorem State.clearSticky_lags (s : State) (v : Word) : (s.clearSticky v).lags = s.lags := rfl
@[simp] theorem State.clearSticky_resp (s : State) (v : Word) : (s.clearSticky v).resp = s.resp := rfl
@[simp] theorem State.clearSticky_draws (s : State) (v : Word) : (s.clearSticky v).draws = s.draws := rfl
@[simp] theorem State.clearSticky_epoch (s : State) (v : Word) : (s.clearSticky v).epoch = s.epoch := rfl

/-! ### clearRx -/
@[simp] theorem State.clearRx_cmd (s : State) : s.clearRx.cmd = s.cmd := rfl
@[simp] theorem State.clearRx_busy (s : State) : s.clearRx.busy = s.busy := rfl
@[simp] theorem State.clearRx_done (s : State) : s.clearRx.done = s.done := rfl
@[simp] theorem State.clearRx_ackok (s : State) : s.clearRx.ackok = s.ackok := rfl
@[simp] theorem State.clearRx_wign (s : State) : s.clearRx.wign = s.wign := rfl
@[simp] theorem State.clearRx_ovr (s : State) : s.clearRx.ovr = s.ovr := rfl
@[simp] theorem State.clearRx_err (s : State) : s.clearRx.err = s.err := rfl
@[simp] theorem State.clearRx_sess (s : State) : s.clearRx.sess = s.sess := rfl
@[simp] theorem State.clearRx_pinMode (s : State) : s.clearRx.pinMode = s.pinMode := rfl
@[simp] theorem State.clearRx_pinReset (s : State) : s.clearRx.pinReset = s.pinReset := rfl
@[simp] theorem State.clearRx_pinData (s : State) : s.clearRx.pinData = s.pinData := rfl
@[simp] theorem State.clearRx_pinMux (s : State) : s.clearRx.pinMux = s.pinMux := rfl
@[simp] theorem State.clearRx_ie (s : State) : s.clearRx.ie = s.ie := rfl
@[simp] theorem State.clearRx_arg0 (s : State) : s.clearRx.arg0 = s.arg0 := rfl
@[simp] theorem State.clearRx_arg1 (s : State) : s.clearRx.arg1 = s.arg1 := rfl
@[simp] theorem State.clearRx_txlen (s : State) : s.clearRx.txlen = s.txlen := rfl
@[simp] theorem State.clearRx_rxlen (s : State) : s.clearRx.rxlen = 0 := rfl
@[simp] theorem State.clearRx_rxframes (s : State) : s.clearRx.rxframes = 0 := rfl
@[simp] theorem State.clearRx_rxflen (s : State) : s.clearRx.rxflen = Vector.replicate 8 0 := rfl
@[simp] theorem State.clearRx_timeout (s : State) : s.clearRx.timeout = s.timeout := rfl
@[simp] theorem State.clearRx_cfgvalid (s : State) : s.clearRx.cfgvalid = s.cfgvalid := rfl
@[simp] theorem State.clearRx_lastst (s : State) : s.clearRx.lastst = s.lastst := rfl
@[simp] theorem State.clearRx_diag (s : State) : s.clearRx.diag = s.diag := rfl
@[simp] theorem State.clearRx_skipcnt (s : State) : s.clearRx.skipcnt = s.skipcnt := rfl
@[simp] theorem State.clearRx_prof (s : State) : s.clearRx.prof = s.prof := rfl
@[simp] theorem State.clearRx_mem (s : State) : s.clearRx.mem = s.mem := rfl
@[simp] theorem State.clearRx_rate (s : State) : s.clearRx.rate = s.rate := rfl
@[simp] theorem State.clearRx_hid (s : State) : s.clearRx.hid = s.hid := rfl
@[simp] theorem State.clearRx_rx (s : State) : s.clearRx.rx = s.rx := rfl
@[simp] theorem State.clearRx_events (s : State) : s.clearRx.events = s.events := rfl
@[simp] theorem State.clearRx_time (s : State) : s.clearRx.time = s.time := rfl
@[simp] theorem State.clearRx_host (s : State) : s.clearRx.host = s.host := rfl
@[simp] theorem State.clearRx_lags (s : State) : s.clearRx.lags = s.lags := rfl
@[simp] theorem State.clearRx_resp (s : State) : s.clearRx.resp = s.resp := rfl
@[simp] theorem State.clearRx_draws (s : State) : s.clearRx.draws = s.draws := rfl
@[simp] theorem State.clearRx_epoch (s : State) : s.clearRx.epoch = s.epoch := rfl

/-! ### rxStore -/
@[simp] theorem State.rxStore_cmd (s : State) (bs : List Byte) : (s.rxStore bs).cmd = s.cmd := rfl
@[simp] theorem State.rxStore_busy (s : State) (bs : List Byte) : (s.rxStore bs).busy = s.busy := rfl
@[simp] theorem State.rxStore_done (s : State) (bs : List Byte) : (s.rxStore bs).done = s.done := rfl
@[simp] theorem State.rxStore_ackok (s : State) (bs : List Byte) : (s.rxStore bs).ackok = s.ackok := rfl
@[simp] theorem State.rxStore_wign (s : State) (bs : List Byte) : (s.rxStore bs).wign = s.wign := rfl
@[simp] theorem State.rxStore_ovr (s : State) (bs : List Byte) : (s.rxStore bs).ovr = s.ovr := rfl
@[simp] theorem State.rxStore_err (s : State) (bs : List Byte) : (s.rxStore bs).err = s.err := rfl
@[simp] theorem State.rxStore_sess (s : State) (bs : List Byte) : (s.rxStore bs).sess = s.sess := rfl
@[simp] theorem State.rxStore_pinMode (s : State) (bs : List Byte) : (s.rxStore bs).pinMode = s.pinMode := rfl
@[simp] theorem State.rxStore_pinReset (s : State) (bs : List Byte) : (s.rxStore bs).pinReset = s.pinReset := rfl
@[simp] theorem State.rxStore_pinData (s : State) (bs : List Byte) : (s.rxStore bs).pinData = s.pinData := rfl
@[simp] theorem State.rxStore_pinMux (s : State) (bs : List Byte) : (s.rxStore bs).pinMux = s.pinMux := rfl
@[simp] theorem State.rxStore_ie (s : State) (bs : List Byte) : (s.rxStore bs).ie = s.ie := rfl
@[simp] theorem State.rxStore_arg0 (s : State) (bs : List Byte) : (s.rxStore bs).arg0 = s.arg0 := rfl
@[simp] theorem State.rxStore_arg1 (s : State) (bs : List Byte) : (s.rxStore bs).arg1 = s.arg1 := rfl
@[simp] theorem State.rxStore_txlen (s : State) (bs : List Byte) : (s.rxStore bs).txlen = s.txlen := rfl
@[simp] theorem State.rxStore_rxlen (s : State) (bs : List Byte) : (s.rxStore bs).rxlen = BitVec.ofNat 17 (s.rxlen.toNat + bs.length) := rfl
@[simp] theorem State.rxStore_rxframes (s : State) (bs : List Byte) : (s.rxStore bs).rxframes = s.rxframes := rfl
@[simp] theorem State.rxStore_rxflen (s : State) (bs : List Byte) : (s.rxStore bs).rxflen = s.rxflen := rfl
@[simp] theorem State.rxStore_timeout (s : State) (bs : List Byte) : (s.rxStore bs).timeout = s.timeout := rfl
@[simp] theorem State.rxStore_cfgvalid (s : State) (bs : List Byte) : (s.rxStore bs).cfgvalid = s.cfgvalid := rfl
@[simp] theorem State.rxStore_lastst (s : State) (bs : List Byte) : (s.rxStore bs).lastst = s.lastst := rfl
@[simp] theorem State.rxStore_diag (s : State) (bs : List Byte) : (s.rxStore bs).diag = s.diag := rfl
@[simp] theorem State.rxStore_skipcnt (s : State) (bs : List Byte) : (s.rxStore bs).skipcnt = s.skipcnt := rfl
@[simp] theorem State.rxStore_prof (s : State) (bs : List Byte) : (s.rxStore bs).prof = s.prof := rfl
@[simp] theorem State.rxStore_mem (s : State) (bs : List Byte) : (s.rxStore bs).mem = s.mem.putAll (Config.rxBase + s.rxlen.toNat) bs := rfl
@[simp] theorem State.rxStore_rate (s : State) (bs : List Byte) : (s.rxStore bs).rate = s.rate := rfl
@[simp] theorem State.rxStore_hid (s : State) (bs : List Byte) : (s.rxStore bs).hid = s.hid := rfl
@[simp] theorem State.rxStore_rx (s : State) (bs : List Byte) : (s.rxStore bs).rx = s.rx := rfl
@[simp] theorem State.rxStore_events (s : State) (bs : List Byte) : (s.rxStore bs).events = s.events := rfl
@[simp] theorem State.rxStore_time (s : State) (bs : List Byte) : (s.rxStore bs).time = s.time := rfl
@[simp] theorem State.rxStore_host (s : State) (bs : List Byte) : (s.rxStore bs).host = s.host := rfl
@[simp] theorem State.rxStore_lags (s : State) (bs : List Byte) : (s.rxStore bs).lags = s.lags := rfl
@[simp] theorem State.rxStore_resp (s : State) (bs : List Byte) : (s.rxStore bs).resp = s.resp := rfl
@[simp] theorem State.rxStore_draws (s : State) (bs : List Byte) : (s.rxStore bs).draws = s.draws := rfl
@[simp] theorem State.rxStore_epoch (s : State) (bs : List Byte) : (s.rxStore bs).epoch = s.epoch := rfl

/-! ### countFrame -/
@[simp] theorem State.countFrame_cmd (s : State) (n : Nat) : (s.countFrame n).cmd = s.cmd := rfl
@[simp] theorem State.countFrame_busy (s : State) (n : Nat) : (s.countFrame n).busy = s.busy := rfl
@[simp] theorem State.countFrame_done (s : State) (n : Nat) : (s.countFrame n).done = s.done := rfl
@[simp] theorem State.countFrame_ackok (s : State) (n : Nat) : (s.countFrame n).ackok = s.ackok := rfl
@[simp] theorem State.countFrame_wign (s : State) (n : Nat) : (s.countFrame n).wign = s.wign := rfl
@[simp] theorem State.countFrame_ovr (s : State) (n : Nat) : (s.countFrame n).ovr = s.ovr := rfl
@[simp] theorem State.countFrame_err (s : State) (n : Nat) : (s.countFrame n).err = s.err := rfl
@[simp] theorem State.countFrame_sess (s : State) (n : Nat) : (s.countFrame n).sess = s.sess := rfl
@[simp] theorem State.countFrame_pinMode (s : State) (n : Nat) : (s.countFrame n).pinMode = s.pinMode := rfl
@[simp] theorem State.countFrame_pinReset (s : State) (n : Nat) : (s.countFrame n).pinReset = s.pinReset := rfl
@[simp] theorem State.countFrame_pinData (s : State) (n : Nat) : (s.countFrame n).pinData = s.pinData := rfl
@[simp] theorem State.countFrame_pinMux (s : State) (n : Nat) : (s.countFrame n).pinMux = s.pinMux := rfl
@[simp] theorem State.countFrame_ie (s : State) (n : Nat) : (s.countFrame n).ie = s.ie := rfl
@[simp] theorem State.countFrame_arg0 (s : State) (n : Nat) : (s.countFrame n).arg0 = s.arg0 := rfl
@[simp] theorem State.countFrame_arg1 (s : State) (n : Nat) : (s.countFrame n).arg1 = s.arg1 := rfl
@[simp] theorem State.countFrame_txlen (s : State) (n : Nat) : (s.countFrame n).txlen = s.txlen := rfl
@[simp] theorem State.countFrame_rxlen (s : State) (n : Nat) : (s.countFrame n).rxlen = s.rxlen := rfl
@[simp] theorem State.countFrame_rxframes (s : State) (n : Nat) : (s.countFrame n).rxframes = s.rxframes + 1 := rfl
@[simp] theorem State.countFrame_timeout (s : State) (n : Nat) : (s.countFrame n).timeout = s.timeout := rfl
@[simp] theorem State.countFrame_cfgvalid (s : State) (n : Nat) : (s.countFrame n).cfgvalid = s.cfgvalid := rfl
@[simp] theorem State.countFrame_lastst (s : State) (n : Nat) : (s.countFrame n).lastst = s.lastst := rfl
@[simp] theorem State.countFrame_diag (s : State) (n : Nat) : (s.countFrame n).diag = s.diag := rfl
@[simp] theorem State.countFrame_skipcnt (s : State) (n : Nat) : (s.countFrame n).skipcnt = s.skipcnt := rfl
@[simp] theorem State.countFrame_prof (s : State) (n : Nat) : (s.countFrame n).prof = s.prof := rfl
@[simp] theorem State.countFrame_mem (s : State) (n : Nat) : (s.countFrame n).mem = s.mem := rfl
@[simp] theorem State.countFrame_rate (s : State) (n : Nat) : (s.countFrame n).rate = s.rate := rfl
@[simp] theorem State.countFrame_hid (s : State) (n : Nat) : (s.countFrame n).hid = s.hid := rfl
@[simp] theorem State.countFrame_rx (s : State) (n : Nat) : (s.countFrame n).rx = s.rx := rfl
@[simp] theorem State.countFrame_events (s : State) (n : Nat) : (s.countFrame n).events = s.events := rfl
@[simp] theorem State.countFrame_time (s : State) (n : Nat) : (s.countFrame n).time = s.time := rfl
@[simp] theorem State.countFrame_host (s : State) (n : Nat) : (s.countFrame n).host = s.host := rfl
@[simp] theorem State.countFrame_lags (s : State) (n : Nat) : (s.countFrame n).lags = s.lags := rfl
@[simp] theorem State.countFrame_resp (s : State) (n : Nat) : (s.countFrame n).resp = s.resp := rfl
@[simp] theorem State.countFrame_draws (s : State) (n : Nat) : (s.countFrame n).draws = s.draws := rfl
@[simp] theorem State.countFrame_epoch (s : State) (n : Nat) : (s.countFrame n).epoch = s.epoch := rfl

/-! ### begin -/
@[simp] theorem State.begin_cmd (s : State) (rx : Bool) (ph : Phase) : (s.begin rx ph).cmd = s.cmd := by cases rx <;> rfl
@[simp] theorem State.begin_busy (s : State) (rx : Bool) (ph : Phase) : (s.begin rx ph).busy = s.busy := by cases rx <;> rfl
@[simp] theorem State.begin_done (s : State) (rx : Bool) (ph : Phase) : (s.begin rx ph).done = s.done := by cases rx <;> rfl
@[simp] theorem State.begin_ackok (s : State) (rx : Bool) (ph : Phase) : (s.begin rx ph).ackok = s.ackok := by cases rx <;> rfl
@[simp] theorem State.begin_wign (s : State) (rx : Bool) (ph : Phase) : (s.begin rx ph).wign = s.wign := by cases rx <;> rfl
@[simp] theorem State.begin_ovr (s : State) (rx : Bool) (ph : Phase) : (s.begin rx ph).ovr = s.ovr := by cases rx <;> rfl
@[simp] theorem State.begin_err (s : State) (rx : Bool) (ph : Phase) : (s.begin rx ph).err = s.err := by cases rx <;> rfl
@[simp] theorem State.begin_sess (s : State) (rx : Bool) (ph : Phase) : (s.begin rx ph).sess = ph.running.getD s.sess := rfl
@[simp] theorem State.begin_pinMode (s : State) (rx : Bool) (ph : Phase) : (s.begin rx ph).pinMode = s.pinMode := by cases rx <;> rfl
@[simp] theorem State.begin_pinReset (s : State) (rx : Bool) (ph : Phase) : (s.begin rx ph).pinReset = s.pinReset := by cases rx <;> rfl
@[simp] theorem State.begin_pinData (s : State) (rx : Bool) (ph : Phase) : (s.begin rx ph).pinData = s.pinData := by cases rx <;> rfl
@[simp] theorem State.begin_pinMux (s : State) (rx : Bool) (ph : Phase) : (s.begin rx ph).pinMux = s.pinMux := by cases rx <;> rfl
@[simp] theorem State.begin_ie (s : State) (rx : Bool) (ph : Phase) : (s.begin rx ph).ie = s.ie := by cases rx <;> rfl
@[simp] theorem State.begin_arg0 (s : State) (rx : Bool) (ph : Phase) : (s.begin rx ph).arg0 = s.arg0 := by cases rx <;> rfl
@[simp] theorem State.begin_arg1 (s : State) (rx : Bool) (ph : Phase) : (s.begin rx ph).arg1 = s.arg1 := by cases rx <;> rfl
@[simp] theorem State.begin_txlen (s : State) (rx : Bool) (ph : Phase) : (s.begin rx ph).txlen = s.txlen := by cases rx <;> rfl
@[simp] theorem State.begin_rxlen (s : State) (rx : Bool) (ph : Phase) : (s.begin rx ph).rxlen = if rx then 0 else s.rxlen := by cases rx <;> rfl
@[simp] theorem State.begin_rxframes (s : State) (rx : Bool) (ph : Phase) : (s.begin rx ph).rxframes = if rx then 0 else s.rxframes := by cases rx <;> rfl
@[simp] theorem State.begin_rxflen (s : State) (rx : Bool) (ph : Phase) : (s.begin rx ph).rxflen = if rx then Vector.replicate 8 0 else s.rxflen := by cases rx <;> rfl
@[simp] theorem State.begin_timeout (s : State) (rx : Bool) (ph : Phase) : (s.begin rx ph).timeout = s.timeout := by cases rx <;> rfl
@[simp] theorem State.begin_cfgvalid (s : State) (rx : Bool) (ph : Phase) : (s.begin rx ph).cfgvalid = s.cfgvalid := by cases rx <;> rfl
@[simp] theorem State.begin_lastst (s : State) (rx : Bool) (ph : Phase) : (s.begin rx ph).lastst = s.lastst := by cases rx <;> rfl
@[simp] theorem State.begin_diag (s : State) (rx : Bool) (ph : Phase) : (s.begin rx ph).diag = s.diag := by cases rx <;> rfl
@[simp] theorem State.begin_skipcnt (s : State) (rx : Bool) (ph : Phase) : (s.begin rx ph).skipcnt = s.skipcnt := by cases rx <;> rfl
@[simp] theorem State.begin_prof (s : State) (rx : Bool) (ph : Phase) : (s.begin rx ph).prof = s.prof := by cases rx <;> rfl
@[simp] theorem State.begin_mem (s : State) (rx : Bool) (ph : Phase) : (s.begin rx ph).mem = s.mem := by cases rx <;> rfl
@[simp] theorem State.begin_rate (s : State) (rx : Bool) (ph : Phase) : (s.begin rx ph).rate = s.rate := by cases rx <;> rfl
@[simp] theorem State.begin_hid (s : State) (rx : Bool) (ph : Phase) : (s.begin rx ph).hid = s.hid := by cases rx <;> rfl
@[simp] theorem State.begin_rx (s : State) (rx : Bool) (ph : Phase) : (s.begin rx ph).rx = s.rx := by cases rx <;> rfl
@[simp] theorem State.begin_events (s : State) (rx : Bool) (ph : Phase) : (s.begin rx ph).events = s.events := by cases rx <;> rfl
@[simp] theorem State.begin_time (s : State) (rx : Bool) (ph : Phase) : (s.begin rx ph).time = s.time := by cases rx <;> rfl
@[simp] theorem State.begin_host (s : State) (rx : Bool) (ph : Phase) : (s.begin rx ph).host = s.host := by cases rx <;> rfl
@[simp] theorem State.begin_lags (s : State) (rx : Bool) (ph : Phase) : (s.begin rx ph).lags = s.lags := by cases rx <;> rfl
@[simp] theorem State.begin_resp (s : State) (rx : Bool) (ph : Phase) : (s.begin rx ph).resp = s.resp := by cases rx <;> rfl
@[simp] theorem State.begin_draws (s : State) (rx : Bool) (ph : Phase) : (s.begin rx ph).draws = s.draws := by cases rx <;> rfl
@[simp] theorem State.begin_epoch (s : State) (rx : Bool) (ph : Phase) : (s.begin rx ph).epoch = s.epoch := by cases rx <;> rfl

/-! ### withPin -/
@[simp] theorem State.withPin_cmd (s : State) (p : Pin) (v : Bool) : (s.withPin p v).cmd = s.cmd := by cases p <;> rfl
@[simp] theorem State.withPin_busy (s : State) (p : Pin) (v : Bool) : (s.withPin p v).busy = s.busy := by cases p <;> rfl
@[simp] theorem State.withPin_done (s : State) (p : Pin) (v : Bool) : (s.withPin p v).done = s.done := by cases p <;> rfl
@[simp] theorem State.withPin_ackok (s : State) (p : Pin) (v : Bool) : (s.withPin p v).ackok = s.ackok := by cases p <;> rfl
@[simp] theorem State.withPin_wign (s : State) (p : Pin) (v : Bool) : (s.withPin p v).wign = s.wign := by cases p <;> rfl
@[simp] theorem State.withPin_ovr (s : State) (p : Pin) (v : Bool) : (s.withPin p v).ovr = s.ovr := by cases p <;> rfl
@[simp] theorem State.withPin_err (s : State) (p : Pin) (v : Bool) : (s.withPin p v).err = s.err := by cases p <;> rfl
@[simp] theorem State.withPin_sess (s : State) (p : Pin) (v : Bool) : (s.withPin p v).sess = s.sess := by cases p <;> rfl
@[simp] theorem State.withPin_pinMode (s : State) (p : Pin) (v : Bool) :
    (s.withPin p v).pinMode = if p = .mode then v else s.pinMode := by cases p <;> rfl
@[simp] theorem State.withPin_pinReset (s : State) (p : Pin) (v : Bool) :
    (s.withPin p v).pinReset = if p = .reset then v else s.pinReset := by cases p <;> rfl
@[simp] theorem State.withPin_pinData (s : State) (p : Pin) (v : Bool) :
    (s.withPin p v).pinData = if p = .data then v else s.pinData := by cases p <;> rfl
@[simp] theorem State.withPin_pinMux (s : State) (p : Pin) (v : Bool) :
    (s.withPin p v).pinMux = if p = .pinmux then v else s.pinMux := by cases p <;> rfl
@[simp] theorem State.withPin_ie (s : State) (p : Pin) (v : Bool) : (s.withPin p v).ie = s.ie := by cases p <;> rfl
@[simp] theorem State.withPin_arg0 (s : State) (p : Pin) (v : Bool) : (s.withPin p v).arg0 = s.arg0 := by cases p <;> rfl
@[simp] theorem State.withPin_arg1 (s : State) (p : Pin) (v : Bool) : (s.withPin p v).arg1 = s.arg1 := by cases p <;> rfl
@[simp] theorem State.withPin_txlen (s : State) (p : Pin) (v : Bool) : (s.withPin p v).txlen = s.txlen := by cases p <;> rfl
@[simp] theorem State.withPin_rxlen (s : State) (p : Pin) (v : Bool) : (s.withPin p v).rxlen = s.rxlen := by cases p <;> rfl
@[simp] theorem State.withPin_rxframes (s : State) (p : Pin) (v : Bool) : (s.withPin p v).rxframes = s.rxframes := by cases p <;> rfl
@[simp] theorem State.withPin_rxflen (s : State) (p : Pin) (v : Bool) : (s.withPin p v).rxflen = s.rxflen := by cases p <;> rfl
@[simp] theorem State.withPin_timeout (s : State) (p : Pin) (v : Bool) : (s.withPin p v).timeout = s.timeout := by cases p <;> rfl
@[simp] theorem State.withPin_cfgvalid (s : State) (p : Pin) (v : Bool) : (s.withPin p v).cfgvalid = s.cfgvalid := by cases p <;> rfl
@[simp] theorem State.withPin_lastst (s : State) (p : Pin) (v : Bool) : (s.withPin p v).lastst = s.lastst := by cases p <;> rfl
@[simp] theorem State.withPin_diag (s : State) (p : Pin) (v : Bool) : (s.withPin p v).diag = s.diag := by cases p <;> rfl
@[simp] theorem State.withPin_skipcnt (s : State) (p : Pin) (v : Bool) : (s.withPin p v).skipcnt = s.skipcnt := by cases p <;> rfl
@[simp] theorem State.withPin_prof (s : State) (p : Pin) (v : Bool) : (s.withPin p v).prof = s.prof := by cases p <;> rfl
@[simp] theorem State.withPin_mem (s : State) (p : Pin) (v : Bool) : (s.withPin p v).mem = s.mem := by cases p <;> rfl
@[simp] theorem State.withPin_rate (s : State) (p : Pin) (v : Bool) : (s.withPin p v).rate = s.rate := by cases p <;> rfl
@[simp] theorem State.withPin_hid (s : State) (p : Pin) (v : Bool) : (s.withPin p v).hid = s.hid := by cases p <;> rfl
@[simp] theorem State.withPin_rx (s : State) (p : Pin) (v : Bool) : (s.withPin p v).rx = s.rx := by cases p <;> rfl
@[simp] theorem State.withPin_events (s : State) (p : Pin) (v : Bool) : (s.withPin p v).events = s.events := by cases p <;> rfl
@[simp] theorem State.withPin_time (s : State) (p : Pin) (v : Bool) : (s.withPin p v).time = s.time := by cases p <;> rfl
@[simp] theorem State.withPin_host (s : State) (p : Pin) (v : Bool) : (s.withPin p v).host = s.host := by cases p <;> rfl
@[simp] theorem State.withPin_lags (s : State) (p : Pin) (v : Bool) : (s.withPin p v).lags = s.lags := by cases p <;> rfl
@[simp] theorem State.withPin_resp (s : State) (p : Pin) (v : Bool) : (s.withPin p v).resp = s.resp := by cases p <;> rfl
@[simp] theorem State.withPin_draws (s : State) (p : Pin) (v : Bool) : (s.withPin p v).draws = s.draws := by cases p <;> rfl
@[simp] theorem State.withPin_epoch (s : State) (p : Pin) (v : Bool) : (s.withPin p v).epoch = s.epoch := by cases p <;> rfl

/-! ### views that depend on few fields -/
@[simp] theorem State.accept_byteAt (s : State) (w : Word) (a : Nat) : (s.accept w).byteAt a = s.byteAt a := rfl
@[simp] theorem State.accept_now (s : State) (w : Word) : (s.accept w).now = s.now := rfl
@[simp] theorem State.finish_byteAt (s : State) (q : Sess) (e : Err) (a : Nat) : (s.finish q e).byteAt a = s.byteAt a := rfl
@[simp] theorem State.finish_now (s : State) (q : Sess) (e : Err) : (s.finish q e).now = s.now := rfl
@[simp] theorem State.record_byteAt (s : State) (e : Event) (a : Nat) : (s.record e).byteAt a = s.byteAt a := rfl
@[simp] theorem State.record_now (s : State) (e : Event) : (s.record e).now = s.now := rfl
@[simp] theorem State.respond_byteAt (s : State) (r : BusResp) (a : Nat) : (s.respond r).byteAt a = s.byteAt a := rfl
@[simp] theorem State.respond_now (s : State) (r : BusResp) : (s.respond r).now = s.now := rfl
@[simp] theorem State.take_byteAt (s : State) (h : HostInput) (hs : List HostInput) (a : Nat) : (s.take h hs).byteAt a = s.byteAt a := rfl
@[simp] theorem State.idle_byteAt (s : State) (a : Nat) : s.idle.byteAt a = s.byteAt a := rfl
@[simp] theorem State.setWign_byteAt (s : State) (a : Nat) : s.setWign.byteAt a = s.byteAt a := rfl
@[simp] theorem State.setWign_now (s : State) : s.setWign.now = s.now := rfl
@[simp] theorem State.setOvr_byteAt (s : State) (a : Nat) : s.setOvr.byteAt a = s.byteAt a := rfl
@[simp] theorem State.setOvr_now (s : State) : s.setOvr.now = s.now := rfl
@[simp] theorem State.clearSticky_byteAt (s : State) (v : Word) (a : Nat) : (s.clearSticky v).byteAt a = s.byteAt a := rfl
@[simp] theorem State.clearSticky_now (s : State) (v : Word) : (s.clearSticky v).now = s.now := rfl
@[simp] theorem State.clearRx_byteAt (s : State) (a : Nat) : s.clearRx.byteAt a = s.byteAt a := rfl
@[simp] theorem State.clearRx_now (s : State) : s.clearRx.now = s.now := rfl
@[simp] theorem State.rxStore_now (s : State) (bs : List Byte) : (s.rxStore bs).now = s.now := rfl
@[simp] theorem State.countFrame_byteAt (s : State) (n : Nat) (a : Nat) : (s.countFrame n).byteAt a = s.byteAt a := rfl
@[simp] theorem State.countFrame_now (s : State) (n : Nat) : (s.countFrame n).now = s.now := rfl
@[simp] theorem State.withPin_byteAt (s : State) (p : Pin) (v : Bool) (a : Nat) : (s.withPin p v).byteAt a = s.byteAt a := by
  cases p <;> rfl
@[simp] theorem State.withPin_now (s : State) (p : Pin) (v : Bool) : (s.withPin p v).now = s.now := by cases p <;> rfl
@[simp] theorem State.begin_byteAt (s : State) (rx : Bool) (ph : Phase) (a : Nat) : (s.begin rx ph).byteAt a = s.byteAt a := by
  cases rx <;> rfl
@[simp] theorem State.begin_now (s : State) (rx : Bool) (ph : Phase) : (s.begin rx ph).now = s.now := by cases rx <;> rfl

end Sys2Proof.Machine
end

