-- ==== Sys2Proof/Laws/Memory.lean ====
section
/-! SUPPORT. The laws of buffer memory: a read after a write, the other addresses, and the canonical form that every
memory operation keeps. -/

namespace Sys2Proof.Machine

theorem Memory.find_put_same (m : Memory) (a : Nat) (b : Byte) : (m.put a b).find a = some b := by
  induction m with
  | nil => simp [Memory.put, Memory.find]
  | cons x m ih =>
    obtain ⟨k, c⟩ := x
    simp only [Memory.put]
    split
    · simp [Memory.find]
    · split
      · simp [Memory.find]
      · simp only [Memory.find]
        rw [if_neg (by omega)]
        exact ih

theorem Memory.find_put_other (m : Memory) (a x : Nat) (b : Byte) (h : x ≠ a) : (m.put a b).find x = m.find x := by
  induction m with
  | nil => simp [Memory.put, Memory.find, Ne.symm h]
  | cons y m ih =>
    obtain ⟨k, c⟩ := y
    simp only [Memory.put]
    split
    · simp [Memory.find, Ne.symm h]
    · split
      · rename_i h1 h2
        subst h2
        simp [Memory.find, Ne.symm h]
      · simp only [Memory.find]
        rw [ih]

theorem Memory.find_put (m : Memory) (a x : Nat) (b : Byte) :
    (m.put a b).find x = if x = a then some b else m.find x := by
  split
  · next h => rw [h, Memory.find_put_same]
  · next h => exact Memory.find_put_other m a x b h

/-- A block write and one address: the written byte inside the block, the old one outside. -/
theorem Memory.find_putAll (bs : List Byte) (m : Memory) (a x : Nat) :
    (m.putAll a bs).find x = if a ≤ x ∧ x < a + bs.length then bs[x - a]? else m.find x := by
  induction bs generalizing m a with
  | nil =>
    rw [if_neg (by simp only [List.length_nil]; omega)]
    rfl
  | cons b bs ih =>
    simp only [Memory.putAll, ih, Memory.find_put, List.length_cons]
    by_cases hx : x = a
    · subst hx
      rw [if_neg (by omega), if_pos rfl, if_pos (by omega)]
      simp
    · by_cases hin : a + 1 ≤ x ∧ x < a + 1 + bs.length
      · rw [if_pos hin, if_pos (by omega)]
        rw [show x - a = (x - (a + 1)) + 1 by omega, List.getElem?_cons_succ]
      · rw [if_neg hin, if_neg hx, if_neg (by omega)]

theorem Memory.find_putAll_outside (bs : List Byte) (m : Memory) (a x : Nat) (h : x < a ∨ a + bs.length ≤ x) :
    (m.putAll a bs).find x = m.find x := by
  rw [Memory.find_putAll, if_neg (by omega)]

theorem Memory.putAll_append (bs cs : List Byte) (m : Memory) (a : Nat) :
    m.putAll a (bs ++ cs) = (m.putAll a bs).putAll (a + bs.length) cs := by
  induction bs generalizing m a with
  | nil => simp [Memory.putAll]
  | cons b bs ih =>
    simp only [List.cons_append, Memory.putAll, ih, List.length_cons]
    congr 1
    omega

theorem Memory.risingFrom_put (hi lo : Nat) (m : Memory) (a : Nat) (b : Byte)
    (hm : m.risingFrom hi lo = true) (hlo : lo ≤ a) (hhi : a < hi) : (m.put a b).risingFrom hi lo = true := by
  induction m generalizing lo with
  | nil => simp [Memory.put, Memory.risingFrom, hlo, hhi]
  | cons x m ih =>
    obtain ⟨k, c⟩ := x
    simp only [Memory.risingFrom, Bool.and_eq_true, decide_eq_true_eq] at hm
    obtain ⟨⟨h1, h2⟩, h3⟩ := hm
    simp only [Memory.put]
    split
    · simp only [Memory.risingFrom, Bool.and_eq_true, decide_eq_true_eq]
      exact ⟨⟨hlo, hhi⟩, ⟨by omega, h2⟩, h3⟩
    · split
      · next hk =>
        subst hk
        simp only [Memory.risingFrom, Bool.and_eq_true, decide_eq_true_eq]
        exact ⟨⟨h1, h2⟩, h3⟩
      · simp only [Memory.risingFrom, Bool.and_eq_true, decide_eq_true_eq]
        exact ⟨⟨h1, h2⟩, ih (k + 1) h3 (by omega)⟩

/-- Writing inside the buffers keeps the canonical form. -/
theorem Memory.wf_put (m : Memory) (a : Nat) (b : Byte) (hm : m.wf = true) (h1 : Config.txBase ≤ a)
    (h2 : a < Config.rxEnd) : (m.put a b).wf = true :=
  Memory.risingFrom_put _ _ m a b hm h1 h2

theorem Memory.wf_putAll (bs : List Byte) (m : Memory) (a : Nat) (hm : m.wf = true) (h1 : Config.txBase ≤ a)
    (h2 : a + bs.length ≤ Config.rxEnd) : (m.putAll a bs).wf = true := by
  induction bs generalizing m a with
  | nil => exact hm
  | cons b bs ih =>
    simp only [List.length_cons] at h2
    exact ih (m.put a b) (a + 1) (Memory.wf_put m a b hm h1 (by omega)) (by omega) (by omega)

/-! ### Bytes of the buffers -/

theorem State.byteAt_putAll (s : State) (a : Nat) (bs : List Byte) (x : Nat) (h : x < a ∨ a + bs.length ≤ x) :
    State.byteAt { s with mem := s.mem.putAll a bs } x = s.byteAt x := by
  simp only [State.byteAt, Memory.find_putAll_outside bs s.mem a x h]

theorem State.byteAt_putAll_inside (s : State) (a : Nat) (bs : List Byte) (i : Nat) (h : i < bs.length) :
    State.byteAt { s with mem := s.mem.putAll a bs } (a + i) = bs[i] := by
  simp only [State.byteAt]
  rw [Memory.find_putAll, if_pos (by omega)]
  simp [h]

theorem State.byteAt_congr {s t : State} (hm : t.mem = s.mem) (he : t.epoch = s.epoch) (a : Nat) :
    t.byteAt a = s.byteAt a := by
  simp only [State.byteAt, hm, he]

/-- What RXappend stores, read back: the old bytes below RXLEN, then the new ones. -/
theorem State.rxStore_byteAt (s : State) (bs : List Byte) (a : Nat)
    (h : a < Config.rxBase + s.rxlen.toNat ∨ Config.rxBase + s.rxlen.toNat + bs.length ≤ a) :
    (s.rxStore bs).byteAt a = s.byteAt a := by
  simp only [State.byteAt, State.rxStore_mem, State.rxStore_epoch]
  rw [Memory.find_putAll_outside _ _ _ _ h]

theorem State.rxStore_rxByte_new (s : State) (bs : List Byte) (i : Nat) (h : i < bs.length) :
    (s.rxStore bs).rxByte (s.rxlen.toNat + i) = bs[i] := by
  simp only [State.rxByte, State.byteAt, State.rxStore_mem, State.rxStore_epoch]
  rw [← Nat.add_assoc, Memory.find_putAll, if_pos (by omega)]
  simp [h]

theorem State.rxStore_rxByte_old (s : State) (bs : List Byte) (i : Nat) (h : i < s.rxlen.toNat) :
    (s.rxStore bs).rxByte i = s.rxByte i :=
  s.rxStore_byteAt bs _ (Or.inl (by omega))

theorem State.rxStore_rxlen_toNat (s : State) (bs : List Byte) (h : s.rxlen.toNat + bs.length ≤ Config.bufCap) :
    (s.rxStore bs).rxlen.toNat = s.rxlen.toNat + bs.length := by
  simp only [State.rxStore_rxlen, BitVec.toNat_ofNat, Config.bufCap] at *
  omega

/-- The bytes of RXBUF after RXappend: the old ones, then the new ones. -/
theorem State.rxStore_rxPayload (s : State) (bs : List Byte) (h : s.rxlen.toNat + bs.length ≤ Config.bufCap) :
    (s.rxStore bs).rxPayload = s.rxPayload ++ bs := by
  have hlen := s.rxStore_rxlen_toNat bs h
  apply List.ext_getElem
  · rw [State.rxPayload, List.length_map, List.length_range, hlen]
    simp [State.rxPayload]
  · intro i h1 h2
    simp only [State.rxPayload, hlen, List.length_map, List.length_range] at h1
    simp only [State.rxPayload, List.getElem_map, List.getElem_range, List.getElem_append, List.length_map,
      List.length_range]
    split
    · next hi => exact s.rxStore_rxByte_old bs i hi
    · next hi =>
      have := s.rxStore_rxByte_new bs (i - s.rxlen.toNat) (by omega)
      rwa [show s.rxlen.toNat + (i - s.rxlen.toNat) = i by omega] at this

theorem State.reset_mem_wf : State.reset.mem.wf = true := rfl

end Sys2Proof.Machine
end

