-- ==== Sys2Proof/Laws/Running.lean ====
section
/-! SUPPORT. What can happen while a command runs. `EnvStep` says once what time and the host can change; `Within R Q c`
says that a piece of pseudocode only makes changes that the preorder `R` allows, and that its value satisfies `Q`. Each
primitive and each shared procedure has one lemma here; the meanings' frames, the invariant and the completion laws are
derived from them. -/

namespace Sys2Proof.Machine

/-! ### Running a piece of pseudocode -/

@[simp] theorem Ctl.pure_apply {α : Type} (a : α) (s : State) : (pure a : Ctl α) s = .ok a s := rfl

@[simp] theorem Ctl.bind_apply {α β : Type} (x : Ctl α) (f : α → Ctl β) (s : State) :
    (x >>= f) s = match x s with
      | .ok a t => f a t
      | .error e t => .error e t := by
  show EStateM.bind x f s = _
  unfold EStateM.bind
  cases x s <;> rfl

@[simp] theorem Ctl.get_apply (s : State) : (get : Ctl State) s = .ok s s := rfl
@[simp] theorem Ctl.set_apply (t s : State) : (set t : Ctl PUnit) s = .ok ⟨⟩ t := rfl
@[simp] theorem Ctl.modify_apply (f : State → State) (s : State) : (modify f : Ctl PUnit) s = .ok ⟨⟩ (f s) := rfl
@[simp] theorem Ctl.throw_apply {α : Type} (e : Stop) (s : State) : (throw e : Ctl α) s = .error e s := rfl
@[simp] theorem raise_apply {α : Type} (e : Err) (s : State) : (raise e : Ctl α) s = .error (.raised e) s := rfl
@[simp] theorem mark_apply (f : Hidden → Hidden) (s : State) : mark f s = .ok ⟨⟩ { s with hid := f s.hid } := rfl

/-! ### What time and the host can change while a command runs -/

/-- The changes time and the host make while BUSY = 1 (10_state.md R102, R104, R105, R109, R114, R143): TIMEOUT, CTRL,
the sticky bits, and the model's record of time and host. -/
structure EnvStep (s t : State) : Prop where
  cmd : t.cmd = s.cmd
  busy : t.busy = s.busy
  done : s.done = false → t.done = false
  ackok : t.ackok = s.ackok
  err : t.err = s.err
  sess : t.sess = s.sess
  pinMode : t.pinMode = s.pinMode
  pinReset : t.pinReset = s.pinReset
  pinData : t.pinData = s.pinData
  pinMux : t.pinMux = s.pinMux
  arg0 : t.arg0 = s.arg0
  arg1 : t.arg1 = s.arg1
  txlen : t.txlen = s.txlen
  rxlen : t.rxlen = s.rxlen
  rxframes : t.rxframes = s.rxframes
  rxflen : t.rxflen = s.rxflen
  cfgvalid : t.cfgvalid = s.cfgvalid
  lastst : t.lastst = s.lastst
  diag : t.diag = s.diag
  skipcnt : t.skipcnt = s.skipcnt
  prof : t.prof = s.prof
  mem : t.mem = s.mem
  rate : t.rate = s.rate
  hid : t.hid = s.hid
  rx : t.rx = s.rx
  events : t.events = s.events
  epoch : t.epoch = s.epoch
  lags : t.lags = s.lags
  time : s.time ≤ t.time
  host : t.host <:+ s.host
  quiet : s.host = [] → t.timeout = s.timeout ∧ t.ie = s.ie ∧ t.wign = s.wign ∧ t.ovr = s.ovr ∧ t.resp = s.resp ∧
    t.draws = s.draws ∧ t.done = s.done

theorem EnvStep.refl (s : State) : EnvStep s s := by
  constructor <;> first | rfl | exact id | exact Nat.le_refl _ | exact List.suffix_refl _ | simp

theorem EnvStep.trans {s t u : State} (h : EnvStep s t) (k : EnvStep t u) : EnvStep s u where
  cmd := k.cmd.trans h.cmd
  busy := k.busy.trans h.busy
  done := fun d => k.done (h.done d)
  ackok := k.ackok.trans h.ackok
  err := k.err.trans h.err
  sess := k.sess.trans h.sess
  pinMode := k.pinMode.trans h.pinMode
  pinReset := k.pinReset.trans h.pinReset
  pinData := k.pinData.trans h.pinData
  pinMux := k.pinMux.trans h.pinMux
  arg0 := k.arg0.trans h.arg0
  arg1 := k.arg1.trans h.arg1
  txlen := k.txlen.trans h.txlen
  rxlen := k.rxlen.trans h.rxlen
  rxframes := k.rxframes.trans h.rxframes
  rxflen := k.rxflen.trans h.rxflen
  cfgvalid := k.cfgvalid.trans h.cfgvalid
  lastst := k.lastst.trans h.lastst
  diag := k.diag.trans h.diag
  skipcnt := k.skipcnt.trans h.skipcnt
  prof := k.prof.trans h.prof
  mem := k.mem.trans h.mem
  rate := k.rate.trans h.rate
  hid := k.hid.trans h.hid
  rx := k.rx.trans h.rx
  events := k.events.trans h.events
  epoch := k.epoch.trans h.epoch
  lags := k.lags.trans h.lags
  time := Nat.le_trans h.time k.time
  host := k.host.trans h.host
  quiet := by
    intro hs
    have hte : t.host = [] := by
      have := h.host
      rw [hs] at this
      exact List.suffix_nil.mp this
    obtain ⟨a1, a2, a3, a4, a5, a6, a7⟩ := h.quiet hs
    obtain ⟨b1, b2, b3, b4, b5, b6, b7⟩ := k.quiet hte
    exact ⟨b1.trans a1, b2.trans a2, b3.trans a3, b4.trans a4, b5.trans a5, b6.trans a6, b7.trans a7⟩

theorem EnvStep.byteAt {s t : State} (h : EnvStep s t) (a : Nat) : t.byteAt a = s.byteAt a :=
  State.byteAt_congr h.mem h.epoch a

/-- s with everything that the host changes while BUSY = 1, and the time, taken from u. -/
def State.hostSideOf (s u : State) : State :=
  { s with
    host := u.host, time := u.time, timeout := u.timeout, ie := u.ie, wign := u.wign
    ovr := u.ovr, resp := u.resp, draws := u.draws, done := u.done }

/-- The part of a bus access that a running command lets through, without the queue. -/
structure BusyAccess (s t : State) : Prop where
  env : ∀ u : State, s.hostSideOf u = t.hostSideOf u
  done : s.done = false → t.done = false
  host : t.host = s.host
  time : t.time = s.time

theorem BusyAccess.refl (s : State) : BusyAccess s s := ⟨fun _ => rfl, id, rfl, rfl⟩

theorem State.busRead_busyAccess (s : State) (a : BitVec 18) (sz : Size) : BusyAccess s (s.busRead a sz) := by
  unfold State.busRead
  dsimp only
  split
  · split
    · exact ⟨fun _ => rfl, id, rfl, rfl⟩
    · exact ⟨fun _ => rfl, id, rfl, rfl⟩
    · split <;> exact ⟨fun _ => rfl, id, rfl, rfl⟩
  · exact ⟨fun _ => rfl, id, rfl, rfl⟩

/-- A register write while BUSY = 1 (R114). -/
theorem State.regWrite_busyAccess (s : State) (hb : s.busy = true) (r : Reg) (v : Word) :
    BusyAccess s (s.regWrite r v) := by
  have wign : ∀ t, t = s.setWign → BusyAccess s t := by
    rintro _ rfl
    exact ⟨fun _ => rfl, id, rfl, rfl⟩
  cases r
  case status => exact ⟨fun _ => rfl, fun h => by simp [State.regWrite, h], rfl, rfl⟩
  case arg0 => exact wign _ (by simp [State.regWrite, hb])
  case arg1 => exact wign _ (by simp [State.regWrite, hb])
  case txlen => exact wign _ (by simp [State.regWrite, hb])
  case locked r => exact wign _ (by simp [State.regWrite, State.lockedWrite, State.unlocked, hb])
  all_goals exact ⟨fun _ => rfl, id, rfl, rfl⟩

theorem State.writeEffect_busyAccess (s : State) (hb : s.busy = true) (a : Nat) (sz : Size) (v : Word) :
    BusyAccess s (s.writeEffect a sz v) := by
  unfold State.writeEffect
  split
  · split
    · exact s.regWrite_busyAccess hb _ v
    · exact BusyAccess.refl s
  · rw [if_pos hb]
    exact ⟨fun _ => rfl, id, rfl, rfl⟩
  · exact ⟨fun _ => rfl, id, rfl, rfl⟩

theorem State.busWrite_busyAccess (s : State) (hb : s.busy = true) (a : BitVec 18) (sz : Size) (v : Word) :
    BusyAccess s (s.busWrite a sz v) := by
  unfold State.busWrite
  split
  · have h := s.writeEffect_busyAccess hb a.toNat sz v
    exact ⟨fun u => h.env u, h.done, h.host, h.time⟩
  · exact ⟨fun _ => rfl, id, rfl, rfl⟩

/-- One host action served while a command runs is an environment step. -/
theorem EnvStep.ofAccess {s t : State} {h : HostInput} {hs : List HostInput} {x : Nat} (hh : s.host = h :: hs)
    (ha : BusyAccess { s with host := hs, time := max s.time x } t) : EnvStep s t := by
  have e := ha.env s
  have hne : s.host ≠ [] := by rw [hh]; simp
  constructor
  case done => exact ha.done
  case time => rw [ha.time]; exact Nat.le_max_left _ _
  case host => rw [ha.host, hh]; exact List.suffix_cons h hs
  case quiet => exact fun h0 => absurd h0 hne
  all_goals
    first
    | exact (congrArg State.cmd e).symm | exact (congrArg State.busy e).symm | exact (congrArg State.ackok e).symm
    | exact (congrArg State.err e).symm | exact (congrArg State.sess e).symm
    | exact (congrArg State.pinMode e).symm | exact (congrArg State.pinReset e).symm
    | exact (congrArg State.pinData e).symm | exact (congrArg State.pinMux e).symm
    | exact (congrArg State.arg0 e).symm | exact (congrArg State.arg1 e).symm | exact (congrArg State.txlen e).symm
    | exact (congrArg State.rxlen e).symm | exact (congrArg State.rxframes e).symm
    | exact (congrArg State.rxflen e).symm | exact (congrArg State.cfgvalid e).symm
    | exact (congrArg State.lastst e).symm | exact (congrArg State.diag e).symm
    | exact (congrArg State.skipcnt e).symm | exact (congrArg State.prof e).symm | exact (congrArg State.mem e).symm
    | exact (congrArg State.rate e).symm | exact (congrArg State.hid e).symm | exact (congrArg State.rx e).symm
    | exact (congrArg State.events e).symm | exact (congrArg State.epoch e).symm
    | exact (congrArg State.lags e).symm

/-- Only time passes. -/
theorem EnvStep.later (s : State) (x : Nat) : EnvStep s { s with time := max s.time x } := by
  constructor <;>
    first | rfl | exact id | exact Nat.le_max_left _ _ | exact List.suffix_refl _ | simp

/-- The running command ended in a block reset (70_reset_and_hazards.md R700). -/
structure ResetOf (s t : State) : Prop where
  asserted : ¬ NoReset s.host
  epoch : t.epoch = s.epoch + 1
  values : ∃ u d, t = State.blockReset u d

theorem NoReset.suffix {hs ks : List HostInput} (h : NoReset hs) (hk : ks <:+ hs) : NoReset ks :=
  fun x hx => h x (hk.subset hx)

/-- What time going on to tick T can do (serve): an environment step that ends at T or later, or a block reset. -/
theorem serve_cases (T : Nat) (hs : List HostInput) (s : State) (hb : s.busy = true) (hh : s.host = hs) :
    (∃ t, serve T hs s = .ok ⟨⟩ t ∧ EnvStep s t ∧ t.time = max s.time T) ∨
    (∃ t, serve T hs s = .error .blockReset t ∧ ResetOf s t) := by
  induction hs generalizing s with
  | nil => exact .inl ⟨_, rfl, EnvStep.later s T, rfl⟩
  | cons h hs ih =>
    by_cases hd : h.due T = true
    · have hT : h.tick ≤ T := by
        simp only [HostInput.due, Bool.or_eq_true, Bool.and_eq_true, decide_eq_true_eq] at hd
        omega
      -- a served access, then the rest of the queue
      have access : ∀ u : State, BusyAccess (s.take h hs) u →
          serve T (h :: hs) s = serve T hs u →
          (∃ t, serve T (h :: hs) s = .ok ⟨⟩ t ∧ EnvStep s t ∧ t.time = max s.time T) ∨
          (∃ t, serve T (h :: hs) s = .error .blockReset t ∧ ResetOf s t) := by
        intro u acc heq
        have env := EnvStep.ofAccess hh acc
        rw [heq]
        rcases ih u (env.busy.trans hb) acc.host with ⟨t, h1, h2, h3⟩ | ⟨t, h1, h2⟩
        · refine .inl ⟨t, h1, env.trans h2, ?_⟩
          rw [h3, acc.time]
          show max (max s.time h.tick) T = max s.time T
          omega
        · exact .inr ⟨t, h1, fun hn => h2.asserted (hn.suffix env.host), by rw [h2.epoch, env.epoch], h2.values⟩
      cases hact : h.act with
      | read a sz =>
        exact access _ (State.busRead_busyAccess (s.take h hs) a sz) (by simp [serve, hd, hact]; rfl)
      | write a sz v =>
        exact access _ (State.busWrite_busyAccess (s.take h hs) hb a sz v) (by simp [serve, hd, hact]; rfl)
      | reset d =>
        refine .inr ⟨(s.take h hs).blockReset d, by simp [serve, hd, hact]; rfl, ?_, rfl, _, _, rfl⟩
        exact fun hn => hn h (by rw [hh]; simp) d hact
    · exact .inl ⟨{ s with time := max s.time T }, by simp [serve, hd], EnvStep.later s T, rfl⟩

/-- What `advance` can do. -/
theorem advance_cases (T : Nat) (s : State) (hb : s.busy = true) :
    (∃ t, advance T s = .ok ⟨⟩ t ∧ EnvStep s t ∧ t.time = max s.time T) ∨
    (∃ t, advance T s = .error .blockReset t ∧ ResetOf s t) := by
  simpa [advance] using serve_cases T s.host s hb rfl

/-! ### Pieces of pseudocode within a preorder -/

/-- What every piece of pseudocode keeps: the command runs on, in the same reset epoch, with the same host to come. -/
structure StillRunning (s t : State) : Prop where
  busy : t.busy = s.busy
  epoch : t.epoch = s.epoch
  host : t.host <:+ s.host

theorem StillRunning.refl (s : State) : StillRunning s s := ⟨rfl, rfl, List.suffix_refl _⟩

theorem StillRunning.trans {s t u : State} (h : StillRunning s t) (k : StillRunning t u) : StillRunning s u :=
  ⟨k.busy.trans h.busy, k.epoch.trans h.epoch, k.host.trans h.host⟩

theorem EnvStep.stillRunning {s t : State} (h : EnvStep s t) : StillRunning s t := ⟨h.busy, h.epoch, h.host⟩

/-- From s, `c` makes only changes that `R` allows, and its value satisfies `Q`; a block reset is the one exception. -/
def WithinAt {α : Type} (R : State → State → Prop) (Q : α → Prop) (c : Ctl α) (s : State) : Prop :=
  match c s with
  | .ok a t => StillRunning s t ∧ R s t ∧ Q a
  | .error .blockReset t => ResetOf s t
  | .error (.raised e) t => StillRunning s t ∧ R s t ∧ e.raisable = true
  | .error .endless _ => False

/-- The same from every state of a running command. -/
def Within {α : Type} (R : State → State → Prop) (Q : α → Prop) (c : Ctl α) : Prop :=
  ∀ s : State, s.busy = true → WithinAt R Q c s

/-- A relation the lemmas below can chain. -/
structure Chains (R : State → State → Prop) : Prop where
  refl : ∀ s, R s s
  trans : ∀ {s t u}, R s t → R t u → R s u

theorem ResetOf.after {s t u : State} (h : StillRunning s t) (k : ResetOf t u) : ResetOf s u :=
  ⟨fun hn => k.asserted (hn.suffix h.host), by rw [k.epoch, h.epoch], k.values⟩

theorem Within.pure {α : Type} {R : State → State → Prop} (hR : Chains R) {Q : α → Prop} {a : α} (ha : Q a) :
    Within R Q (Pure.pure a) := fun s _ => ⟨StillRunning.refl s, hR.refl s, ha⟩

theorem Within.weaken {α : Type} {R : State → State → Prop} {P Q : α → Prop} {c : Ctl α} (hc : Within R P c)
    (h : ∀ a, P a → Q a) : Within R Q c := by
  intro s hb
  have := hc s hb
  unfold WithinAt at this ⊢
  split <;> simp_all

theorem WithinAt.bind {α β : Type} {R : State → State → Prop} (hR : Chains R) {P : α → Prop} {Q : β → Prop}
    {x : Ctl α} {f : α → Ctl β} {s : State} (hx : WithinAt R P x s)
    (hf : ∀ a t, x s = .ok a t → P a → StillRunning s t → R s t → WithinAt R Q (f a) t) : WithinAt R Q (x >>= f) s := by
  unfold WithinAt at hx ⊢
  rw [Ctl.bind_apply]
  revert hx
  cases hxs : x s with
  | ok a t =>
    rintro ⟨run, step, ha⟩
    have h2 := hf a t hxs ha run step
    unfold WithinAt at h2
    revert h2
    dsimp only
    cases f a t with
    | ok b u => exact fun ⟨r2, s2, hb2⟩ => ⟨run.trans r2, hR.trans step s2, hb2⟩
    | error e u =>
      cases e with
      | blockReset => exact fun k => ResetOf.after run k
      | raised e => exact fun ⟨r2, s2, l2⟩ => ⟨run.trans r2, hR.trans step s2, l2⟩
      | endless => exact id
  | error e t => cases e <;> exact fun h => h

theorem Within.bind {α β : Type} {R : State → State → Prop} (hR : Chains R) {P : α → Prop} {Q : β → Prop}
    {x : Ctl α} {f : α → Ctl β} (hx : Within R P x) (hf : ∀ a, P a → Within R Q (f a)) :
    Within R Q (x >>= f) := fun s hb =>
  WithinAt.bind hR (hx s hb) fun a t _ ha run _ => hf a ha t (run.busy.trans hb)

theorem Within.get {β : Type} {R : State → State → Prop} {Q : β → Prop} {f : State → Ctl β}
    (hf : ∀ s, Within R Q (f s)) : Within R Q ((MonadState.get : Ctl State) >>= f) := fun s hb => hf s s hb

theorem Within.modify {R : State → State → Prop} {f : State → State}
    (hf : ∀ s, StillRunning s (f s) ∧ R s (f s)) {Q : PUnit → Prop} (hq : Q ⟨⟩) : Within R Q (modify f : Ctl PUnit) :=
  fun s _ => ⟨(hf s).1, (hf s).2, hq⟩

/-- A field update that leaves the command running. -/
theorem within_update {R : State → State → Prop} (f : State → State) (hb : ∀ s, (f s).busy = s.busy)
    (he : ∀ s, (f s).epoch = s.epoch) (hh : ∀ s, (f s).host = s.host) (hf : ∀ s, R s (f s)) :
    Within R (fun _ => True) (modify f : Ctl PUnit) :=
  Within.modify (fun s => ⟨⟨hb s, he s, by rw [hh s]⟩, hf s⟩) trivial

theorem Within.raise {α : Type} {R : State → State → Prop} (hR : Chains R) {Q : α → Prop} {e : Err}
    (he : e.raisable = true) : Within R Q (Machine.raise e : Ctl α) := fun s _ => ⟨StillRunning.refl s, hR.refl s, he⟩

theorem Within.ite {α : Type} {R : State → State → Prop} {Q : α → Prop} {p : Prop} [Decidable p] {c d : Ctl α}
    (hc : p → Within R Q c) (hd : ¬ p → Within R Q d) : Within R Q (if p then c else d) := by
  split
  · next h => exact hc h
  · next h => exact hd h

/-- The result of a run within `R` that no reset input ends. -/
theorem Within.result {α : Type} {R : State → State → Prop} {Q : α → Prop} {c : Ctl α} (hc : Within R Q c) (s : State)
    (hb : s.busy = true) (hn : NoReset s.host) :
    (∃ a t, c s = .ok a t ∧ StillRunning s t ∧ R s t ∧ Q a) ∨
    (∃ e t, c s = .error (.raised e) t ∧ StillRunning s t ∧ R s t ∧ e.raisable = true) := by
  have h := hc s hb
  unfold WithinAt at h
  revert h
  cases hcs : c s with
  | ok a t => exact fun ⟨h1, h2, h3⟩ => .inl ⟨a, t, rfl, h1, h2, h3⟩
  | error e t =>
    cases e with
    | raised e => exact fun ⟨h1, h2, h3⟩ => .inr ⟨e, t, rfl, h1, h2, h3⟩
    | endless => exact False.elim
    | blockReset => exact fun h => absurd hn h.asserted

theorem Within.ok {α : Type} {R : State → State → Prop} {Q : α → Prop} {c : Ctl α} (hc : Within R Q c) {s t : State}
    {a : α} (hb : s.busy = true) (h : c s = .ok a t) : StillRunning s t ∧ R s t ∧ Q a := by
  have := hc s hb
  unfold WithinAt at this
  rw [h] at this
  exact this

/-! ### What a preorder must allow -/

/-- `R` allows time and the host, draws, and hidden state other than TSNAP and TACC. -/
structure AllowsTime (R : State → State → Prop) : Prop extends Chains R where
  env : ∀ {s t}, EnvStep s t → R s t
  lag : ∀ s : State, R s { s with lags := s.lags.tail }
  hid : ∀ (s : State) (h : Hidden), h.tsnap = s.hid.tsnap → h.tacc = s.hid.tacc → R s { s with hid := h }

/-- `R` allows sending. -/
structure AllowsSend (R : State → State → Prop) : Prop where
  txb : ∀ (s : State) (b : Byte), R s (s.record (.txb b s.now))

/-- `R` allows reading the stream. -/
structure AllowsRead (R : State → State → Prop) : Prop where
  rxb : ∀ (s : State) (x : RxByte) (xs : List RxByte), s.rx = x :: xs → R s ({ s with rx := s.rx.tail }.record (.rxb x.byte s.now))

/-- `R` allows pin changes and bit rates. -/
structure AllowsPins (R : State → State → Prop) : Prop where
  pin : ∀ (s : State) (p : Pin) (v : Bool), R s ((s.withPin p v).record (.pin p v s.now))
  rate : ∀ (s : State) (r : Word), R s ({ s with rate := r }.record (.baud r s.now))

/-- `R` allows the decoder's diagnostics. -/
structure AllowsDecode (R : State → State → Prop) : Prop where
  skip : ∀ (s : State) (n : Nat), n ≤ 257 → R s { s with skipcnt := BitVec.ofNat 9 n }
  diag : ∀ (s : State) (d : Diag), (d.bodyOk = false → d = ⟨0, 0, 0, false⟩) → R s { s with diag := d }
  last : ∀ (s : State) (b : Byte), R s { s with lastst := ⟨b, true⟩ }

/-- `R` allows storing in RXBUF. -/
structure AllowsStore (R : State → State → Prop) : Prop where
  store : ∀ (s : State) (p : List Byte), p ≠ [] → s.rxlen.toNat + p.length ≤ Config.bufCap →
    R s ((s.rxStore p).countFrame p.length)
  bytes : ∀ (s : State) (p : List Byte), s.rxlen.toNat + p.length ≤ Config.bufCap → R s (s.rxStore p)

/-- `R` allows ACKOK. -/
structure AllowsAck (R : State → State → Prop) : Prop where
  ack : ∀ (s : State) (b : Bool), R s { s with ackok := b }

section Primitives

variable {R : State → State → Prop}

theorem advance_within (hT : AllowsTime R) (T : Nat) : Within R (fun _ => True) (advance T) := by
  intro s hb
  rcases advance_cases T s hb with ⟨t, h, env, _⟩ | ⟨t, h, r⟩
  · unfold WithinAt; rw [h]; exact ⟨env.stillRunning, hT.env env, trivial⟩
  · unfold WithinAt; rw [h]; exact r

theorem mark_within (hT : AllowsTime R) (f : Hidden → Hidden) (h1 : ∀ h, (f h).tsnap = h.tsnap)
    (h2 : ∀ h, (f h).tacc = h.tacc) : Within R (fun _ => True) (mark f) := fun s _ =>
  ⟨⟨rfl, rfl, List.suffix_refl _⟩, hT.hid s _ (h1 _) (h2 _), trivial⟩

theorem drawLag_within (hT : AllowsTime R) : Within R (fun _ => True) drawLag := fun s _ =>
  ⟨⟨rfl, rfl, List.suffix_refl _⟩, hT.lag s, trivial⟩

theorem pass_within (hT : AllowsTime R) : Within R (fun _ => True) pass :=
  Within.bind hT.toChains (drawLag_within hT) fun _ _ => Within.get fun _ => advance_within hT _

theorem wait_within (hT : AllowsTime R) (d : Nat) : Within R (fun _ => True) (wait d) :=
  Within.bind hT.toChains (drawLag_within hT) fun _ _ => Within.get fun _ => advance_within hT _

theorem frameDeadline_within (hT : AllowsTime R) (d : Word) : Within R (fun _ => True) (frameDeadline d) :=
  Within.get fun _ => Within.bind hT.toChains (mark_within hT _ (fun _ => rfl) (fun _ => rfl)) fun _ _ =>
    Within.pure hT.toChains trivial

theorem waitDeadline_within (hT : AllowsTime R) (d : Word) : Within R (fun _ => True) (waitDeadline d) :=
  Within.get fun _ => Within.bind hT.toChains (mark_within hT _ (fun _ => rfl) (fun _ => rfl)) fun _ _ =>
    Within.pure hT.toChains trivial

theorem chSend_within (hT : AllowsTime R) (hS : AllowsSend R) (bs : List Byte) :
    Within R (fun _ => True) (chSend bs) := by
  induction bs with
  | nil => exact Within.pure hT.toChains trivial
  | cons b bs ih =>
    exact Within.bind hT.toChains
      (within_update (fun s => s.record (.txb b s.now)) (fun _ => rfl) (fun _ => rfl) (fun _ => rfl) (fun s => hS.txb s b)) fun _ _ =>
      Within.bind hT.toChains (pass_within hT) fun _ _ => ih

theorem takeByte_within (hT : AllowsTime R) (hr : AllowsRead R) (x : RxByte) (xs : List RxByte) (s : State)
    (hb : s.busy = true) (hx : s.rx = x :: xs) : WithinAt R (fun _ => True) (takeByte x) s := by
  refine WithinAt.bind hT.toChains (P := fun _ => True) ?_ fun _ t _ _ run _ => ?_
  · exact ⟨⟨rfl, rfl, List.suffix_refl _⟩, hr.rxb s x xs hx, trivial⟩
  · exact Within.bind hT.toChains (pass_within hT) (fun _ _ => Within.pure hT.toChains trivial) t (run.busy.trans hb)

theorem timeoutAt_within (hT : AllowsTime R) (T : Nat) : Within R (fun _ => True) (timeoutAt T) :=
  Within.bind hT.toChains (advance_within hT T) fun _ _ =>
    Within.bind hT.toChains (pass_within hT) fun _ _ => Within.pure hT.toChains trivial

theorem chRecv_within (hT : AllowsTime R) (hr : AllowsRead R) (dl : Deadline) :
    Within R (fun _ => True) (chRecv dl) := by
  intro s hb
  refine WithinAt.bind hT.toChains (P := fun _ => True) ⟨StillRunning.refl s, hT.refl s, trivial⟩ fun u t hs _ _ _ => ?_
  cases hs
  split
  · exact timeoutAt_within hT _ s hb
  · next x xs hx =>
    split
    · exact takeByte_within hT hr x xs s hb hx
    · split
      · refine WithinAt.bind hT.toChains (advance_within hT _ s hb) fun _ t ht _ run _ => ?_
        rcases advance_cases x.arrival s hb with ⟨v, h, env, _⟩ | ⟨v, h, _⟩
        · rw [h] at ht
          cases ht
          exact takeByte_within hT hr x xs _ (run.busy.trans hb) (env.rx.trans hx)
        · rw [h] at ht
          cases ht
      · exact timeoutAt_within hT _ s hb

theorem pinSet_within (hT : AllowsTime R) (hp : AllowsPins R) (p : Pin) (v : Bool) :
    Within R (fun _ => True) (pinSet p v) :=
  Within.bind hT.toChains
    (within_update (fun s => (s.withPin p v).record (.pin p v s.now)) (fun _ => by cases p <;> rfl)
      (fun _ => by cases p <;> rfl) (fun _ => by cases p <;> rfl) (fun s => hp.pin s p v)) fun _ _ => pass_within hT

theorem reconfigure_within (hT : AllowsTime R) (hp : AllowsPins R) (r : Word) :
    Within R (fun _ => True) (reconfigure r) :=
  Within.bind hT.toChains
    (within_update (fun s => { s with rate := r }.record (.baud r s.now)) (fun _ => rfl) (fun _ => rfl)
      (fun _ => rfl) (fun s => hp.rate s r)) fun _ _ =>
    pass_within hT

theorem setAckok_within (ha : AllowsAck R) (b : Bool) : Within R (fun _ => True) (setAckok b) :=
  within_update (fun s => { s with ackok := b }) (fun _ => rfl) (fun _ => rfl) (fun _ => rfl) (fun s => ha.ack s b)

theorem rxAppend_within (hC : Chains R) (hs : AllowsStore R) (bs : List Byte) :
    Within R (fun _ => True) (rxAppend bs) := by
  intro s _
  simp only [WithinAt, rxAppend, Ctl.bind_apply, Ctl.get_apply]
  by_cases h : Config.bufCap < s.rxlen.toNat + bs.length
  · rw [if_pos h]; exact ⟨StillRunning.refl s, hC.refl s, rfl⟩
  · rw [if_neg h]; exact ⟨⟨rfl, rfl, List.suffix_refl _⟩, hs.bytes s bs (by omega), trivial⟩

theorem store_within (hC : Chains R) (hs : AllowsStore R) {p : List Byte} (hp : p ≠ []) :
    Within R (fun _ => True) (store p) := by
  intro s _
  simp only [WithinAt, store, rxAppend, Ctl.bind_apply, Ctl.get_apply]
  by_cases h : Config.bufCap < s.rxlen.toNat + p.length
  · rw [if_pos h]; exact ⟨StillRunning.refl s, hC.refl s, rfl⟩
  · rw [if_neg h]; exact ⟨⟨rfl, rfl, List.suffix_refl _⟩, hs.store s p hp (by omega), trivial⟩

/-! ### Frames -/

theorem bufferByte_within (hT : AllowsTime R) : Within R (fun _ => True) bufferByte :=
  Within.get fun _ => Within.ite
    (fun _ => Within.bind hT.toChains (mark_within hT _ (fun _ => rfl) (fun _ => rfl)) fun _ _ =>
      Within.pure hT.toChains trivial)
    fun _ => Within.pure hT.toChains trivial

/-- Reading a byte from either source; the channel needs `AllowsRead`. -/
theorem getByte_within (hT : AllowsTime R) (src : Source) (hr : src = .channel → AllowsRead R) (dl : Deadline) :
    Within R (fun _ => True) (getByte src dl) := by
  cases src with
  | channel => exact chRecv_within hT (hr rfl) dl
  | buffer => exact bufferByte_within hT

theorem setSkip_within (hd : AllowsDecode R) (n : Nat) (h : n ≤ 257) : Within R (fun _ => True) (setSkip n) :=
  within_update (fun s => { s with skipcnt := BitVec.ofNat 9 n }) (fun _ => rfl) (fun _ => rfl) (fun _ => rfl)
    (fun s => hd.skip s n h)

theorem setDiag_within (hd : AllowsDecode R) (d : Diag) (h : d.bodyOk = false → d = ⟨0, 0, 0, false⟩) :
    Within R (fun _ => True) (setDiag d) :=
  within_update (fun s => { s with diag := d }) (fun _ => rfl) (fun _ => rfl) (fun _ => rfl) (fun s => hd.diag s d h)

theorem setLast_within (hd : AllowsDecode R) (b : Byte) : Within R (fun _ => True) (setLast b) :=
  within_update (fun s => { s with lastst := ⟨b, true⟩ }) (fun _ => rfl) (fun _ => rfl) (fun _ => rfl)
    (fun s => hd.last s b)

theorem hunt_within (hT : AllowsTime R) (hd : AllowsDecode R) (src : Source) (hr : src = .channel → AllowsRead R)
    (m : Byte) (dl : Deadline) (allowed skipped : Nat) (first : Bool) (h : allowed + skipped ≤ 256) :
    Within R (fun x => ∀ e, x = some e → e.raisable = true) (hunt src m dl allowed skipped first) := by
  induction allowed generalizing skipped first with
  | zero =>
    unfold hunt
    refine Within.bind hT.toChains (mark_within hT _ (fun _ => rfl) (fun _ => rfl)) fun _ _ => ?_
    refine Within.bind hT.toChains (getByte_within hT src hr dl) fun r _ => ?_
    have fin : ∀ (n : Nat) (x : Option Err), n ≤ 257 → (∀ e, x = some e → e.raisable = true) →
        Within R (fun x => ∀ e, x = some e → e.raisable = true) (do setSkip n; pure x : Ctl (Option Err)) :=
      fun n x hn hx => Within.bind hT.toChains (setSkip_within hd n hn) fun _ _ => Within.pure hT.toChains hx
    split
    · exact fin _ _ (by omega) (by simp [Err.raisable])
    · exact Within.ite (fun _ => fin _ _ (by omega) (by simp [Err.raisable])) fun _ =>
        Within.ite (fun _ => fin _ _ (by omega) (by simp [Err.raisable])) fun _ => fin _ _ (by omega) (by simp [Err.raisable])
  | succ k ih =>
    unfold hunt
    refine Within.bind hT.toChains (mark_within hT _ (fun _ => rfl) (fun _ => rfl)) fun _ _ => ?_
    refine Within.bind hT.toChains (getByte_within hT src hr dl) fun r _ => ?_
    have fin : ∀ (n : Nat) (x : Option Err), n ≤ 257 → (∀ e, x = some e → e.raisable = true) →
        Within R (fun x => ∀ e, x = some e → e.raisable = true) (do setSkip n; pure x : Ctl (Option Err)) :=
      fun n x hn hx => Within.bind hT.toChains (setSkip_within hd n hn) fun _ _ => Within.pure hT.toChains hx
    split
    · exact fin _ _ (by omega) (by simp [Err.raisable])
    · exact Within.ite (fun _ => fin _ _ (by omega) (by simp [Err.raisable])) fun _ =>
        Within.ite (fun _ => fin _ _ (by omega) (by simp [Err.raisable])) fun _ => ih _ _ (by omega)

theorem lengthField_within (hT : AllowsTime R) (src : Source) (hr : src = .channel → AllowsRead R) (lenW : Bool)
    (dl : Deadline) :
    Within R (fun x => ∀ lb n, x = some (lb, n) → 1 ≤ n ∧ n ≤ 65535) (lengthField src lenW dl) := by
  unfold lengthField
  refine Within.bind hT.toChains (getByte_within hT src hr dl) fun h _ => ?_
  split
  · exact Within.pure hT.toChains (by simp)
  · next b =>
    refine Within.ite (fun _ => ?_) fun _ => Within.pure hT.toChains ?_
    · refine Within.bind hT.toChains (getByte_within hT src hr dl) fun l _ => ?_
      split
      · exact Within.pure hT.toChains (by simp)
      · next l =>
        refine Within.pure hT.toChains ?_
        intro lb n hx
        have h1 := b.isLt
        have h2 := l.isLt
        split at hx
        · simp at hx
        · simp only [Option.some.injEq, Prod.mk.injEq] at hx
          omega
    · intro lb n hx
      simp only [Option.some.injEq, Prod.mk.injEq] at hx
      have h1 := b.isLt
      obtain ⟨_, rfl⟩ := hx
      split
      · omega
      · next h0 =>
        have : b.toNat ≠ 0 := fun h => h0 (BitVec.eq_of_toNat_eq h)
        omega

theorem readUpTo_within (hT : AllowsTime R) (src : Source) (hr : src = .channel → AllowsRead R) (dl : Deadline)
    (n : Nat) : Within R (fun bs => bs.length ≤ n) (readUpTo src dl n) := by
  induction n with
  | zero => exact Within.pure hT.toChains (by simp)
  | succ n ih =>
    unfold readUpTo
    refine Within.bind hT.toChains (getByte_within hT src hr dl) fun r _ => ?_
    split
    · exact Within.pure hT.toChains (by simp)
    · exact Within.bind hT.toChains ih fun bs hbs => Within.pure hT.toChains (by simpa using hbs)

/-- A decoded payload has 1 to 65535 bytes (40_codec.md R402, R410), and a decode error is one that can be raised (R412). -/
def PayloadSized (r : Except Err (List Byte)) : Prop :=
  (∀ p, r = .ok p → p ≠ [] ∧ p.length ≤ 65535) ∧ ∀ e, r = .error e → e.raisable = true

theorem PayloadSized.error {e : Err} (he : e.raisable = true) : PayloadSized (.error e) :=
  ⟨fun _ h => (nomatch h), fun _ h => by cases h; exact he⟩

theorem checkBody_within (hT : AllowsTime R) (hd : AllowsDecode R) (lb : List Byte) (n : Nat) (buf : List Byte)
    (h1 : 1 ≤ n) (h2 : n ≤ 65535) : Within R PayloadSized (checkBody lb n buf) := by
  unfold checkBody
  refine Within.ite (fun _ => ?_) fun hlen => ?_
  · exact Within.bind hT.toChains (setDiag_within hd _ (fun _ => rfl)) fun _ _ =>
      Within.pure hT.toChains (PayloadSized.error rfl)
  · refine Within.bind hT.toChains (setDiag_within hd _ (by simp)) fun _ _ => ?_
    refine Within.ite (fun _ => Within.pure hT.toChains (PayloadSized.error rfl)) fun _ => ?_
    refine Within.ite (fun _ => Within.pure hT.toChains (PayloadSized.error rfl)) fun _ => ?_
    refine Within.bind hT.toChains (setLast_within hd _) fun _ _ => Within.pure hT.toChains ⟨?_, fun _ h => (nomatch h)⟩
    intro p hp
    have : p = buf.take n := by simpa using hp.symm
    subst this
    refine ⟨fun h => ?_, ?_⟩
    · have := congrArg List.length h
      rw [List.length_take, List.length_nil] at this
      omega
    · rw [List.length_take]
      omega

theorem decodeFrame_within (hT : AllowsTime R) (hd : AllowsDecode R) (src : Source)
    (hr : src = .channel → AllowsRead R) (m : Byte) (dl : Deadline) :
    Within R PayloadSized (decodeFrame src m dl) := by
  unfold decodeFrame
  refine Within.bind hT.toChains (hunt_within hT hd src hr m dl _ 0 true (by simp [Config.maxSkip])) fun r hr' => ?_
  split
  · next e => exact Within.pure hT.toChains (PayloadSized.error (hr' e rfl))
  · refine Within.get fun s => ?_
    refine Within.bind hT.toChains (frameDeadline_within hT _) fun ldl _ => ?_
    refine Within.bind hT.toChains (lengthField_within hT src hr _ ldl) fun len hlen => ?_
    split
    · exact Within.pure hT.toChains (PayloadSized.error rfl)
    · next lb n =>
      obtain ⟨h1, h2⟩ := hlen lb n rfl
      refine Within.bind hT.toChains (frameDeadline_within hT _) fun bdl _ => ?_
      exact Within.bind hT.toChains (readUpTo_within hT src hr bdl _) fun buf _ =>
        checkBody_within hT hd lb n buf h1 h2

theorem sendCmd_within (hT : AllowsTime R) (hS : AllowsSend R) (opc : Byte) (args : List Byte) :
    Within R (fun _ => True) (sendCmd opc args) := Within.get fun _ => chSend_within hT hS _

theorem sendData_within (hT : AllowsTime R) (hS : AllowsSend R) (p : List Byte) :
    Within R (fun _ => True) (sendData p) := Within.get fun _ => chSend_within hT hS _

theorem pollRequest_within (hT : AllowsTime R) (hS : AllowsSend R) (k : Nat) :
    Within R (fun _ => True) (pollRequest k) :=
  Within.get fun _ => Within.ite (fun _ => sendCmd_within hT hS _ _) fun _ => Within.pure hT.toChains trivial

/-! ### The receive with retry ends -/

/-- What the environment still has for a running command: bytes to deliver and draws of elapsed time. -/
def State.fuel (s : State) : Nat := s.rx.length + s.lags.length

/-- Nothing a command does adds to it. -/
def Spends (s t : State) : Prop := t.fuel ≤ s.fuel

theorem Spends.allowsTime : AllowsTime Spends where
  refl := fun _ => Nat.le_refl _
  trans := fun h k => Nat.le_trans k h
  env := fun h => by simp only [Spends, State.fuel, h.rx, h.lags, Nat.le_refl]
  lag := fun s => by simp [Spends, State.fuel]
  hid := fun _ _ _ _ => Nat.le_refl _

theorem Spends.allowsSend : AllowsSend Spends := ⟨fun _ _ => Nat.le_refl _⟩
theorem Spends.allowsRead : AllowsRead Spends := ⟨fun s x xs h => by simp [Spends, State.fuel, h]⟩
theorem Spends.allowsDecode : AllowsDecode Spends :=
  ⟨fun _ _ _ => Nat.le_refl _, fun _ _ _ => Nat.le_refl _, fun _ _ => Nat.le_refl _⟩

/-- A wait until the end of a deadline ends with the deadline expired. -/
theorem State.expired_of_left {s t : State} {dl : Deadline} (h : t.time = s.time + s.left dl) : t.expired dl = true := by
  have ht : t.now = s.now + BitVec.ofNat 32 (s.left dl) := by
    simp only [State.now, h, BitVec.ofNat_add]
  simp only [State.expired, decide_eq_true_eq]
  have hd := dl.dur.isLt
  have hs := (s.now - dl.t0).isLt
  have e : t.now - dl.t0 = (s.now - dl.t0) + BitVec.ofNat 32 (s.left dl) := by
    rw [ht]
    ring
  rw [e, BitVec.toNat_add, BitVec.toNat_ofNat]
  simp only [State.left]
  omega

theorem pass_apply (s : State) : pass s = advance (s.time + s.lags.headD 0) { s with lags := s.lags.tail } := rfl

theorem pass_cases (s : State) (hb : s.busy = true) :
    (∃ t, pass s = .ok ⟨⟩ t ∧ EnvStep { s with lags := s.lags.tail } t ∧ t.time = s.time + s.lags.headD 0) ∨
    (∃ t, pass s = .error .blockReset t ∧ ResetOf s t) := by
  rcases advance_cases (s.time + s.lags.headD 0) { s with lags := s.lags.tail } hb with ⟨t, h, e, ht⟩ | ⟨t, h, r⟩
  · refine .inl ⟨t, ?_, e, ?_⟩
    · rw [pass_apply]; exact h
    · rw [ht]
      show max s.time _ = _
      omega
  · exact .inr ⟨t, by rw [pass_apply]; exact h, r.asserted, r.epoch, r.values⟩

/-- A read of the channel takes a byte, or draws elapsed time, or ends with its deadline expired. -/
theorem chRecv_spends (dl : Deadline) (s t : State) (r : Option Byte) (hb : s.busy = true)
    (h : chRecv dl s = .ok r t) : t.fuel < s.fuel ∨ r = none ∧ t.expired dl = true := by
  have timeout : timeoutAt (s.time + s.left dl) s = .ok r t → t.fuel < s.fuel ∨ r = none ∧ t.expired dl = true := by
    intro h
    simp only [timeoutAt, Ctl.bind_apply] at h
    rcases advance_cases (s.time + s.left dl) s hb with ⟨u, hu, eu, tu⟩ | ⟨u, hu, _⟩ <;> rw [hu] at h
    · dsimp only at h
      rcases pass_cases u (eu.busy.trans hb) with ⟨v, hv, ev, tv⟩ | ⟨v, hv, _⟩ <;> rw [hv] at h
      · cases h
        have hl : t.fuel = s.rx.length + (s.lags.length - 1) := by
          simp [State.fuel, ev.rx, ev.lags, eu.rx, eu.lags]
        cases hs : s.lags with
        | cons l ls =>
          left
          rw [hl, State.fuel, hs]
          simp
        | nil =>
          right
          refine ⟨rfl, State.expired_of_left (s := s) ?_⟩
          rw [tv, eu.lags, hs, tu]
          simp
      · cases h
    · cases h
  have take : ∀ (u : State) (x : RxByte) (xs : List RxByte), u.busy = true → u.rx = x :: xs → u.fuel = s.fuel →
      takeByte x u = .ok r t → t.fuel < s.fuel := by
    intro u x xs hu hx hf h
    simp only [takeByte, Ctl.bind_apply, Ctl.modify_apply] at h
    rcases pass_cases ({ u with rx := u.rx.tail }.record (.rxb x.byte u.now)) hu with ⟨v, hv, ev, _⟩ | ⟨v, hv, _⟩ <;>
      rw [hv] at h
    · cases h
      rw [← hf]
      have h1 := ev.rx
      have h2 := ev.lags
      simp only [State.record_rx, State.record_lags] at h1 h2
      simp only [State.fuel, h1, h2, hx, List.tail_cons, List.length_cons, List.length_tail]
      omega
    · cases h
  simp only [chRecv, Ctl.bind_apply, Ctl.get_apply] at h
  cases hx : s.rx with
  | nil => rw [hx] at h; exact timeout h
  | cons x xs =>
    rw [hx] at h
    dsimp only at h
    split at h
    · exact .inl (take s x xs hb hx rfl h)
    · split at h
      · rw [Ctl.bind_apply] at h
        rcases advance_cases x.arrival s hb with ⟨u, hu, eu, _⟩ | ⟨u, hu, _⟩ <;> rw [hu] at h
        · exact .inl (take u x xs (eu.busy.trans hb) (eu.rx.trans hx)
            (by simp only [State.fuel, eu.rx, eu.lags]) h)
        · cases h
      · exact timeout h

/-- A decode attempt on the channel takes something from the environment, or ends with the hunt's deadline expired. -/
theorem decodeFrame_spends (m : Byte) (dl : Deadline) (s t : State) (r : Except Err (List Byte)) (hb : s.busy = true)
    (h : decodeFrame .channel m dl s = .ok r t) : t.fuel < s.fuel ∨ t.expired dl = true := by
  have hT := Spends.allowsTime
  have hd := Spends.allowsDecode
  have hr := Spends.allowsRead
  simp only [decodeFrame, Ctl.bind_apply] at h
  cases hh : hunt .channel m dl Config.maxSkip 0 true s with
  | error e u => rw [hh] at h; cases h
  | ok found u =>
    rw [hh] at h
    dsimp only at h
    have hu := (hunt_within hT hd .channel (fun _ => hr) m dl _ 0 true (by simp [Config.maxSkip])).ok hb hh
    -- the hunt's first read
    have first : u.fuel < s.fuel ∨ (∃ e, found = some e) ∧ u.expired dl = true := by
      unfold hunt at hh
      simp only [getByte, Ctl.bind_apply, mark_apply] at hh
      generalize hs1 : ({ s with hid := { s.hid with skipped := 0, first := true } } : State) = s1 at hh
      have hb1 : s1.busy = true := by rw [← hs1]; exact hb
      have hf1 : s1.fuel = s.fuel := by rw [← hs1]; rfl
      cases hc : chRecv dl s1 with
      | error e v => rw [hc] at hh; cases hh
      | ok b v =>
        rw [hc] at hh
        dsimp only at hh
        have hv := (chRecv_within hT hr dl).ok hb1 hc
        rcases chRecv_spends dl s1 v b hb1 hc with hlt | ⟨hb0, hx⟩
        · left
          have fin : ∀ (n : Nat) (x : Option Err), n ≤ 257 →
              Within Spends (fun _ => True) (do setSkip n; pure x : Ctl (Option Err)) :=
            fun n x hn => Within.bind hT.toChains (setSkip_within hd n hn) fun _ _ => Within.pure hT.toChains trivial
          have rest : Spends v u := by
            cases b with
            | none => exact ((fin _ _ (by omega)).ok (hv.1.busy.trans hb1) hh).2.1
            | some b =>
              have key := Within.ite (R := Spends) (Q := fun _ => True) (p := b = m) (fun _ => fin 0 none (by omega))
                fun _ => Within.ite (p := (true && b == 0) = true) (fun _ => fin 0 (some .noResponse) (by omega)) fun _ =>
                  (hunt_within hT hd .channel (fun _ => hr) m dl 255 1 false (by omega)).weaken fun _ _ => trivial
              exact (key.ok (hv.1.busy.trans hb1) hh).2.1
          unfold Spends at rest
          omega
        · subst hb0
          simp only [setSkip, Ctl.bind_apply, Ctl.modify_apply, Ctl.pure_apply] at hh
          cases hh
          exact .inr ⟨⟨_, rfl⟩, hx⟩
    rcases first with hlt | ⟨⟨e, rfl⟩, hx⟩
    · left
      have rest : Spends u t := by
        cases found with
        | some e =>
          cases h
          exact Nat.le_refl _
        | none =>
          refine (Within.ok (Q := fun _ => True) (Within.get fun s => ?_) (hu.1.busy.trans hb) h).2.1
          refine Within.bind hT.toChains (frameDeadline_within hT _) fun ldl _ => ?_
          refine Within.bind hT.toChains (lengthField_within hT .channel (fun _ => hr) _ ldl) fun len hlen => ?_
          split
          · exact Within.pure hT.toChains trivial
          · next lb n =>
            obtain ⟨h1, h2⟩ := hlen lb n rfl
            refine Within.bind hT.toChains (frameDeadline_within hT _) fun bdl _ => ?_
            exact Within.bind hT.toChains (readUpTo_within hT .channel (fun _ => hr) bdl _) fun buf _ =>
              (checkBody_within hT hd lb n buf h1 h2).weaken fun _ _ => trivial
      unfold Spends at rest
      omega
    · right
      cases h
      exact hx

theorem recvLoop_within (hT : AllowsTime R) (hS : AllowsSend R) (hr : AllowsRead R) (hd : AllowsDecode R) (m : Byte)
    (dl : Deadline) (bound k : Nat) (s : State) (hb : s.busy = true) (hf : s.fuel < bound) :
    WithinAt R (fun p => p ≠ [] ∧ p.length ≤ 65535) (recvLoop m dl bound k) s := by
  induction bound generalizing k s with
  | zero => omega
  | succ bound ih =>
    unfold recvLoop
    refine WithinAt.bind hT.toChains
      (mark_within hT (fun h => { h with attempts := k }) (fun _ => rfl) (fun _ => rfl) s hb) fun _ t ht _ rt _ => ?_
    have ft := ((mark_within Spends.allowsTime (fun h => { h with attempts := k }) (fun _ => rfl)
      (fun _ => rfl)).ok hb ht).2.1
    have bt := rt.busy.trans hb
    refine WithinAt.bind hT.toChains (pollRequest_within hT hS k t bt) fun _ u hu _ ru _ => ?_
    have fu := ((pollRequest_within Spends.allowsTime Spends.allowsSend k).ok bt hu).2.1
    have bu := ru.busy.trans bt
    refine WithinAt.bind hT.toChains (decodeFrame_within hT hd .channel (fun _ => hr) m dl u bu) fun r v hv hr' rv _ => ?_
    have fv := decodeFrame_spends m dl u v r bu hv
    have bv := rv.busy.trans bu
    split
    · next p => exact Within.pure hT.toChains (hr'.1 p rfl) v bv
    · refine WithinAt.bind hT.toChains (P := fun _ => True) ⟨StillRunning.refl v, hT.refl v, trivial⟩ fun w x hw _ _ _ => ?_
      cases hw
      split
      · exact Within.raise hT.toChains rfl v bv
      · next hx =>
        refine ih _ v bv ?_
        unfold Spends at ft fu
        rcases fv with h | h
        · omega
        · exact absurd h hx

theorem recvUntil_within (hT : AllowsTime R) (hS : AllowsSend R) (hr : AllowsRead R) (hd : AllowsDecode R) (m : Byte)
    (dl : Deadline) : Within R (fun p => p ≠ [] ∧ p.length ≤ 65535) (recvUntil m dl) :=
  Within.bind hT.toChains (mark_within hT _ (fun _ => rfl) (fun _ => rfl)) fun _ _ s hb =>
    WithinAt.bind hT.toChains (P := fun _ => True) ⟨StillRunning.refl s, hT.refl s, trivial⟩ fun u t hu _ _ _ => by
      cases hu
      exact recvLoop_within hT hS hr hd m dl _ _ s hb (Nat.lt_succ_self _)

theorem recvFrame_within (hT : AllowsTime R) (hS : AllowsSend R) (hr : AllowsRead R) (hd : AllowsDecode R) (m : Byte) :
    Within R (fun p => p ≠ [] ∧ p.length ≤ 65535) (recvFrame m) :=
  Within.get fun _ => recvUntil_within hT hS hr hd m _

end Primitives

end Sys2Proof.Machine
end

