-- ==== Sys2Proof/Laws/OpStep.lean ====
section
/-! SUPPORT. `OpStep a s t`: everything a running command can change from s to t when its pseudocode makes only the kinds of
step that `a` permits. It is a preorder that allows each permitted primitive, so the frame of an op is read off from the
primitives its pseudocode uses. -/

namespace Sys2Proof.Machine

/-- The kinds of step an op's pseudocode makes, besides letting time pass. -/
structure Allow where
  send : Bool := false
  read : Bool := false
  pins : Bool := false
  decode : Bool := false
  store : Bool := false
  ack : Bool := false

/-- What the invariant says of the receive results and of memory (State.Inv). -/
structure RxOk (s : State) : Prop where
  mem : s.mem.wf = true
  rxlen : s.rxlen.toNat ≤ Config.bufCap
  frames : s.rxframes.toNat ≤ s.rxlen.toNat
  flens : ∀ j : Fin 8, s.rxframes.toNat ≤ j.val → s.rxflen.get j = 0
  lastst : s.lastst.valid = false → s.lastst.byte = 0
  diag : s.diag.bodyOk = false → s.diag = ⟨0, 0, 0, false⟩
  skipcnt : s.skipcnt.toNat ≤ 257

/-- What changes from s to t while a command runs. -/
structure OpStep (a : Allow) (s t : State) : Prop where
  busy : t.busy = s.busy
  cmd : t.cmd = s.cmd
  arg0 : t.arg0 = s.arg0
  arg1 : t.arg1 = s.arg1
  txlen : t.txlen = s.txlen
  cfgvalid : t.cfgvalid = s.cfgvalid
  prof : t.prof = s.prof
  tsnap : t.hid.tsnap = s.hid.tsnap
  tacc : t.hid.tacc = s.hid.tacc
  epoch : t.epoch = s.epoch
  err : t.err = s.err
  done : s.done = false → t.done = false
  time : s.time ≤ t.time
  host : t.host <:+ s.host
  lags : t.lags <:+ s.lags
  quiet : s.host = [] → t.timeout = s.timeout ∧ t.ie = s.ie ∧ t.wign = s.wign ∧ t.ovr = s.ovr ∧ t.resp = s.resp ∧
    t.draws = s.draws ∧ t.done = s.done
  outcomes : t.outcomes = s.outcomes
  events : s.events <+: t.events
  sent : a.send = false → t.sent = s.sent
  stream : ∃ k, t.rx = s.rx.drop k ∧ t.consumed = s.consumed ++ (s.rx.take k).map RxByte.byte
  unread : a.read = false → t.rx = s.rx ∧ t.consumed = s.consumed
  pins : a.pins = false → SamePins s t
  decode : a.decode = false → SameDiag s t
  stored : a.store = false → t.rxlen = s.rxlen ∧ t.rxframes = s.rxframes ∧ t.rxflen = s.rxflen ∧ t.mem = s.mem
  grows : s.rxlen.toNat ≤ t.rxlen.toNat
  bytes : ∀ x, (x < Config.rxBase + s.rxlen.toNat ∨ Config.rxBase + t.rxlen.toNat ≤ x) → t.byteAt x = s.byteAt x
  ack : a.ack = false → t.ackok = s.ackok
  sess : t.sess = s.sess
  rxOk : RxOk s → RxOk t

theorem SamePins.refl (s : State) : SamePins s s := ⟨rfl, rfl, rfl, rfl, rfl, rfl, rfl⟩

theorem SamePins.trans {s t u : State} (h : SamePins s t) (k : SamePins t u) : SamePins s u :=
  ⟨k.mode.trans h.mode, k.reset.trans h.reset, k.data.trans h.data, k.mux.trans h.mux, k.rate.trans h.rate,
    k.settings.trans h.settings, k.rates.trans h.rates⟩

theorem SameDiag.refl (s : State) : SameDiag s s := ⟨rfl, rfl, rfl⟩

theorem SameDiag.trans {s t u : State} (h : SameDiag s t) (k : SameDiag t u) : SameDiag s u :=
  ⟨k.lastst.trans h.lastst, k.diag.trans h.diag, k.skipcnt.trans h.skipcnt⟩

theorem OpStep.refl (a : Allow) (s : State) : OpStep a s s := by
  constructor
  case stream => exact ⟨0, by simp, by simp⟩
  case pins => exact fun _ => SamePins.refl s
  case decode => exact fun _ => SameDiag.refl s
  all_goals first | rfl | exact id | exact fun _ => rfl | exact Nat.le_refl _ | exact List.suffix_refl _ | simp

theorem OpStep.trans {a : Allow} {s t u : State} (h : OpStep a s t) (k : OpStep a t u) : OpStep a s u := by
  constructor
  case busy => exact k.busy.trans h.busy
  case cmd => exact k.cmd.trans h.cmd
  case arg0 => exact k.arg0.trans h.arg0
  case arg1 => exact k.arg1.trans h.arg1
  case txlen => exact k.txlen.trans h.txlen
  case cfgvalid => exact k.cfgvalid.trans h.cfgvalid
  case prof => exact k.prof.trans h.prof
  case tsnap => exact k.tsnap.trans h.tsnap
  case tacc => exact k.tacc.trans h.tacc
  case epoch => exact k.epoch.trans h.epoch
  case err => exact k.err.trans h.err
  case done => exact fun d => k.done (h.done d)
  case time => exact Nat.le_trans h.time k.time
  case host => exact k.host.trans h.host
  case lags => exact k.lags.trans h.lags
  case quiet =>
    intro hs
    have hte : t.host = [] := List.suffix_nil.mp (hs ▸ h.host)
    obtain ⟨a1, a2, a3, a4, a5, a6, a7⟩ := h.quiet hs
    obtain ⟨b1, b2, b3, b4, b5, b6, b7⟩ := k.quiet hte
    exact ⟨b1.trans a1, b2.trans a2, b3.trans a3, b4.trans a4, b5.trans a5, b6.trans a6, b7.trans a7⟩
  case outcomes => exact k.outcomes.trans h.outcomes
  case events => exact h.events.trans k.events
  case sent => exact fun e => (k.sent e).trans (h.sent e)
  case stream =>
    obtain ⟨i, h1, h2⟩ := h.stream
    obtain ⟨j, k1, k2⟩ := k.stream
    refine ⟨i + j, ?_, ?_⟩
    · rw [k1, h1, List.drop_drop]
    · rw [k2, h2, h1, List.take_add, List.map_append, List.append_assoc]
  case unread => exact fun e => ⟨(k.unread e).1.trans (h.unread e).1, (k.unread e).2.trans (h.unread e).2⟩
  case pins => exact fun e => (h.pins e).trans (k.pins e)
  case decode => exact fun e => (h.decode e).trans (k.decode e)
  case stored =>
    intro e
    obtain ⟨a1, a2, a3, a4⟩ := h.stored e
    obtain ⟨b1, b2, b3, b4⟩ := k.stored e
    exact ⟨b1.trans a1, b2.trans a2, b3.trans a3, b4.trans a4⟩
  case grows => exact Nat.le_trans h.grows k.grows
  case bytes =>
    intro x hx
    have g1 := h.grows
    have g2 := k.grows
    rw [k.bytes x (by omega), h.bytes x (by omega)]
  case ack => exact fun e => (k.ack e).trans (h.ack e)
  case sess => exact k.sess.trans h.sess
  case rxOk => exact fun r => k.rxOk (h.rxOk r)

theorem OpStep.chains (a : Allow) : Chains (OpStep a) := ⟨OpStep.refl a, OpStep.trans⟩

/-- A step permits at least what a smaller permission does. -/
theorem OpStep.mono {a b : Allow} {s t : State} (h : OpStep a s t) (h1 : b.send = false → a.send = false)
    (h2 : b.read = false → a.read = false) (h3 : b.pins = false → a.pins = false)
    (h4 : b.decode = false → a.decode = false) (h5 : b.store = false → a.store = false)
    (h6 : b.ack = false → a.ack = false) : OpStep b s t :=
  { h with
    sent := fun e => h.sent (h1 e), unread := fun e => h.unread (h2 e), pins := fun e => h.pins (h3 e)
    decode := fun e => h.decode (h4 e), stored := fun e => h.stored (h5 e), ack := fun e => h.ack (h6 e) }

/-! ### The primitives -/

theorem RxOk.congr {s t : State} (h : RxOk s) (h1 : t.mem = s.mem) (h2 : t.rxlen = s.rxlen)
    (h3 : t.rxframes = s.rxframes) (h4 : t.rxflen = s.rxflen) (h5 : t.lastst = s.lastst) (h6 : t.diag = s.diag)
    (h7 : t.skipcnt = s.skipcnt) : RxOk t :=
  ⟨by rw [h1]; exact h.mem, by rw [h2]; exact h.rxlen, by rw [h2, h3]; exact h.frames,
    by rw [h3, h4]; exact h.flens, by rw [h5]; exact h.lastst, by rw [h6]; exact h.diag, by rw [h7]; exact h.skipcnt⟩

theorem EnvStep.opStep {s t : State} (h : EnvStep s t) (a : Allow) : OpStep a s t := by
  have hp : SamePins s t := ⟨h.pinMode, h.pinReset, h.pinData, h.pinMux, h.rate,
    by simp only [State.pinSettings, h.events], by simp only [State.rates, h.events]⟩
  constructor
  case tsnap => rw [h.hid]
  case tacc => rw [h.hid]
  case lags => rw [h.lags]
  case outcomes => simp only [State.outcomes, h.events]
  case events => rw [h.events]
  case sent => intro _; simp only [State.sent, h.events]
  case stream => exact ⟨0, by simp [h.rx], by simp [State.consumed, h.events]⟩
  case unread => exact fun _ => ⟨h.rx, by simp only [State.consumed, h.events]⟩
  case pins => exact fun _ => hp
  case decode => exact fun _ => ⟨h.lastst, h.diag, h.skipcnt⟩
  case stored => exact fun _ => ⟨h.rxlen, h.rxframes, h.rxflen, h.mem⟩
  case grows => rw [h.rxlen]
  case bytes => exact fun x _ => h.byteAt x
  case rxOk => exact fun r => r.congr h.mem h.rxlen h.rxframes h.rxflen h.lastst h.diag h.skipcnt
  all_goals
    first
    | exact h.busy | exact h.cmd | exact h.arg0 | exact h.arg1 | exact h.txlen | exact h.cfgvalid | exact h.prof
    | exact h.epoch | exact h.err | exact h.done | exact h.time | exact h.host | exact h.quiet
    | exact fun _ => h.ackok | exact h.sess

/-- Everything that a field update does not touch. -/
theorem OpStep.ofUpdate {a : Allow} {s t : State} (e : Event) (he : t.events = s.events ++ [e] ∨ t.events = s.events)
    (hd : e.doneCode = none)
    (core : t.busy = s.busy ∧ t.cmd = s.cmd ∧ t.arg0 = s.arg0 ∧ t.arg1 = s.arg1 ∧ t.txlen = s.txlen ∧
      t.cfgvalid = s.cfgvalid ∧ t.prof = s.prof ∧ t.hid.tsnap = s.hid.tsnap ∧ t.hid.tacc = s.hid.tacc ∧
      t.epoch = s.epoch ∧ t.err = s.err ∧ t.done = s.done ∧ t.time = s.time ∧ t.host = s.host ∧
      t.timeout = s.timeout ∧ t.ie = s.ie ∧ t.wign = s.wign ∧ t.ovr = s.ovr ∧ t.resp = s.resp ∧ t.draws = s.draws)
    (lags : t.lags <:+ s.lags) (sent : a.send = false → t.sent = s.sent)
    (stream : ∃ k, t.rx = s.rx.drop k ∧ t.consumed = s.consumed ++ (s.rx.take k).map RxByte.byte)
    (unread : a.read = false → t.rx = s.rx ∧ t.consumed = s.consumed) (pins : a.pins = false → SamePins s t)
    (decode : a.decode = false → SameDiag s t)
    (stored : a.store = false → t.rxlen = s.rxlen ∧ t.rxframes = s.rxframes ∧ t.rxflen = s.rxflen ∧ t.mem = s.mem)
    (grows : s.rxlen.toNat ≤ t.rxlen.toNat)
    (bytes : ∀ x, (x < Config.rxBase + s.rxlen.toNat ∨ Config.rxBase + t.rxlen.toNat ≤ x) → t.byteAt x = s.byteAt x)
    (ack : a.ack = false → t.ackok = s.ackok) (sess : t.sess = s.sess) (rxOk : RxOk s → RxOk t) : OpStep a s t := by
  obtain ⟨c1, c2, c3, c4, c5, c6, c7, c8, c9, c10, c11, c12, c13, c14, c15, c16, c17, c18, c19, c20⟩ := core
  exact ⟨c1, c2, c3, c4, c5, c6, c7, c8, c9, c10, c11, fun d => c12.trans d, by omega,
    by rw [c14], lags, fun _ => ⟨c15, c16, c17, c18, c19, c20, c12⟩,
    by rcases he with he | he <;> simp [State.outcomes, he, hd], by rcases he with he | he <;> simp [he],
    sent, stream, unread, pins, decode, stored, grows, bytes, ack, sess, rxOk⟩

/-- An update of fields that only the model sees. -/
theorem OpStep.lagStep (a : Allow) (s : State) : OpStep a s { s with lags := s.lags.tail } :=
  OpStep.ofUpdate (.txb 0 0) (.inr rfl) rfl (by simp) (List.tail_suffix _) (fun _ => rfl) ⟨0, by simp, by simp [State.consumed]⟩
    (fun _ => ⟨rfl, rfl⟩) (fun _ => ⟨rfl, rfl, rfl, rfl, rfl, rfl, rfl⟩) (fun _ => ⟨rfl, rfl, rfl⟩)
    (fun _ => ⟨rfl, rfl, rfl, rfl⟩) (Nat.le_refl _) (fun _ _ => rfl) (fun _ => rfl) rfl
    (fun r => r.congr rfl rfl rfl rfl rfl rfl rfl)

theorem OpStep.hidStep (a : Allow) (s : State) (h : Hidden) (h1 : h.tsnap = s.hid.tsnap) (h2 : h.tacc = s.hid.tacc) :
    OpStep a s { s with hid := h } :=
  OpStep.ofUpdate (.txb 0 0) (.inr rfl) rfl (by simp [h1, h2]) (List.suffix_refl _) (fun _ => rfl)
    ⟨0, by simp, by simp [State.consumed]⟩
    (fun _ => ⟨rfl, rfl⟩) (fun _ => ⟨rfl, rfl, rfl, rfl, rfl, rfl, rfl⟩) (fun _ => ⟨rfl, rfl, rfl⟩)
    (fun _ => ⟨rfl, rfl, rfl, rfl⟩) (Nat.le_refl _) (fun _ _ => rfl) (fun _ => rfl) rfl
    (fun r => r.congr rfl rfl rfl rfl rfl rfl rfl)

theorem OpStep.allowsTime (a : Allow) : AllowsTime (OpStep a) where
  refl := OpStep.refl a
  trans := OpStep.trans
  env := fun h => h.opStep a
  lag := OpStep.lagStep a
  hid := OpStep.hidStep a

theorem OpStep.allowsSend {a : Allow} (ha : a.send = true) : AllowsSend (OpStep a) where
  txb := fun s b =>
    OpStep.ofUpdate (.txb b s.now) (.inl rfl) rfl (by simp) (List.suffix_refl _) (by simp [ha])
      ⟨0, by simp, by simp [State.consumed, Event.readByte]⟩
      (fun _ => ⟨rfl, by simp [State.consumed, Event.readByte]⟩)
      (fun _ => ⟨rfl, rfl, rfl, rfl, rfl, by simp [State.pinSettings, Event.pinLevel], by simp [State.rates, Event.newRate]⟩)
      (fun _ => ⟨rfl, rfl, rfl⟩)
      (fun _ => ⟨rfl, rfl, rfl, rfl⟩) (Nat.le_refl _) (fun _ _ => rfl) (fun _ => rfl) rfl
      (fun r => r.congr rfl rfl rfl rfl rfl rfl rfl)

theorem OpStep.allowsRead {a : Allow} (ha : a.read = true) : AllowsRead (OpStep a) where
  rxb := fun s x xs hx =>
    OpStep.ofUpdate (.rxb x.byte s.now) (.inl rfl) rfl (by simp) (List.suffix_refl _)
      (fun _ => by simp [State.sent, Event.sentByte])
      ⟨1, by simp, by simp [State.consumed, Event.readByte, hx]⟩ (by simp [ha])
      (fun _ => ⟨rfl, rfl, rfl, rfl, rfl, by simp [State.pinSettings, Event.pinLevel], by simp [State.rates, Event.newRate]⟩)
      (fun _ => ⟨rfl, rfl, rfl⟩)
      (fun _ => ⟨rfl, rfl, rfl, rfl⟩) (Nat.le_refl _) (fun _ _ => rfl) (fun _ => rfl) rfl
      (fun r => r.congr rfl rfl rfl rfl rfl rfl rfl)

theorem OpStep.allowsPins {a : Allow} (ha : a.pins = true) : AllowsPins (OpStep a) where
  pin := fun s p v =>
    OpStep.ofUpdate (.pin p v s.now) (.inl (by cases p <;> rfl)) rfl (by cases p <;> simp [State.withPin])
      (by cases p <;> exact List.suffix_refl _) (fun _ => by cases p <;> simp [State.withPin, State.sent, Event.sentByte])
      ⟨0, by cases p <;> simp [State.withPin], by cases p <;> simp [State.withPin, State.consumed, Event.readByte]⟩
      (fun _ => by cases p <;> simp [State.withPin, State.consumed, Event.readByte]) (by simp [ha])
      (fun _ => by cases p <;> exact ⟨rfl, rfl, rfl⟩)
      (fun _ => by cases p <;> exact ⟨rfl, rfl, rfl, rfl⟩) (by cases p <;> exact Nat.le_refl _)
      (fun _ _ => by cases p <;> rfl) (fun _ => by cases p <;> rfl) (by cases p <;> rfl)
      (fun r => by cases p <;> exact r.congr rfl rfl rfl rfl rfl rfl rfl)
  rate := fun s r =>
    OpStep.ofUpdate (.baud r s.now) (.inl rfl) rfl (by simp) (List.suffix_refl _)
      (fun _ => by simp [State.sent, Event.sentByte])
      ⟨0, by simp, by simp [State.consumed, Event.readByte]⟩
      (fun _ => by simp [State.consumed, Event.readByte]) (by simp [ha])
      (fun _ => ⟨rfl, rfl, rfl⟩)
      (fun _ => ⟨rfl, rfl, rfl, rfl⟩) (Nat.le_refl _) (fun _ _ => rfl) (fun _ => rfl) rfl
      (fun r => r.congr rfl rfl rfl rfl rfl rfl rfl)

/-- An update of fields without an event, for the results. -/
theorem OpStep.ofResult {a : Allow} {s t : State} (he : t.events = s.events)
    (core : t.busy = s.busy ∧ t.cmd = s.cmd ∧ t.arg0 = s.arg0 ∧ t.arg1 = s.arg1 ∧ t.txlen = s.txlen ∧
      t.cfgvalid = s.cfgvalid ∧ t.prof = s.prof ∧ t.hid.tsnap = s.hid.tsnap ∧ t.hid.tacc = s.hid.tacc ∧
      t.epoch = s.epoch ∧ t.err = s.err ∧ t.done = s.done ∧ t.time = s.time ∧ t.host = s.host ∧
      t.timeout = s.timeout ∧ t.ie = s.ie ∧ t.wign = s.wign ∧ t.ovr = s.ovr ∧ t.resp = s.resp ∧ t.draws = s.draws)
    (lags : t.lags = s.lags) (rx : t.rx = s.rx)
    (pins : t.pinMode = s.pinMode ∧ t.pinReset = s.pinReset ∧ t.pinData = s.pinData ∧ t.pinMux = s.pinMux ∧
      t.rate = s.rate) (decode : a.decode = false → SameDiag s t)
    (stored : a.store = false → t.rxlen = s.rxlen ∧ t.rxframes = s.rxframes ∧ t.rxflen = s.rxflen ∧ t.mem = s.mem)
    (grows : s.rxlen.toNat ≤ t.rxlen.toNat)
    (bytes : ∀ x, (x < Config.rxBase + s.rxlen.toNat ∨ Config.rxBase + t.rxlen.toNat ≤ x) → t.byteAt x = s.byteAt x)
    (ack : a.ack = false → t.ackok = s.ackok) (sess : t.sess = s.sess) (rxOk : RxOk s → RxOk t) : OpStep a s t := by
  obtain ⟨p1, p2, p3, p4, p5⟩ := pins
  exact OpStep.ofUpdate (.txb 0 0) (.inr he) rfl core (by rw [lags]) (fun _ => by simp only [State.sent, he])
    ⟨0, by simp [rx], by simp [State.consumed, he]⟩ (fun _ => ⟨rx, by simp only [State.consumed, he]⟩)
    (fun _ => ⟨p1, p2, p3, p4, p5, by simp only [State.pinSettings, he], by simp only [State.rates, he]⟩)
    decode stored grows bytes ack sess rxOk

theorem OpStep.allowsDecode {a : Allow} (ha : a.decode = true) : AllowsDecode (OpStep a) where
  skip := fun s n hn =>
    OpStep.ofResult rfl (by simp) rfl rfl (by simp) (by simp [ha]) (fun _ => ⟨rfl, rfl, rfl, rfl⟩) (Nat.le_refl _)
      (fun _ _ => rfl) (fun _ => rfl) rfl
      (fun r => ⟨r.mem, r.rxlen, r.frames, r.flens, r.lastst, r.diag, by
        show (BitVec.ofNat 9 n).toNat ≤ 257
        rw [BitVec.toNat_ofNat]
        omega⟩)
  diag := fun s d hd =>
    OpStep.ofResult rfl (by simp) rfl rfl (by simp) (by simp [ha]) (fun _ => ⟨rfl, rfl, rfl, rfl⟩) (Nat.le_refl _)
      (fun _ _ => rfl) (fun _ => rfl) rfl
      (fun r => ⟨r.mem, r.rxlen, r.frames, r.flens, r.lastst, hd, r.skipcnt⟩)
  last := fun s b =>
    OpStep.ofResult rfl (by simp) rfl rfl (by simp) (by simp [ha]) (fun _ => ⟨rfl, rfl, rfl, rfl⟩) (Nat.le_refl _)
      (fun _ _ => rfl) (fun _ => rfl) rfl
      (fun r => ⟨r.mem, r.rxlen, r.frames, r.flens, fun h => by simp at h, r.diag, r.skipcnt⟩)

theorem OpStep.allowsAck {a : Allow} (ha : a.ack = true) : AllowsAck (OpStep a) where
  ack := fun s b =>
    OpStep.ofResult rfl (by simp) rfl rfl (by simp) (fun _ => ⟨rfl, rfl, rfl⟩) (fun _ => ⟨rfl, rfl, rfl, rfl⟩)
      (Nat.le_refl _) (fun _ _ => rfl) (by simp [ha]) rfl
      (fun r => r.congr rfl rfl rfl rfl rfl rfl rfl)

/-! ### Storing -/

theorem RxOk.rxStore {s : State} (r : RxOk s) (bs : List Byte) (h : s.rxlen.toNat + bs.length ≤ Config.bufCap) :
    RxOk (s.rxStore bs) := by
  have hl := State.rxStore_rxlen_toNat s bs h
  refine ⟨?_, by rw [hl]; exact h, ?_, r.flens, r.lastst, r.diag, r.skipcnt⟩
  · refine Memory.wf_putAll bs s.mem _ r.mem ?_ ?_ <;>
      simp only [Config.txBase, Config.rxBase, Config.rxEnd, Config.bufCap] at * <;> omega
  · rw [hl]
    exact Nat.le_trans r.frames (Nat.le_add_right _ _)

theorem RxOk.store {s : State} (r : RxOk s) (p : List Byte) (hp : p ≠ [])
    (h : s.rxlen.toNat + p.length ≤ Config.bufCap) : RxOk ((s.rxStore p).countFrame p.length) := by
  have k := r.rxStore p h
  have hl := State.rxStore_rxlen_toNat s p h
  have hpos : 0 < p.length := List.length_pos_iff.mpr hp
  have hfr := r.frames
  have hcap : s.rxlen.toNat + p.length ≤ 65536 := h
  have hinc : (s.rxframes + 1).toNat = s.rxframes.toNat + 1 := by
    rw [BitVec.toNat_add]
    have : (1 : BitVec 32).toNat = 1 := rfl
    omega
  refine ⟨k.mem, k.rxlen, ?_, ?_, k.lastst, k.diag, k.skipcnt⟩
  · show (s.rxframes + 1).toNat ≤ (s.rxStore p).rxlen.toNat
    rw [hinc, hl]
    omega
  · intro j hj
    have hj' : s.rxframes.toNat + 1 ≤ j.val := hinc ▸ hj
    show (if h : s.rxframes.toNat < 8 then s.rxflen.set s.rxframes.toNat (BitVec.ofNat 17 p.length) h
      else s.rxflen).get j = 0
    have old := r.flens j (by omega)
    split
    · rw [Vector.get_eq_getElem] at old ⊢
      rw [Vector.getElem_set_ne _ _ (by omega)]
      exact old
    · exact old

theorem OpStep.allowsStore {a : Allow} (ha : a.store = true) : AllowsStore (OpStep a) where
  store := fun s p hp h =>
    OpStep.ofResult rfl (by simp [State.countFrame]) rfl rfl (by simp [State.countFrame]) (fun _ => ⟨rfl, rfl, rfl⟩)
      (by simp [ha])
      (by
        show s.rxlen.toNat ≤ (s.rxStore p).rxlen.toNat
        rw [State.rxStore_rxlen_toNat s p h]
        omega)
      (fun x hx => by
        have hx' : x < Config.rxBase + s.rxlen.toNat ∨ Config.rxBase + (s.rxStore p).rxlen.toNat ≤ x := hx
        rw [State.rxStore_rxlen_toNat s p h] at hx'
        exact State.rxStore_byteAt s p x (by omega))
      (fun _ => rfl) rfl (fun r => r.store p hp h)
  bytes := fun s p h =>
    OpStep.ofResult rfl (by simp) rfl rfl (by simp) (fun _ => ⟨rfl, rfl, rfl⟩)
      (by simp [ha])
      (by
        rw [State.rxStore_rxlen_toNat s p h]
        omega)
      (fun x hx => by
        rw [State.rxStore_rxlen_toNat s p h] at hx
        exact State.rxStore_byteAt s p x (by omega))
      (fun _ => rfl) rfl (fun r => r.rxStore p h)

end Sys2Proof.Machine
end

