-- ==== Sys2Proof/Laws/Bodies.lean ====
section
/-! SUPPORT. Each op's pseudocode makes only the steps `Instr.allow` permits it, and what `command` makes of that: the one
lemma `exec_cases` says everything any instruction can do. -/

namespace Sys2Proof.Machine

section Shared

variable {R : State → State → Prop}

theorem train_within (hT : AllowsTime R) (hp : AllowsPins R) (es : List Word) (i : Nat) :
    Within R (fun _ => True) (runTrain i es) := by
  induction es generalizing i with
  | nil => exact Within.pure hT.toChains trivial
  | cons e es ih =>
    unfold runTrain
    refine Within.bind hT.toChains (mark_within hT _ (fun _ => rfl) (fun _ => rfl)) fun _ _ => ?_
    refine Within.ite (fun _ => Within.pure hT.toChains trivial) fun _ => ?_
    refine Within.bind hT.toChains (pinSet_within hT hp _ _) fun _ _ => ?_
    exact Within.bind hT.toChains (wait_within hT _) fun _ _ => ih _

theorem pulseLoop_within (hT : AllowsTime R) (hp : AllowsPins R) (d k : Nat) :
    Within R (fun _ => True) (pulseLoop d k) := by
  induction k with
  | zero => exact Within.pure hT.toChains trivial
  | succ k ih =>
    unfold pulseLoop
    refine Within.bind hT.toChains (mark_within hT _ (fun _ => rfl) (fun _ => rfl)) fun _ _ => ?_
    refine Within.bind hT.toChains (pinSet_within hT hp _ _) fun _ _ => ?_
    refine Within.bind hT.toChains (wait_within hT _) fun _ _ => ?_
    refine Within.bind hT.toChains (pinSet_within hT hp _ _) fun _ _ => ?_
    exact Within.bind hT.toChains (wait_within hT _) fun _ _ => ih

theorem pulsePart_within (hT : AllowsTime R) (hp : AllowsPins R) (p : Profile) :
    Within R (fun _ => True) (pulsePart p) := by
  refine Within.bind hT.toChains (pinSet_within hT hp _ _) fun _ _ => ?_
  refine Within.bind hT.toChains (wait_within hT _) fun _ _ => ?_
  refine Within.bind hT.toChains (pulseLoop_within hT hp _ _) fun _ _ => ?_
  refine Within.bind hT.toChains (pinSet_within hT hp _ _) fun _ _ => ?_
  exact wait_within hT _

theorem paddingLoop_within (hT : AllowsTime R) (hS : AllowsSend R) (hr : AllowsRead R) (d : Word) (k : Nat) :
    Within R (fun _ => True) (paddingLoop d k) := by
  induction k with
  | zero => exact Within.pure hT.toChains trivial
  | succ k ih =>
    unfold paddingLoop
    refine Within.bind hT.toChains (mark_within hT _ (fun _ => rfl) (fun _ => rfl)) fun _ _ => ?_
    refine Within.bind hT.toChains (chSend_within hT hS _) fun _ _ => ?_
    refine Within.bind hT.toChains (waitDeadline_within hT _) fun _ _ => ?_
    refine Within.bind hT.toChains (chRecv_within hT hr _) fun _ _ => ?_
    exact Within.ite (fun _ => Within.pure hT.toChains trivial) fun _ => ih

theorem zeroLoop_within (hT : AllowsTime R) (hS : AllowsSend R) (d k : Nat) :
    Within R (fun _ => True) (zeroLoop d k) := by
  induction k with
  | zero => exact Within.pure hT.toChains trivial
  | succ k ih =>
    unfold zeroLoop
    refine Within.bind hT.toChains (mark_within hT _ (fun _ => rfl) (fun _ => rfl)) fun _ _ => ?_
    refine Within.bind hT.toChains (chSend_within hT hS _) fun _ _ => ?_
    exact Within.bind hT.toChains (wait_within hT _) fun _ _ => ih

theorem entrySequence_within (hT : AllowsTime R) (hS : AllowsSend R) (hr : AllowsRead R) (hp : AllowsPins R)
    (p : Profile) : Within R (fun _ => True) (entrySequence p) := by
  unfold entrySequence
  split
  · refine Within.bind hT.toChains (pulsePart_within hT hp p) fun _ _ => ?_
    refine Within.ite (fun _ => Within.pure hT.toChains trivial) fun _ => ?_
    exact Within.bind hT.toChains (chSend_within hT hS _) fun _ _ => Within.pure hT.toChains trivial
  · refine Within.bind hT.toChains (pulsePart_within hT hp p) fun _ _ => ?_
    refine Within.bind hT.toChains (paddingLoop_within hT hS hr _ _) fun _ _ => ?_
    refine Within.ite (fun _ => ?_) fun _ => Within.pure hT.toChains trivial
    refine Within.bind hT.toChains (chSend_within hT hS _) fun _ _ => ?_
    refine Within.bind hT.toChains (waitDeadline_within hT _) fun _ _ => ?_
    exact Within.bind hT.toChains (chRecv_within hT hr _) fun _ _ => Within.pure hT.toChains trivial
  · refine Within.bind hT.toChains (pinSet_within hT hp _ _) fun _ _ => ?_
    refine Within.bind hT.toChains (train_within hT hp _ _) fun _ _ => ?_
    refine Within.bind hT.toChains (pinSet_within hT hp _ _) fun _ _ => ?_
    refine Within.bind hT.toChains (reconfigure_within hT hp _) fun _ _ => ?_
    refine Within.bind hT.toChains (waitDeadline_within hT _) fun _ _ => ?_
    exact Within.bind hT.toChains (chRecv_within hT hr _) fun _ _ => Within.pure hT.toChains trivial
  · refine Within.bind hT.toChains (train_within hT hp _ _) fun _ _ => ?_
    refine Within.bind hT.toChains (zeroLoop_within hT hS _ _) fun _ _ => ?_
    refine Within.bind hT.toChains (chSend_within hT hS _) fun _ _ => ?_
    refine Within.bind hT.toChains (waitDeadline_within hT _) fun _ _ => ?_
    exact Within.bind hT.toChains (chRecv_within hT hr _) fun _ _ => Within.pure hT.toChains trivial

theorem deliver_within (hT : AllowsTime R) (hs : AllowsStore R) (ha : AllowsAck R) (r : Except Err (List Byte))
    (hr : PayloadSized r) : Within R (fun _ => True) (deliver r) := by
  unfold deliver
  split
  · next e => exact Within.raise hT.toChains (hr.2 e rfl)
  · next p =>
    exact Within.bind hT.toChains (store_within hT.toChains hs (hr.1 p rfl).1) fun _ _ =>
      Within.get fun _ => setAckok_within ha _

theorem rawRecvLoop_within (hT : AllowsTime R) (hr : AllowsRead R) (dl : Deadline) (n : Nat)
    (hs : AllowsStore R) (s : State) (hb : s.busy = true) (hn : s.rxlen.toNat + n ≤ Config.bufCap) :
    WithinAt R (fun _ => True) (rawRecvLoop dl n) s := by
  induction n generalizing s with
  | zero => exact Within.pure hT.toChains trivial s hb
  | succ n ih =>
    unfold rawRecvLoop
    refine WithinAt.bind hT.toChains (chRecv_within hT hr dl s hb) fun r t ht _ rt _ => ?_
    have bt := rt.busy.trans hb
    cases r with
    | none => exact Within.raise hT.toChains rfl t bt
    | some b =>
      have hl : t.rxlen = s.rxlen :=
        (((chRecv_within (OpStep.allowsTime { read := true }) (OpStep.allowsRead rfl) dl).ok hb ht).2.1.stored rfl).1
      have hcap : t.rxlen.toNat + [b].length ≤ Config.bufCap := by
        rw [hl, List.length_singleton]
        omega
      refine WithinAt.bind hT.toChains (P := fun _ => True) ?_ fun _ u hu _ ru _ => ?_
      · exact ⟨⟨rfl, rfl, List.suffix_refl _⟩, hs.bytes t [b] hcap, trivial⟩
      · have hu' : u = t.rxStore [b] := by
          simp only [Ctl.modify_apply, EStateM.Result.ok.injEq, true_and] at hu
          exact hu.symm
        refine ih u (ru.busy.trans bt) ?_
        rw [hu', State.rxStore_rxlen_toNat t [b] hcap, hl, List.length_singleton]
        omega

theorem transfer_within (hT : AllowsTime R) (hS : AllowsSend R) (hr : AllowsRead R) (hd : AllowsDecode R)
    (hs : AllowsStore R) (ha : AllowsAck R) (opc : Byte) : Within R (fun _ => True) (transfer opc) := by
  refine Within.get fun s => ?_
  refine Within.bind hT.toChains (sendCmd_within hT hS _ _) fun _ _ => ?_
  refine Within.bind hT.toChains (recvFrame_within hT hS hr hd _) fun _ _ => ?_
  refine Within.ite (fun _ => ?_) fun _ => Within.raise hT.toChains rfl
  refine Within.bind hT.toChains (sendData_within hT hS _) fun _ _ => ?_
  refine Within.bind hT.toChains (recvFrame_within hT hS hr hd _) fun f hf => ?_
  exact Within.bind hT.toChains (store_within hT.toChains hs hf.1) fun _ _ => setAckok_within ha _

theorem windowLoop_within (hT : AllowsTime R) (hS : AllowsSend R) (hr : AllowsRead R) (hd : AllowsDecode R)
    (hs : AllowsStore R) (e more w : Nat) : Within R (fun _ => True) (windowLoop e more w) := by
  induction more generalizing w with
  | zero =>
    unfold windowLoop
    refine Within.bind hT.toChains (mark_within hT _ (fun _ => rfl) (fun _ => rfl)) fun _ _ => Within.get fun s => ?_
    refine Within.bind hT.toChains (sendCmd_within hT hS _ _) fun _ _ => ?_
    refine Within.bind hT.toChains (recvFrame_within hT hS hr hd _) fun f hf => ?_
    exact Within.bind hT.toChains (store_within hT.toChains hs hf.1) fun _ _ => Within.pure hT.toChains trivial
  | succ k ih =>
    unfold windowLoop
    refine Within.bind hT.toChains (mark_within hT _ (fun _ => rfl) (fun _ => rfl)) fun _ _ => Within.get fun s => ?_
    refine Within.bind hT.toChains (sendCmd_within hT hS _ _) fun _ _ => ?_
    refine Within.bind hT.toChains (recvFrame_within hT hS hr hd _) fun f hf => ?_
    exact Within.bind hT.toChains (store_within hT.toChains hs hf.1) fun _ _ => ih _

theorem respLoop_within (hT : AllowsTime R) (hS : AllowsSend R) (hr : AllowsRead R) (hd : AllowsDecode R)
    (hs : AllowsStore R) (ha : AllowsAck R) (chk : Bool) (n : Nat) (first : Bool) :
    Within R (fun _ => True) (respLoop chk n first) := by
  induction n generalizing first with
  | zero => exact Within.pure hT.toChains trivial
  | succ n ih =>
    unfold respLoop
    refine Within.get fun s => ?_
    refine Within.bind hT.toChains (recvFrame_within hT hS hr hd _) fun f hf => ?_
    refine Within.bind hT.toChains (store_within hT.toChains hs hf.1) fun _ _ => ?_
    refine Within.ite (fun _ => ?_) fun _ => ih _
    refine Within.get fun s => Within.bind hT.toChains (setAckok_within ha _) fun _ _ => ?_
    exact Within.ite (fun _ => Within.raise hT.toChains rfl) fun _ => ih _

theorem exchange_within (hT : AllowsTime R) (hS : AllowsSend R) (hr : AllowsRead R) (hd : AllowsDecode R)
    (hs : AllowsStore R) (ha : AllowsAck R) (opc : Byte) (x : Bool) (nresp : BitVec 3) (chk : Bool) :
    Within R (fun _ => True) (exchange opc x nresp chk) :=
  Within.get fun _ => Within.bind hT.toChains (chSend_within hT hS _) fun _ _ => respLoop_within hT hS hr hd hs ha _ _ _

end Shared

/-! ### The page loop of READ ends -/

/-- The frames and receive results a receive leaves alone. -/
def Allow.receive : Allow := { send := true, read := true, decode := true }

theorem recvFrame_opStep (m : Byte) : Within (OpStep .receive) (fun p => p ≠ [] ∧ p.length ≤ 65535) (recvFrame m) :=
  recvFrame_within (OpStep.allowsTime _) (OpStep.allowsSend rfl) (OpStep.allowsRead rfl) (OpStep.allowsDecode rfl) m

theorem store_ok {p : List Byte} {s t : State} (h : store p s = .ok ⟨⟩ t) :
    s.rxlen.toNat + p.length ≤ Config.bufCap ∧ t = (s.rxStore p).countFrame p.length := by
  simp only [store, rxAppend, Ctl.bind_apply, Ctl.get_apply] at h
  by_cases hc : Config.bufCap < s.rxlen.toNat + p.length
  · rw [if_pos hc] at h
    simp at h
  · rw [if_neg hc] at h
    simp only [Ctl.set_apply, Ctl.modify_apply, EStateM.Result.ok.injEq, true_and] at h
    exact ⟨by omega, h.symm⟩

theorem readLoop_within {R : State → State → Prop} (hT : AllowsTime R) (hS : AllowsSend R) (hr : AllowsRead R)
    (hd : AllowsDecode R) (hs : AllowsStore R) (n bound : Nat) (s : State) (hb : s.busy = true)
    (hn : n ≤ s.rxlen.toNat + bound) : WithinAt R (fun _ => True) (readLoop n bound) s := by
  induction bound generalizing s with
  | zero =>
    unfold readLoop
    refine WithinAt.bind hT.toChains (P := fun _ => True) ⟨StillRunning.refl s, hT.refl s, trivial⟩ fun u t hu _ _ _ => ?_
    cases hu
    rw [if_neg (by omega)]
    exact Within.pure hT.toChains trivial s hb
  | succ bound ih =>
    unfold readLoop
    refine WithinAt.bind hT.toChains (P := fun _ => True) ⟨StillRunning.refl s, hT.refl s, trivial⟩ fun u t hu _ _ _ => ?_
    cases hu
    by_cases hlt : s.rxlen.toNat < n
    · rw [if_pos hlt]
      refine WithinAt.bind hT.toChains (mark_within hT (fun h => { h with readCount := h.readCount + 1 })
        (fun _ => rfl) (fun _ => rfl) s hb) fun _ t ht _ rt _ => ?_
      have l1 : t.rxlen = s.rxlen := by cases ht; rfl
      have bt := rt.busy.trans hb
      refine WithinAt.bind hT.toChains (sendData_within hT hS _ t bt) fun _ u hu _ ru _ => ?_
      have l2 : u.rxlen = t.rxlen := by
        have := ((sendData_within (OpStep.allowsTime .receive) (OpStep.allowsSend rfl) _).ok bt hu).2.1
        exact (this.stored rfl).1
      have bu := ru.busy.trans bt
      refine WithinAt.bind hT.toChains (recvFrame_within hT hS hr hd _ u bu) fun p v hv hp rv _ => ?_
      have l3 : v.rxlen = u.rxlen := (((recvFrame_opStep _).ok bu hv).2.1.stored rfl).1
      have bv := rv.busy.trans bu
      refine WithinAt.bind hT.toChains (store_within hT.toChains hs hp.1 v bv) fun _ w hw _ rw' _ => ?_
      obtain ⟨hc, hw'⟩ := store_ok hw
      refine ih w (rw'.busy.trans bv) ?_
      have : w.rxlen.toNat = v.rxlen.toNat + p.length := by
        rw [hw']
        exact State.rxStore_rxlen_toNat v p hc
      have hpos : 0 < p.length := List.length_pos_iff.mpr hp.1
      rw [this, l3, l2, l1]
      omega
    · rw [if_neg hlt]
      exact Within.pure hT.toChains trivial s hb

/-! ### Every instruction -/

end Sys2Proof.Machine

namespace Sys2Proof

/-- The kinds of step each op's pseudocode makes. -/
def Instr.allow : Instr → Machine.Allow
  | .sendFrame _ _ _ => { send := true }
  | .recvFrame _ => { read := true, decode := true, store := true, ack := true }
  | .recv _ => { send := true, read := true, decode := true, store := true, ack := true }
  | .encode _ _ _ => { store := true }
  | .decode _ => { decode := true, store := true, ack := true }
  | .rawSend => { send := true }
  | .rawRecv => { read := true, store := true }
  | .entry => { send := true, read := true, pins := true }
  | .pin _ _ => { pins := true }
  | .delay => {}
  | .baud => { pins := true }
  | .unlock => { send := true }
  | .reset => { send := true, read := true, pins := true, decode := true, store := true, ack := true }
  | .checksum => { send := true, read := true, decode := true, store := true }
  | .checksums => { send := true, read := true, decode := true, store := true }
  | .endSession => {}
  | _ => { send := true, read := true, decode := true, store := true, ack := true }

/-- The acceptance checks of each op (42_command.md R500). -/
def Instr.gate (i : Instr) (s : Machine.State) : Machine.Gate :=
  match i with
  | .sendFrame _ _ _ => { paramOk := Machine.encodable s.prof.lenW s.txlen.toNat }
  | .encode _ _ _ => { paramOk := Machine.encodable s.prof.lenW s.txlen.toNat }
  | .rawRecv => { paramOk := s.arg0 != 0 && decide (s.arg0.toNat ≤ Config.bufCap) }
  | .entry => { configOk := s.entryReady }
  | .baud => { paramOk := s.arg0 != 0 }
  | .unlock => { familyOk := s.prof.family == .alt, configOk := s.written Machine.unlockNeeds }
  | .reset => { configOk := s.entryReady && s.written s.resetNeeds }
  | .read => s.sessionGate [Machine.opcBit Machine.opcRead, Machine.ackCodeBit]
      (s.arg1 != 0 && decide (s.arg1.toNat ≤ Config.bufCap) && decide (s.arg0.toNat + s.arg1.toNat - 1 ≤ s.amax))
  | .program => s.sessionGate [Machine.opcBit Machine.opcProgram, Machine.ackCodeBit] (s.txlen != 0 && s.transferFits)
  | .verify => s.sessionGate [Machine.opcBit Machine.opcVerify, Machine.ackCodeBit] (s.txlen == 0 || s.transferFits)
  | .blockErase => s.sessionGate [Machine.opcBit Machine.opcErase, Machine.ackCodeBit]
      (decide (s.arg0.toNat + s.blockSize s.arg0.toNat - 1 ≤ s.amax))
  | .checksum => s.sessionGate [Machine.opcBit Machine.opcChecksum] s.checksumFits
  | .checksums => s.sessionGate [Machine.opcBit Machine.opcChecksum] s.checksumFits
  | .chipErase _ c => s.exchangeGate [Machine.opcBit Machine.opcChipErase] c
  | .secSet _ c => s.exchangeGate [Machine.opcBit Machine.opcSecSet] c
  | .secGet _ c => s.exchangeGate [Machine.opcBit Machine.opcSecGet] c
  | .secRelease _ c => s.exchangeGate [Machine.opcBit Machine.opcSecRelease] c
  | .signature _ c => s.exchangeGate [Machine.opcBit Machine.opcSignature] c
  | .optRead _ c => s.exchangeGate [Machine.opcBit Machine.opcOptRead] c
  | .optWrite _ c => s.exchangeGate [Machine.opcBit Machine.opcOptWrite] c
  | .status _ c => s.exchangeGate [Machine.opcBit Machine.opcStatus] c
  | .rawCmd _ _ c _ => s.exchangeGate [] c
  | _ => {}

/-- The row of the state table of each op (42_command.md R501). -/
def Instr.phase : Instr → Machine.Phase
  | .entry => .entry
  | .reset => .resetOp
  | .read => .session .reading
  | .program => .session .programming
  | .verify => .session .verifying
  | .blockErase => .session .erasing
  | .checksum => .session .verifying
  | .checksums => .session .verifying
  | .chipErase _ _ => .session .erasing
  | .secSet _ _ => .session .exchanging
  | .secGet _ _ => .session .exchanging
  | .secRelease _ _ => .session .exchanging
  | .signature _ _ => .session .exchanging
  | .optRead _ _ => .session .exchanging
  | .optWrite _ _ => .session .exchanging
  | .status _ _ => .session .exchanging
  | .rawCmd _ _ _ _ => .session .exchanging
  | .endSession => .endOp
  | _ => .unchanged

end Sys2Proof

namespace Sys2Proof.Machine

/-- An instruction is its checks, its row of the state table and a pseudocode that keeps to its kinds of step. -/
structure Shape (i : Instr) : Prop where
  command : ∃ body : Ctl Unit, (∀ s, exec i s = Machine.command (i.gate s) i.writesRx i.phase body s) ∧
    ∀ s, s.busy = true → (i.gate s).refusal = none →
      WithinAt (OpStep i.allow) (fun _ => True) (runBody body) (s.begin i.writesRx i.phase)

theorem runBody_within {R : State → State → Prop} (hT : AllowsTime R) {body : Ctl Unit}
    (h : Within R (fun _ => True) body) : Within R (fun _ => True) (runBody body) :=
  Within.bind hT.toChains (pass_within hT) fun _ _ => h

theorem Shape.of {i : Instr} {body : Ctl Unit}
    (he : ∀ s, exec i s = Machine.command (i.gate s) i.writesRx i.phase body s)
    (h : Within (OpStep i.allow) (fun _ => True) body) : Shape i :=
  ⟨body, he, fun s hb _ => runBody_within (OpStep.allowsTime _) h _ (by
    unfold State.begin
    split <;> exact hb)⟩

theorem exec_shape (i : Instr) : Shape i := by
  have hT := OpStep.allowsTime i.allow
  cases i with
  | sendFrame m f b => exact .of (fun _ => rfl) (Within.get fun _ => chSend_within hT (OpStep.allowsSend rfl) _)
  | recvFrame m =>
    refine .of (fun _ => rfl) (Within.get fun _ => ?_)
    refine Within.bind hT.toChains (mark_within hT _ (fun _ => rfl) (fun _ => rfl)) fun _ _ => ?_
    refine Within.bind hT.toChains
      (decodeFrame_within hT (OpStep.allowsDecode rfl) .channel (fun _ => OpStep.allowsRead rfl) _ _) fun r hr => ?_
    exact deliver_within hT (OpStep.allowsStore rfl) (OpStep.allowsAck rfl) r hr
  | recv m =>
    refine .of (fun _ => rfl) (Within.get fun _ => ?_)
    refine Within.bind hT.toChains (recvUntil_within hT (OpStep.allowsSend rfl) (OpStep.allowsRead rfl)
      (OpStep.allowsDecode rfl) _ _) fun p hp => ?_
    refine Within.bind hT.toChains (store_within hT.toChains (OpStep.allowsStore rfl) hp.1) fun _ _ => ?_
    exact Within.get fun _ => setAckok_within (OpStep.allowsAck rfl) _
  | encode m f b => exact .of (fun _ => rfl) (Within.get fun _ => rxAppend_within hT.toChains (OpStep.allowsStore rfl) _)
  | decode m =>
    refine .of (fun _ => rfl) (Within.get fun _ => ?_)
    refine Within.bind hT.toChains (mark_within hT _ (fun _ => rfl) (fun _ => rfl)) fun _ _ => ?_
    refine Within.bind hT.toChains
      (decodeFrame_within hT (OpStep.allowsDecode rfl) .buffer (fun h => (nomatch h)) _ _) fun r hr => ?_
    exact deliver_within hT (OpStep.allowsStore rfl) (OpStep.allowsAck rfl) r hr
  | rawSend => exact .of (fun _ => rfl) (Within.get fun _ => chSend_within hT (OpStep.allowsSend rfl) _)
  | rawRecv =>
    refine ⟨_, fun _ => rfl, ?_⟩
    intro s hb hg
    have harg : s.arg0.toNat ≤ Config.bufCap := by
      by_contra hc
      simp [Instr.gate, Gate.refusal, hc] at hg
    have hb0 : (s.begin true .unchanged).busy = true := hb
    refine WithinAt.bind hT.toChains (pass_within hT _ hb0) fun _ t ht _ rt _ => ?_
    have st := ((pass_within (OpStep.allowsTime {})).ok hb0 ht).2.1
    have bt := rt.busy.trans hb0
    refine WithinAt.bind hT.toChains (P := fun _ => True) ⟨StillRunning.refl t, hT.refl t, trivial⟩ fun u t' hu _ _ _ => ?_
    cases hu
    refine WithinAt.bind hT.toChains (mark_within hT (fun h => { h with huntDl := ⟨t.hid.tacc, t.hid.tsnap⟩ })
      (fun _ => rfl) (fun _ => rfl) t bt) fun _ u hu _ ru _ => ?_
    refine rawRecvLoop_within hT (OpStep.allowsRead rfl) _ _ (OpStep.allowsStore rfl) u (ru.busy.trans bt) ?_
    have h1 : u.rxlen = t.rxlen := by cases hu; rfl
    have h2 : t.rxlen = 0 := (st.stored rfl).1
    have h3 : t.arg0 = s.arg0 := st.arg0
    rw [h1, h2, h3]
    simpa using harg
  | entry =>
    refine .of (fun _ => rfl) (Within.get fun _ => ?_)
    refine Within.bind hT.toChains (entrySequence_within hT (OpStep.allowsSend rfl) (OpStep.allowsRead rfl)
      (OpStep.allowsPins rfl) _) fun _ _ => ?_
    exact Within.ite (fun _ => Within.pure hT.toChains trivial) fun _ => Within.raise hT.toChains rfl
  | pin p v => exact .of (fun _ => rfl) (pinSet_within hT (OpStep.allowsPins rfl) _ _)
  | delay => exact .of (fun _ => rfl) (Within.get fun _ => wait_within hT _)
  | baud => exact .of (fun _ => rfl) (Within.get fun _ => reconfigure_within hT (OpStep.allowsPins rfl) _)
  | unlock => exact .of (fun _ => rfl) (Within.get fun _ => chSend_within hT (OpStep.allowsSend rfl) _)
  | reset =>
    refine .of (fun _ => rfl) (Within.get fun _ => ?_)
    refine Within.bind hT.toChains (entrySequence_within hT (OpStep.allowsSend rfl) (OpStep.allowsRead rfl)
      (OpStep.allowsPins rfl) _) fun _ _ => ?_
    refine Within.ite (fun _ => Within.raise hT.toChains rfl) fun _ => ?_
    refine Within.ite (fun _ => chSend_within hT (OpStep.allowsSend rfl) _) fun _ => ?_
    refine Within.bind hT.toChains (sendCmd_within hT (OpStep.allowsSend rfl) _ _) fun _ _ => ?_
    refine Within.bind hT.toChains (recvFrame_within hT (OpStep.allowsSend rfl) (OpStep.allowsRead rfl)
      (OpStep.allowsDecode rfl) _) fun p hp => ?_
    refine Within.bind hT.toChains (store_within hT.toChains (OpStep.allowsStore rfl) hp.1) fun _ _ => ?_
    refine Within.bind hT.toChains (setAckok_within (OpStep.allowsAck rfl) _) fun _ _ => ?_
    exact Within.ite (fun _ => Within.pure hT.toChains trivial) fun _ => Within.raise hT.toChains rfl
  | read =>
    refine .of (fun _ => rfl) (Within.get fun s => ?_)
    refine Within.bind hT.toChains (mark_within hT _ (fun _ => rfl) (fun _ => rfl)) fun _ _ => ?_
    refine Within.bind hT.toChains (sendCmd_within hT (OpStep.allowsSend rfl) _ _) fun _ _ => ?_
    refine Within.bind hT.toChains (recvFrame_within hT (OpStep.allowsSend rfl) (OpStep.allowsRead rfl)
      (OpStep.allowsDecode rfl) _) fun p hp => ?_
    refine Within.ite (fun _ => ?_) fun _ => Within.raise hT.toChains rfl
    refine Within.bind hT.toChains (setAckok_within (OpStep.allowsAck rfl) _) fun _ _ => ?_
    exact fun t ht => readLoop_within hT (OpStep.allowsSend rfl) (OpStep.allowsRead rfl) (OpStep.allowsDecode rfl)
      (OpStep.allowsStore rfl) _ _ t ht (Nat.le_add_left _ _)
  | program =>
    exact .of (fun _ => rfl) (Within.get fun _ => transfer_within hT (OpStep.allowsSend rfl) (OpStep.allowsRead rfl)
      (OpStep.allowsDecode rfl) (OpStep.allowsStore rfl) (OpStep.allowsAck rfl) _)
  | verify =>
    exact .of (fun _ => rfl) (Within.get fun _ => Within.ite (fun _ => Within.pure hT.toChains trivial) fun _ =>
      transfer_within hT (OpStep.allowsSend rfl) (OpStep.allowsRead rfl) (OpStep.allowsDecode rfl)
        (OpStep.allowsStore rfl) (OpStep.allowsAck rfl) _)
  | blockErase =>
    refine .of (fun _ => rfl) (Within.get fun _ => ?_)
    refine Within.bind hT.toChains (sendCmd_within hT (OpStep.allowsSend rfl) _ _) fun _ _ => ?_
    refine Within.bind hT.toChains (recvFrame_within hT (OpStep.allowsSend rfl) (OpStep.allowsRead rfl)
      (OpStep.allowsDecode rfl) _) fun p hp => ?_
    refine Within.bind hT.toChains (store_within hT.toChains (OpStep.allowsStore rfl) hp.1) fun _ _ => ?_
    refine Within.ite (fun _ => ?_) fun _ => Within.raise hT.toChains rfl
    refine Within.bind hT.toChains (recvFrame_within hT (OpStep.allowsSend rfl) (OpStep.allowsRead rfl)
      (OpStep.allowsDecode rfl) _) fun p hp => ?_
    refine Within.bind hT.toChains (store_within hT.toChains (OpStep.allowsStore rfl) hp.1) fun _ _ => ?_
    exact Within.ite (fun _ => setAckok_within (OpStep.allowsAck rfl) _) fun _ => Within.raise hT.toChains rfl
  | checksum =>
    refine .of (fun _ => rfl) (Within.get fun _ => ?_)
    refine Within.bind hT.toChains (sendCmd_within hT (OpStep.allowsSend rfl) _ _) fun _ _ => ?_
    refine Within.bind hT.toChains (recvFrame_within hT (OpStep.allowsSend rfl) (OpStep.allowsRead rfl)
      (OpStep.allowsDecode rfl) _) fun p hp => ?_
    exact store_within hT.toChains (OpStep.allowsStore rfl) hp.1
  | checksums =>
    exact .of (fun _ => rfl) (Within.get fun _ => windowLoop_within hT (OpStep.allowsSend rfl) (OpStep.allowsRead rfl)
      (OpStep.allowsDecode rfl) (OpStep.allowsStore rfl) _ _ _)
  | rawCmd imm n c b =>
    exact .of (fun _ => rfl) (exchange_within hT (OpStep.allowsSend rfl) (OpStep.allowsRead rfl)
      (OpStep.allowsDecode rfl) (OpStep.allowsStore rfl) (OpStep.allowsAck rfl) _ _ _ _)
  | endSession =>
    exact .of (fun _ => rfl) (Within.pure hT.toChains trivial)
  | _ =>
    exact .of (fun _ => rfl) (Within.get fun _ => exchange_within hT (OpStep.allowsSend rfl) (OpStep.allowsRead rfl)
      (OpStep.allowsDecode rfl) (OpStep.allowsStore rfl) (OpStep.allowsAck rfl) _ _ _ _)

/-- How a command that was not ended by a block reset ended. -/
inductive Ending (i : Instr) (s t : State) (e : Err) : Prop where
  /-- refused by an acceptance check: nothing but the completion (R500) -/
  | refused (ht : t = s.finish s.sess e) (hg : (i.gate s).refusal = some e)
  /-- its pseudocode ran to `complete` or `raise e`, u being the state at that moment -/
  | ran (u : State) (hg : (i.gate s).refusal = none) (h : OpStep i.allow (s.begin i.writesRx i.phase) u)
      (ht : t = u.finish ((if e = .none then i.phase.onOk else i.phase.onError).getD u.sess) e)
      (he : e = .none ∨ e.raisable = true)

/-- A refusal is CONFIG, STATE or PARAM (42_command.md R500; BADOP is the decoder's). -/
theorem Gate.refusal_cases {g : Gate} {e : Err} (h : g.refusal = some e) : e = .config ∨ e = .state ∨ e = .param := by
  unfold Gate.refusal at h
  split at h
  · cases h; simp
  · split at h
    · cases h; simp
    · split at h
      · cases h; simp
      · split at h
        · cases h; simp
        · cases h

/-- Which check refuses, in the order of R500. -/
theorem Gate.refusal_param {g : Gate} (h : g.refusal = some .param) : g.paramOk = false := by
  unfold Gate.refusal at h
  split at h
  · cases h
  · split at h
    · cases h
    · split at h
      · cases h
      · split at h
        · simp_all
        · cases h

theorem Gate.refusal_config {g : Gate} (h : g.refusal = some .config) : g.familyOk = false ∨ g.configOk = false := by
  unfold Gate.refusal at h
  split at h
  · left; simp_all
  · split at h
    · cases h
    · split at h
      · right; simp_all
      · split at h <;> cases h

/-- All checks pass. -/
theorem Gate.refusal_none {g : Gate} (h : g.refusal = none) :
    g.familyOk = true ∧ g.stateOk = true ∧ g.configOk = true ∧ g.paramOk = true := by
  unfold Gate.refusal at h
  split at h
  · cases h
  · split at h
    · cases h
    · split at h
      · cases h
      · split at h
        · cases h
        · simp_all

/-- A command whose checks refuse it. -/
theorem exec_refused {i : Instr} {s : State} {e : Err} (h : (i.gate s).refusal = some e) :
    exec i s = .next (s.finish s.sess e) := by
  obtain ⟨body, he, _⟩ := (exec_shape i).command
  rw [he s]
  unfold Machine.command
  rw [h]

/-- Everything an instruction can do on an accepted command: end with a code, or be ended by a block reset. -/
theorem exec_cases (i : Instr) (s : State) (hb : s.busy = true) :
    (∃ t e, exec i s = .next t ∧ Ending i s t e) ∨ (∃ t, exec i s = .next t ∧ ResetOf s t) := by
  obtain ⟨body, he, hbody⟩ := (exec_shape i).command
  rw [he s]
  unfold Machine.command
  cases hg : (i.gate s).refusal with
  | some e => exact .inl ⟨_, e, rfl, .refused rfl hg⟩
  | none =>
    have h := hbody s hb hg
    unfold WithinAt at h
    dsimp only
    revert h
    cases runBody body (s.begin i.writesRx i.phase) with
    | ok a t => exact fun ⟨_, h, _⟩ => .inl ⟨_, .none, rfl, .ran t hg h (by simp) (.inl rfl)⟩
    | error e t =>
      cases e with
      | raised e =>
        refine fun ⟨_, h, hr⟩ => .inl ⟨_, e, rfl, .ran t hg h ?_ (.inr hr)⟩
        rw [if_neg (by rintro rfl; cases hr)]
      | endless => exact False.elim
      | blockReset =>
        refine fun h => .inr ⟨t, rfl, ?_, ?_, h.values⟩
        · intro hn
          refine h.asserted ?_
          unfold State.begin
          split <;> exact hn
        · rw [h.epoch]
          unfold State.begin
          split <;> rfl

end Sys2Proof.Machine
end

