-- ==== Sys2Proof/Laws/Bus.lean ====
section
/-! SUPPORT. What each host access does: the register map read forwards and backwards, one lemma per access of `step`, and
what a locked register holds after a write. -/

namespace Sys2Proof.Machine

/-! ### The register map -/

theorem LockedReg.ofOffset_offset (r : LockedReg) : LockedReg.ofOffset r.offset = some r := by
  cases r with
  | opc k => revert k; decide
  | ptram i => revert i; decide
  | _ => rfl

theorem Reg.ofOffset_offset (r : Reg) : Reg.ofOffset r.offset = some r := by
  cases r with
  | rxflen j => revert j; decide
  | locked r =>
    cases r with
    | opc k => revert k; decide
    | ptram i => revert i; decide
    | _ => rfl
  | _ => rfl

theorem Reg.offset_range (r : Reg) : r.offset < 0x300 ∧ r.offset % 4 = 0 := by
  cases r with
  | rxflen j => revert j; decide
  | locked r =>
    cases r with
    | opc k => revert k; decide
    | ptram i => revert i; decide
    | _ => decide
  | _ => decide

@[simp] theorem Reg.addr_toNat (r : Reg) : r.addr.toNat = r.offset := by
  have := r.offset_range
  simp only [Reg.addr, BitVec.toNat_ofNat]
  omega

theorem LockedReg.offset_ofOffset {o : Nat} {r : LockedReg} (h : LockedReg.ofOffset o = some r) : r.offset = o := by
  unfold LockedReg.ofOffset at h
  split at h
  case h_19 =>
    split at h
    · next hr => cases h; simp only [LockedReg.offset, Fin.ofNat]; omega
    · split at h
      · next hr => cases h; simp only [LockedReg.offset, Fin.ofNat]; omega
      · cases h
  all_goals (cases h; rfl)

theorem Reg.offset_ofOffset {o : Nat} {r : Reg} (h : Reg.ofOffset o = some r) : r.offset = o := by
  unfold Reg.ofOffset at h
  split at h
  case h_16 =>
    split at h
    · next hr => cases h; simp only [Reg.offset, Fin.ofNat]; omega
    · obtain ⟨q, hq, rfl⟩ := Option.map_eq_some_iff.1 h
      exact LockedReg.offset_ofOffset hq
  all_goals (cases h; rfl)

/-- An offset that is no register's (R113). -/
theorem Reg.ofOffset_none {a : BitVec 18} (h : ∀ r : Reg, r.addr ≠ a) : Reg.ofOffset a.toNat = none := by
  cases ho : Reg.ofOffset a.toNat with
  | none => rfl
  | some r =>
    refine absurd (BitVec.eq_of_toNat_eq ?_) (h r)
    rw [Reg.addr_toNat, Reg.offset_ofOffset ho]

theorem Region.ofOffset_reg (r : Reg) : Region.ofOffset r.offset = .regs := by
  have := r.offset_range
  have h1 : Config.txBase = 0x10000 := rfl
  have h2 : Config.rxBase = 0x20000 := rfl
  unfold Region.ofOffset
  rw [if_neg (by omega), if_neg (by omega)]

theorem accessLegal_reg (r : Reg) : accessLegal r.offset .word = true := by
  have := r.offset_range
  simp [accessLegal, Region.ofOffset_reg, this.2]

/-! ### Accesses to registers -/

theorem State.busRead_reg (s : State) (r : Reg) : s.busRead r.addr .word = s.respond (.data (s.regRead r)) := by
  simp [State.busRead, accessLegal_reg, Region.ofOffset_reg, Reg.ofOffset_offset]

theorem State.busWrite_reg (s : State) (r : Reg) (v : Word) :
    s.busWrite r.addr .word v = (s.regWrite r v).respond .written := by
  simp [State.busWrite, State.writeEffect, accessLegal_reg, Region.ofOffset_reg, Reg.ofOffset_offset]

/-- The writes that BUSY = 1 ignores (R114). -/
theorem State.regWrite_busy {s : State} {r : Reg} {v : Word} (hb : s.busy = true)
    (hr : r = .arg0 ∨ r = .arg1 ∨ r = .txlen ∨ ∃ q, r = .locked q) : s.regWrite r v = s.setWign := by
  rcases hr with rfl | rfl | rfl | ⟨q, rfl⟩
  · exact if_pos hb
  · exact if_pos hb
  · exact if_pos (by rw [hb]; rfl)
  · exact if_neg (by rw [State.unlocked, hb]; simp)

/-- An accepted write to a locked register (R112, R115, R144). -/
theorem State.lockedWrite_ok {s : State} {r : LockedReg} {v : Word} (hu : s.sess = .unknown) (hb : s.busy = false)
    (hl : r.legal v = true) :
    s.lockedWrite r v = { s with prof := s.prof.write r v, cfgvalid := markValid s.cfgvalid r.validBit } :=
  if_pos (by rw [State.unlocked, hu, hb, hl]; rfl)

/-- An ignored write to a locked register. -/
theorem State.lockedWrite_ignored {s : State} {r : LockedReg} {v : Word}
    (h : s.sess ≠ .unknown ∨ s.busy = true ∨ r.legal v = false) : s.lockedWrite r v = s.setWign :=
  if_neg (by rcases h with h | h | h <;> simp [State.unlocked, h])

/-- The regions of the buffers. -/
theorem Region.ofOffset_tx {a : Nat} (h1 : Config.txBase ≤ a) (h2 : a < Config.rxBase) : Region.ofOffset a = .tx :=
  if_pos ⟨h1, h2⟩

theorem Region.ofOffset_rx {a : Nat} (h1 : Config.rxBase ≤ a) (h2 : a < Config.rxEnd) : Region.ofOffset a = .rx :=
  (if_neg (by simp only [Config.txBase, Config.rxBase] at *; omega)).trans (if_pos ⟨h1, h2⟩)

/-- Writes to TXBUF and RXBUF (R114, R143, R208). -/
theorem State.busWrite_tx {s : State} {a : BitVec 18} {sz : Size} (v : Word) (h1 : Config.txBase ≤ a.toNat)
    (h2 : a.toNat < Config.rxBase) (h3 : a.toNat % sz.bytes = 0) :
    s.busWrite a sz v =
      (if s.busy then s.setWign else { s with mem := s.mem.putAll a.toNat (leBytes sz.bytes v) }).respond .written := by
  simp only [State.busWrite, accessLegal, State.writeEffect, Region.ofOffset_tx h1 h2, h3]
  rfl

theorem State.busWrite_rx {s : State} {a : BitVec 18} {sz : Size} (v : Word) (h1 : Config.rxBase ≤ a.toNat)
    (h2 : a.toNat < Config.rxEnd) (h3 : a.toNat % sz.bytes = 0) : s.busWrite a sz v = s.setWign.respond .written := by
  simp only [State.busWrite, accessLegal, State.writeEffect, Region.ofOffset_rx h1 h2, h3]
  rfl

theorem accessLegal_buffer {a : Nat} {sz : Size} (h1 : Config.txBase ≤ a) (h2 : a < Config.rxEnd) :
    accessLegal a sz = (a % sz.bytes == 0) := by
  by_cases h : a < Config.rxBase
  · simp only [accessLegal, Region.ofOffset_tx h1 h]
  · simp only [accessLegal, Region.ofOffset_rx (Nat.le_of_not_lt h) h2]

theorem Region.ofOffset_other {a : Nat} (h : a < Config.txBase ∨ Config.rxEnd ≤ a) : Region.ofOffset a = .regs := by
  have h1 : Config.txBase = 0x10000 := rfl
  have h2 : Config.rxBase = 0x20000 := rfl
  have h3 : Config.rxEnd = 0x30000 := rfl
  unfold Region.ofOffset
  rw [if_neg (by omega), if_neg (by omega)]

theorem accessLegal_other {a : Nat} {sz : Size} (h : a < Config.txBase ∨ Config.rxEnd ≤ a) :
    accessLegal a sz = (sz == .word && a % 4 == 0) := by
  simp only [accessLegal, Region.ofOffset_other h]

/-- Reads of the buffers between commands (R204, R208). -/
theorem State.busRead_buffer {s : State} {a : BitVec 18} {sz : Size} (hb : s.busy = false)
    (h1 : Config.txBase ≤ a.toNat) (h2 : a.toNat < Config.rxEnd) (h3 : a.toNat % sz.bytes = 0) :
    s.busRead a sz = s.respond (.data (leWord (s.bufBytes a.toNat sz.bytes))) := by
  simp only [State.busRead, accessLegal_buffer h1 h2, h3]
  by_cases h : a.toNat < Config.rxBase
  · simp only [Region.ofOffset_tx h1 h]
    rfl
  · simp only [Region.ofOffset_rx (Nat.le_of_not_lt h) h2, hb]
    rfl

/-- A read changes only the model's record (R209). -/
theorem State.busRead_served (s : State) (a : BitVec 18) (sz : Size) : s.busRead a sz = s.served (s.busRead a sz) := by
  unfold State.busRead
  dsimp only
  split
  · split
    · rfl
    · rfl
    · split <;> rfl
  · rfl

/-! ### Byte lanes (R204) -/

theorem leBytes_length (n : Nat) (v : Word) : (leBytes n v).length = n := by
  induction n generalizing v with
  | zero => rfl
  | succ n ih => simp [leBytes, ih]

theorem leBytes_getElem? (n : Nat) (v : Word) (i : Nat) (h : i < n) :
    (leBytes n v)[i]? = some (v.extractLsb' (8 * i) 8) := by
  induction n generalizing v i with
  | zero => omega
  | succ n ih =>
    cases i with
    | zero => rfl
    | succ i =>
      simp only [leBytes, List.getElem?_cons_succ]
      rw [ih _ _ (by omega)]
      congr 1
      ext j hj
      simp only [BitVec.getElem_extractLsb', BitVec.getLsbD_ushiftRight]
      congr 1
      omega

theorem leWord_getLsbD (bs : List Byte) (hl : bs.length ≤ 4) (i : Nat) (hi : i < 32) :
    (leWord bs).getLsbD i = ((bs[i / 8]?).getD 0).getLsbD (i % 8) := by
  induction bs generalizing i with
  | nil => simp [leWord]
  | cons b bs ih =>
    simp only [leWord, BitVec.getLsbD_or, BitVec.getLsbD_shiftLeft, BitVec.getLsbD_setWidth]
    by_cases h : i < 8
    · have h1 : i / 8 = 0 := by omega
      have h2 : i % 8 = i := by omega
      simp [h, h1, h2, hi]
    · have h1 : i / 8 = (i - 8) / 8 + 1 := by omega
      have h2 : i % 8 = (i - 8) % 8 := by omega
      have h3 : b.getLsbD i = false := BitVec.getLsbD_of_ge _ _ (by omega)
      simp only [List.length_cons] at hl
      rw [ih (by omega) (i - 8) (by omega), h1, h2, h3]
      simp [h, hi]

/-! ### The steps of the host -/

theorem step_nothing {s : State} (h : s.host = []) : step s = .next s.idle := by simp [step, h]

theorem step_read {s : State} {h : HostInput} {hs : List HostInput} {a : BitVec 18} {sz : Size} (hh : s.host = h :: hs)
    (ha : h.act = .read a sz) : step s = .next ((s.take h hs).busRead a sz) := by simp [step, hh, ha]

theorem step_reset {s : State} {h : HostInput} {hs : List HostInput} {n : Nat} (hh : s.host = h :: hs)
    (ha : h.act = .reset n) : step s = .next ((s.take h hs).blockReset n) := by simp [step, hh, ha]

theorem State.commandWord_cmd (s : State) (v : Word) (hb : s.busy = false) :
    s.commandWord Reg.cmd.addr .word v = some v := by
  simp [State.commandWord, hb, Reg.offset, Config.cmdOffset]

/-- A write that starts a command (R102). -/
theorem step_command {s : State} {h : HostInput} {hs : List HostInput} {v : Word} (hh : s.host = h :: hs)
    (ha : h.act = .write Reg.cmd.addr .word v) (hb : s.busy = false) :
    step s = runCommand v ((s.take h hs).respond .written) := by
  simp [step, hh, ha, s.commandWord_cmd v hb]

/-- A write that starts no command. -/
theorem step_write {s : State} {h : HostInput} {hs : List HostInput} {a : BitVec 18} {sz : Size} {v : Word}
    (hh : s.host = h :: hs) (ha : h.act = .write a sz v)
    (hn : ¬ (a = Reg.cmd.addr ∧ sz = .word ∧ s.busy = false)) : step s = .next ((s.take h hs).busWrite a sz v) := by
  have : s.commandWord a sz v = none := by
    unfold State.commandWord
    rw [if_neg]
    rintro ⟨h1, h2, h3⟩
    exact hn ⟨BitVec.eq_of_toNat_eq (by rw [Reg.addr_toNat]; exact h1), h2, h3⟩
  simp [step, hh, ha, this]

/-- A write to a register that starts no command. -/
theorem step_writeReg {s : State} {h : HostInput} {hs : List HostInput} {r : Reg} {v : Word} (hh : s.host = h :: hs)
    (ha : h.act = .write r.addr .word v) (hn : r = .cmd → s.busy = true) :
    step s = .next (((s.take h hs).regWrite r v).respond .written) := by
  rw [step_write hh ha, State.busWrite_reg]
  rintro ⟨h1, -, h3⟩
  have : r.offset = Reg.cmd.offset := by rw [← Reg.addr_toNat, h1, Reg.addr_toNat]
  have hr : r = .cmd := by
    have h2 := Reg.ofOffset_offset r
    rw [this, Reg.ofOffset_offset] at h2
    exact (Option.some.inj h2).symm
  rw [hn hr] at h3
  cases h3

/-! ### Locked registers -/

theorem LockedReg.legal_iff (r : LockedReg) (v : Word) : r.legal v = true ↔ ¬ r.Illegal v := by
  have m8 : ∀ k : Nat, (v.extractLsb' k 8).toNat = v.toNat / 2 ^ k % 256 := by
    intro k; simp [BitVec.extractLsb'_toNat, Nat.shiftRight_eq_div_pow]
  have ml : ∀ b : Byte, markerLegal b = true ↔ b.toNat = 0x02 ∨ b.toNat = 0x11 ∨ b.toNat = 0x81 := by
    intro b
    simp only [markerLegal, Bool.or_eq_true, beq_iff_eq, ← BitVec.toNat_inj, or_assoc]
    rfl
  have bl : blockLegal v = true ↔ ¬ (v.toNat % 0x2000000 = 0 ∨ 0x1000000 < v.toNat) := by
    have : v ≠ 0 ↔ v.toNat ≠ 0 := by rw [Ne, ← BitVec.toNat_inj]; rfl
    have cap : Config.maxBlock = 0x1000000 := rfl
    simp only [blockLegal, Bool.and_eq_true, decide_eq_true_eq, bne_iff_ne]
    rw [this]
    omega
  cases r
  case profile =>
    simp only [LockedReg.legal, LockedReg.Illegal, Bool.and_eq_true, decide_eq_true_eq, not_not]
    simp [BitVec.extractLsb'_toNat, Nat.shiftRight_eq_div_pow]
  case markers =>
    simp only [LockedReg.legal, LockedReg.Illegal, Bool.and_eq_true, not_not, ml, m8]
    simp
  case blkszA => exact bl
  case blkszB => exact bl
  case baudSw => simp [LockedReg.legal, LockedReg.Illegal]
  all_goals simp [LockedReg.legal, LockedReg.Illegal]

theorem getLsbD_fieldAt {n : Nat} (v : BitVec n) (k i : Nat) :
    (fieldAt v k).getLsbD i = (decide (i < 32) && decide (k ≤ i) && v.getLsbD (i - k)) := by
  simp only [fieldAt, BitVec.getLsbD_shiftLeft, BitVec.getLsbD_setWidth]
  by_cases h1 : i < 32
  · by_cases h2 : i < k
    · simp [h1, h2]
    · have h3 : i - k < 32 := by omega
      simp [h1, h2, h3]
      intro _
      omega
  · simp [h1]

theorem getLsbD_bitAt (b : Bool) (k i : Nat) : (bitAt b k).getLsbD i = (decide (i < 32) && decide (i = k) && b) := by
  have : bitAt b k = fieldAt (BitVec.ofBool b) k := rfl
  rw [this, getLsbD_fieldAt]
  by_cases h : i = k
  · subst h; cases b <;> simp
  · by_cases h2 : k ≤ i
    · have : i - k ≠ 0 := by omega
      cases b <;> simp [h]
      intro _ _
      omega
    · simp [h, h2]

theorem Family.code_ofBits (b : BitVec 2) : (Family.ofBits b).code = b := by revert b; decide

/-- What a locked register reads as after it has been written (R113, R130-R141). -/
theorem Profile.read_write_same (p : Profile) (r : LockedReg) (v : Word) : (p.write r v).read r = v &&& r.mask := by
  have low : ∀ n : Nat, n ≤ 32 → fieldAt (v.extractLsb' 0 n) 0 = v &&& BitVec.ofNat 32 (2 ^ n - 1) := by
    intro n hn
    apply BitVec.eq_of_getLsbD_eq
    intro i hi
    rw [getLsbD_fieldAt, BitVec.getLsbD_extractLsb', BitVec.getLsbD_and, BitVec.getLsbD_ofNat, Nat.testBit_two_pow_sub_one]
    simp [hi, Bool.and_comm]
  cases r
  case profile =>
    simp only [Profile.write, Profile.read, Profile.profileWord, LockedReg.mask, Family.code_ofBits]
    apply BitVec.eq_of_getLsbD_eq
    intro i hi
    simp only [BitVec.getLsbD_or, getLsbD_fieldAt, getLsbD_bitAt, BitVec.getLsbD_and, BitVec.getLsbD_extractLsb']
    interval_cases i <;> simp
  case markers =>
    simp only [Profile.write, Profile.read, LockedReg.mask]
    apply BitVec.eq_of_getLsbD_eq
    intro i hi
    simp only [BitVec.getLsbD_or, getLsbD_fieldAt, BitVec.getLsbD_and, BitVec.getLsbD_extractLsb']
    interval_cases i <;> simp
  case altcfg =>
    simp only [Profile.write, Profile.read, LockedReg.mask]
    apply BitVec.eq_of_getLsbD_eq
    intro i hi
    simp only [BitVec.getLsbD_or, getLsbD_fieldAt, BitVec.getLsbD_and, BitVec.getLsbD_extractLsb']
    interval_cases i <;> simp
  case ackCode => exact low 8 (by decide)
  case blkszA => exact low 25 (by decide)
  case blkszB => exact low 25 (by decide)
  case lockAddr => exact low 24 (by decide)
  case keyHi => exact low 24 (by decide)
  case opc k =>
    simp only [Profile.write, Profile.read, Vector.get_eq_getElem, Vector.getElem_set_self]
    exact low 8 (by decide)
  case ptram k =>
    have all : v &&& 0xFFFFFFFF = v := by
      have := BitVec.and_allOnes (x := v)
      simpa using this
    simp only [Profile.write, Profile.read, LockedReg.mask, all, Vector.get_eq_getElem, Vector.getElem_set_self]
  all_goals
    have all : v &&& 0xFFFFFFFF = v := by
      have := BitVec.and_allOnes (x := v)
      simpa using this
    simp only [Profile.write, Profile.read, LockedReg.mask, all]

/-- A write changes no other locked register. -/
theorem Profile.read_write_other (p : Profile) (r q : LockedReg) (v : Word) (h : q ≠ r) :
    (p.write r v).read q = p.read q := by
  cases r
  case opc k =>
    cases q <;> try rfl
    next j =>
      have : j.val ≠ k.val := fun e => h (by rw [Fin.ext e])
      simp only [Profile.write, Profile.read, Vector.get_eq_getElem, Vector.getElem_set_ne _ _ (Ne.symm this)]
  case ptram k =>
    cases q <;> try rfl
    next j =>
      have : j.val ≠ k.val := fun e => h (by rw [Fin.ext e])
      simp only [Profile.write, Profile.read, Vector.get_eq_getElem, Vector.getElem_set_ne _ _ (Ne.symm this)]
  all_goals (cases q <;> first | rfl | exact absurd rfl h)

/-- CFGVALID after an accepted write: the register's own bit is set, no other changes (R112). -/
theorem getLsbD_markValid (cfg : Word) (b : Option Nat) (hb : ∀ k, b = some k → k < 32) (k : Nat) :
    (markValid cfg b).getLsbD k = (cfg.getLsbD k || b == some k) := by
  cases b with
  | none => simp [markValid]
  | some n =>
    have hn := hb n rfl
    simp only [markValid, BitVec.getLsbD_or, BitVec.getLsbD_shiftLeft]
    congr 1
    by_cases h : n = k
    · subst h
      simp [hn]
    · by_cases h2 : k < n
      · simp [h, h2]
      · have h3 : k - n ≠ 0 := by omega
        simp [h2, BitVec.getLsbD_one, h3]
        exact h

theorem LockedReg.validBit_range {r : LockedReg} {k : Nat} (h : r.validBit = some k) : k < 30 := by
  cases r <;> simp only [LockedReg.validBit, ackCodeBit, opcBit] at h <;> try (cases h; done)
  all_goals (cases h; omega)

end Sys2Proof.Machine
end

