-- ==== Sys2Proof/Laws/Codec.lean ====
section
/-! SUPPORT. The arithmetic of frames: the checksum in closed form, the length field read back, and the parts of a frame by
position. -/

namespace Sys2Proof.Machine

/-- The checksum as a sum (40_codec.md R400, R401). -/
theorem csum_fold (bs : List Byte) (acc : Byte) :
    (bs.foldl (fun acc b => acc - b) acc + BitVec.ofNat 8 (bs.map BitVec.toNat).sum) = acc := by
  induction bs generalizing acc with
  | nil => simp
  | cons b bs ih =>
    simp only [List.foldl_cons, List.map_cons, List.sum_cons]
    have h := ih (acc - b)
    rw [BitVec.ofNat_add, BitVec.ofNat_toNat, BitVec.setWidth_eq]
    rw [show ∀ x y z : Byte, x + (y + z) = (x + z) + y by intro x y z; rw [BitVec.add_assoc, BitVec.add_comm y z], h]
    exact BitVec.sub_add_cancel acc b

theorem csum_toNat (bs : List Byte) : (csum bs).toNat = (256 - (bs.map BitVec.toNat).sum % 256) % 256 := by
  have h := congrArg BitVec.toNat (csum_fold bs 0)
  simp only [BitVec.toNat_add, BitVec.toNat_ofNat] at h
  have hlt := (csum bs).isLt
  have : (csum bs) = bs.foldl (fun acc b => acc - b) 0 := rfl
  rw [← this] at h
  simp at h
  omega

theorem lenField_length (lenW : Bool) (n : Nat) : (lenField lenW n).length = if lenW then 2 else 1 := by
  cases lenW <;> rfl

theorem buildFrame_length (lenW : Bool) (m : Byte) (p : List Byte) (f : Byte) (x : Bool) :
    (buildFrame lenW m p f x).length = (if lenW then 2 else 1) + p.length + 3 := by
  simp only [buildFrame, List.length_append, List.length_cons, List.length_nil, lenField_length]
  omega

theorem encodable_iff (lenW : Bool) (n : Nat) : encodable lenW n = true ↔ 1 ≤ n ∧ n ≤ maxPay lenW := by
  simp [encodable]

end Sys2Proof.Machine
end

