-- ==== Sys2Proof/Laws/Encoding.lean ====
section
/-! SUPPORT. The field layout of the command word is a bijection: fields put together are taken apart again, and the other
way round. -/

namespace Sys2Proof

theorem getLsbD_ofBool_zero (b : Bool) : (BitVec.ofBool b).getLsbD 0 = b := by cases b <;> rfl

/-- The fields below the reserved ones, as one number: each append adds a field above the others. -/
theorem Fields.toWord_getLsbD (f : Fields) (i : Nat) : f.toWord.getLsbD i =
    if i < 8 then f.op.getLsbD i else if i < 16 then f.imm8.getLsbD (i - 8) else if i < 19 then f.nresp.getLsbD (i - 16)
    else if i < 20 then (BitVec.ofBool f.chk).getLsbD (i - 19) else if i < 21 then (BitVec.ofBool f.fbc).getLsbD (i - 20)
    else if i < 22 then (BitVec.ofBool f.ftr).getLsbD (i - 21) else if i < 23 then (BitVec.ofBool f.msel).getLsbD (i - 22)
    else f.reserved.getLsbD (i - 23) := by
  simp only [Fields.toWord, BitVec.getLsbD_append]
  split_ifs <;> first | rfl | omega

/-- Taking a put-together word apart (30_encoding.md R300). -/
@[simp] theorem Fields.ofWord_toWord (f : Fields) : Fields.ofWord f.toWord = f := by
  have ex : ∀ {n : Nat} (a : Nat) (v : BitVec n), (∀ i, i < n → f.toWord.getLsbD (a + i) = v.getLsbD i) →
      f.toWord.extractLsb' a n = v := by
    intro n a v h
    ext i hi
    rw [BitVec.getElem_extractLsb', h i hi, BitVec.getLsbD_eq_getElem hi]
  have h1 : f.toWord.extractLsb' 0 8 = f.op := ex 0 _ fun i hi => by
    rw [Fields.toWord_getLsbD, if_pos (by omega), Nat.zero_add]
  have h2 : f.toWord.extractLsb' 8 8 = f.imm8 := ex 8 _ fun i hi => by
    rw [Fields.toWord_getLsbD, if_neg (by omega), if_pos (by omega), Nat.add_sub_cancel_left]
  have h3 : f.toWord.extractLsb' 16 3 = f.nresp := ex 16 _ fun i hi => by
    rw [Fields.toWord_getLsbD, if_neg (by omega), if_neg (by omega), if_pos (by omega), Nat.add_sub_cancel_left]
  have h4 : f.toWord.extractLsb' 23 9 = f.reserved := ex 23 _ fun i hi => by
    rw [Fields.toWord_getLsbD, if_neg (by omega), if_neg (by omega), if_neg (by omega), if_neg (by omega),
      if_neg (by omega), if_neg (by omega), if_neg (by omega), Nat.add_sub_cancel_left]
  have b1 : f.toWord.getLsbD 19 = f.chk := (f.toWord_getLsbD 19).trans (getLsbD_ofBool_zero _)
  have b2 : f.toWord.getLsbD 20 = f.fbc := (f.toWord_getLsbD 20).trans (getLsbD_ofBool_zero _)
  have b3 : f.toWord.getLsbD 21 = f.ftr := (f.toWord_getLsbD 21).trans (getLsbD_ofBool_zero _)
  have b4 : f.toWord.getLsbD 22 = f.msel := (f.toWord_getLsbD 22).trans (getLsbD_ofBool_zero _)
  unfold Fields.ofWord
  rw [h1, h2, h3, h4, b1, b2, b3, b4]

/-- Two field sets with the same word are the same. -/
theorem Fields.toWord_injective {f g : Fields} (h : f.toWord = g.toWord) : f = g := by
  have := congrArg Fields.ofWord h
  rwa [Fields.ofWord_toWord, Fields.ofWord_toWord] at this

theorem getLsbD_ofBool (b : Bool) (i : Nat) : (BitVec.ofBool b).getLsbD i = (decide (i = 0) && b) := by
  cases i <;> cases b <;> simp

/-- Putting a taken-apart word together (R300). -/
@[simp] theorem Fields.toWord_ofWord (w : Word) : (Fields.ofWord w).toWord = w := by
  apply BitVec.eq_of_getLsbD_eq
  intro i hi
  rw [Fields.toWord_getLsbD]
  simp only [Fields.ofWord, BitVec.getLsbD_extractLsb', getLsbD_ofBool]
  split_ifs with h1 h2 h3 h4 h5 h6 h7
  · simp [h1]
  · rw [decide_eq_true (by omega), Bool.true_and, Nat.add_sub_cancel' (by omega)]
  · rw [decide_eq_true (by omega), Bool.true_and, Nat.add_sub_cancel' (by omega)]
  · obtain rfl : i = 19 := by omega
    simp
  · obtain rfl : i = 20 := by omega
    simp
  · obtain rfl : i = 21 := by omega
    simp
  · obtain rfl : i = 22 := by omega
    simp
  · rw [decide_eq_true (by omega), Bool.true_and, Nat.add_sub_cancel' (by omega)]

end Sys2Proof
end

