-- ==== Sys2Proof/Laws/Run.lean ====
section
/-! SUPPORT. What each primitive does when the reset input stays released: it answers, and the state after it is known. The
laws of the ops that send, wait, receive and decode are chains of these. -/

namespace Sys2Proof.Machine

/-! ### A command that no reset ends -/

/-- A command runs and the reset input is not asserted by the host actions to come. -/
def Live (s : State) : Prop := s.busy = true ∧ NoReset s.host

theorem Accepted.live {s : State} (h : Accepted s) : Live s := ⟨h.busy, h.noReset⟩

theorem OpStep.live {a : Allow} {s t : State} (h : OpStep a s t) (hs : Live s) : Live t :=
  ⟨h.busy.trans hs.1, hs.2.suffix h.host⟩

theorem Live.begin {s : State} (h : Live s) (rx : Bool) (ph : Phase) : Live (s.begin rx ph) := by
  unfold State.begin
  split <;> exact h

/-- b permits whatever a permits. -/
def Allow.le (a b : Allow) : Bool :=
  (!a.send || b.send) && (!a.read || b.read) && (!a.pins || b.pins) && (!a.decode || b.decode)
    && (!a.store || b.store) && (!a.ack || b.ack)

theorem OpStep.widen {a b : Allow} {s t : State} (h : OpStep a s t) (hle : a.le b = true) : OpStep b s t := by
  obtain ⟨a1, a2, a3, a4, a5, a6⟩ := a
  obtain ⟨b1, b2, b3, b4, b5, b6⟩ := b
  simp only [Allow.le, Bool.and_eq_true, Bool.or_eq_true, Bool.not_eq_true'] at hle
  obtain ⟨⟨⟨⟨⟨h1, h2⟩, h3⟩, h4⟩, h5⟩, h6⟩ := hle
  refine h.mono ?_ ?_ ?_ ?_ ?_ ?_ <;> dsimp only <;> intro e
  · rcases h1 with h | h; exact h; rw [h] at e; cases e
  · rcases h2 with h | h; exact h; rw [h] at e; cases e
  · rcases h3 with h | h; exact h; rw [h] at e; cases e
  · rcases h4 with h | h; exact h; rw [h] at e; cases e
  · rcases h5 with h | h; exact h; rw [h] at e; cases e
  · rcases h6 with h | h; exact h; rw [h] at e; cases e

theorem EnvStep.step {s t : State} (h : EnvStep s t) : OpStep {} s t := h.opStep {}

theorem OpStep.byteAt {a : Allow} {s t : State} (h : OpStep a s t) (ha : a.store = false) (x : Nat) :
    t.byteAt x = s.byteAt x := State.byteAt_congr (h.stored ha).2.2.2 h.epoch x

/-- TXBUF and TXLEN do not change. -/
theorem OpStep.txByte {a : Allow} {s t : State} (h : OpStep a s t) (i : Nat) (hi : i < Config.bufCap) :
    t.txByte i = s.txByte i := by
  refine h.bytes _ (.inl ?_)
  have e1 : Config.txBase = 0x10000 := rfl
  have e2 : Config.rxBase = 0x20000 := rfl
  have e3 : Config.bufCap = 0x10000 := rfl
  omega

theorem OpStep.txPayload {a : Allow} {s t : State} (h : OpStep a s t) (hc : s.txlen.toNat ≤ Config.bufCap) :
    t.txPayload = s.txPayload := by
  unfold State.txPayload
  rw [h.txlen]
  refine List.map_congr_left fun i hi => h.txByte i ?_
  exact Nat.lt_of_lt_of_le (List.mem_range.1 hi) hc

/-! ### Time -/

theorem advance_ok (T : Nat) {s : State} (h : Live s) :
    ∃ t, advance T s = .ok ⟨⟩ t ∧ EnvStep s t ∧ t.time = max s.time T := by
  rcases advance_cases T s h.1 with k | ⟨t, _, r⟩
  · exact k
  · exact absurd h.2 r.asserted

/-- What a wait of any kind leaves: time has passed, the first draw is used up, and the hidden state is as before. -/
structure Waited (s t : State) (d : Nat) : Prop where
  step : OpStep {} s t
  time : t.time = s.time + d + s.lags.headD 0
  lags : t.lags = s.lags.tail
  hid : t.hid = s.hid

theorem wait_ok (d : Nat) {s : State} (h : Live s) : ∃ t, wait d s = .ok ⟨⟩ t ∧ Waited s t d := by
  obtain ⟨t, h1, h2, h3⟩ := advance_ok (s := { s with lags := s.lags.tail }) (s.time + d + s.lags.headD 0) h
  refine ⟨t, h1, (OpStep.lagStep {} s).trans h2.step, ?_, h2.lags, h2.hid⟩
  rw [h3]
  show max s.time _ = _
  omega

theorem pass_ok {s : State} (h : Live s) : ∃ t, pass s = .ok ⟨⟩ t ∧ Waited s t 0 := wait_ok 0 h

/-- The latest time that the draws to come can lead to, no wait of its own taken. -/
def State.horizon (s : State) : Nat := s.time + s.lags.sum

theorem horizon_of_draw {s t : State} (ht : t.time = s.time + s.lags.headD 0) (hl : t.lags = s.lags.tail) :
    t.horizon = s.horizon := by
  unfold State.horizon
  rw [ht, hl]
  cases s.lags with
  | nil => rfl
  | cons x xs => simp [Nat.add_assoc]

theorem Waited.horizon {s t : State} (h : Waited s t 0) : t.horizon = s.horizon := horizon_of_draw h.time h.lags

/-! ### The channel -/

theorem OpStep.txb (s : State) (b : Byte) : OpStep { send := true } s (s.record (.txb b s.now)) :=
  (OpStep.allowsSend rfl).txb s b

/-- `ChSend` sends exactly its bytes. -/
theorem chSend_ok (bs : List Byte) {s : State} (h : Live s) :
    ∃ t, chSend bs s = .ok ⟨⟩ t ∧ OpStep { send := true } s t ∧ t.sent = s.sent ++ bs ∧ t.hid = s.hid := by
  induction bs generalizing s with
  | nil => exact ⟨s, rfl, OpStep.refl _ s, by simp, rfl⟩
  | cons b bs ih =>
    have o1 := OpStep.txb s b
    obtain ⟨t, h1, w⟩ := pass_ok (o1.live h)
    obtain ⟨u, h2, o2, hs, hh⟩ := ih (w.step.live (o1.live h))
    refine ⟨u, ?_, (o1.trans (w.step.widen rfl)).trans o2, ?_, hh.trans w.hid⟩
    · unfold chSend
      rw [Ctl.bind_apply, Ctl.modify_apply]
      dsimp only
      rw [Ctl.bind_apply, h1]
      exact h2
    · rw [hs, w.step.sent rfl]
      simp [State.sent, Event.sentByte]

/-- A send takes no time but the draws'. -/
theorem chSend_horizon (bs : List Byte) {s t : State} (h : Live s) (hs : chSend bs s = .ok ⟨⟩ t) :
    t.horizon = s.horizon := by
  induction bs generalizing s with
  | nil => cases hs; rfl
  | cons b bs ih =>
    have o1 := OpStep.txb s b
    obtain ⟨u, h1, w⟩ := pass_ok (o1.live h)
    unfold chSend at hs
    rw [Ctl.bind_apply, Ctl.modify_apply] at hs
    dsimp only at hs
    rw [Ctl.bind_apply, h1] at hs
    exact (ih (w.step.live (o1.live h)) hs).trans w.horizon

/-- The queued bytes of the stream are still queued after anything that does not read. -/
theorem Queued.later {s t : State} {bs : List Byte} {rest : List RxByte} (h : Queued s bs rest) (hr : t.rx = s.rx)
    (ht : s.time ≤ t.time) : Queued t bs rest := by
  obtain ⟨pre, h1, h2, h3⟩ := h
  exact ⟨pre, hr.trans h1, h2, fun x hx => Nat.le_trans (h3 x hx) ht⟩

theorem Queued.step {a : Allow} {s t : State} {bs : List Byte} {rest : List RxByte} (h : Queued s bs rest)
    (o : OpStep a s t) (ha : a.read = false) : Queued t bs rest := h.later (o.unread ha).1 o.time

theorem Queued.nil {s : State} {rest : List RxByte} : Queued s [] rest ↔ s.rx = rest := by
  constructor
  · rintro ⟨pre, h1, h2, -⟩
    rw [List.map_eq_nil_iff] at h2
    rw [h1, h2]
    rfl
  · exact fun h => ⟨[], h, rfl, fun _ hx => absurd hx (by simp)⟩

theorem takeByte_ok (x : RxByte) (xs : List RxByte) {s : State} (h : Live s) (hx : s.rx = x :: xs) :
    ∃ t, takeByte x s = .ok (some x.byte) t ∧ OpStep { read := true } s t ∧ t.rx = xs ∧ t.hid = s.hid ∧
      t.time = s.time + s.lags.headD 0 ∧ t.lags = s.lags.tail := by
  have o1 : OpStep { read := true } s ({ s with rx := s.rx.tail }.record (.rxb x.byte s.now)) :=
    (OpStep.allowsRead rfl).rxb s x xs hx
  obtain ⟨t, h1, w⟩ := pass_ok (o1.live h)
  refine ⟨t, ?_, o1.trans (w.step.widen rfl), ?_, w.hid, w.time, w.lags⟩
  · unfold takeByte
    rw [Ctl.bind_apply, Ctl.modify_apply]
    dsimp only
    rw [Ctl.bind_apply, h1]
    rfl
  · rw [(w.step.unread rfl).1]
    show s.rx.tail = xs
    rw [hx]
    rfl

/-- `ChRecv` returns a delivered byte at once (00_scope.md R18). -/
theorem chRecv_queued {s : State} {b : Byte} {bs : List Byte} {rest : List RxByte} (dl : Deadline) (h : Live s)
    (hq : Queued s (b :: bs) rest) :
    ∃ t, chRecv dl s = .ok (some b) t ∧ OpStep { read := true } s t ∧ Queued t bs rest ∧ t.hid = s.hid ∧
      t.horizon = s.horizon := by
  obtain ⟨pre, h1, h2, h3⟩ := hq
  cases pre with
  | nil => cases h2
  | cons x xs =>
    rw [List.map_cons, List.cons.injEq] at h2
    obtain ⟨rfl, hbs⟩ := h2
    have hx : s.rx = x :: (xs ++ rest) := h1
    obtain ⟨t, ht, o, hr, hh, tm, lg⟩ := takeByte_ok x (xs ++ rest) h hx
    refine ⟨t, ?_, o, ⟨xs, hr, hbs, fun y hy => ?_⟩, hh, horizon_of_draw tm lg⟩
    · unfold chRecv
      rw [Ctl.bind_apply, Ctl.get_apply]
      dsimp only
      rw [hx]
      dsimp only
      rw [if_pos (h3 x (by simp))]
      exact ht
    · exact Nat.le_trans (h3 y (by simp [hy])) o.time

/-- The end of a wait: nothing is read and the deadline has passed. -/
theorem timeoutAt_ok (T : Nat) {s : State} (h : Live s) :
    ∃ t, timeoutAt T s = .ok none t ∧ OpStep {} s t ∧ t.time = max s.time T + s.lags.headD 0 ∧ t.lags = s.lags.tail ∧
      t.hid = s.hid := by
  obtain ⟨u, h1, e, ht⟩ := advance_ok T h
  obtain ⟨t, h2, w⟩ := pass_ok (e.step.live h)
  refine ⟨t, ?_, e.step.trans w.step, ?_, ?_, w.hid.trans e.hid⟩
  · unfold timeoutAt
    rw [Ctl.bind_apply, h1]
    dsimp only
    rw [Ctl.bind_apply, h2]
    rfl
  · rw [w.time, ht, e.lags]
    omega
  · rw [w.lags, e.lags]

/-- `ChRecv` on an empty stream times out at the deadline (R18). -/
theorem chRecv_empty {s : State} (dl : Deadline) (h : Live s) (hr : s.rx = []) :
    ∃ t, chRecv dl s = .ok none t ∧ OpStep {} s t ∧ t.time = s.time + s.left dl + s.lags.headD 0 ∧
      t.lags = s.lags.tail ∧ t.hid = s.hid := by
  obtain ⟨t, h1, o, ht, hl, hh⟩ := timeoutAt_ok (s.time + s.left dl) h
  refine ⟨t, ?_, o, ?_, hl, hh⟩
  · unfold chRecv
    rw [Ctl.bind_apply, Ctl.get_apply]
    dsimp only
    rw [hr]
    exact h1
  · rw [ht]
    omega

/-- `ChRecv` waits for a byte that arrives before the deadline (R18). -/
theorem chRecv_waits {s : State} {x : RxByte} {xs : List RxByte} (dl : Deadline) (h : Live s) (hx : s.rx = x :: xs)
    (ha : s.time < x.arrival) (hd : x.arrival < s.time + s.left dl) :
    ∃ t, chRecv dl s = .ok (some x.byte) t ∧ OpStep { read := true } s t ∧ t.rx = xs ∧ t.hid = s.hid ∧
      t.time = x.arrival + s.lags.headD 0 := by
  obtain ⟨u, h1, e, hu⟩ := advance_ok x.arrival h
  obtain ⟨t, h2, o, hr, hh, ht, -⟩ := takeByte_ok x xs (e.step.live h) (e.rx.trans hx)
  refine ⟨t, ?_, (e.step.widen rfl).trans o, hr, hh.trans e.hid, ?_⟩
  · unfold chRecv
    rw [Ctl.bind_apply, Ctl.get_apply]
    dsimp only
    rw [hx]
    dsimp only
    rw [if_neg (by omega), if_pos hd, Ctl.bind_apply, h1]
    exact h2
  · rw [ht, hu, e.lags]
    omega

/-- `ChRecv` times out before a byte that arrives at the deadline or later, which stays (R18). -/
theorem chRecv_late {s : State} {x : RxByte} {xs : List RxByte} (dl : Deadline) (h : Live s) (hx : s.rx = x :: xs)
    (ha : s.time < x.arrival) (hd : s.time + s.left dl ≤ x.arrival) :
    ∃ t, chRecv dl s = .ok none t ∧ OpStep {} s t ∧ t.time = s.time + s.left dl + s.lags.headD 0 ∧
      t.lags = s.lags.tail ∧ t.hid = s.hid := by
  obtain ⟨t, h1, o, ht, hl, hh⟩ := timeoutAt_ok (s.time + s.left dl) h
  refine ⟨t, ?_, o, ?_, hl, hh⟩
  · unfold chRecv
    rw [Ctl.bind_apply, Ctl.get_apply]
    dsimp only
    rw [hx]
    dsimp only
    rw [if_neg (by omega), if_neg (by omega)]
    exact h1
  · rw [ht]
    omega

/-! ### The pins and the bit rate -/

theorem pinSet_ok (p : Pin) (v : Bool) {s : State} (h : Live s) :
    ∃ t, pinSet p v s = .ok ⟨⟩ t ∧ OpStep { pins := true } s t ∧
      t.pinMode = (if p = .mode then v else s.pinMode) ∧ t.pinReset = (if p = .reset then v else s.pinReset) ∧
      t.pinData = (if p = .data then v else s.pinData) ∧ t.pinMux = (if p = .pinmux then v else s.pinMux) ∧
      t.pinSettings = s.pinSettings ++ [(p, v)] ∧ t.rate = s.rate ∧ t.rates = s.rates := by
  have o1 : OpStep { pins := true } s ((s.withPin p v).record (.pin p v s.now)) := (OpStep.allowsPins rfl).pin s p v
  obtain ⟨t, h1, w⟩ := pass_ok (o1.live h)
  have wp := w.step.pins rfl
  refine ⟨t, ?_, o1.trans (w.step.widen rfl), ?_, ?_, ?_, ?_, ?_, ?_, ?_⟩
  · unfold pinSet
    rw [Ctl.bind_apply, Ctl.modify_apply]
    exact h1
  · rw [wp.mode]; cases p <;> rfl
  · rw [wp.reset]; cases p <;> rfl
  · rw [wp.data]; cases p <;> rfl
  · rw [wp.mux]; cases p <;> rfl
  · rw [wp.settings]; cases p <;> simp [State.withPin, State.pinSettings, Event.pinLevel]
  · rw [wp.rate]; cases p <;> rfl
  · rw [wp.rates]; cases p <;> simp [State.withPin, State.rates, Event.newRate]

theorem reconfigure_ok (r : Word) {s : State} (h : Live s) :
    ∃ t, reconfigure r s = .ok ⟨⟩ t ∧ OpStep { pins := true } s t ∧ t.rate = r ∧ t.rates = s.rates ++ [r] ∧
      t.pinSettings = s.pinSettings ∧ t.pinMode = s.pinMode ∧ t.pinReset = s.pinReset ∧ t.pinData = s.pinData ∧
      t.pinMux = s.pinMux := by
  have o1 : OpStep { pins := true } s ({ s with rate := r }.record (.baud r s.now)) := (OpStep.allowsPins rfl).rate s r
  obtain ⟨t, h1, w⟩ := pass_ok (o1.live h)
  have wp := w.step.pins rfl
  refine ⟨t, ?_, o1.trans (w.step.widen rfl), ?_, ?_, ?_, wp.mode, wp.reset, wp.data, wp.mux⟩
  · unfold reconfigure
    rw [Ctl.bind_apply, Ctl.modify_apply]
    exact h1
  · rw [wp.rate]; rfl
  · rw [wp.rates]; simp [State.rates, Event.newRate]
  · rw [wp.settings]; simp [State.pinSettings, Event.pinLevel]

/-! ### A whole command -/

/-- A command whose checks pass and whose pseudocode answers. -/
theorem command_ok {g : Gate} {rx : Bool} {ph : Phase} {body : Ctl Unit} {s u : State} (hg : g.refusal = none)
    (h : runBody body (s.begin rx ph) = .ok ⟨⟩ u) :
    command g rx ph body s = .next (u.finish (ph.onOk.getD u.sess) .none) := by
  unfold command
  rw [hg]
  simp only [h]

/-- A command whose checks pass and whose pseudocode raises an error. -/
theorem command_raised {g : Gate} {rx : Bool} {ph : Phase} {body : Ctl Unit} {s u : State} {e : Err}
    (hg : g.refusal = none) (h : runBody body (s.begin rx ph) = .error (.raised e) u) :
    command g rx ph body s = .next (u.finish (ph.onError.getD u.sess) e) := by
  unfold command
  rw [hg]
  simp only [h]

/-- The pseudocode starts after some processing. -/
theorem runBody_ok {body : Ctl Unit} {s : State} (h : Live s) {P : State → Prop}
    (hbody : ∀ t, Waited s t 0 → Live t → ∃ u, body t = .ok ⟨⟩ u ∧ P u) : ∃ u, runBody body s = .ok ⟨⟩ u ∧ P u := by
  obtain ⟨t, h1, w⟩ := pass_ok h
  obtain ⟨u, h2, p⟩ := hbody t w (w.step.live h)
  refine ⟨u, ?_, p⟩
  unfold runBody
  rw [Ctl.bind_apply, h1]
  exact h2

theorem runBody_raised {body : Ctl Unit} {s : State} (h : Live s) {e : Err} {P : State → Prop}
    (hbody : ∀ t, Waited s t 0 → Live t → ∃ u, body t = .error (.raised e) u ∧ P u) :
    ∃ u, runBody body s = .error (.raised e) u ∧ P u := by
  obtain ⟨t, h1, w⟩ := pass_ok h
  obtain ⟨u, h2, p⟩ := hbody t w (w.step.live h)
  refine ⟨u, ?_, p⟩
  unfold runBody
  rw [Ctl.bind_apply, h1]
  exact h2

end Sys2Proof.Machine
end

