-- ==== Sys2Proof/Laws/Entry.lean ====
section
/-! SUPPORT. What the pieces of the entry sequences do (41_sequencer.md R451, R452, R461-R464): the pin settings and bytes
they add to the history, the bytes they take, and the least time they take. -/

namespace Sys2Proof.Machine

/-- A piece that only changes pins: its pin settings and its least time. -/
structure Pinned (s t : State) (pins : List (Pin × Bool)) (ticks : Nat) : Prop where
  step : OpStep { pins := true } s t
  settings : t.pinSettings = s.pinSettings ++ pins
  rates : t.rates = s.rates
  time : s.time + ticks ≤ t.time

theorem Pinned.trans {s t u : State} {p q : List (Pin × Bool)} {m n : Nat} (h : Pinned s t p m) (k : Pinned t u q n) :
    Pinned s u (p ++ q) (m + n) :=
  ⟨h.step.trans k.step, by rw [k.settings, h.settings, List.append_assoc], k.rates.trans h.rates, by
    have h1 := h.time
    have h2 := k.time
    omega⟩

theorem Pinned.live {s t : State} {p : List (Pin × Bool)} {n : Nat} (h : Pinned s t p n) (hs : Live s) : Live t :=
  h.step.live hs

theorem Pinned.mark (s : State) (f : Hidden → Hidden) (h1 : (f s.hid).tsnap = s.hid.tsnap)
    (h2 : (f s.hid).tacc = s.hid.tacc) : Pinned s { s with hid := f s.hid } [] 0 :=
  ⟨OpStep.hidStep _ s _ h1 h2, by simp [State.pinSettings], rfl, Nat.le_refl _⟩

theorem Pinned.set (p : Pin) (v : Bool) {s : State} (h : Live s) :
    ∃ t, pinSet p v s = .ok ⟨⟩ t ∧ Pinned s t [(p, v)] 0 := by
  obtain ⟨t, h1, o, -, -, -, -, q, -, r⟩ := pinSet_ok p v h
  exact ⟨t, h1, o, q, r, o.time⟩

theorem Pinned.wait (d : Nat) {s : State} (h : Live s) : ∃ t, Machine.wait d s = .ok ⟨⟩ t ∧ Pinned s t [] d := by
  obtain ⟨t, h1, w⟩ := wait_ok d h
  have wp := w.step.pins rfl
  exact ⟨t, h1, w.step.widen rfl, by rw [wp.settings, List.append_nil], wp.rates, by rw [w.time]; omega⟩

/-- `RunTrain()` (R451) sets the pins of the entries before the first END, each followed by its delay. -/
theorem runTrain_ok (es : List Word) (i : Nat) {s : State} (h : Live s) :
    ∃ t, runTrain i es s = .ok ⟨⟩ t ∧
      Pinned s t ((es.takeWhile fun e => !trainEnd e).map fun e => (trainPin e, trainLevel e))
        ((es.takeWhile fun e => !trainEnd e).map trainDelay).sum := by
  induction es generalizing s i with
  | nil => exact ⟨s, rfl, OpStep.refl _ s, by simp, rfl, Nat.le_refl _⟩
  | cons e es ih =>
    have o0 := Pinned.mark s (fun h => { h with ptIndex := i }) rfl rfl
    by_cases he : trainEnd e = true
    · refine ⟨{ s with hid := { s.hid with ptIndex := i } }, ?_, ?_⟩
      · unfold runTrain
        rw [Ctl.bind_apply, mark_apply]
        dsimp only
        rw [if_pos he]
        rfl
      · rw [List.takeWhile_cons_of_neg (by simp [he])]
        exact o0
    · obtain ⟨t, h1, p1⟩ := Pinned.set (trainPin e) (trainLevel e) (o0.live h)
      obtain ⟨u, h2, p2⟩ := Pinned.wait (trainDelay e) (p1.live (o0.live h))
      obtain ⟨v, h3, p3⟩ := ih (i + 1) (p2.live (p1.live (o0.live h)))
      have all := ((o0.trans p1).trans p2).trans p3
      refine ⟨v, ?_, ?_⟩
      · unfold runTrain
        rw [Ctl.bind_apply, mark_apply]
        dsimp only
        rw [if_neg he, Ctl.bind_apply, h1]
        dsimp only
        rw [Ctl.bind_apply, h2]
        exact h3
      · rw [List.takeWhile_cons_of_pos (by simpa using he)]
        simpa using all

theorem pulseLoop_ok (d k : Nat) {s : State} (h : Live s) :
    ∃ t, pulseLoop d k s = .ok ⟨⟩ t ∧
      Pinned s t (List.replicate k [(Pin.mode, false), (Pin.mode, true)]).flatten (k * (2 * d)) := by
  induction k generalizing s with
  | zero => exact ⟨s, rfl, OpStep.refl _ s, by simp, rfl, by simp⟩
  | succ k ih =>
    have o0 := Pinned.mark s (fun h => { h with entryCount := k + 1 }) rfl rfl
    obtain ⟨t, h1, p1⟩ := Pinned.set .mode false (o0.live h)
    obtain ⟨u, h2, p2⟩ := Pinned.wait d (p1.live (o0.live h))
    obtain ⟨v, h3, p3⟩ := Pinned.set .mode true (p2.live (p1.live (o0.live h)))
    obtain ⟨w, h4, p4⟩ := Pinned.wait d (p3.live (p2.live (p1.live (o0.live h))))
    obtain ⟨x, h5, p5⟩ := ih (p4.live (p3.live (p2.live (p1.live (o0.live h)))))
    have all := ((((o0.trans p1).trans p2).trans p3).trans p4).trans p5
    refine ⟨x, ?_, ?_⟩
    · unfold pulseLoop
      rw [Ctl.bind_apply, mark_apply]
      dsimp only
      rw [Ctl.bind_apply, h1]
      dsimp only
      rw [Ctl.bind_apply, h2]
      dsimp only
      rw [Ctl.bind_apply, h3]
      dsimp only
      rw [Ctl.bind_apply, h4]
      exact h5
    · have e : (k + 1) * (2 * d) = 0 + 0 + d + 0 + d + k * (2 * d) := by ring
      rw [e, List.replicate_succ, List.flatten_cons]
      simpa using all

/-- `PulsePart()` (R452). -/
theorem pulsePart_ok (p : Profile) {s : State} (h : Live s) :
    ∃ t, pulsePart p s = .ok ⟨⟩ t ∧
      Pinned s t p.pulsePins (p.tPulse.toNat * (1 + 2 * p.pulses.toNat) + p.tSettle.toNat) := by
  obtain ⟨t, h1, p1⟩ := Pinned.set .reset false h
  obtain ⟨u, h2, p2⟩ := Pinned.wait p.tPulse.toNat (p1.live h)
  obtain ⟨v, h3, p3⟩ := pulseLoop_ok p.tPulse.toNat p.pulses.toNat (p2.live (p1.live h))
  obtain ⟨w, h4, p4⟩ := Pinned.set .reset true (p3.live (p2.live (p1.live h)))
  obtain ⟨x, h5, p5⟩ := Pinned.wait p.tSettle.toNat (p4.live (p3.live (p2.live (p1.live h))))
  have all := (((p1.trans p2).trans p3).trans p4).trans p5
  refine ⟨x, ?_, ?_⟩
  · unfold pulsePart
    rw [Ctl.bind_apply, h1]
    dsimp only
    rw [Ctl.bind_apply, h2]
    dsimp only
    rw [Ctl.bind_apply, h3]
    dsimp only
    rw [Ctl.bind_apply, h4]
    exact h5
  · have e : p.tPulse.toNat * (1 + 2 * p.pulses.toNat) + p.tSettle.toNat =
        0 + p.tPulse.toNat + p.pulses.toNat * (2 * p.tPulse.toNat) + 0 + p.tSettle.toNat := by ring
    rw [e]
    simpa [Profile.pulsePins] using all

/-- The zero bytes of the alternate entry, each followed by the spacing (R464). -/
theorem zeroLoop_ok (d k : Nat) {s : State} (h : Live s) :
    ∃ t, zeroLoop d k s = .ok ⟨⟩ t ∧ OpStep { send := true } s t ∧ t.sent = s.sent ++ List.replicate k 0 ∧
      s.time + k * d ≤ t.time := by
  induction k generalizing s with
  | zero => exact ⟨s, rfl, OpStep.refl _ s, by simp, by simp⟩
  | succ k ih =>
    have o0 := OpStep.hidStep { send := true } s { s.hid with entryCount := k + 1 } rfl rfl
    obtain ⟨t, h1, o1, s1, -⟩ := chSend_ok [0x00] (o0.live h)
    obtain ⟨u, h2, w⟩ := wait_ok d (o1.live (o0.live h))
    obtain ⟨v, h3, o3, s3, t3⟩ := ih (w.step.live (o1.live (o0.live h)))
    refine ⟨v, ?_, ((o0.trans o1).trans (w.step.widen rfl)).trans o3, ?_, ?_⟩
    · unfold zeroLoop
      rw [Ctl.bind_apply, mark_apply]
      dsimp only
      rw [Ctl.bind_apply, h1]
      dsimp only
      rw [Ctl.bind_apply, h2]
      exact h3
    · rw [s3, w.step.sent rfl, s1, List.replicate_succ]
      show s.sent ++ [0] ++ List.replicate k 0 = _
      simp
    · have h4 : s.time ≤ t.time := o1.time
      have h5 := w.time
      have e : (k + 1) * d = d + k * d := by ring
      rw [e]
      omega

theorem waitDeadline_step (s : State) (d : Word) :
    waitDeadline d s = .ok ⟨s.now, d⟩ { s with hid := { s.hid with waitDl := ⟨s.now, d⟩ } } := rfl

/-- What the single-byte handshakes do: they send and read. -/
abbrev Shaking : Allow := { send := true, read := true }

/-- One padding round on a delivered byte (R462). -/
theorem paddingRound_queued {rest : List RxByte} (tEcho : Word) (k : Nat) (b : Byte) (bs : List Byte) {s : State}
    (h : Live s) (hq : Queued s (b :: bs) rest) :
    ∃ t, paddingLoop tEcho (k + 1) s = (if b = 0x00 then .ok true t else paddingLoop tEcho k t) ∧
      OpStep Shaking s t ∧ t.sent = s.sent ++ [0x00] ∧ Queued t bs rest := by
  have o0 := OpStep.hidStep Shaking s { s.hid with entryCount := k + 1 } rfl rfl
  obtain ⟨t, h1, o1, s1, -⟩ := chSend_ok [0x00] (o0.live h)
  have o2 := OpStep.hidStep Shaking t { t.hid with waitDl := ⟨t.now, tEcho⟩ } rfl rfl
  have q1 : Queued t (b :: bs) rest :=
    (hq.later (t := { s with hid := { s.hid with entryCount := k + 1 } }) rfl (Nat.le_refl _)).step o1 rfl
  have q2 : Queued { t with hid := { t.hid with waitDl := ⟨t.now, tEcho⟩ } } (b :: bs) rest :=
    q1.later rfl (Nat.le_refl _)
  obtain ⟨u, h2, o3, q3, -⟩ := chRecv_queued ⟨t.now, tEcho⟩ (o2.live (o1.live (o0.live h))) q2
  refine ⟨u, ?_, ((o0.trans (o1.widen rfl)).trans o2).trans (o3.widen rfl), ?_, q3⟩
  · show paddingLoop tEcho (k + 1) s = _
    conv => lhs; unfold paddingLoop
    rw [Ctl.bind_apply, mark_apply]
    dsimp only
    rw [Ctl.bind_apply, h1]
    dsimp only
    rw [Ctl.bind_apply, waitDeadline_step]
    dsimp only
    rw [Ctl.bind_apply, h2]
    dsimp only
    by_cases hb : b = 0x00
    · rw [if_pos (by rw [hb]), if_pos hb]
      rfl
    · rw [if_neg (by simpa using hb), if_neg hb]
  · rw [o3.sent rfl]
    exact s1

theorem paddingRound_empty (tEcho : Word) (k : Nat) {s : State} (h : Live s) (hr : s.rx = []) :
    ∃ t, paddingLoop tEcho (k + 1) s = paddingLoop tEcho k t ∧ OpStep Shaking s t ∧ t.sent = s.sent ++ [0x00] ∧
      t.rx = [] := by
  have o0 := OpStep.hidStep Shaking s { s.hid with entryCount := k + 1 } rfl rfl
  obtain ⟨t, h1, o1, s1, -⟩ := chSend_ok [0x00] (o0.live h)
  have o2 := OpStep.hidStep Shaking t { t.hid with waitDl := ⟨t.now, tEcho⟩ } rfl rfl
  have hx : t.rx = [] := (o1.unread rfl).1.trans hr
  obtain ⟨u, h2, o3, -⟩ := chRecv_empty (s := { t with hid := { t.hid with waitDl := ⟨t.now, tEcho⟩ } }) ⟨t.now, tEcho⟩
    (o2.live (o1.live (o0.live h))) hx
  refine ⟨u, ?_, ((o0.trans (o1.widen rfl)).trans o2).trans (o3.widen rfl), ?_, (o3.unread rfl).1.trans hx⟩
  · conv => lhs; unfold paddingLoop
    rw [Ctl.bind_apply, mark_apply]
    dsimp only
    rw [Ctl.bind_apply, h1]
    dsimp only
    rw [Ctl.bind_apply, waitDeadline_step]
    dsimp only
    rw [Ctl.bind_apply, h2]
    rfl
  · rw [o3.sent rfl]
    exact s1

/-- The padding ends at the first round whose echo is 0x00. -/
theorem paddingLoop_echo {rest : List RxByte} (tEcho : Word) (bs cs : List Byte) (k : Nat) {s : State} (h : Live s)
    (hq : Queued s (bs ++ 0x00 :: cs) rest) (hn : ∀ b ∈ bs, b ≠ 0x00) (hk : bs.length < k) :
    ∃ t, paddingLoop tEcho k s = .ok true t ∧ OpStep Shaking s t ∧
      t.sent = s.sent ++ List.replicate (bs.length + 1) 0x00 ∧ Queued t cs rest := by
  induction bs generalizing s k with
  | nil =>
    cases k with
    | zero => simp at hk
    | succ k =>
      obtain ⟨t, h1, o, s1, q⟩ := paddingRound_queued tEcho k 0x00 cs h hq
      rw [if_pos rfl] at h1
      exact ⟨t, h1, o, by simpa using s1, q⟩
  | cons b bs ih =>
    cases k with
    | zero => simp at hk
    | succ k =>
      obtain ⟨t, h1, o, s1, q⟩ := paddingRound_queued tEcho k b (bs ++ 0x00 :: cs) h hq
      rw [if_neg (hn b (by simp))] at h1
      obtain ⟨u, h2, o2, s2, q2⟩ := ih k (o.live h) q (fun x hx => hn x (by simp [hx])) (by simpa using hk)
      refine ⟨u, h1.trans h2, o.trans o2, ?_, q2⟩
      rw [s2, s1, List.length_cons, List.replicate_succ (n := bs.length + 1)]
      simp

/-- The padding fails when no round's echo is 0x00. -/
theorem paddingLoop_wrong {rest : List RxByte} (tEcho : Word) (bs : List Byte) {s : State} (h : Live s)
    (hq : Queued s bs rest) (hn : ∀ b ∈ bs, b ≠ 0x00) :
    ∃ t, paddingLoop tEcho bs.length s = .ok false t ∧ OpStep Shaking s t ∧
      t.sent = s.sent ++ List.replicate bs.length 0x00 ∧ t.rx = rest := by
  induction bs generalizing s with
  | nil => exact ⟨s, rfl, OpStep.refl _ s, by simp, Queued.nil.1 hq⟩
  | cons b bs ih =>
    obtain ⟨t, h1, o, s1, q⟩ := paddingRound_queued tEcho bs.length b bs h hq
    rw [if_neg (hn b (by simp))] at h1
    obtain ⟨u, h2, o2, s2, x2⟩ := ih (o.live h) q (fun x hx => hn x (by simp [hx]))
    refine ⟨u, h1.trans h2, o.trans o2, ?_, x2⟩
    rw [s2, s1, List.length_cons, List.replicate_succ]
    simp

/-- The padding fails when the device stays silent. -/
theorem paddingLoop_silent (tEcho : Word) (k : Nat) {s : State} (h : Live s) (hr : s.rx = []) :
    ∃ t, paddingLoop tEcho k s = .ok false t ∧ OpStep Shaking s t ∧ t.sent = s.sent ++ List.replicate k 0x00 ∧
      t.rx = [] := by
  induction k generalizing s with
  | zero => exact ⟨s, rfl, OpStep.refl _ s, by simp, hr⟩
  | succ k ih =>
    obtain ⟨t, h1, o, s1, x1⟩ := paddingRound_empty tEcho k h hr
    obtain ⟨u, h2, o2, s2, x2⟩ := ih (o.live h) x1
    refine ⟨u, h1.trans h2, o.trans o2, ?_, x2⟩
    rw [s2, s1, List.replicate_succ]
    simp

/-- The single-byte waits of R462-R464 on a delivered byte. -/
theorem shake_queued {rest : List RxByte} (d : Word) (b : Byte) (bs : List Byte) {s : State} (h : Live s)
    (hq : Queued s (b :: bs) rest) :
    ∃ t, (do let dl ← waitDeadline d; chRecv dl : Ctl (Option Byte)) s = .ok (some b) t ∧
      OpStep { read := true } s t ∧ Queued t bs rest := by
  have o2 := OpStep.hidStep { read := true } s { s.hid with waitDl := ⟨s.now, d⟩ } rfl rfl
  obtain ⟨u, h2, o3, q3, -⟩ := chRecv_queued (s := { s with hid := { s.hid with waitDl := ⟨s.now, d⟩ } }) ⟨s.now, d⟩
    (o2.live h) (hq.later rfl (Nat.le_refl _))
  refine ⟨u, ?_, o2.trans o3, q3⟩
  rw [Ctl.bind_apply, waitDeadline_step]
  exact h2

theorem shake_empty (d : Word) {s : State} (h : Live s) (hr : s.rx = []) :
    ∃ t, (do let dl ← waitDeadline d; chRecv dl : Ctl (Option Byte)) s = .ok none t ∧
      OpStep { read := true } s t ∧ t.rx = [] := by
  have o2 := OpStep.hidStep { read := true } s { s.hid with waitDl := ⟨s.now, d⟩ } rfl rfl
  obtain ⟨u, h2, o3, -⟩ := chRecv_empty (s := { s with hid := { s.hid with waitDl := ⟨s.now, d⟩ } }) ⟨s.now, d⟩
    (o2.live h) hr
  refine ⟨u, ?_, o2.trans (o3.widen rfl), (o3.unread rfl).1.trans hr⟩
  rw [Ctl.bind_apply, waitDeadline_step]
  exact h2

/-! ### Whole sequences -/

/-- What an entry sequence did: the bytes, pins and rates it added, its least time, and the stream after it. -/
structure Entered (s t : State) (bytes : List Byte) (pins : List (Pin × Bool)) (rates : List Word) (ticks : Nat)
    (rx : List RxByte) : Prop where
  step : OpStep { send := true, read := true, pins := true } s t
  sent : t.sent = s.sent ++ bytes
  settings : t.pinSettings = s.pinSettings ++ pins
  newRates : t.rates = s.rates ++ rates
  time : s.time + ticks ≤ t.time
  stream : t.rx = rx

theorem entryGeneric_ok (p : Profile) {s : State} (h : Live s) :
    ∃ t, entryGeneric p s = .ok true t ∧ Entered s t (if p.chan then [] else [0, 0]) p.pulsePins []
      (p.tPulse.toNat * (1 + 2 * p.pulses.toNat) + p.tSettle.toNat) s.rx := by
  obtain ⟨t, h1, p1⟩ := pulsePart_ok p h
  cases hc : p.chan with
  | true =>
    refine ⟨t, ?_, p1.step.widen rfl, ?_, p1.settings, ?_, p1.time, (p1.step.unread rfl).1⟩
    · unfold entryGeneric
      rw [Ctl.bind_apply, h1]
      dsimp only
      rw [if_pos hc]
      rfl
    · rw [p1.step.sent rfl]
      simp
    · rw [p1.rates, List.append_nil]
  | false =>
    obtain ⟨u, h2, o2, s2, -⟩ := chSend_ok [0x00, 0x00] (p1.live h)
    have op := o2.pins rfl
    refine ⟨u, ?_, (p1.step.widen rfl).trans (o2.widen rfl), ?_, op.settings.trans p1.settings, ?_,
      Nat.le_trans p1.time o2.time, (o2.unread rfl).1.trans (p1.step.unread rfl).1⟩
    · unfold entryGeneric
      rw [Ctl.bind_apply, h1]
      dsimp only
      rw [if_neg (by simp [hc]), Ctl.bind_apply, h2]
      rfl
    · rw [s2, p1.step.sent rfl]
      rfl
    · rw [op.rates, p1.rates, List.append_nil]

/-- The extended entry when a round's echo is 0x00 and the bit-rate request is answered (R462). -/
theorem entryExt4_answered {rest : List RxByte} (p : Profile) (bs : List Byte) (b : Byte) {s : State} (h : Live s)
    (hq : Queued s (bs ++ [0x00, b]) rest) (hn : ∀ x ∈ bs, x ≠ 0x00) (hk : bs.length < 30) :
    ∃ t, entryExt4 p s = .ok (b == 0xC1) t ∧ Entered s t (List.replicate (bs.length + 1) 0x00 ++ [0x55]) p.pulsePins []
      (p.tPulse.toNat * (1 + 2 * p.pulses.toNat) + p.tSettle.toNat) rest := by
  obtain ⟨t, h1, p1⟩ := pulsePart_ok p h
  have l1 := p1.live h
  obtain ⟨u, h2, o2, s2, q2⟩ := paddingLoop_echo p.tEcho bs [b] Config.paddingRounds l1 (hq.step p1.step rfl) hn hk
  have l2 := o2.live l1
  obtain ⟨v, h3, o3, s3, -⟩ := chSend_ok [Config.syncRequest] l2
  have l3 := o3.live l2
  obtain ⟨w, h4, o4, q4⟩ := shake_queued p.tEcho b [] l3 (q2.step o3 rfl)
  have w2 := o2.pins rfl
  have w3 := o3.pins rfl
  have w4 := o4.pins rfl
  refine ⟨w, ?_, (((p1.step.widen rfl).trans (o2.widen rfl)).trans (o3.widen rfl)).trans (o4.widen rfl), ?_, ?_, ?_, ?_,
    Queued.nil.1 q4⟩
  · unfold entryExt4
    rw [Ctl.bind_apply, h1]
    dsimp only
    rw [Ctl.bind_apply, h2]
    dsimp only
    rw [if_pos rfl, Ctl.bind_apply, h3]
    dsimp only
    rw [Ctl.bind_apply] at h4
    rw [Ctl.bind_apply]
    rw [waitDeadline_step] at h4 ⊢
    dsimp only at h4 ⊢
    rw [Ctl.bind_apply, h4]
    show EStateM.Result.ok (some b == some 0xC1) w = _
    simp
  · rw [o4.sent rfl, s3, s2, p1.step.sent rfl, List.append_assoc]
    rfl
  · rw [w4.settings, w3.settings, w2.settings, p1.settings]
  · rw [w4.rates, w3.rates, w2.rates, p1.rates, List.append_nil]
  · exact Nat.le_trans p1.time (Nat.le_trans o2.time (Nat.le_trans o3.time o4.time))

/-- The extended entry when the padding fails. -/
theorem entryExt4_padding (p : Profile) (bytes : List Byte) (rx : List RxByte) {s : State} (h : Live s)
    (hpad : ∀ t, OpStep { pins := true } s t → ∃ u, paddingLoop p.tEcho Config.paddingRounds t = .ok false u ∧
      OpStep Shaking t u ∧ u.sent = t.sent ++ bytes ∧ u.rx = rx) :
    ∃ t, entryExt4 p s = .ok false t ∧ Entered s t bytes p.pulsePins []
      (p.tPulse.toNat * (1 + 2 * p.pulses.toNat) + p.tSettle.toNat) rx := by
  obtain ⟨t, h1, p1⟩ := pulsePart_ok p h
  obtain ⟨u, h2, o2, s2, x2⟩ := hpad t p1.step
  have w2 := o2.pins rfl
  refine ⟨u, ?_, (p1.step.widen rfl).trans (o2.widen rfl), ?_, ?_, ?_, Nat.le_trans p1.time o2.time, x2⟩
  · unfold entryExt4
    rw [Ctl.bind_apply, h1]
    dsimp only
    rw [Ctl.bind_apply, h2]
    rfl
  · rw [s2, p1.step.sent rfl]
  · rw [w2.settings, p1.settings]
  · rw [w2.rates, p1.rates, List.append_nil]

/-- The pins of the SW8 entry around its train (R463). -/
theorem sw8_pins (p : Profile) {s : State} (h : Live s) (train : List Word)
    (ht : train = p.ptram.toList.takeWhile fun e => !trainEnd e) :
    ∃ t, (do pinSet .pinmux false; runTrain 0 p.ptram.toList; pinSet .pinmux true; reconfigure p.baudSw : Ctl Unit) s =
        .ok ⟨⟩ t ∧ OpStep { pins := true } s t ∧
      t.pinSettings = s.pinSettings ++
        ((Pin.pinmux, false) :: (train.map fun e => (trainPin e, trainLevel e)) ++ [(Pin.pinmux, true)]) ∧
      t.rates = s.rates ++ [p.baudSw] ∧ s.time + (train.map trainDelay).sum ≤ t.time := by
  obtain ⟨t, h1, p1⟩ := Pinned.set .pinmux false h
  obtain ⟨u, h2, p2⟩ := runTrain_ok p.ptram.toList 0 (p1.live h)
  rw [← ht] at p2
  obtain ⟨v, h3, p3⟩ := Pinned.set .pinmux true (p2.live (p1.live h))
  have all := (p1.trans p2).trans p3
  obtain ⟨w, h4, o4, -, r4, s4, -⟩ := reconfigure_ok p.baudSw (all.live h)
  refine ⟨w, ?_, all.step.trans o4, ?_, ?_, ?_⟩
  · rw [Ctl.bind_apply, h1]
    dsimp only
    rw [Ctl.bind_apply, h2]
    dsimp only
    rw [Ctl.bind_apply, h3]
    exact h4
  · rw [s4, all.settings]
    simp
  · rw [r4, all.rates]
  · have h5 := all.time
    have h6 := o4.time
    omega

theorem entrySw8_eq (p : Profile) : entrySw8 p = (do
    (do pinSet .pinmux false; runTrain 0 p.ptram.toList; pinSet .pinmux true; reconfigure p.baudSw : Ctl Unit)
    let r ← (do let dl ← waitDeadline p.tSync; chRecv dl : Ctl (Option Byte))
    pure (r == some 0x00)) := by
  funext s
  simp only [entrySw8, bind_assoc]

theorem entryAlt_eq (p : Profile) : entryAlt p = (do
    (do runTrain 0 p.ptram.toList; zeroLoop p.tSpacing.toNat Config.alternateZeros; chSend [p.probe] : Ctl Unit)
    let r ← (do let dl ← waitDeadline p.tEcho; chRecv dl : Ctl (Option Byte))
    pure (r == some p.probe)) := by
  funext s
  simp only [entryAlt, bind_assoc]

/-- A sequence whose last part is a single-byte wait. -/
theorem shake_end {front : Ctl Unit} {d : Word} {want : Byte} {s t : State} (h1 : front s = .ok ⟨⟩ t) (lt : Live t) :
    (∀ b rest, Queued t [b] rest → ∃ u, (do
        front
        let r ← (do let dl ← waitDeadline d; chRecv dl : Ctl (Option Byte))
        pure (r == some want) : Ctl Bool) s = .ok (b == want) u ∧ OpStep { read := true } t u ∧ u.rx = rest) ∧
    (t.rx = [] → ∃ u, (do
        front
        let r ← (do let dl ← waitDeadline d; chRecv dl : Ctl (Option Byte))
        pure (r == some want) : Ctl Bool) s = .ok false u ∧ OpStep { read := true } t u ∧ u.rx = []) := by
  constructor
  · intro b rest hq
    obtain ⟨u, h2, o, q⟩ := shake_queued d b [] lt hq
    refine ⟨u, ?_, o, Queued.nil.1 q⟩
    rw [Ctl.bind_apply, h1]
    dsimp only
    rw [Ctl.bind_apply, h2]
    show EStateM.Result.ok (some b == some want) u = _
    simp
  · intro hr
    obtain ⟨u, h2, o, q⟩ := shake_empty d lt hr
    refine ⟨u, ?_, o, q⟩
    rw [Ctl.bind_apply, h1]
    dsimp only
    rw [Ctl.bind_apply, h2]
    rfl

/-- What the alternate entry does before its wait (R464). -/
theorem alt_front (p : Profile) {s : State} (h : Live s) (train : List Word)
    (ht : train = p.ptram.toList.takeWhile fun e => !trainEnd e) :
    ∃ t, (do runTrain 0 p.ptram.toList; zeroLoop p.tSpacing.toNat Config.alternateZeros; chSend [p.probe] : Ctl Unit) s =
        .ok ⟨⟩ t ∧ OpStep { send := true, pins := true } s t ∧
      t.pinSettings = s.pinSettings ++ (train.map fun e => (trainPin e, trainLevel e)) ∧ t.rates = s.rates ∧
      t.sent = s.sent ++ (List.replicate 16 0 ++ [p.probe]) ∧
      s.time + ((train.map trainDelay).sum + 16 * p.tSpacing.toNat) ≤ t.time := by
  obtain ⟨t, h1, p1⟩ := runTrain_ok p.ptram.toList 0 h
  rw [← ht] at p1
  obtain ⟨u, h2, o2, s2, t2⟩ := zeroLoop_ok p.tSpacing.toNat Config.alternateZeros (p1.live h)
  obtain ⟨v, h3, o3, s3, -⟩ := chSend_ok [p.probe] (o2.live (p1.live h))
  have w2 := o2.pins rfl
  have w3 := o3.pins rfl
  refine ⟨v, ?_, ((p1.step.widen rfl).trans (o2.widen rfl)).trans (o3.widen rfl), ?_, ?_, ?_, ?_⟩
  · rw [Ctl.bind_apply, h1]
    dsimp only
    rw [Ctl.bind_apply, h2]
    exact h3
  · rw [w3.settings, w2.settings, p1.settings]
  · rw [w3.rates, w2.rates, p1.rates]
  · rw [s3, s2, p1.step.sent rfl, List.append_assoc]
    rfl
  · have h4 := p1.time
    have h5 := o3.time
    have e : Config.alternateZeros = 16 := rfl
    rw [e] at t2
    omega

theorem State.entryPins_congr {s t : State} (h : t.prof = s.prof) : t.entryPins = s.entryPins := by
  simp only [State.entryPins, State.trainPins, State.train, h]

theorem State.entrySends_congr {s t : State} (h : t.prof = s.prof) : t.entrySends = s.entrySends := by
  simp only [State.entrySends, h]

theorem State.entryRates_congr {s t : State} (h : t.prof = s.prof) : t.entryRates = s.entryRates := by
  simp only [State.entryRates, h]

theorem State.entryTicks_congr {s t : State} (h : t.prof = s.prof) : t.entryTicks = s.entryTicks := by
  simp only [State.entryTicks, State.train, h]

theorem State.entryReads_congr {s t : State} (h : t.prof = s.prof) : t.entryReads = s.entryReads := by
  simp only [State.entryReads, h]

/-- SW8 on a delivered byte and on silence (R463). -/
theorem entrySw8_ok {s : State} (h : Live s) :
    (∀ b rest, Queued s [b] rest → ∃ t, entrySw8 s.prof s = .ok (b == 0x00) t ∧ Entered s t []
      ((Pin.pinmux, false) :: s.trainPins ++ [(Pin.pinmux, true)]) [s.prof.baudSw] (s.train.map trainDelay).sum rest) ∧
    (s.rx = [] → ∃ t, entrySw8 s.prof s = .ok false t ∧ Entered s t []
      ((Pin.pinmux, false) :: s.trainPins ++ [(Pin.pinmux, true)]) [s.prof.baudSw] (s.train.map trainDelay).sum []) := by
  obtain ⟨t, h1, o, e1, e2, e3⟩ := sw8_pins s.prof h s.train rfl
  obtain ⟨k1, k2⟩ := shake_end (d := s.prof.tSync) (want := 0x00) h1 (o.live h)
  have done : ∀ u, OpStep { read := true } t u → ∀ rest, u.rx = rest → Entered s u []
      ((Pin.pinmux, false) :: s.trainPins ++ [(Pin.pinmux, true)]) [s.prof.baudSw] (s.train.map trainDelay).sum rest := by
    intro u o2 rest hr
    have w := o2.pins rfl
    refine ⟨(o.widen rfl).trans (o2.widen rfl), ?_, w.settings.trans e1, w.rates.trans e2, Nat.le_trans e3 o2.time, hr⟩
    rw [o2.sent rfl, o.sent rfl, List.append_nil]
  rw [entrySw8_eq]
  refine ⟨fun b rest hq => ?_, fun hr => ?_⟩
  · obtain ⟨u, h2, o2, x2⟩ := k1 b rest (hq.step o rfl)
    exact ⟨u, h2, done u o2 rest x2⟩
  · obtain ⟨u, h2, o2, x2⟩ := k2 ((o.unread rfl).1.trans hr)
    exact ⟨u, h2, done u o2 [] x2⟩

/-- The alternate entry on a delivered byte and on silence (R464). -/
theorem entryAlt_ok {s : State} (h : Live s) :
    (∀ b rest, Queued s [b] rest → ∃ t, entryAlt s.prof s = .ok (b == s.prof.probe) t ∧
      Entered s t (List.replicate 16 0 ++ [s.prof.probe]) s.trainPins []
        ((s.train.map trainDelay).sum + 16 * s.prof.tSpacing.toNat) rest) ∧
    (s.rx = [] → ∃ t, entryAlt s.prof s = .ok false t ∧
      Entered s t (List.replicate 16 0 ++ [s.prof.probe]) s.trainPins []
        ((s.train.map trainDelay).sum + 16 * s.prof.tSpacing.toNat) []) := by
  obtain ⟨t, h1, o, e1, e2, e3, e4⟩ := alt_front s.prof h s.train rfl
  obtain ⟨k1, k2⟩ := shake_end (d := s.prof.tEcho) (want := s.prof.probe) h1 (o.live h)
  have done : ∀ u, OpStep { read := true } t u → ∀ rest, u.rx = rest →
      Entered s u (List.replicate 16 0 ++ [s.prof.probe]) s.trainPins []
        ((s.train.map trainDelay).sum + 16 * s.prof.tSpacing.toNat) rest := by
    intro u o2 rest hr
    have w := o2.pins rfl
    refine ⟨(o.widen rfl).trans (o2.widen rfl), (o2.sent rfl).trans e3, w.settings.trans e1, ?_, Nat.le_trans e4 o2.time, hr⟩
    rw [w.rates, e2, List.append_nil]
  rw [entryAlt_eq]
  refine ⟨fun b rest hq => ?_, fun hr => ?_⟩
  · obtain ⟨u, h2, o2, x2⟩ := k1 b rest (hq.step o rfl)
    exact ⟨u, h2, done u o2 rest x2⟩
  · obtain ⟨u, h2, o2, x2⟩ := k2 ((o.unread rfl).1.trans hr)
    exact ⟨u, h2, done u o2 [] x2⟩

/-- The family's sequence succeeds when the bytes of its handshake are delivered (R460). -/
theorem entrySequence_ok {rest : List RxByte} {s : State} (h : Live s) (hq : Queued s s.entryReads rest) :
    ∃ t, entrySequence s.prof s = .ok true t ∧
      Entered s t s.entrySends s.entryPins s.entryRates s.entryTicks rest := by
  unfold entrySequence
  unfold State.entryReads at hq
  unfold State.entrySends State.entryPins State.entryRates State.entryTicks
  cases hf : s.prof.family with
  | generic =>
    simp only [hf] at hq ⊢
    obtain ⟨t, h1, e⟩ := entryGeneric_ok s.prof h
    rw [Queued.nil.1 hq] at e
    exact ⟨t, h1, e⟩
  | ext4 =>
    simp only [hf] at hq ⊢
    exact entryExt4_answered s.prof [] 0xC1 h hq (by simp) (by simp)
  | sw8 =>
    simp only [hf] at hq ⊢
    exact (entrySw8_ok h).1 0x00 rest hq
  | alt =>
    simp only [hf] at hq ⊢
    obtain ⟨t, h1, e⟩ := (entryAlt_ok h).1 s.prof.probe rest hq
    exact ⟨t, by rw [h1]; simp, e⟩

end Sys2Proof.Machine
end

