-- ==== Sys2Proof/Laws/Interrupted.lean ====
section
/-! SUPPORT. Two runs of one piece of pseudocode, the second with a reset of the input (70_reset_and_hazards.md R700) after
the host actions of the first: the second does what the first does as long as time does not go past the reset, and is ended
by it otherwise. So a command whose time goes past the reset is ended by it, wherever the time passes. -/

namespace Sys2Proof.Machine

/-- s with host actions added after those to come. -/
def State.andThen (s : State) (k : List HostInput) : State := { s with host := s.host ++ k }

/-- If no host action is to come, the time has not gone past that of h. -/
def Ahead (h : HostInput) (s : State) : Prop := s.host = [] → s.time ≤ h.tick

/-- The result of a run that a block reset ended. -/
def CutShort {α : Type} (r : EStateM.Result Stop State α) : Prop := ∃ u n, r = .error .blockReset (State.blockReset u n)

/-- The run of c from s, which no reset ends, and under `p` the run with the reset h added: either h ends the second, or the
second ends as the first does and time has not gone past h. -/
structure TwinAt {α : Type} (h : HostInput) (k : List HostInput) (p : Prop) (c : Ctl α) (s : State) : Prop where
  live : match c s with
    | .ok _ t => Live t
    | .error .blockReset _ => False
    | .error _ _ => True
  twin : p → CutShort (c (s.andThen (h :: k))) ∨
    match c s with
    | .ok a t => c (s.andThen (h :: k)) = .ok a (t.andThen (h :: k)) ∧ Ahead h t
    | .error (.raised e) t => c (s.andThen (h :: k)) = .error (.raised e) (t.andThen (h :: k)) ∧ Ahead h t
    | .error .blockReset _ => True
    | .error .endless _ => True

/-- The same from every state of a running command that has not gone past h. -/
def Twin {α : Type} (h : HostInput) (k : List HostInput) (c : Ctl α) : Prop := ∀ s, Live s → TwinAt h k (Ahead h s) c s

variable {h : HostInput} {k : List HostInput}

theorem TwinAt.bind {α β : Type} {p : Prop} {x : Ctl α} {f : α → Ctl β} {s : State} (hx : TwinAt h k p x s)
    (hf : ∀ a, Twin h k (f a)) : TwinAt h k p (x >>= f) s := by
  obtain ⟨hl, ht⟩ := hx
  constructor
  · rw [Ctl.bind_apply]
    revert hl
    cases x s with
    | ok a t => exact fun hl => (hf a t hl).live
    | error e t => cases e <;> exact id
  · intro hp
    replace ht := ht hp
    rw [Ctl.bind_apply, Ctl.bind_apply]
    rcases ht with ⟨u, n, e⟩ | ht
    · exact .inl ⟨u, n, by rw [e]⟩
    · revert ht hl
      cases x s with
      | ok a t =>
        rintro hl ⟨e, g⟩
        rw [e]
        exact (hf a t hl).twin g
      | error e t =>
        cases e with
        | raised e =>
          rintro - ⟨e, g⟩
          rw [e]
          exact .inr ⟨rfl, g⟩
        | blockReset => exact fun _ _ => .inr trivial
        | endless => exact fun _ _ => .inr trivial

theorem Twin.bind {α β : Type} {x : Ctl α} {f : α → Ctl β} (hx : Twin h k x) (hf : ∀ a, Twin h k (f a)) :
    Twin h k (x >>= f) := fun s hs => (hx s hs).bind hf

theorem Twin.pure {α : Type} (a : α) : Twin h k (Pure.pure a) := fun _ hs => ⟨hs, fun g => .inr ⟨rfl, g⟩⟩

theorem Twin.raise {α : Type} (e : Err) : Twin h k (Machine.raise e : Ctl α) := fun _ _ => ⟨trivial, fun g => .inr ⟨rfl, g⟩⟩

theorem Twin.endless {α : Type} : Twin h k (throw Stop.endless : Ctl α) := fun _ _ => ⟨trivial, fun _ => .inr trivial⟩

theorem Twin.ite {α : Type} {p : Prop} [Decidable p] {c d : Ctl α} (hc : Twin h k c) (hd : Twin h k d) :
    Twin h k (if p then c else d) := by
  split
  · exact hc
  · exact hd

/-- Reading the state, for a purpose that the host actions to come have no part in. -/
theorem TwinAt.get {β : Type} {p : Prop} {f : State → Ctl β} {s : State} (hf : f (s.andThen (h :: k)) = f s)
    (hs : TwinAt h k p (f s) s) : TwinAt h k p (MonadState.get >>= f) s := by
  refine ⟨hs.live, fun hp => ?_⟩
  have := hs.twin hp
  rw [Ctl.bind_apply, Ctl.get_apply, Ctl.bind_apply, Ctl.get_apply]
  dsimp only
  rw [hf]
  exact this

theorem Twin.get {β : Type} {f : State → Ctl β} (hf : ∀ s : State, f (s.andThen (h :: k)) = f s)
    (hs : ∀ s, Twin h k (f s)) : Twin h k (MonadState.get >>= f) := fun s g => .get (hf s) (hs s s g)

/-- A field update that neither the host nor the time has a part in. -/
theorem Twin.modify {f : State → State} (hf : ∀ s : State, f (s.andThen (h :: k)) = (f s).andThen (h :: k))
    (hb : ∀ s, (f s).busy = s.busy) (hh : ∀ s, (f s).host = s.host) (ht : ∀ s, (f s).time = s.time) :
    Twin h k (modify f : Ctl PUnit) := fun s g =>
  ⟨⟨by rw [hb]; exact g.1, by rw [hh]; exact g.2⟩, fun a => .inr ⟨by rw [Ctl.modify_apply, hf], fun e => by
    rw [ht]
    exact a (by rw [← hh]; exact e)⟩⟩

theorem Twin.mark (f : Hidden → Hidden) : Twin h k (mark f) :=
  Twin.modify (fun _ => rfl) (fun _ => rfl) (fun _ => rfl) (fun _ => rfl)

/-! ### Time -/

theorem busRead_andThen (s : State) (a : BitVec 18) (sz : Size) (k : List HostInput) :
    (s.andThen k).busRead a sz = (s.busRead a sz).andThen k := by
  unfold State.busRead
  dsimp only
  split
  · split
    · split <;> rfl
    · rfl
    · show (if s.busy = true then _ else _) = _
      split <;> rfl
  · rfl

theorem regWrite_andThen (s : State) (r : Reg) (v : Word) (k : List HostInput) :
    (s.andThen k).regWrite r v = (s.regWrite r v).andThen k := by
  cases r <;> try rfl
  all_goals unfold State.regWrite State.andThen
  · dsimp only; split <;> rfl
  · dsimp only; split <;> rfl
  · dsimp only; split <;> rfl
  · unfold State.lockedWrite State.unlocked; dsimp only; split <;> rfl

theorem busWrite_andThen (s : State) (a : BitVec 18) (sz : Size) (v : Word) (k : List HostInput) :
    (s.andThen k).busWrite a sz v = (s.busWrite a sz v).andThen k := by
  unfold State.busWrite
  split
  · have : (s.andThen k).writeEffect a.toNat sz v = (s.writeEffect a.toNat sz v).andThen k := by
      unfold State.writeEffect
      split
      · split
        · exact regWrite_andThen s _ v k
        · rfl
      · show (if s.busy = true then _ else _) = _
        split <;> rfl
      · rfl
    rw [this]
    rfl
  · rfl

theorem serve_twin {n : Nat} (hr : h.act = .reset n) (T : Nat) (hs : List HostInput) (s : State) (hl : Live s)
    (ht : s.time ≤ T) (hh : s.host = hs) :
    CutShort (serve T (hs ++ h :: k) (s.andThen (h :: k))) ∨ ∃ t, serve T hs s = .ok ⟨⟩ t ∧
      serve T (hs ++ h :: k) (s.andThen (h :: k)) = .ok ⟨⟩ (t.andThen (h :: k)) ∧ Live t ∧ Ahead h t := by
  induction hs generalizing s with
  | nil =>
    rw [List.nil_append]
    unfold serve
    by_cases hd : h.due T = true
    · rw [if_pos hd, hr]
      exact .inl ⟨_, _, rfl⟩
    · rw [if_neg hd]
      refine .inr ⟨_, rfl, rfl, hl, fun _ => ?_⟩
      simp only [HostInput.due, Bool.or_eq_true, decide_eq_true_eq, not_or] at hd
      show max s.time T ≤ h.tick
      omega
  | cons x xs ih =>
    rw [List.cons_append]
    unfold serve
    by_cases hd : x.due T = true
    · rw [if_pos hd, if_pos hd]
      have hx : max s.time x.tick ≤ T := by
        simp only [HostInput.due, Bool.or_eq_true, Bool.and_eq_true, decide_eq_true_eq] at hd
        omega
      have served : ∀ u, BusyAccess { s with host := xs, time := max s.time x.tick } u →
          CutShort (serve T (xs ++ h :: k) (u.andThen (h :: k))) ∨ ∃ t, serve T xs u = .ok ⟨⟩ t ∧
            serve T (xs ++ h :: k) (u.andThen (h :: k)) = .ok ⟨⟩ (t.andThen (h :: k)) ∧ Live t ∧ Ahead h t := by
        intro u o
        have e := EnvStep.ofAccess hh o
        exact ih u (e.step.live hl) (by rw [o.time]; exact hx) o.host
      cases ha : x.act with
      | read a sz =>
        have := served _ (State.busRead_busyAccess _ a sz)
        rw [← busRead_andThen] at this
        exact this
      | write a sz v =>
        have := served _ (State.busWrite_busyAccess { s with host := xs, time := max s.time x.tick } hl.1 a sz v)
        rw [← busWrite_andThen] at this
        exact this
      | reset d => exact absurd ha (hl.2 x (by simp [hh]) d)
    · rw [if_neg hd, if_neg hd]
      exact .inr ⟨_, rfl, rfl, hl, fun e => by
        have : s.host = [] := e
        rw [hh] at this
        cases this⟩

theorem advance_twin {n : Nat} (hr : h.act = .reset n) (p : Prop) (T : Nat) {s : State} (hl : Live s)
    (ht : s.time ≤ T) : TwinAt h k p (advance T) s := by
  obtain ⟨t, e, env, -⟩ := advance_ok T hl
  refine ⟨by rw [e]; exact env.step.live hl, fun _ => ?_⟩
  have := serve_twin (k := k) hr T s.host s hl ht rfl
  rcases this with c | ⟨t', e1, e2, -, g⟩
  · exact .inl c
  · refine .inr ?_
    have e3 : advance T s = .ok ⟨⟩ t' := e1
    rw [e3]
    exact ⟨e2, g⟩

/-- A wait brings the time up to that of h at most, or is cut short. -/
theorem wait_twin {n : Nat} (hr : h.act = .reset n) (p : Prop) (d : Nat) {s : State} (hl : Live s) :
    TwinAt h k p (wait d) s := by
  have := advance_twin (k := k) (s := { s with lags := s.lags.tail }) hr p (s.time + d + s.lags.headD 0) hl
    (Nat.le_trans (Nat.le_add_right _ _) (Nat.le_add_right _ _))
  exact ⟨this.live, this.twin⟩

section Primitives

variable {n : Nat}

theorem wait_twins (hr : h.act = .reset n) (d : Nat) : Twin h k (wait d) := fun _ g => wait_twin hr _ d g

theorem pass_twins (hr : h.act = .reset n) : Twin h k pass := wait_twins hr 0

theorem frameDeadline_twins (d : Word) : Twin h k (frameDeadline d) :=
  .get (fun _ => rfl) fun _ => .bind (.mark _) fun _ => .pure _

theorem waitDeadline_twins (d : Word) : Twin h k (waitDeadline d) :=
  .get (fun _ => rfl) fun _ => .bind (.mark _) fun _ => .pure _

theorem chSend_twins (hr : h.act = .reset n) (bs : List Byte) : Twin h k (chSend bs) := by
  induction bs with
  | nil => exact .pure _
  | cons b bs ih =>
    exact .bind (.modify (fun _ => rfl) (fun _ => rfl) (fun _ => rfl) (fun _ => rfl)) fun _ =>
      .bind (pass_twins hr) fun _ => ih

theorem takeByte_twins (hr : h.act = .reset n) (x : RxByte) : Twin h k (takeByte x) :=
  .bind (.modify (fun _ => rfl) (fun _ => rfl) (fun _ => rfl) (fun _ => rfl)) fun _ =>
    .bind (pass_twins hr) fun _ => .pure _

theorem timeoutAt_twin (hr : h.act = .reset n) (p : Prop) {T : Nat} {s : State} (g : Live s) (ht : s.time ≤ T) :
    TwinAt h k p (timeoutAt T) s :=
  .bind (advance_twin hr p T g ht) fun _ => .bind (pass_twins hr) fun _ => .pure _

theorem chRecv_twins (hr : h.act = .reset n) (dl : Deadline) : Twin h k (chRecv dl) := by
  intro s g
  refine .get rfl ?_
  split
  · exact timeoutAt_twin hr _ g (Nat.le_add_right _ _)
  · split
    · exact takeByte_twins hr _ s g
    · split
      · exact .bind (advance_twin hr _ _ g (by omega)) fun _ => takeByte_twins hr _
      · exact timeoutAt_twin hr _ g (Nat.le_add_right _ _)

theorem pinSet_twins (hr : h.act = .reset n) (p : Pin) (v : Bool) : Twin h k (pinSet p v) :=
  .bind (.modify (fun _ => by cases p <;> rfl) (fun _ => by cases p <;> rfl) (fun _ => by cases p <;> rfl)
    (fun _ => by cases p <;> rfl)) fun _ => pass_twins hr

theorem reconfigure_twins (hr : h.act = .reset n) (r : Word) : Twin h k (reconfigure r) :=
  .bind (.modify (fun _ => rfl) (fun _ => rfl) (fun _ => rfl) (fun _ => rfl)) fun _ => pass_twins hr

theorem setAckok_twins (b : Bool) : Twin h k (setAckok b) :=
  .modify (fun _ => rfl) (fun _ => rfl) (fun _ => rfl) (fun _ => rfl)

theorem rxAppend_twins (bs : List Byte) : Twin h k (rxAppend bs) := by
  intro s g
  have run : ∀ u : State, u.rxlen = s.rxlen → rxAppend bs u =
      if Config.bufCap < s.rxlen.toNat + bs.length then .error (.raised .overflow) u else .ok ⟨⟩ (u.rxStore bs) := by
    intro u hu
    unfold rxAppend
    rw [Ctl.bind_apply, Ctl.get_apply]
    dsimp only
    rw [hu]
    split <;> rfl
  have e1 := run s rfl
  have e2 := run (s.andThen (h :: k)) rfl
  by_cases hc : Config.bufCap < s.rxlen.toNat + bs.length
  · rw [if_pos hc] at e1 e2
    exact ⟨by rw [e1]; trivial, fun a => by rw [e1, e2]; exact .inr ⟨rfl, a⟩⟩
  · rw [if_neg hc] at e1 e2
    exact ⟨by rw [e1]; exact g, fun a => by rw [e1, e2]; exact .inr ⟨rfl, a⟩⟩

theorem store_twins (p : List Byte) : Twin h k (store p) :=
  .bind (rxAppend_twins p) fun _ => .modify (fun _ => rfl) (fun _ => rfl) (fun _ => rfl) (fun _ => rfl)

/-! ### Frames -/

theorem getByte_twins (hr : h.act = .reset n) (src : Source) (dl : Deadline) : Twin h k (getByte src dl) := by
  cases src with
  | channel => exact chRecv_twins hr dl
  | buffer => exact .get (fun _ => rfl) fun _ => .ite (.bind (.mark _) fun _ => .pure _) (.pure _)

theorem setSkip_twins (x : Nat) : Twin h k (setSkip x) :=
  .modify (fun _ => rfl) (fun _ => rfl) (fun _ => rfl) (fun _ => rfl)

theorem setDiag_twins (d : Diag) : Twin h k (setDiag d) :=
  .modify (fun _ => rfl) (fun _ => rfl) (fun _ => rfl) (fun _ => rfl)

theorem setLast_twins (b : Byte) : Twin h k (setLast b) :=
  .modify (fun _ => rfl) (fun _ => rfl) (fun _ => rfl) (fun _ => rfl)

theorem hunt_twins (hr : h.act = .reset n) (src : Source) (m : Byte) (dl : Deadline) (allowed skipped : Nat)
    (first : Bool) : Twin h k (hunt src m dl allowed skipped first) := by
  induction allowed generalizing skipped first with
  | zero =>
    unfold hunt
    refine .bind (.mark _) fun _ => .bind (getByte_twins hr src dl) fun r => ?_
    cases r with
    | none => exact .bind (setSkip_twins _) fun _ => .pure _
    | some b =>
      exact .ite (.bind (setSkip_twins _) fun _ => .pure _) (.ite (.bind (setSkip_twins _) fun _ => .pure _)
        (.bind (setSkip_twins _) fun _ => .pure _))
  | succ a ih =>
    unfold hunt
    refine .bind (.mark _) fun _ => .bind (getByte_twins hr src dl) fun r => ?_
    cases r with
    | none => exact .bind (setSkip_twins _) fun _ => .pure _
    | some b =>
      exact .ite (.bind (setSkip_twins _) fun _ => .pure _) (.ite (.bind (setSkip_twins _) fun _ => .pure _) (ih _ _))

theorem lengthField_twins (hr : h.act = .reset n) (src : Source) (lenW : Bool) (dl : Deadline) :
    Twin h k (lengthField src lenW dl) := by
  refine .bind (getByte_twins hr src dl) fun r => ?_
  cases r with
  | none => exact .pure _
  | some b =>
    refine .ite (.bind (getByte_twins hr src dl) fun q => ?_) (.pure _)
    cases q <;> exact .pure _

theorem readUpTo_twins (hr : h.act = .reset n) (src : Source) (dl : Deadline) (c : Nat) :
    Twin h k (readUpTo src dl c) := by
  induction c with
  | zero => exact .pure _
  | succ c ih =>
    refine .bind (getByte_twins hr src dl) fun r => ?_
    cases r with
    | none => exact .pure _
    | some b => exact .bind ih fun _ => .pure _

theorem checkBody_twins (lb : List Byte) (c : Nat) (buf : List Byte) : Twin h k (checkBody lb c buf) :=
  .ite (.bind (setDiag_twins _) fun _ => .pure _) (.bind (setDiag_twins _) fun _ =>
    .ite (.pure _) (.ite (.pure _) (.bind (setLast_twins _) fun _ => .pure _)))

theorem decodeFrame_twins (hr : h.act = .reset n) (src : Source) (m : Byte) (hdl : Deadline) :
    Twin h k (decodeFrame src m hdl) := by
  refine .bind (hunt_twins hr src m hdl _ _ _) fun r => ?_
  cases r with
  | some e => exact .pure _
  | none =>
    refine .get (fun _ => rfl) fun s => .bind (frameDeadline_twins _) fun _ => .bind (lengthField_twins hr src _ _) fun q => ?_
    cases q with
    | none => exact .pure _
    | some x => exact .bind (frameDeadline_twins _) fun _ => .bind (readUpTo_twins hr src _ _) fun _ => checkBody_twins _ _ _

theorem sendCmd_twins (hr : h.act = .reset n) (opc : Byte) (args : List Byte) : Twin h k (sendCmd opc args) :=
  .get (fun _ => rfl) fun _ => chSend_twins hr _

theorem sendData_twins (hr : h.act = .reset n) (p : List Byte) : Twin h k (sendData p) :=
  .get (fun _ => rfl) fun _ => chSend_twins hr _

theorem pollRequest_twins (hr : h.act = .reset n) (a : Nat) : Twin h k (pollRequest a) :=
  .get (fun _ => rfl) fun _ => .ite (sendCmd_twins hr _ _) (.pure _)

theorem recvLoop_twins (hr : h.act = .reset n) (m : Byte) (dl : Deadline) (bound a : Nat) :
    Twin h k (recvLoop m dl bound a) := by
  induction bound generalizing a with
  | zero => exact .endless
  | succ b ih =>
    refine .bind (.mark _) fun _ => .bind (pollRequest_twins hr a) fun _ => .bind (decodeFrame_twins hr _ m dl) fun r => ?_
    cases r with
    | ok p => exact .pure _
    | error e => exact .get (fun _ => rfl) fun _ => .ite (.raise _) (ih _)

theorem recvUntil_twins (hr : h.act = .reset n) (m : Byte) (dl : Deadline) : Twin h k (recvUntil m dl) :=
  .bind (.mark _) fun _ => .get (fun _ => rfl) fun _ => recvLoop_twins hr m dl _ _

theorem recvFrame_twins (hr : h.act = .reset n) (m : Byte) : Twin h k (recvFrame m) :=
  .get (fun _ => rfl) fun _ => recvUntil_twins hr m _

/-! ### The ops -/

theorem runTrain_twins (hr : h.act = .reset n) (es : List Word) (i : Nat) : Twin h k (runTrain i es) := by
  induction es generalizing i with
  | nil => exact .pure _
  | cons e es ih =>
    exact .bind (.mark _) fun _ => .ite (.pure _) (.bind (pinSet_twins hr _ _) fun _ => .bind (wait_twins hr _) fun _ => ih _)

theorem pulseLoop_twins (hr : h.act = .reset n) (d c : Nat) : Twin h k (pulseLoop d c) := by
  induction c with
  | zero => exact .pure _
  | succ c ih =>
    exact .bind (.mark _) fun _ => .bind (pinSet_twins hr _ _) fun _ => .bind (wait_twins hr _) fun _ =>
      .bind (pinSet_twins hr _ _) fun _ => .bind (wait_twins hr _) fun _ => ih

theorem pulsePart_twins (hr : h.act = .reset n) (p : Profile) : Twin h k (pulsePart p) :=
  .bind (pinSet_twins hr _ _) fun _ => .bind (wait_twins hr _) fun _ => .bind (pulseLoop_twins hr _ _) fun _ =>
    .bind (pinSet_twins hr _ _) fun _ => wait_twins hr _

theorem paddingLoop_twins (hr : h.act = .reset n) (d : Word) (c : Nat) : Twin h k (paddingLoop d c) := by
  induction c with
  | zero => exact .pure _
  | succ c ih =>
    exact .bind (.mark _) fun _ => .bind (chSend_twins hr _) fun _ => .bind (waitDeadline_twins _) fun _ =>
      .bind (chRecv_twins hr _) fun _ => .ite (.pure _) ih

theorem zeroLoop_twins (hr : h.act = .reset n) (d c : Nat) : Twin h k (zeroLoop d c) := by
  induction c with
  | zero => exact .pure _
  | succ c ih =>
    exact .bind (.mark _) fun _ => .bind (chSend_twins hr _) fun _ => .bind (wait_twins hr _) fun _ => ih

theorem entrySequence_twins (hr : h.act = .reset n) (p : Profile) : Twin h k (entrySequence p) := by
  have reply : ∀ (d : Word) (f : Option Byte → Bool), Twin h k (do
      let dl ← waitDeadline d
      let r ← chRecv dl
      Pure.pure (f r) : Ctl Bool) := fun d f =>
    .bind (waitDeadline_twins _) fun _ => .bind (chRecv_twins hr _) fun _ => .pure _
  unfold entrySequence
  split
  · exact .bind (pulsePart_twins hr p) fun _ => .ite (.pure _) (.bind (chSend_twins hr _) fun _ => .pure _)
  · exact .bind (pulsePart_twins hr p) fun _ => .bind (paddingLoop_twins hr _ _) fun _ =>
      .ite (.bind (chSend_twins hr _) fun _ => reply _ _) (.pure _)
  · exact .bind (pinSet_twins hr _ _) fun _ => .bind (runTrain_twins hr _ _) fun _ => .bind (pinSet_twins hr _ _) fun _ =>
      .bind (reconfigure_twins hr _) fun _ => reply _ _
  · exact .bind (runTrain_twins hr _ _) fun _ => .bind (zeroLoop_twins hr _ _) fun _ => .bind (chSend_twins hr _) fun _ =>
      reply _ _

theorem deliver_twins (r : Except Err (List Byte)) : Twin h k (deliver r) := by
  cases r with
  | error e => exact .raise e
  | ok p => exact .bind (store_twins p) fun _ => .get (fun _ => rfl) fun _ => setAckok_twins _

theorem rawRecvLoop_twins (hr : h.act = .reset n) (dl : Deadline) (c : Nat) : Twin h k (rawRecvLoop dl c) := by
  induction c with
  | zero => exact .pure _
  | succ c ih =>
    refine .bind (chRecv_twins hr dl) fun r => ?_
    cases r with
    | none => exact .raise _
    | some b => exact .bind (.modify (fun _ => rfl) (fun _ => rfl) (fun _ => rfl) (fun _ => rfl)) fun _ => ih

theorem readLoop_twins (hr : h.act = .reset n) (c bound : Nat) : Twin h k (readLoop c bound) := by
  induction bound with
  | zero => exact .get (fun _ => rfl) fun _ => .ite .endless (.pure _)
  | succ b ih =>
    exact .get (fun _ => rfl) fun _ => .ite (.bind (.mark _) fun _ => .bind (sendData_twins hr _) fun _ =>
      .bind (recvFrame_twins hr _) fun _ => .bind (store_twins _) fun _ => ih) (.pure _)

theorem transfer_twins (hr : h.act = .reset n) (opc : Byte) : Twin h k (transfer opc) :=
  .get (fun _ => rfl) fun _ => .bind (sendCmd_twins hr _ _) fun _ => .bind (recvFrame_twins hr _) fun _ =>
    .ite (.bind (sendData_twins hr _) fun _ => .bind (recvFrame_twins hr _) fun _ => .bind (store_twins _) fun _ =>
      setAckok_twins _) (.raise _)

theorem windowLoop_twins (hr : h.act = .reset n) (e more w : Nat) : Twin h k (windowLoop e more w) := by
  induction more generalizing w with
  | zero =>
    exact .bind (.mark _) fun _ => .get (fun _ => rfl) fun _ => .bind (sendCmd_twins hr _ _) fun _ =>
      .bind (recvFrame_twins hr _) fun _ => .bind (store_twins _) fun _ => .pure _
  | succ m ih =>
    exact .bind (.mark _) fun _ => .get (fun _ => rfl) fun _ => .bind (sendCmd_twins hr _ _) fun _ =>
      .bind (recvFrame_twins hr _) fun _ => .bind (store_twins _) fun _ => ih _

theorem respLoop_twins (hr : h.act = .reset n) (chk : Bool) (c : Nat) (first : Bool) :
    Twin h k (respLoop chk c first) := by
  induction c generalizing first with
  | zero => exact .pure _
  | succ c ih =>
    exact .get (fun _ => rfl) fun _ => .bind (recvFrame_twins hr _) fun _ => .bind (store_twins _) fun _ =>
      .ite (.get (fun _ => rfl) fun _ => .bind (setAckok_twins _) fun _ => .ite (.raise _) (ih _)) (ih _)

theorem exchange_twins (hr : h.act = .reset n) (opc : Byte) (x : Bool) (nresp : BitVec 3) (chk : Bool) :
    Twin h k (exchange opc x nresp chk) :=
  .get (fun _ => rfl) fun _ => .bind (chSend_twins hr _) fun _ => respLoop_twins hr _ _ _

end Primitives

/-! ### Every instruction -/

/-- An instruction is its checks, its row of the state table and a pseudocode that h can cut short. -/
theorem exec_twins {n : Nat} (hr : h.act = .reset n) (k : List HostInput) (i : Instr) : ∃ body : Ctl Unit,
    (∀ s, exec i s = command (i.gate s) i.writesRx i.phase body s) ∧ Twin h k body := by
  cases i with
  | sendFrame m f b => exact ⟨_, fun _ => rfl, .get (fun _ => rfl) fun _ => chSend_twins hr _⟩
  | recvFrame m =>
    exact ⟨_, fun _ => rfl, .get (fun _ => rfl) fun _ => .bind (.mark _) fun _ => .bind (decodeFrame_twins hr _ _ _) fun _ =>
      deliver_twins _⟩
  | recv m =>
    exact ⟨_, fun _ => rfl, .get (fun _ => rfl) fun _ => .bind (recvUntil_twins hr _ _) fun _ => .bind (store_twins _) fun _ =>
      .get (fun _ => rfl) fun _ => setAckok_twins _⟩
  | encode m f b => exact ⟨_, fun _ => rfl, .get (fun _ => rfl) fun _ => rxAppend_twins _⟩
  | decode m =>
    exact ⟨_, fun _ => rfl, .get (fun _ => rfl) fun _ => .bind (.mark _) fun _ => .bind (decodeFrame_twins hr _ _ _) fun _ =>
      deliver_twins _⟩
  | rawSend => exact ⟨_, fun _ => rfl, .get (fun _ => rfl) fun _ => chSend_twins hr _⟩
  | rawRecv => exact ⟨_, fun _ => rfl, .get (fun _ => rfl) fun _ => .bind (.mark _) fun _ => rawRecvLoop_twins hr _ _⟩
  | entry =>
    exact ⟨_, fun _ => rfl, .get (fun _ => rfl) fun _ => .bind (entrySequence_twins hr _) fun _ => .ite (.pure _) (.raise _)⟩
  | pin p v => exact ⟨_, fun _ => rfl, pinSet_twins hr _ _⟩
  | delay => exact ⟨_, fun _ => rfl, .get (fun _ => rfl) fun _ => wait_twins hr _⟩
  | baud => exact ⟨_, fun _ => rfl, .get (fun _ => rfl) fun _ => reconfigure_twins hr _⟩
  | unlock => exact ⟨_, fun _ => rfl, .get (fun _ => rfl) fun _ => chSend_twins hr _⟩
  | reset =>
    exact ⟨_, fun _ => rfl, .get (fun _ => rfl) fun _ => .bind (entrySequence_twins hr _) fun _ => .ite (.raise _)
      (.ite (chSend_twins hr _) (.bind (sendCmd_twins hr _ _) fun _ => .bind (recvFrame_twins hr _) fun _ =>
        .bind (store_twins _) fun _ => .bind (setAckok_twins _) fun _ => .ite (.pure _) (.raise _)))⟩
  | read =>
    exact ⟨_, fun _ => rfl, .get (fun _ => rfl) fun _ => .bind (.mark _) fun _ => .bind (sendCmd_twins hr _ _) fun _ =>
      .bind (recvFrame_twins hr _) fun _ => .ite (.bind (setAckok_twins _) fun _ => readLoop_twins hr _ _) (.raise _)⟩
  | program => exact ⟨_, fun _ => rfl, .get (fun _ => rfl) fun _ => transfer_twins hr _⟩
  | verify => exact ⟨_, fun _ => rfl, .get (fun _ => rfl) fun _ => .ite (.pure _) (transfer_twins hr _)⟩
  | blockErase =>
    exact ⟨_, fun _ => rfl, .get (fun _ => rfl) fun _ => .bind (sendCmd_twins hr _ _) fun _ =>
      .bind (recvFrame_twins hr _) fun _ => .bind (store_twins _) fun _ => .ite (.bind (recvFrame_twins hr _) fun _ =>
        .bind (store_twins _) fun _ => .ite (setAckok_twins _) (.raise _)) (.raise _)⟩
  | checksum =>
    exact ⟨_, fun _ => rfl, .get (fun _ => rfl) fun _ => .bind (sendCmd_twins hr _ _) fun _ =>
      .bind (recvFrame_twins hr _) fun _ => store_twins _⟩
  | checksums => exact ⟨_, fun _ => rfl, .get (fun _ => rfl) fun _ => windowLoop_twins hr _ _ _⟩
  | rawCmd imm n c b => exact ⟨_, fun _ => rfl, exchange_twins hr _ _ _ _⟩
  | endSession => exact ⟨_, fun _ => rfl, .pure _⟩
  | _ => exact ⟨_, fun _ => rfl, .get (fun _ => rfl) fun _ => exchange_twins hr _ _ _ _⟩

/-- A command whose checks pass, and which would bring the time past a reset once every host action before it is served, is
ended by that reset. -/
theorem exec_cutShort {n : Nat} (hr : h.act = .reset n) (k : List HostInput) (i : Instr) {s t : State} (hl : Live s)
    (he : exec i s = .next t) (hg : (i.gate s).refusal = none) (hh : t.host = []) (ht : h.tick < t.time) :
    ∃ u d, exec i (s.andThen (h :: k)) = .next (State.blockReset u d) := by
  obtain ⟨body, hb, tw⟩ := exec_twins hr k i
  have hgate : i.gate (s.andThen (h :: k)) = i.gate s := by cases i <;> rfl
  have hbegin : (s.andThen (h :: k)).begin i.writesRx i.phase = (s.begin i.writesRx i.phase).andThen (h :: k) := by
    unfold State.begin
    split <;> rfl
  have hlb : Live (s.begin i.writesRx i.phase) := hl.begin _ _
  have run : TwinAt h k True (runBody body) (s.begin i.writesRx i.phase) := (wait_twin hr True 0 hlb).bind fun _ => tw
  obtain ⟨live, twin⟩ := run
  rw [hb] at he ⊢
  unfold command at he ⊢
  rw [hgate, hbegin, hg]
  rw [hg] at he
  rcases twin trivial with ⟨u, d, e⟩ | twin
  · exact ⟨u, d, by rw [e]⟩
  · revert twin he live
    cases runBody body (s.begin i.writesRx i.phase) with
    | ok a u =>
      rintro he - ⟨-, g⟩
      cases he
      exact absurd (g hh) (by show ¬ u.time ≤ h.tick; exact Nat.not_le.2 ht)
    | error e u =>
      cases e with
      | raised e =>
        rintro he - ⟨-, g⟩
        cases he
        exact absurd (g hh) (by show ¬ u.time ≤ h.tick; exact Nat.not_le.2 ht)
      | blockReset => exact fun _ live _ => live.elim
      | endless => exact fun he _ _ => by cases he

end Sys2Proof.Machine
end

