-- ==== Sys2Proof/Laws/PerInstr.lean ====
section
/-! SUPPORT. Statements made of every instruction, one lemma per constructor. `TableRow`: the encoding of an instruction has
the bits that its row of spec/opcode_table.json fixes (mask and match), whatever its operands. -/

namespace Sys2Proof.Laws

/-- The mask and match of an instruction's row of spec/opcode_table.json. -/
def TableRow.row : Instr → Word × Word
  | .sendFrame _ _ _ => (0xFF8FFFFF, 0x00000001)
  | .recvFrame _ => (0xFFBFFFFF, 0x00000002)
  | .recv _ => (0xFFBFFFFF, 0x00000003)
  | .encode _ _ _ => (0xFF8FFFFF, 0x00000004)
  | .decode _ => (0xFFBFFFFF, 0x00000005)
  | .rawSend => (0xFFFFFFFF, 0x00000006)
  | .rawRecv => (0xFFFFFFFF, 0x00000007)
  | .entry => (0xFFFFFFFF, 0x00000010)
  | .pin _ _ => (0xFFFFF8FF, 0x00000011)
  | .delay => (0xFFFFFFFF, 0x00000012)
  | .baud => (0xFFFFFFFF, 0x00000013)
  | .unlock => (0xFFFFFFFF, 0x00000014)
  | .reset => (0xFFFFFFFF, 0x00000020)
  | .read => (0xFFFFFFFF, 0x00000021)
  | .program => (0xFFFFFFFF, 0x00000022)
  | .verify => (0xFFFFFFFF, 0x00000023)
  | .blockErase => (0xFFFFFFFF, 0x00000024)
  | .checksum => (0xFFFFFFFF, 0x00000025)
  | .checksums => (0xFFFFFFFF, 0x00000026)
  | .chipErase _ _ => (0xFFF0FFFF, 0x00000027)
  | .secSet _ _ => (0xFFF0FFFF, 0x00000028)
  | .secGet _ _ => (0xFFF0FFFF, 0x00000029)
  | .secRelease _ _ => (0xFFF0FFFF, 0x0000002A)
  | .signature _ _ => (0xFFF0FFFF, 0x0000002B)
  | .optRead _ _ => (0xFFF0FFFF, 0x0000002C)
  | .optWrite _ _ => (0xFFF0FFFF, 0x0000002D)
  | .status _ _ => (0xFFF0FFFF, 0x0000002E)
  | .rawCmd _ _ _ _ => (0xFFE000FF, 0x0000002F)
  | .endSession => (0xFFFFFFFF, 0x00000030)

/-- The instruction's word matches its row. -/
def TableRow.Statement (i : Instr) : Prop := Sys2Proof.encode i &&& (TableRow.row i).1 = (TableRow.row i).2

theorem TableRow.sendFrame (msel : Bool) (ftr : Bool) (fbc : Bool) : TableRow.Statement (.sendFrame msel ftr fbc) := by
  cases msel <;> cases ftr <;> cases fbc <;> rfl

theorem TableRow.recvFrame (msel : Bool) : TableRow.Statement (.recvFrame msel) := by
  cases msel <;> rfl

theorem TableRow.recv (msel : Bool) : TableRow.Statement (.recv msel) := by
  cases msel <;> rfl

theorem TableRow.encode (msel : Bool) (ftr : Bool) (fbc : Bool) : TableRow.Statement (.encode msel ftr fbc) := by
  cases msel <;> cases ftr <;> cases fbc <;> rfl

theorem TableRow.decode (msel : Bool) : TableRow.Statement (.decode msel) := by
  cases msel <;> rfl

theorem TableRow.rawSend : TableRow.Statement (.rawSend) := rfl

theorem TableRow.rawRecv : TableRow.Statement (.rawRecv) := rfl

theorem TableRow.entry : TableRow.Statement (.entry) := rfl

theorem TableRow.pin (p : Pin) (lvl : Bool) : TableRow.Statement (.pin p lvl) := by
  cases p <;> cases lvl <;> rfl

theorem TableRow.delay : TableRow.Statement (.delay) := rfl

theorem TableRow.baud : TableRow.Statement (.baud) := rfl

theorem TableRow.unlock : TableRow.Statement (.unlock) := rfl

theorem TableRow.reset : TableRow.Statement (.reset) := rfl

theorem TableRow.read : TableRow.Statement (.read) := rfl

theorem TableRow.program : TableRow.Statement (.program) := rfl

theorem TableRow.verify : TableRow.Statement (.verify) := rfl

theorem TableRow.blockErase : TableRow.Statement (.blockErase) := rfl

theorem TableRow.checksum : TableRow.Statement (.checksum) := rfl

theorem TableRow.checksums : TableRow.Statement (.checksums) := rfl

theorem TableRow.chipErase (n : BitVec 3) (c : Bool) : TableRow.Statement (.chipErase n c) := by
  have h : ∀ (n : BitVec 3) (c : Bool), Sys2Proof.encode (Instr.chipErase n c) &&& 0xFFF0FFFF = (row (Instr.chipErase 0 false)).2 := by decide
  exact h n c

theorem TableRow.secSet (n : BitVec 3) (c : Bool) : TableRow.Statement (.secSet n c) := by
  have h : ∀ (n : BitVec 3) (c : Bool), Sys2Proof.encode (Instr.secSet n c) &&& 0xFFF0FFFF = (row (Instr.secSet 0 false)).2 := by decide
  exact h n c

theorem TableRow.secGet (n : BitVec 3) (c : Bool) : TableRow.Statement (.secGet n c) := by
  have h : ∀ (n : BitVec 3) (c : Bool), Sys2Proof.encode (Instr.secGet n c) &&& 0xFFF0FFFF = (row (Instr.secGet 0 false)).2 := by decide
  exact h n c

theorem TableRow.secRelease (n : BitVec 3) (c : Bool) : TableRow.Statement (.secRelease n c) := by
  have h : ∀ (n : BitVec 3) (c : Bool), Sys2Proof.encode (Instr.secRelease n c) &&& 0xFFF0FFFF = (row (Instr.secRelease 0 false)).2 := by decide
  exact h n c

theorem TableRow.signature (n : BitVec 3) (c : Bool) : TableRow.Statement (.signature n c) := by
  have h : ∀ (n : BitVec 3) (c : Bool), Sys2Proof.encode (Instr.signature n c) &&& 0xFFF0FFFF = (row (Instr.signature 0 false)).2 := by decide
  exact h n c

theorem TableRow.optRead (n : BitVec 3) (c : Bool) : TableRow.Statement (.optRead n c) := by
  have h : ∀ (n : BitVec 3) (c : Bool), Sys2Proof.encode (Instr.optRead n c) &&& 0xFFF0FFFF = (row (Instr.optRead 0 false)).2 := by decide
  exact h n c

theorem TableRow.optWrite (n : BitVec 3) (c : Bool) : TableRow.Statement (.optWrite n c) := by
  have h : ∀ (n : BitVec 3) (c : Bool), Sys2Proof.encode (Instr.optWrite n c) &&& 0xFFF0FFFF = (row (Instr.optWrite 0 false)).2 := by decide
  exact h n c

theorem TableRow.status (n : BitVec 3) (c : Bool) : TableRow.Statement (.status n c) := by
  have h : ∀ (n : BitVec 3) (c : Bool), Sys2Proof.encode (Instr.status n c) &&& 0xFFF0FFFF = (row (Instr.status 0 false)).2 := by decide
  exact h n c

theorem TableRow.endSession : TableRow.Statement (.endSession) := rfl

theorem TableRow.rawCmd (imm : Byte) (n : BitVec 3) (c b : Bool) : TableRow.Statement (.rawCmd imm n c b) := by
  apply BitVec.eq_of_getLsbD_eq
  intro i hi
  rw [BitVec.getLsbD_and, Sys2Proof.encode, Fields.toWord_getLsbD]
  interval_cases i <;> simp [encodeFields, Fields.plainOf, Instr.opNumber, row]

end Sys2Proof.Laws
end

