-- ==== Sys2Proof/Laws/Receive.lean ====
section
/-! SUPPORT. Decoding bytes that are there: the hunt, the length field, the body and the checks of 40_codec.md R410 on a
source that holds the bytes, for the channel and for TXBUF alike; then the receive with retry at its first attempt. -/

namespace Sys2Proof.Machine

/-! ### A source that holds bytes -/

/-- The source holds these bytes next: in the stream, delivered, with `rest` after them, or in TXBUF from the read index on,
with `after` after them. Of a stream it also says that the draws to come do not lead past the time `cap`. -/
def Feeds (src : Source) (rest : List RxByte) (cap : Nat) (after : List Byte) (s : State) (bs : List Byte) : Prop :=
  match src with
  | .channel => Queued s bs rest ∧ s.horizon ≤ cap
  | .buffer => s.txPayload.drop s.hid.txIndex = bs ++ after

theorem txPayload_congr {s t : State} (h1 : t.txlen = s.txlen) (h2 : t.mem = s.mem) (h3 : t.epoch = s.epoch) :
    t.txPayload = s.txPayload := by
  unfold State.txPayload State.txByte
  rw [h1]
  exact List.map_congr_left fun i _ => State.byteAt_congr h2 h3 _

theorem Feeds.congr {src : Source} {rest : List RxByte} {cap : Nat} {after bs : List Byte} {s t : State} (h : Feeds src rest cap after s bs)
    (h1 : t.rx = s.rx) (h2 : t.time = s.time) (h3 : t.hid.txIndex = s.hid.txIndex) (h4 : t.txlen = s.txlen)
    (h5 : t.mem = s.mem) (h6 : t.epoch = s.epoch) (h7 : t.lags = s.lags) : Feeds src rest cap after t bs := by
  cases src with
  | channel =>
    refine ⟨Queued.later h.1 h1 h2.ge, ?_⟩
    rw [State.horizon, h2, h7]
    exact h.2
  | buffer =>
    show t.txPayload.drop t.hid.txIndex = _
    rw [txPayload_congr h4 h5 h6, h3]
    exact h

/-- What a decode may change: it reads and writes the diagnostics. -/
abbrev Decoding : Allow := { read := true, decode := true }

theorem bufferByte_some {s : State} {b : Byte} {bs : List Byte} (h : s.txPayload.drop s.hid.txIndex = b :: bs) :
    bufferByte s = .ok (some b) { s with hid := { s.hid with txIndex := s.hid.txIndex + 1 } } ∧
      s.txPayload.drop (s.hid.txIndex + 1) = bs := by
  have hlen : s.txPayload.length = s.txlen.toNat := by simp [State.txPayload]
  have hlt : s.hid.txIndex < s.txlen.toNat := by
    by_contra hc
    rw [List.drop_eq_nil_of_le (by omega)] at h
    cases h
  constructor
  · unfold bufferByte
    rw [Ctl.bind_apply, Ctl.get_apply]
    dsimp only
    rw [if_pos hlt, Ctl.bind_apply, mark_apply]
    show EStateM.Result.ok (some (s.txByte s.hid.txIndex)) _ = _
    have : s.txPayload[s.hid.txIndex]? = some b := by
      rw [← List.head?_drop, h]
      rfl
    rw [State.txPayload, List.getElem?_map, List.getElem?_range hlt] at this
    rw [Option.map_some] at this
    rw [this]
  · rw [← List.tail_drop, h]
    rfl

theorem bufferByte_none {s : State} (h : s.txPayload.drop s.hid.txIndex = []) : bufferByte s = .ok none s := by
  have hlen : s.txPayload.length = s.txlen.toNat := by simp [State.txPayload]
  have : s.txPayload.length ≤ s.hid.txIndex := by
    have := congrArg List.length h
    simp only [List.length_drop, List.length_nil] at this
    omega
  unfold bufferByte
  rw [Ctl.bind_apply, Ctl.get_apply]
  dsimp only
  rw [if_neg (by omega)]
  rfl

/-- The next byte of a source that holds one. -/
theorem getByte_feeds {src : Source} {rest : List RxByte} {cap : Nat} {after : List Byte} {s : State} {b : Byte} {bs : List Byte}
    (dl : Deadline) (h : Live s) (hf : Feeds src rest cap after s (b :: bs)) :
    ∃ t, getByte src dl s = .ok (some b) t ∧ OpStep Decoding s t ∧ Feeds src rest cap after t bs ∧ SameDiag s t := by
  cases src with
  | channel =>
    obtain ⟨t, h1, o, q, -, hz⟩ := chRecv_queued dl h hf.1
    exact ⟨t, h1, o.widen rfl, ⟨q, hz ▸ hf.2⟩, o.decode rfl⟩
  | buffer =>
    obtain ⟨h1, h2⟩ := bufferByte_some (s := s) hf
    exact ⟨_, h1, OpStep.hidStep _ s _ rfl rfl, h2, ⟨rfl, rfl, rfl⟩⟩

/-- The source has no byte: TXBUF is at its end, or the stream is empty. -/
def Dry (src : Source) (s : State) : Prop :=
  match src with
  | .channel => s.rx = []
  | .buffer => s.txPayload.drop s.hid.txIndex = []

theorem Feeds.dry {src : Source} {cap : Nat} {s : State} (h : Feeds src [] cap [] s []) : Dry src s := by
  cases src with
  | channel => exact Queued.nil.1 h.1
  | buffer => exact h

theorem getByte_dry {src : Source} {s : State} (dl : Deadline) (h : Live s) (hd : Dry src s) :
    ∃ t, getByte src dl s = .ok none t ∧ OpStep Decoding s t ∧ Dry src t ∧ SameDiag s t ∧
      (src = .channel → t.time = s.time + s.left dl + s.lags.headD 0 ∧ t.lags = s.lags.tail) := by
  cases src with
  | channel =>
    obtain ⟨t, h1, o, ht, hl, -⟩ := chRecv_empty dl h hd
    exact ⟨t, h1, o.widen rfl, (o.unread rfl).1.trans hd, o.decode rfl, fun _ => ⟨ht, hl⟩⟩
  | buffer =>
    exact ⟨s, bufferByte_none hd, OpStep.refl _ s, hd, SameDiag.refl s, fun h => nomatch h⟩

/-! ### The hunt (R410 step 1) -/

theorem mark_step (a : Allow) (s : State) (f : Hidden → Hidden) (h1 : (f s.hid).tsnap = s.hid.tsnap)
    (h2 : (f s.hid).tacc = s.hid.tacc) : OpStep a s { s with hid := f s.hid } := OpStep.hidStep a s _ h1 h2

theorem setSkip_step (s : State) (n : Nat) (hn : n ≤ 257) :
    OpStep Decoding s { s with skipcnt := BitVec.ofNat 9 n } := (OpStep.allowsDecode rfl).skip s n hn

/-- What a hunt leaves in the diagnostics: SKIPCNT, and nothing else (R411). -/
structure Skipped (s t : State) (n : Nat) : Prop where
  skipcnt : t.skipcnt = BitVec.ofNat 9 n
  diag : t.diag = s.diag
  lastst : t.lastst = s.lastst

/-- The hunt over junk of which no byte is the marker, up to the marker. -/
theorem hunt_found {src : Source} {rest : List RxByte} {cap : Nat} {after : List Byte} (m : Byte) (dl : Deadline) (junk bs : List Byte)
    (allowed skipped : Nat) (first : Bool) {s : State} (h : Live s) (hf : Feeds src rest cap after s (junk ++ m :: bs))
    (hj : ∀ b ∈ junk, b ≠ m) (h0 : first = true → junk.head? ≠ some 0) (hl : junk.length ≤ allowed)
    (hc : skipped + junk.length ≤ 257) :
    ∃ t, hunt src m dl allowed skipped first s = .ok none t ∧ OpStep Decoding s t ∧ Feeds src rest cap after t bs ∧
      Skipped s t (skipped + junk.length) := by
  induction junk generalizing allowed skipped first s with
  | nil =>
    have o0 := mark_step Decoding s (fun h => { h with skipped := skipped, first := first }) rfl rfl
    have hf0 : Feeds src rest cap after { s with hid := { s.hid with skipped := skipped, first := first } } (m :: bs) :=
      hf.congr rfl rfl rfl rfl rfl rfl rfl
    obtain ⟨t, h1, o, f, d⟩ := getByte_feeds dl (o0.live h) hf0
    refine ⟨{ t with skipcnt := BitVec.ofNat 9 skipped }, ?_, (o0.trans o).trans (setSkip_step t skipped (by simpa using hc)),
      f.congr rfl rfl rfl rfl rfl rfl rfl, rfl, d.diag, d.lastst⟩
    unfold hunt
    rw [Ctl.bind_apply, mark_apply]
    dsimp only
    rw [Ctl.bind_apply, h1]
    dsimp only
    rw [if_pos rfl]
    rfl
  | cons b junk ih =>
    have o0 := mark_step Decoding s (fun h => { h with skipped := skipped, first := first }) rfl rfl
    have hf0 : Feeds src rest cap after { s with hid := { s.hid with skipped := skipped, first := first } }
        (b :: (junk ++ m :: bs)) := hf.congr rfl rfl rfl rfl rfl rfl rfl
    obtain ⟨t, h1, o, f, d⟩ := getByte_feeds dl (o0.live h) hf0
    have hb : b ≠ m := hj b (by simp)
    have hz : ¬ (first && b == 0) = true := by
      intro e
      simp only [Bool.and_eq_true, beq_iff_eq] at e
      exact h0 e.1 (by rw [e.2]; rfl)
    cases allowed with
    | zero => simp at hl
    | succ k =>
      simp only [List.length_cons] at hl hc ⊢
      obtain ⟨u, h2, o2, f2, ⟨s2, d2, l2⟩⟩ := ih k (skipped + 1) false (o.live (o0.live h)) f
        (fun x hx => hj x (by simp [hx])) (by simp) (by omega) (by omega)
      refine ⟨u, ?_, (o0.trans o).trans o2, f2, ?_, d2.trans d.diag, l2.trans d.lastst⟩
      · unfold hunt
        rw [Ctl.bind_apply, mark_apply]
        dsimp only
        rw [Ctl.bind_apply, h1]
        dsimp only
        rw [if_neg hb, if_neg hz]
        exact h2
      · rw [s2, Nat.add_assoc, Nat.add_comm 1]

/-- The hunt fails on a first byte 0x00 that is not the marker. -/
theorem hunt_silence {src : Source} {rest : List RxByte} {cap : Nat} {after : List Byte} (m : Byte) (dl : Deadline) (bs : List Byte)
    (allowed skipped : Nat) {s : State} (h : Live s) (hf : Feeds src rest cap after s (0 :: bs)) (hm : m ≠ 0)
    (hc : skipped ≤ 257) :
    ∃ t, hunt src m dl allowed skipped true s = .ok (some .noResponse) t ∧ OpStep Decoding s t ∧
      Feeds src rest cap after t bs ∧ Skipped s t skipped := by
  have o0 := mark_step Decoding s (fun h => { h with skipped := skipped, first := true }) rfl rfl
  have hf0 : Feeds src rest cap after { s with hid := { s.hid with skipped := skipped, first := true } } (0 :: bs) :=
    hf.congr rfl rfl rfl rfl rfl rfl rfl
  obtain ⟨t, h1, o, f, d⟩ := getByte_feeds dl (o0.live h) hf0
  refine ⟨{ t with skipcnt := BitVec.ofNat 9 skipped }, ?_, (o0.trans o).trans (setSkip_step t skipped hc),
    f.congr rfl rfl rfl rfl rfl rfl rfl, rfl, d.diag, d.lastst⟩
  unfold hunt
  rw [Ctl.bind_apply, mark_apply]
  dsimp only
  rw [Ctl.bind_apply, h1]
  dsimp only
  rw [if_neg (Ne.symm hm), if_pos (show (true && (0 : Byte) == 0) = true from rfl)]
  rfl

/-- The hunt fails when the source runs dry before the marker. -/
theorem hunt_dry {src : Source} {cap : Nat} (m : Byte) (dl : Deadline) (junk : List Byte) (allowed skipped : Nat) (first : Bool)
    {s : State} (h : Live s) (hf : Feeds src [] cap [] s junk) (hj : ∀ b ∈ junk, b ≠ m)
    (h0 : first = true → junk.head? ≠ some 0) (hl : junk.length ≤ allowed) (hc : skipped + junk.length ≤ 257) :
    ∃ t, hunt src m dl allowed skipped first s = .ok (some .noResponse) t ∧ OpStep Decoding s t ∧ Dry src t ∧
      Skipped s t (skipped + junk.length) ∧ (junk = [] → src = .channel → t.time = s.time + s.left dl + s.lags.headD 0 ∧ t.lags = s.lags.tail) := by
  induction junk generalizing allowed skipped first s with
  | nil =>
    have o0 := mark_step Decoding s (fun h => { h with skipped := skipped, first := first }) rfl rfl
    have hd0 : Dry src { s with hid := { s.hid with skipped := skipped, first := first } } :=
      (hf.congr rfl rfl rfl rfl rfl rfl rfl).dry
    obtain ⟨t, h1, o, d, sd, tm⟩ := getByte_dry dl (o0.live h) hd0
    refine ⟨{ t with skipcnt := BitVec.ofNat 9 skipped }, ?_, (o0.trans o).trans (setSkip_step t skipped (by simpa using hc)),
      ?_, ⟨rfl, sd.diag, sd.lastst⟩, fun _ hs => tm hs⟩
    · unfold hunt
      rw [Ctl.bind_apply, mark_apply]
      dsimp only
      rw [Ctl.bind_apply, h1]
      rfl
    · cases src <;> exact d
  | cons b junk ih =>
    have o0 := mark_step Decoding s (fun h => { h with skipped := skipped, first := first }) rfl rfl
    have hf0 : Feeds src [] cap [] { s with hid := { s.hid with skipped := skipped, first := first } } (b :: junk) :=
      hf.congr rfl rfl rfl rfl rfl rfl rfl
    obtain ⟨t, h1, o, f, d⟩ := getByte_feeds dl (o0.live h) hf0
    have hb : b ≠ m := hj b (by simp)
    have hz : ¬ (first && b == 0) = true := by
      intro e
      simp only [Bool.and_eq_true, beq_iff_eq] at e
      exact h0 e.1 (by rw [e.2]; rfl)
    cases allowed with
    | zero => simp at hl
    | succ k =>
      simp only [List.length_cons] at hl hc
      obtain ⟨u, h2, o2, d2, sk, -⟩ := ih k (skipped + 1) false (o.live (o0.live h)) f
        (fun x hx => hj x (by simp [hx])) (by simp) (by omega) (by omega)
      refine ⟨u, ?_, (o0.trans o).trans o2, d2, ⟨?_, sk.diag.trans d.diag, sk.lastst.trans d.lastst⟩, fun e => by cases e⟩
      swap
      · rw [sk.skipcnt, List.length_cons, Nat.add_assoc, Nat.add_comm 1]
      unfold hunt
      rw [Ctl.bind_apply, mark_apply]
      dsimp only
      rw [Ctl.bind_apply, h1]
      dsimp only
      rw [if_neg hb, if_neg hz]
      exact h2

/-- The hunt fails when more bytes than it may discard are not the marker; it takes one more than it may. -/
theorem hunt_junk {src : Source} {rest : List RxByte} {cap : Nat} {after : List Byte} (m : Byte) (dl : Deadline) (junk bs : List Byte)
    (allowed skipped : Nat) (first : Bool) {s : State} (h : Live s) (hf : Feeds src rest cap after s (junk ++ bs))
    (hj : ∀ b ∈ junk, b ≠ m) (h0 : first = true → junk.head? ≠ some 0) (hl : junk.length = allowed + 1)
    (hc : skipped + allowed + 1 ≤ 257) :
    ∃ t, hunt src m dl allowed skipped first s = .ok (some .invalidHeader) t ∧ OpStep Decoding s t ∧
      Feeds src rest cap after t bs ∧ Skipped s t (skipped + junk.length) := by
  induction junk generalizing allowed skipped first s with
  | nil => simp at hl
  | cons b junk ih =>
    have o0 := mark_step Decoding s (fun h => { h with skipped := skipped, first := first }) rfl rfl
    have hf0 : Feeds src rest cap after { s with hid := { s.hid with skipped := skipped, first := first } } (b :: (junk ++ bs)) :=
      hf.congr rfl rfl rfl rfl rfl rfl rfl
    obtain ⟨t, h1, o, f, d⟩ := getByte_feeds dl (o0.live h) hf0
    have hb : b ≠ m := hj b (by simp)
    have hz : ¬ (first && b == 0) = true := by
      intro e
      simp only [Bool.and_eq_true, beq_iff_eq] at e
      exact h0 e.1 (by rw [e.2]; rfl)
    cases allowed with
    | zero =>
      refine ⟨{ t with skipcnt := BitVec.ofNat 9 (skipped + 1) }, ?_,
        (o0.trans o).trans (setSkip_step t (skipped + 1) (by omega)), ?_, ⟨?_, d.diag, d.lastst⟩⟩
      rotate_left
      · obtain rfl : junk = [] := List.length_eq_zero_iff.1 (by simpa using hl)
        exact f.congr rfl rfl rfl rfl rfl rfl rfl
      · rw [hl]
      unfold hunt
      rw [Ctl.bind_apply, mark_apply]
      dsimp only
      rw [Ctl.bind_apply, h1]
      dsimp only
      rw [if_neg hb, if_neg hz]
      rfl
    | succ k =>
      simp only [List.length_cons] at hl
      obtain ⟨u, h2, o2, f2, sk⟩ := ih k (skipped + 1) false (o.live (o0.live h)) f
        (fun x hx => hj x (by simp [hx])) (by simp) (by omega) (by omega)
      refine ⟨u, ?_, (o0.trans o).trans o2, f2, ⟨?_, sk.diag.trans d.diag, sk.lastst.trans d.lastst⟩⟩
      swap
      · rw [sk.skipcnt, List.length_cons, Nat.add_assoc, Nat.add_comm 1]
      unfold hunt
      rw [Ctl.bind_apply, mark_apply]
      dsimp only
      rw [Ctl.bind_apply, h1]
      dsimp only
      rw [if_neg hb, if_neg hz]
      exact h2

/-! ### The length field and the body (R410 steps 2 and 3) -/

theorem lengthField_feeds {src : Source} {rest : List RxByte} {cap : Nat} {after : List Byte} (lenW : Bool) (n : Nat) (bs : List Byte)
    (dl : Deadline) {s : State} (h : Live s) (hn : encodable lenW n = true)
    (hf : Feeds src rest cap after s (lenField lenW n ++ bs)) :
    ∃ t, lengthField src lenW dl s = .ok (some (lenField lenW n, n)) t ∧ OpStep Decoding s t ∧
      Feeds src rest cap after t bs ∧ SameDiag s t := by
  obtain ⟨h1, h2⟩ := (encodable_iff _ _).1 hn
  cases lenW with
  | false =>
    have hmax : n ≤ 256 := h2
    obtain ⟨t, ht, o, f, d⟩ := getByte_feeds (b := BitVec.ofNat 8 n) (bs := bs) dl h hf
    refine ⟨t, ?_, o, f, d⟩
    unfold lengthField
    rw [Ctl.bind_apply, ht]
    show EStateM.Result.ok _ t = _
    congr 2
    show ([BitVec.ofNat 8 n], _) = ([BitVec.ofNat 8 n], _)
    congr 1
    split
    · next hz =>
      have := congrArg BitVec.toNat hz
      simp at this
      omega
    · next hz =>
      have : ¬ n % 256 = 0 := fun e => hz (BitVec.eq_of_toNat_eq (by simpa using e))
      simp
      omega
  | true =>
    have hmax : n ≤ 65535 := h2
    have hf' : Feeds src rest cap after s (BitVec.ofNat 8 (n / 256 ^ 1) :: BitVec.ofNat 8 (n / 256 ^ 0) :: bs) := hf
    obtain ⟨t, ht, o, f, d⟩ := getByte_feeds dl h hf'
    obtain ⟨u, hu, o2, f2, d2⟩ := getByte_feeds dl (o.live h) f
    refine ⟨u, ?_, o.trans o2, f2, d.trans d2⟩
    unfold lengthField
    rw [Ctl.bind_apply, ht]
    dsimp only
    rw [if_pos rfl, Ctl.bind_apply, hu]
    show EStateM.Result.ok _ u = _
    have hv : 256 * (BitVec.ofNat 8 (n / 256 ^ 1)).toNat + (BitVec.ofNat 8 (n / 256 ^ 0)).toNat = n := by
      simp
      omega
    rw [hv, if_neg (by omega)]
    rfl

theorem readUpTo_feeds {src : Source} {rest : List RxByte} {cap : Nat} {after : List Byte} (dl : Deadline) (bs cs : List Byte)
    {s : State} (h : Live s) (hf : Feeds src rest cap after s (bs ++ cs)) :
    ∃ t, readUpTo src dl bs.length s = .ok bs t ∧ OpStep Decoding s t ∧ Feeds src rest cap after t cs ∧ SameDiag s t := by
  induction bs generalizing s with
  | nil => exact ⟨s, rfl, OpStep.refl _ s, hf, SameDiag.refl s⟩
  | cons b bs ih =>
    obtain ⟨t, h1, o, f, d⟩ := getByte_feeds dl h hf
    obtain ⟨u, h2, o2, f2, d2⟩ := ih (o.live h) f
    refine ⟨u, ?_, o.trans o2, f2, d.trans d2⟩
    show readUpTo src dl (bs.length + 1) s = _
    unfold readUpTo
    rw [Ctl.bind_apply, h1]
    dsimp only
    rw [Ctl.bind_apply, h2]
    rfl

/-- The body of a source that runs dry. -/
theorem readUpTo_dry {src : Source} {cap : Nat} (dl : Deadline) (n : Nat) (bs : List Byte) {s : State} (h : Live s)
    (hn : bs.length < n) (hf : Feeds src [] cap [] s bs) :
    ∃ t, readUpTo src dl n s = .ok bs t ∧ OpStep Decoding s t ∧ SameDiag s t := by
  induction bs generalizing s n with
  | nil =>
    obtain ⟨t, h1, o, -, d, -⟩ := getByte_dry dl h hf.dry
    cases n with
    | zero => simp at hn
    | succ n =>
      refine ⟨t, ?_, o, d⟩
      unfold readUpTo
      rw [Ctl.bind_apply, h1]
      rfl
  | cons b bs ih =>
    cases n with
    | zero => simp at hn
    | succ n =>
      obtain ⟨t, h1, o, f, d⟩ := getByte_feeds dl h hf
      obtain ⟨u, h2, o2, d2⟩ := ih n (o.live h) (by simpa using hn) f
      refine ⟨u, ?_, o.trans o2, d.trans d2⟩
      unfold readUpTo
      rw [Ctl.bind_apply, h1]
      dsimp only
      rw [Ctl.bind_apply, h2]
      rfl

/-! ### The checks (R410 steps 4 to 6) -/

theorem footerLegal_iff (f : Byte) : footerLegal f = true ↔ f = 0x03 ∨ f = 0x17 := by
  simp only [footerLegal, Config.etb, Config.etx, Bool.or_eq_true, beq_iff_eq]
  exact or_comm

theorem body_parts (p : List Byte) (c f : Byte) :
    (p ++ [c] ++ [f]).length = p.length + 2 ∧ (p ++ [c] ++ [f]).take p.length = p ∧
      (p ++ [c] ++ [f]).getD p.length 0 = c ∧ (p ++ [c] ++ [f]).getD (p.length + 1) 0 = f := by
  refine ⟨by simp, by simp, ?_, ?_⟩
  · rw [List.getD_eq_getElem?_getD, List.append_assoc, List.getElem?_append_right (Nat.le_refl _)]
    simp
  · rw [List.getD_eq_getElem?_getD, List.getElem?_append_right (by simp)]
    simp

/-- The checks on a whole body. -/
theorem checkBody_eq (lb p : List Byte) (c f : Byte) (s : State) :
    checkBody lb p.length (p ++ [c] ++ [f]) s =
      (if footerLegal f = false then .ok (.error .invalidFooter) { s with diag := ⟨c, csum (lb ++ p), f, true⟩ }
        else if c ≠ csum (lb ++ p) then .ok (.error .invalidChecksum) { s with diag := ⟨c, csum (lb ++ p), f, true⟩ }
        else .ok (.ok p) { s with diag := ⟨c, csum (lb ++ p), f, true⟩, lastst := ⟨p.headD 0, true⟩ }) := by
  obtain ⟨e1, e2, e3, e4⟩ := body_parts p c f
  unfold checkBody
  rw [if_neg (by omega)]
  simp only [e2, e3, e4]
  rw [Ctl.bind_apply, setDiag, Ctl.modify_apply]
  dsimp only
  cases footerLegal f with
  | false => rfl
  | true =>
    simp only [Bool.not_true, Bool.false_eq_true, if_false]
    by_cases hc : c = csum (lb ++ p)
    · rw [if_neg (by simp [hc]), if_neg (by simp), if_neg (by simp [hc])]
      rfl
    · rw [if_pos (by simp [hc]), if_neg (by simp), if_pos (by simpa using hc)]
      rfl

theorem checkBody_short (lb : List Byte) (n : Nat) (buf : List Byte) (s : State) (h : buf.length < n + 2) :
    checkBody lb n buf s = .ok (.error .invalidFooter) { s with diag := ⟨0, 0, 0, false⟩ } := by
  unfold checkBody
  rw [if_pos h]
  rfl

theorem setDiag_step (s : State) (d : Diag) (h : d.bodyOk = false → d = ⟨0, 0, 0, false⟩) :
    OpStep Decoding s { s with diag := d } := (OpStep.allowsDecode rfl).diag s d h

theorem setLast_step (s : State) (b : Byte) : OpStep Decoding s { s with lastst := ⟨b, true⟩ } :=
  (OpStep.allowsDecode rfl).last s b

theorem frameDeadline_step (s : State) (d : Word) :
    frameDeadline d s = .ok ⟨s.now, d⟩ { s with hid := { s.hid with frameDl := ⟨s.now, d⟩ } } := rfl

/-- Everything after the marker, for a body that is there: the answer of the checks. -/
theorem decodeFrame_body {src : Source} {rest : List RxByte} {cap : Nat} {after : List Byte} (m : Byte) (dl : Deadline)
    (junk p more : List Byte) (c f : Byte) {s : State} (h : Live s) (hj : Junk m junk)
    (hp : encodable s.prof.lenW p.length = true)
    (hf : Feeds src rest cap after s (junk ++ ([m] ++ lenField s.prof.lenW p.length ++ p ++ [c] ++ [f]) ++ more)) :
    ∃ t, decodeFrame src m dl s = checkBody (lenField s.prof.lenW p.length) p.length (p ++ [c] ++ [f]) t ∧
      OpStep Decoding s t ∧ Feeds src rest cap after t more ∧ Skipped s t junk.length := by
  have hf' : Feeds src rest cap after s (junk ++ m :: (lenField s.prof.lenW p.length ++ (p ++ [c] ++ [f] ++ more))) := by
    simpa using hf
  have hmax : junk.length ≤ 256 := hj.bounded
  obtain ⟨t, h1, o1, f1, ⟨s1, d1, l1⟩⟩ := hunt_found m dl junk _ Config.maxSkip 0 true h hf' hj.notMarker
    (fun _ => hj.notSilence) hj.bounded (by omega)
  -- the length field
  have oa := mark_step Decoding t (fun h => { h with frameDl := ⟨t.now, t.prof.tFrame⟩ }) rfl rfl
  have fa : Feeds src rest cap after { t with hid := { t.hid with frameDl := ⟨t.now, t.prof.tFrame⟩ } }
      (lenField s.prof.lenW p.length ++ (p ++ [c] ++ [f] ++ more)) := f1.congr rfl rfl rfl rfl rfl rfl rfl
  obtain ⟨u, h2, o2, f2, d2⟩ := lengthField_feeds s.prof.lenW p.length _ ⟨t.now, t.prof.tFrame⟩
    (oa.live (o1.live h)) hp fa
  -- the body
  have ob := mark_step Decoding u (fun h => { h with frameDl := ⟨u.now, t.prof.tFrame⟩ }) rfl rfl
  have fb : Feeds src rest cap after { u with hid := { u.hid with frameDl := ⟨u.now, t.prof.tFrame⟩ } }
      ((p ++ [c] ++ [f]) ++ more) := f2.congr rfl rfl rfl rfl rfl rfl rfl
  obtain ⟨v, h3, o3, f3, d3⟩ := readUpTo_feeds ⟨u.now, t.prof.tFrame⟩ (p ++ [c] ++ [f]) more
    (ob.live (o2.live (oa.live (o1.live h)))) fb
  refine ⟨v, ?_, ((((o1.trans oa).trans o2).trans ob).trans o3), f3, ⟨?_, ?_, ?_⟩⟩
  · have hlen : (p ++ [c] ++ [f]).length = p.length + 2 := (body_parts p c f).1
    unfold decodeFrame
    rw [Ctl.bind_apply, h1]
    dsimp only
    rw [Ctl.bind_apply, Ctl.get_apply]
    dsimp only
    rw [Ctl.bind_apply, frameDeadline_step]
    dsimp only
    rw [o1.prof] at h2 ⊢
    rw [Ctl.bind_apply, h2]
    dsimp only
    rw [Ctl.bind_apply, frameDeadline_step]
    dsimp only
    rw [o1.prof, hlen] at h3
    rw [Ctl.bind_apply, h3]
  · rw [d3.skipcnt, show _ = u.skipcnt from rfl, d2.skipcnt, show _ = t.skipcnt from rfl, s1, Nat.zero_add]
  · rw [d3.diag, show _ = u.diag from rfl, d2.diag, show _ = t.diag from rfl, d1]
  · rw [d3.lastst, show _ = u.lastst from rfl, d2.lastst, show _ = t.lastst from rfl, l1]

/-- What a successful decode attempt leaves in the diagnostics (R411). -/
structure Decoded (s t : State) (skipped : Nat) (p : List Byte) (f : Byte) : Prop where
  lastst : t.lastst = ⟨p.headD 0, true⟩
  skipcnt : t.skipcnt = BitVec.ofNat 9 skipped
  diag : t.diag = ⟨csum (lenField s.prof.lenW p.length ++ p), csum (lenField s.prof.lenW p.length ++ p), f, true⟩

/-- Decoding a frame that is there, behind junk, returns its payload (R411, R413). -/
theorem decodeFrame_frame {src : Source} {rest : List RxByte} {cap : Nat} {after : List Byte} (m : Byte) (dl : Deadline)
    (junk p : List Byte) (f : Byte) {s : State} (h : Live s) (hj : Junk m junk)
    (hp : encodable s.prof.lenW p.length = true) (hfoot : f = 0x03 ∨ f = 0x17)
    (hf : Feeds src rest cap after s (junk ++ buildFrame s.prof.lenW m p f false)) :
    ∃ t, decodeFrame src m dl s = .ok (.ok p) t ∧ OpStep Decoding s t ∧ Feeds src rest cap after t [] ∧
      Decoded s t junk.length p f := by
  have hb : buildFrame s.prof.lenW m p f false =
      [m] ++ lenField s.prof.lenW p.length ++ p ++ [csum (lenField s.prof.lenW p.length ++ p)] ++ [f] := by
    simp [buildFrame]
  rw [hb, ← List.append_nil (junk ++ _)] at hf
  obtain ⟨t, h1, o, f1, sk⟩ := decodeFrame_body m dl junk p [] _ f h hj hp hf
  rw [checkBody_eq, if_neg (by rw [(footerLegal_iff f).2 hfoot]; simp), if_neg (by simp)] at h1
  have oa := setDiag_step t ⟨csum (lenField s.prof.lenW p.length ++ p), csum (lenField s.prof.lenW p.length ++ p), f, true⟩
    (fun e => by cases e)
  have ob := setLast_step { t with diag := ⟨csum (lenField s.prof.lenW p.length ++ p),
    csum (lenField s.prof.lenW p.length ++ p), f, true⟩ } (p.headD 0)
  exact ⟨_, h1, (o.trans oa).trans ob, f1.congr rfl rfl rfl rfl rfl rfl rfl, rfl, sk.skipcnt, rfl⟩

/-! ### Attempts that fail -/

theorem decodeFrame_hunt_fails {src : Source} (m : Byte) (dl : Deadline) {s t : State} {e : Err}
    (h : hunt src m dl Config.maxSkip 0 true s = .ok (some e) t) : decodeFrame src m dl s = .ok (.error e) t := by
  unfold decodeFrame
  rw [Ctl.bind_apply, h]
  rfl

/-- The marker is found and the length field is not one. -/
theorem decodeFrame_length_fails {src : Source} (m : Byte) (dl : Deadline) {s t u : State}
    (h : hunt src m dl Config.maxSkip 0 true s = .ok none t)
    (hl : lengthField src t.prof.lenW ⟨t.now, t.prof.tFrame⟩
      { t with hid := { t.hid with frameDl := ⟨t.now, t.prof.tFrame⟩ } } = .ok none u) :
    decodeFrame src m dl s = .ok (.error .invalidHeader) u := by
  unfold decodeFrame
  rw [Ctl.bind_apply, h]
  dsimp only
  rw [Ctl.bind_apply, Ctl.get_apply]
  dsimp only
  rw [Ctl.bind_apply, frameDeadline_step]
  dsimp only
  rw [Ctl.bind_apply, hl]
  rfl

/-- A 2-byte length of 0 (R410 step 2). -/
theorem decodeFrame_length_zero {src : Source} {rest : List RxByte} {cap : Nat} {after : List Byte} (m : Byte)
    (dl : Deadline) (junk more : List Byte) {s : State} (h : Live s) (hj : Junk m junk) (hw : s.prof.lenW = true)
    (hf : Feeds src rest cap after s (junk ++ m :: 0 :: 0 :: more)) :
    ∃ t, decodeFrame src m dl s = .ok (.error .invalidHeader) t ∧ OpStep Decoding s t ∧ Feeds src rest cap after t more ∧
      Skipped s t junk.length := by
  have hmax : junk.length ≤ 256 := hj.bounded
  obtain ⟨t, h1, o1, f1, sk⟩ := hunt_found m dl junk _ Config.maxSkip 0 true h hf hj.notMarker
    (fun _ => hj.notSilence) hj.bounded (by omega)
  have oa := mark_step Decoding t (fun h => { h with frameDl := ⟨t.now, t.prof.tFrame⟩ }) rfl rfl
  have fa : Feeds src rest cap after { t with hid := { t.hid with frameDl := ⟨t.now, t.prof.tFrame⟩ } }
      (0 :: 0 :: more) := f1.congr rfl rfl rfl rfl rfl rfl rfl
  obtain ⟨u, h2, o2, f2, d2⟩ := getByte_feeds ⟨t.now, t.prof.tFrame⟩ (oa.live (o1.live h)) fa
  obtain ⟨v, h3, o3, f3, d3⟩ := getByte_feeds ⟨t.now, t.prof.tFrame⟩ (o2.live (oa.live (o1.live h))) f2
  refine ⟨v, decodeFrame_length_fails m dl h1 ?_, ((o1.trans oa).trans o2).trans o3, f3, ?_, ?_, ?_⟩
  · unfold lengthField
    rw [Ctl.bind_apply, h2]
    dsimp only
    rw [if_pos (o1.prof ▸ hw : t.prof.lenW = true), Ctl.bind_apply, h3]
    rfl
  · rw [d3.skipcnt, d2.skipcnt, show _ = t.skipcnt from rfl, sk.skipcnt, Nat.zero_add]
  · rw [d3.diag, d2.diag, show _ = t.diag from rfl, sk.diag]
  · rw [d3.lastst, d2.lastst, show _ = t.lastst from rfl, sk.lastst]

/-- An attempt on bytes it must fail on takes exactly those. -/
theorem decodeFrame_fails {src : Source} {rest : List RxByte} {cap : Nat} {after : List Byte} (m : Byte) (dl : Deadline)
    (bad more : List Byte) {s : State} (h : Live s) (hb : FailedAttempt s.prof.lenW m bad)
    (hf : Feeds src rest cap after s (bad ++ more)) :
    ∃ e t, decodeFrame src m dl s = .ok (.error e) t ∧ OpStep Decoding s t ∧ Feeds src rest cap after t more := by
  cases hb with
  | silence hm =>
    obtain ⟨t, h1, o, f, -⟩ := hunt_silence m dl more Config.maxSkip 0 h hf hm (by omega)
    exact ⟨_, t, decodeFrame_hunt_fails m dl h1, o, f⟩
  | noMarker _ hj h0 hl =>
    obtain ⟨t, h1, o, f, -⟩ := hunt_junk m dl bad more Config.maxSkip 0 true h hf hj (fun _ => h0) hl (Nat.le_refl _)
    exact ⟨_, t, decodeFrame_hunt_fails m dl h1, o, f⟩
  | noLength junk hw hj =>
    obtain ⟨t, h1, o, f, -⟩ := decodeFrame_length_zero m dl junk more h hj hw (by simpa using hf)
    exact ⟨_, t, h1, o, f⟩
  | badFrame junk p c f hj hp hbad =>
    obtain ⟨t, h1, o, f1, -⟩ := decodeFrame_body m dl junk p more c f h hj hp hf
    have od := setDiag_step t ⟨c, csum (lenField s.prof.lenW p.length ++ p), f, true⟩ (fun e => by cases e)
    rw [checkBody_eq] at h1
    split at h1
    · exact ⟨_, _, h1, o.trans od, f1.congr rfl rfl rfl rfl rfl rfl rfl⟩
    · next hl =>
      rw [if_pos] at h1
      · exact ⟨_, _, h1, o.trans od, f1.congr rfl rfl rfl rfl rfl rfl rfl⟩
      · rcases hbad with hc | ⟨h3, h17⟩
        · exact hc
        · exact absurd ((footerLegal_iff f).1 (by simpa using hl)) (not_or.2 ⟨h3, h17⟩)

/-! ### The receive with retry (42_command.md R504) -/

/-- The bytes sent before an attempt (R504). -/
theorem pollRequest_ok (attempt : Nat) {s : State} (h : Live s) :
    ∃ t, pollRequest attempt s = .ok ⟨⟩ t ∧ OpStep { send := true } s t ∧ t.horizon = s.horizon ∧
      t.sent = s.sent ++ (if attempt ≠ 0 ∧ s.prof.poll = true then s.cmdFrame [s.opcode opcStatus] else []) := by
  unfold pollRequest
  rw [Ctl.bind_apply, Ctl.get_apply]
  dsimp only
  by_cases hc : attempt ≠ 0 ∧ s.prof.poll = true
  · rw [if_pos (by simpa using hc), if_pos hc]
    obtain ⟨t, h1, o, hs, -⟩ := chSend_ok (s.cmdFrame [s.opcode opcStatus]) h
    exact ⟨t, h1, o, chSend_horizon _ h h1, hs⟩
  · rw [if_neg (by simpa using hc), if_neg hc]
    exact ⟨s, rfl, OpStep.refl _ s, rfl, by simp⟩

/-- What a receive may do: it polls and decodes. -/
abbrev Receiving : Allow := { send := true, read := true, decode := true }

/-- The retry loop over failed attempts and then a frame, all of it delivered, while the draws to come do not lead to the
deadline. -/
theorem recvLoop_retries {rest : List RxByte} (m : Byte) (dl : Deadline) (fails : List (List Byte)) (junk p : List Byte)
    (f : Byte) (bound attempt cap t0 : Nat) {s : State} (h : Live s)
    (hfails : ∀ b ∈ fails, FailedAttempt s.prof.lenW m b) (hj : Junk m junk) (hp : encodable s.prof.lenW p.length = true)
    (hfoot : f = 0x03 ∨ f = 0x17) (hb : fails.length < bound) (hdl : dl.t0 = BitVec.ofNat 32 t0) (ht0 : t0 ≤ s.time)
    (hcap : fails ≠ [] → cap < t0 + dl.dur.toNat)
    (hf : Feeds .channel rest cap [] s (fails.flatten ++ (junk ++ buildFrame s.prof.lenW m p f false))) :
    ∃ t, recvLoop m dl bound attempt s = .ok p t ∧ OpStep Receiving s t ∧ t.rx = rest ∧ Decoded s t junk.length p f ∧
      t.sent = s.sent ++ (List.replicate (fails.length + if attempt = 0 then 0 else 1)
        (if s.prof.poll = true then s.cmdFrame [s.opcode opcStatus] else [])).flatten := by
  induction fails generalizing bound attempt s with
  | nil =>
    obtain ⟨bound, rfl⟩ : ∃ n, bound = n + 1 := ⟨bound - 1, by simp at hb; omega⟩
    have oa := mark_step Receiving s (fun h => { h with attempts := attempt }) rfl rfl
    obtain ⟨t, h1, o1, hz, hs⟩ := pollRequest_ok attempt (oa.live h)
    have ft : Feeds .channel rest cap [] t (junk ++ buildFrame t.prof.lenW m p f false) := by
      refine ⟨?_, hz ▸ hf.2⟩
      rw [o1.prof]
      have q : Queued s (junk ++ buildFrame s.prof.lenW m p f false) rest := by simpa using hf.1
      exact Queued.step (s := { s with hid := { s.hid with attempts := attempt } }) q o1 rfl
    obtain ⟨u, h2, o2, q, d⟩ := decodeFrame_frame m dl junk p f (o1.live (oa.live h)) hj (by rw [o1.prof]; exact hp) hfoot ft
    refine ⟨u, ?_, (oa.trans (o1.widen rfl)).trans (o2.widen rfl), Queued.nil.1 q.1, ⟨d.lastst, d.skipcnt, ?_⟩, ?_⟩
    · unfold recvLoop
      rw [Ctl.bind_apply, mark_apply]
      dsimp only
      rw [Ctl.bind_apply, h1]
      dsimp only
      rw [Ctl.bind_apply, h2]
      rfl
    · have e : t.prof = s.prof := o1.prof
      rw [d.diag, e]
    · rw [o2.sent rfl, hs]
      by_cases ha : attempt = 0
      · simp [ha, State.sent]
      · by_cases hp : s.prof.poll = true
        · rw [if_pos ⟨ha, hp⟩, if_neg ha, if_pos hp]
          simp [State.sent, State.cmdFrame, State.opcode]
        · rw [if_neg (fun x => hp x.2), if_neg ha, if_neg hp]
          simp [State.sent]
  | cons b fails ih =>
    obtain ⟨bound, rfl⟩ : ∃ n, bound = n + 1 := ⟨bound - 1, by simp at hb; omega⟩
    have oa := mark_step Receiving s (fun h => { h with attempts := attempt }) rfl rfl
    obtain ⟨t, h1, o1, hz, hs⟩ := pollRequest_ok attempt (oa.live h)
    have et : t.prof = s.prof := o1.prof
    have ft : Feeds .channel rest cap [] t (b ++ (fails.flatten ++ (junk ++ buildFrame s.prof.lenW m p f false))) := by
      refine ⟨?_, hz ▸ hf.2⟩
      have q : Queued s (b ++ (fails.flatten ++ (junk ++ buildFrame s.prof.lenW m p f false))) rest := by
        simpa using hf.1
      exact Queued.step (s := { s with hid := { s.hid with attempts := attempt } }) q o1 rfl
    obtain ⟨e, u, h2, o2, fu⟩ := decodeFrame_fails m dl b _ (o1.live (oa.live h))
      (by rw [et]; exact hfails b (by simp)) ft
    have osu : OpStep Receiving s u := (oa.trans (o1.widen rfl)).trans (o2.widen rfl)
    have hexp : u.expired dl = false := by
      have c1 := hcap (by simp)
      have c2 : u.time ≤ cap := Nat.le_trans (Nat.le_add_right _ _) fu.2
      have c3 := Nat.le_trans ht0 osu.time
      have c4 := dl.dur.isLt
      unfold State.expired State.now
      rw [hdl, decide_eq_false_iff_not, BitVec.toNat_sub, BitVec.toNat_ofNat, BitVec.toNat_ofNat]
      omega
    obtain ⟨v, h3, o3, hr, d, hsv⟩ := ih bound (attempt + 1) (osu.live h) (fun x hx => by rw [osu.prof]; exact hfails x (by simp [hx]))
      (by rw [osu.prof]; exact hp) (by simp at hb; omega) (Nat.le_trans ht0 osu.time) (fun _ => hcap (by simp))
      (by rw [osu.prof]; exact fu)
    refine ⟨v, ?_, osu.trans o3, hr, ⟨d.lastst, d.skipcnt, ?_⟩, ?_⟩
    · unfold recvLoop
      rw [Ctl.bind_apply, mark_apply]
      dsimp only
      rw [Ctl.bind_apply, h1]
      dsimp only
      rw [Ctl.bind_apply, h2]
      dsimp only
      rw [Ctl.bind_apply, Ctl.get_apply]
      dsimp only
      rw [hexp]
      exact h3
    · rw [d.diag, osu.prof]
    · have e1 : u.cmdFrame [u.opcode opcStatus] = s.cmdFrame [s.opcode opcStatus] := by
        simp only [State.cmdFrame, State.opcode, osu.prof]
      rw [hsv, o2.sent rfl, hs, osu.prof, e1, if_neg (Nat.succ_ne_zero attempt)]
      show s.sent ++ _ ++ _ = _
      by_cases ha : attempt = 0
      · rw [if_neg (fun x => x.1 ha), if_pos ha]
        simp
      · rw [if_neg ha]
        by_cases hp : s.prof.poll = true
        · rw [if_pos ⟨ha, hp⟩, if_pos hp]
          simp [List.replicate_succ, State.cmdFrame, State.opcode]
        · rw [if_neg (fun x => hp x.2), if_neg hp]
          simp [List.replicate_succ]

/-- A receive in whose stream a frame waits behind attempts that fail. Its deadline started at the time `t0`. -/
theorem recvUntil_retries {rest : List RxByte} (m : Byte) (dl : Deadline) (fails : List (List Byte)) (junk p : List Byte)
    (f : Byte) (t0 : Nat) {s : State} (h : Live s) (hfails : ∀ b ∈ fails, FailedAttempt s.prof.lenW m b)
    (hj : Junk m junk) (hp : encodable s.prof.lenW p.length = true) (hfoot : f = 0x03 ∨ f = 0x17)
    (hdl : dl.t0 = BitVec.ofNat 32 t0) (ht0 : t0 ≤ s.time) (hcap : fails ≠ [] → s.horizon < t0 + dl.dur.toNat)
    (hf : Queued s (fails.flatten ++ (junk ++ buildFrame s.prof.lenW m p f false)) rest) :
    ∃ t, recvUntil m dl s = .ok p t ∧ OpStep Receiving s t ∧ t.rx = rest ∧ Decoded s t junk.length p f ∧
      t.sent = s.sent ++ (List.replicate fails.length
        (if s.prof.poll = true then s.cmdFrame [s.opcode opcStatus] else [])).flatten := by
  have oa := mark_step Receiving s (fun h => { h with huntDl := dl }) rfl rfl
  have hlen : fails.length ≤ s.rx.length := by
    obtain ⟨pre, h1, h2, -⟩ := hf
    have hc : ∀ fs : List (List Byte), (∀ b ∈ fs, FailedAttempt s.prof.lenW m b) → fs.length ≤ fs.flatten.length := by
      intro fs
      induction fs with
      | nil => simp
      | cons b fs ih =>
        intro hb
        have h1 : 0 < b.length := by
          cases hb b (by simp) with
          | silence => simp
          | noMarker _ _ _ hl => omega
          | noLength => simp
          | badFrame => simp
        have := ih fun x hx => hb x (by simp [hx])
        simp only [List.length_cons, List.flatten_cons, List.length_append]
        omega
    have := congrArg List.length h2
    have := hc fails hfails
    simp only [List.length_map, List.length_append] at *
    rw [h1, List.length_append]
    omega
  obtain ⟨t, h1, o, hr, d, hs⟩ := recvLoop_retries m dl fails junk p f (s.rx.length + s.lags.length + 1) 0 s.horizon t0
    (oa.live h) hfails hj hp hfoot (by omega) hdl ht0 hcap ⟨hf, Nat.le_refl _⟩
  refine ⟨t, ?_, oa.trans o, hr, ⟨d.lastst, d.skipcnt, d.diag⟩, hs⟩
  unfold recvUntil
  rw [Ctl.bind_apply, mark_apply]
  dsimp only
  rw [Ctl.bind_apply, Ctl.get_apply]
  exact h1

/-- A receive at whose start a frame is waiting in the stream succeeds at its first attempt. -/
theorem recvUntil_frame {rest : List RxByte} (m : Byte) (dl : Deadline) (junk p : List Byte) (f : Byte) {s : State}
    (h : Live s) (hj : Junk m junk) (hp : encodable s.prof.lenW p.length = true) (hfoot : f = 0x03 ∨ f = 0x17)
    (hf : Queued s (junk ++ buildFrame s.prof.lenW m p f false) rest) :
    ∃ t, recvUntil m dl s = .ok p t ∧ OpStep Decoding s t ∧ t.rx = rest ∧ Decoded s t junk.length p f := by
  have oa := mark_step Decoding s (fun h => { h with huntDl := dl }) rfl rfl
  have ob := mark_step Decoding { s with hid := { s.hid with huntDl := dl } } (fun h => { h with attempts := 0 }) rfl rfl
  have hf2 : Feeds .channel rest s.horizon [] { s with hid := { { s.hid with huntDl := dl } with attempts := 0 } }
      (junk ++ buildFrame s.prof.lenW m p f false) := ⟨hf, Nat.le_refl _⟩
  obtain ⟨t, h1, o, q, d⟩ := decodeFrame_frame m dl junk p f (ob.live (oa.live h)) hj hp hfoot hf2
  refine ⟨t, ?_, (oa.trans ob).trans o, Queued.nil.1 q.1, d.lastst, d.skipcnt, d.diag⟩
  unfold recvUntil
  rw [Ctl.bind_apply, mark_apply]
  dsimp only
  rw [Ctl.bind_apply, Ctl.get_apply]
  dsimp only
  unfold recvLoop
  rw [Ctl.bind_apply, mark_apply]
  dsimp only
  rw [Ctl.bind_apply]
  have hpoll : ∀ u : State, pollRequest 0 u = .ok ⟨⟩ u := fun u => by
    unfold pollRequest
    rw [Ctl.bind_apply, Ctl.get_apply]
    rfl
  rw [hpoll]
  dsimp only
  rw [Ctl.bind_apply, h1]
  rfl

/-- No junk. -/
theorem Junk.nil (m : Byte) : Junk m [] := ⟨by simp, by simp, by simp⟩

theorem recvFrame_frame {rest : List RxByte} (m : Byte) (p : List Byte) (f : Byte) {s : State} (h : Live s)
    (hp : encodable s.prof.lenW p.length = true) (hfoot : f = 0x03 ∨ f = 0x17)
    (hf : Queued s (buildFrame s.prof.lenW m p f false) rest) :
    ∃ t, recvFrame m s = .ok p t ∧ OpStep Decoding s t ∧ t.rx = rest ∧ Decoded s t 0 p f := by
  unfold recvFrame
  rw [Ctl.bind_apply, Ctl.get_apply]
  exact recvUntil_frame m _ [] p f h (Junk.nil m) hp hfoot hf

/-! ### Storing (R503) -/

theorem rxPayload_congr {s t : State} (h1 : t.rxlen = s.rxlen) (h2 : t.mem = s.mem) (h3 : t.epoch = s.epoch) :
    t.rxPayload = s.rxPayload := by
  unfold State.rxPayload State.rxByte
  rw [h1]
  exact List.map_congr_left fun i _ => State.byteAt_congr h2 h3 _

theorem RxHolds.step {a : Allow} {s t : State} {ps : List (List Byte)} (h : RxHolds s ps) (o : OpStep a s t)
    (ha : a.store = false) : RxHolds t ps := by
  obtain ⟨h1, h2, h3, h4⟩ := o.stored ha
  exact ⟨(rxPayload_congr h1 h4 o.epoch).trans h.bytes, by rw [h1]; exact h.length, h2.trans h.frames,
    fun j => by rw [h3]; exact h.lengths j⟩

theorem RxHolds.clear (s : State) : RxHolds s.clearRx [] := by
  refine ⟨rfl, rfl, rfl, fun j => ?_⟩
  show (Vector.replicate 8 (0 : BitVec 17)).get j = _
  rw [Vector.get_eq_getElem, Vector.getElem_replicate]
  rfl

/-- `Store` adds a payload to what RXBUF holds. -/
theorem store_holds (p : List Byte) {s : State} {ps : List (List Byte)} (h : RxHolds s ps) (hp : p ≠ [])
    (hc : ps.flatten.length + p.length ≤ Config.bufCap) (hps : ∀ q ∈ ps, q ≠ []) :
    ∃ t, store p s = .ok ⟨⟩ t ∧ OpStep { store := true } s t ∧ t.hid = s.hid ∧ RxHolds t (ps ++ [p]) := by
  have hcap : s.rxlen.toNat + p.length ≤ Config.bufCap := by rw [h.length]; exact hc
  refine ⟨(s.rxStore p).countFrame p.length, ?_, (OpStep.allowsStore rfl).store s p hp hcap, rfl, ?_⟩
  · unfold store rxAppend
    rw [Ctl.bind_apply, Ctl.bind_apply, Ctl.get_apply]
    dsimp only
    rw [if_neg (Nat.not_lt.2 hcap)]
    rfl
  · -- fewer frames than 2^32: every one has a byte
    have hcount : ∀ qs : List (List Byte), (∀ q ∈ qs, q ≠ []) → qs.length ≤ qs.flatten.length := by
      intro qs
      induction qs with
      | nil => simp
      | cons q qs ih =>
        intro hq
        have := ih fun x hx => hq x (by simp [hx])
        have h1 : 0 < q.length := List.length_pos_iff.2 (hq q (by simp))
        simp only [List.length_cons, List.flatten_cons, List.length_append]
        omega
    have hn := hcount ps hps
    have hcap2 : ps.flatten.length + p.length ≤ 65536 := hc
    have hfr : s.rxframes.toNat = ps.length := by
      rw [h.frames, BitVec.toNat_ofNat]
      omega
    refine ⟨?_, ?_, ?_, ?_⟩
    · show ((s.rxStore p)).rxPayload = _
      rw [State.rxStore_rxPayload s p hcap, h.bytes]
      simp
    · show (s.rxStore p).rxlen.toNat = _
      rw [State.rxStore_rxlen_toNat s p hcap, h.length]
      simp
    · show s.rxframes + 1 = _
      rw [h.frames, List.length_append, List.length_singleton, BitVec.ofNat_add]
      rfl
    · intro j
      show (if h : s.rxframes.toNat < 8 then s.rxflen.set s.rxframes.toNat (BitVec.ofNat 17 p.length) h
        else s.rxflen).get j = _
      have old := h.lengths j
      rw [Vector.get_eq_getElem] at old ⊢
      by_cases hj : j.val = ps.length
      · have h8 : s.rxframes.toNat < 8 := by
          have := j.isLt
          omega
        rw [dif_pos h8]
        have e : (s.rxflen.set s.rxframes.toNat (BitVec.ofNat 17 p.length) h8)[j.val] = BitVec.ofNat 17 p.length := by
          rw [Vector.getElem_set]
          rw [if_pos (by omega)]
        rw [e, hj]
        simp
      · have keep : (ps ++ [p])[j.val]?.getD [] = ps[j.val]?.getD [] := by
          by_cases hlt : j.val < ps.length
          · rw [List.getElem?_append_left hlt]
          · rw [List.getElem?_append_right (by omega), List.getElem?_eq_none (by simp; omega),
              List.getElem?_eq_none (by omega)]
        rw [keep, ← old]
        split
        · rw [Vector.getElem_set_ne _ _ (by omega)]
        · rfl

end Sys2Proof.Machine
end

