-- ==== Sys2Proof/Laws/Session.lean ====
section
/-! SUPPORT. The turns of a session op (42_command.md R503, R504): sending a frame, receiving a delivered reply, storing its
payload, setting ACKOK. Each says what has been sent, what RXBUF holds and which replies are still to be read. -/

namespace Sys2Proof.Machine

/-- What the session ops do. -/
abbrev Conversing : Allow := { send := true, read := true, decode := true, store := true, ack := true }

/-- From s to t a session op has sent `bytes` and stored `ps`; `rs` are the replies it has not read. -/
structure Progress (s t : State) (bytes : List Byte) (ps : List (List Byte)) (rs : List Reply) (rest : List RxByte) :
    Prop where
  step : OpStep Conversing s t
  sent : t.sent = s.sent ++ bytes
  holds : RxHolds t ps
  replies : Replies t rs rest

variable {s t : State} {bytes : List Byte} {ps : List (List Byte)} {rs : List Reply} {rest : List RxByte}

theorem Replies.congr (h : Replies s rs rest) (hp : t.prof = s.prof) (hr : t.rx = s.rx) (ht : s.time ≤ t.time) :
    Replies t rs rest := by
  refine ⟨fun r hr => ?_, ?_⟩
  · have := h.fits r hr
    unfold Reply.fits at this ⊢
    rw [hp]
    exact this
  · unfold State.replyBytes
    rw [hp]
    exact h.queued.later hr ht

theorem Replies.step {a : Allow} (h : Replies s rs rest) (o : OpStep a s t) (ha : a.read = false) : Replies t rs rest :=
  h.congr o.prof (o.unread ha).1 o.time

theorem Reply.fits_ne {r : Reply} (h : Reply.fits s r) : r.1 ≠ [] := by
  have h1 := ((encodable_iff _ _).1 h.1).1
  intro e
  rw [e] at h1
  simp at h1

theorem Progress.live (h : Progress s t bytes ps rs rest) (hs : Live s) : Live t := h.step.live hs

theorem Progress.start (h : RxHolds s []) (hr : Replies s rs rest) : Progress s s [] [] rs rest :=
  ⟨OpStep.refl _ s, by simp, h, hr⟩

theorem Progress.quiet {u : State} (h : Progress s t bytes ps rs rest) (o : OpStep {} t u) :
    Progress s u bytes ps rs rest :=
  ⟨h.step.trans (o.widen rfl), (o.sent rfl).trans h.sent, h.holds.step o rfl, h.replies.step o rfl⟩

/-- A frame is sent. -/
theorem Progress.send (h : Progress s t bytes ps rs rest) (hs : Live s) (bs : List Byte) :
    ∃ u, chSend bs t = .ok ⟨⟩ u ∧ Progress s u (bytes ++ bs) ps rs rest ∧ u.ackok = t.ackok ∧ u.lastst = t.lastst := by
  obtain ⟨u, h1, o, hb, -⟩ := chSend_ok bs (h.live hs)
  refine ⟨u, h1, ⟨h.step.trans (o.widen rfl), ?_, h.holds.step o rfl, h.replies.step o rfl⟩, o.ack rfl,
    (o.decode rfl).lastst⟩
  rw [hb, h.sent, List.append_assoc]

/-- The next reply is received. -/
theorem Progress.recv {r : Reply} (h : Progress s t bytes ps (r :: rs) rest) (hs : Live s) :
    ∃ u, recvFrame t.prof.stxRx t = .ok r.1 u ∧ Progress s u bytes ps rs rest ∧ u.ackok = t.ackok ∧
      u.lastst = ⟨r.1.headD 0, true⟩ := by
  obtain ⟨hf, hb⟩ := h.replies.fits r (by simp)
  obtain ⟨pre, e1, e2, e3⟩ := h.replies.queued
  rw [State.replyBytes, List.flatMap_cons] at e2
  obtain ⟨p1, p2, rfl, f1, f2⟩ := List.map_eq_append_iff.1 e2
  have hq : Queued t (buildFrame t.prof.lenW t.prof.stxRx r.1 r.2 false) (p2 ++ rest) :=
    ⟨p1, by rw [e1, List.append_assoc], f1, fun x hx => e3 x (by simp [hx])⟩
  obtain ⟨u, h1, o, hr, d⟩ := recvFrame_frame t.prof.stxRx r.1 r.2 (h.live hs) hf hb hq
  have q2 : Queued u (t.replyBytes rs) rest :=
    ⟨p2, hr, f2, fun x hx => Nat.le_trans (e3 x (by simp [hx])) o.time⟩
  have fit : ∀ x ∈ rs, Reply.fits u x := by
    intro x hx
    have := h.replies.fits x (by simp [hx])
    unfold Reply.fits at this ⊢
    rw [o.prof]
    exact this
  refine ⟨u, h1, ⟨h.step.trans (o.widen rfl), (o.sent rfl).trans h.sent, h.holds.step o rfl, fit, ?_⟩, o.ack rfl,
    d.lastst⟩
  unfold State.replyBytes at q2 ⊢
  rw [o.prof]
  exact q2

/-- A payload is stored. -/
theorem Progress.store {p : List Byte} (h : Progress s t bytes ps rs rest) (hp : p ≠ [])
    (hc : (ps ++ [p]).flatten.length ≤ Config.bufCap) (hps : ∀ q ∈ ps, q ≠ []) :
    ∃ u, Machine.store p t = .ok ⟨⟩ u ∧ Progress s u bytes (ps ++ [p]) rs rest ∧ u.ackok = t.ackok ∧
      u.lastst = t.lastst := by
  obtain ⟨u, h1, o, -, hh⟩ := store_holds p h.holds hp (by simpa using hc) hps
  exact ⟨u, h1, ⟨h.step.trans (o.widen rfl), (o.sent rfl).trans h.sent, hh, h.replies.step o rfl⟩, o.ack rfl,
    (o.decode rfl).lastst⟩

/-- ACKOK is set. -/
theorem Progress.ack (h : Progress s t bytes ps rs rest) (b : Bool) :
    Progress s { t with ackok := b } bytes ps rs rest := by
  have o : OpStep { ack := true } t { t with ackok := b } := (OpStep.allowsAck rfl).ack t b
  exact ⟨h.step.trans (o.widen rfl), (o.sent rfl).trans h.sent, h.holds.step o rfl, h.replies.step o rfl⟩

/-- The loop of READ (R511): every payload but the last leaves RXLEN short of n, the last does not. -/
theorem readLoop_ok (n : Nat) (hs : Live s) (rs : List Reply) (bound : Nat) {t : State} {bytes : List Byte}
    {ps : List (List Byte)} (h : Progress s t bytes ps rs rest) (hps : ∀ q ∈ ps, q ≠ [])
    (hn : n ≤ (ps.flatten.length + (rs.map Prod.fst).flatten.length))
    (hb : n ≤ ps.flatten.length + bound)
    (hlast : rs ≠ [] → ps.flatten.length + (rs.dropLast.map Prod.fst).flatten.length < n)
    (hc : ps.flatten.length + (rs.map Prod.fst).flatten.length ≤ Config.bufCap) :
    ∃ u, readLoop n bound t = .ok ⟨⟩ u ∧
      Progress s u (bytes ++ (List.replicate rs.length (s.dataFrame [s.prof.ackCode])).flatten)
        (ps ++ rs.map Prod.fst) [] rest ∧ u.ackok = t.ackok := by
  induction rs generalizing bound t bytes ps with
  | nil =>
    have hl : ¬ t.rxlen.toNat < n := by
      rw [h.holds.length]
      simpa using hn
    refine ⟨t, ?_, by simpa using h, rfl⟩
    cases bound with
    | zero =>
      unfold readLoop
      rw [Ctl.bind_apply, Ctl.get_apply]
      dsimp only
      rw [if_neg hl]
      rfl
    | succ b =>
      unfold readLoop
      rw [Ctl.bind_apply, Ctl.get_apply]
      dsimp only
      rw [if_neg hl]
      rfl
  | cons r rs ih =>
    have hne := Reply.fits_ne (h.replies.fits r (by simp))
    have hpos : 1 ≤ r.1.length := by
      cases hr : r.1 with
      | nil => exact absurd hr hne
      | cons _ _ => simp
    have hl : t.rxlen.toNat < n := by
      rw [h.holds.length]
      have := hlast (by simp)
      omega
    have hpc : (ps ++ [r.1]).flatten.length = ps.flatten.length + r.1.length := by simp
    have hrc : ((r :: rs).map Prod.fst).flatten.length = r.1.length + (rs.map Prod.fst).flatten.length := by simp
    cases bound with
    | zero =>
      rw [h.holds.length] at hl
      omega
    | succ b =>
      have hp : t.prof = s.prof := h.step.prof
      have om := OpStep.hidStep {} t { t.hid with readCount := t.hid.readCount + 1 } rfl rfl
      have g1 := h.quiet om
      obtain ⟨u, k1, g2, a2, -⟩ := g1.send hs (s.dataFrame [s.prof.ackCode])
      obtain ⟨v, k2, g3, a3, -⟩ := g2.recv hs
      obtain ⟨w, k3, g4, a4, -⟩ := g3.store (p := r.1) hne (by omega) hps
      have hu : u.prof = t.prof := g2.step.prof.trans hp.symm
      obtain ⟨x, k4, g5, a5⟩ := ih b g4 (by
          intro q hq
          rw [List.mem_append, List.mem_singleton] at hq
          rcases hq with hq | rfl
          · exact hps q hq
          · exact hne) (by omega) (by omega) (by
          intro hrs
          have := hlast (by simp)
          rw [List.dropLast_cons_of_ne_nil hrs] at this
          simp only [List.map_cons, List.flatten_cons, List.length_append] at this
          omega) (by omega)
      refine ⟨x, ?_, ?_, a5.trans (a4.trans (a3.trans a2))⟩
      · unfold readLoop
        rw [Ctl.bind_apply, Ctl.get_apply]
        dsimp only
        rw [if_pos hl, Ctl.bind_apply, mark_apply]
        dsimp only
        unfold sendData
        rw [Ctl.bind_apply, Ctl.bind_apply, Ctl.get_apply]
        dsimp only
        rw [show State.dataFrame { t with hid := { t.hid with readCount := t.hid.readCount + 1 } } [t.prof.ackCode] =
            s.dataFrame [s.prof.ackCode] by simp only [State.dataFrame, State.dataFooter, hp], k1]
        dsimp only
        rw [Ctl.bind_apply, ← hu, k2]
        dsimp only
        rw [Ctl.bind_apply, k3]
        exact k4
      · have := g5
        rw [List.length_cons, List.replicate_succ, List.flatten_cons, List.map_cons]
        rw [List.append_assoc, List.append_assoc] at this
        exact this

/-- The command frames of CHECKSUMS from window w on (R516). -/
def State.windowFrames (s : State) (e : Nat) : Nat → Nat → List Byte
  | 0, w => s.cmdFrame (s.opcode opcChecksum :: s.range w (min (w + 255) e))
  | k + 1, w => s.cmdFrame (s.opcode opcChecksum :: s.range w (min (w + 255) e)) ++ s.windowFrames e k (w + 256)

theorem State.windowFrames_eq (s : State) (e more w : Nat) : s.windowFrames e more w =
    ((List.range (more + 1)).map fun k => s.cmdFrame (s.opcode opcChecksum ::
      s.range (w + 256 * k) (min (w + 256 * k + 255) e))).flatten := by
  induction more generalizing w with
  | zero => simp [State.windowFrames]
  | succ k ih =>
    rw [State.windowFrames, ih, List.range_succ_eq_map (n := k + 1), List.map_cons, List.flatten_cons, List.map_map]
    congr 1
    refine congrArg List.flatten (List.map_congr_left fun j _ => ?_)
    have e1 : w + 256 + 256 * j = w + 256 * Nat.succ j := by omega
    simp only [Function.comp, e1]

theorem cmdFrame_congr (h : t.prof = s.prof) (p : List Byte) : t.cmdFrame p = s.cmdFrame p := by
  simp only [State.cmdFrame, h]

theorem opcode_congr (h : t.prof = s.prof) (k : Fin 14) : t.opcode k = s.opcode k := by
  simp only [State.opcode, h]

theorem range_congr (h : t.prof = s.prof) (a e : Nat) : t.range a e = s.range a e := by
  simp only [State.range, State.addrBytes, h]

/-- One exchange: a command frame, then the reply. -/
theorem Progress.exchange {r : Reply} (h : Progress s t bytes ps (r :: rs) rest) (hs : Live s) (opc : Byte)
    (args : List Byte) :
    ∃ u v, sendCmd opc args t = .ok ⟨⟩ u ∧ recvFrame s.prof.stxRx u = .ok r.1 v ∧
      Progress s v (bytes ++ s.cmdFrame (opc :: args)) ps rs rest ∧ v.ackok = t.ackok ∧
      v.lastst = ⟨r.1.headD 0, true⟩ := by
  have hp : t.prof = s.prof := h.step.prof
  obtain ⟨u, k1, g1, a1, -⟩ := h.send hs (s.cmdFrame (opc :: args))
  obtain ⟨v, k2, g2, a2, l2⟩ := g1.recv hs
  refine ⟨u, v, ?_, ?_, g2, a2.trans a1, l2⟩
  · unfold sendCmd
    rw [Ctl.bind_apply, Ctl.get_apply]
    dsimp only
    rw [cmdFrame_congr hp]
    exact k1
  · rw [← g1.step.prof]
    exact k2

/-- The windows of CHECKSUMS (R516). -/
theorem windowLoop_ok (e : Nat) (hs : Live s) (more : Nat) (rs : List Reply) (w : Nat) {t : State} {bytes : List Byte}
    {ps : List (List Byte)} (h : Progress s t bytes ps rs rest) (hl : rs.length = more + 1) (hps : ∀ q ∈ ps, q ≠ [])
    (hc : ps.flatten.length + (rs.map Prod.fst).flatten.length ≤ Config.bufCap) :
    ∃ u, windowLoop e more w t = .ok ⟨⟩ u ∧
      Progress s u (bytes ++ s.windowFrames e more w) (ps ++ rs.map Prod.fst) [] rest ∧ u.ackok = t.ackok := by
  induction more generalizing rs w t bytes ps with
  | zero =>
    obtain ⟨r, rfl⟩ := List.length_eq_one_iff.1 hl
    have hne := Reply.fits_ne (h.replies.fits r (by simp))
    have g1 := h.quiet (OpStep.hidStep {} t { t.hid with window := w } rfl rfl)
    have hp : t.prof = s.prof := h.step.prof
    obtain ⟨u, v, k1, k2, g2, a2, -⟩ := g1.exchange hs (s.opcode opcChecksum) (s.range w (min (w + 255) e))
    obtain ⟨x, k3, g3, a3, -⟩ := g2.store (p := r.1) hne (by simpa using hc) hps
    refine ⟨x, ?_, by simpa [State.windowFrames] using g3, a3.trans a2⟩
    unfold windowLoop
    rw [Ctl.bind_apply, mark_apply]
    dsimp only
    rw [Ctl.bind_apply, Ctl.get_apply]
    dsimp only
    rw [Ctl.bind_apply]
    rw [show sendCmd (State.opcode { t with hid := { t.hid with window := w } } opcChecksum)
        (State.range { t with hid := { t.hid with window := w } } w (min (w + (Config.checksumWindow - 1)) e)) =
        sendCmd (s.opcode opcChecksum) (s.range w (min (w + 255) e)) by
      rw [opcode_congr (t := { t with hid := { t.hid with window := w } }) (s := s) hp,
        range_congr (t := { t with hid := { t.hid with window := w } }) (s := s) hp]
      rfl, k1]
    dsimp only
    rw [Ctl.bind_apply, show t.prof.stxRx = s.prof.stxRx by rw [hp], k2]
    dsimp only
    rw [Ctl.bind_apply, k3]
    rfl
  | succ more ih =>
    cases rs with
    | nil => simp at hl
    | cons r rs =>
      have hne := Reply.fits_ne (h.replies.fits r (by simp))
      have g1 := h.quiet (OpStep.hidStep {} t { t.hid with window := w } rfl rfl)
      have hp : t.prof = s.prof := h.step.prof
      have hrc : ((r :: rs).map Prod.fst).flatten.length = r.1.length + (rs.map Prod.fst).flatten.length := by simp
      have hpc : (ps ++ [r.1]).flatten.length = ps.flatten.length + r.1.length := by simp
      obtain ⟨u, v, k1, k2, g2, a2, -⟩ := g1.exchange hs (s.opcode opcChecksum) (s.range w (min (w + 255) e))
      obtain ⟨x, k3, g3, a3, -⟩ := g2.store (p := r.1) hne (by omega) hps
      obtain ⟨y, k4, g4, a4⟩ := ih rs (w + 256) g3 (by simpa using hl) (by
          intro q hq
          rw [List.mem_append, List.mem_singleton] at hq
          rcases hq with hq | rfl
          · exact hps q hq
          · exact hne) (by omega)
      refine ⟨y, ?_, ?_, a4.trans (a3.trans a2)⟩
      · unfold windowLoop
        rw [Ctl.bind_apply, mark_apply]
        dsimp only
        rw [Ctl.bind_apply, Ctl.get_apply]
        dsimp only
        rw [Ctl.bind_apply]
        rw [show sendCmd (State.opcode { t with hid := { t.hid with window := w } } opcChecksum)
            (State.range { t with hid := { t.hid with window := w } } w (min (w + (Config.checksumWindow - 1)) e)) =
            sendCmd (s.opcode opcChecksum) (s.range w (min (w + 255) e)) by
          rw [opcode_congr (t := { t with hid := { t.hid with window := w } }) (s := s) hp,
            range_congr (t := { t with hid := { t.hid with window := w } }) (s := s) hp]
          rfl, k1]
        dsimp only
        rw [Ctl.bind_apply, show t.prof.stxRx = s.prof.stxRx by rw [hp], k2]
        dsimp only
        rw [Ctl.bind_apply, k3]
        exact k4
      · rw [State.windowFrames, List.map_cons, ← List.append_assoc]
        rw [List.append_assoc ps] at g4
        exact g4

/-- The responses after the first one of an exchange op (R519). -/
theorem respLoop_rest (chk : Bool) (hs : Live s) (rs : List Reply) {t : State} {ps : List (List Byte)}
    (h : Progress s t bytes ps rs rest) (hps : ∀ q ∈ ps, q ≠ [])
    (hc : ps.flatten.length + (rs.map Prod.fst).flatten.length ≤ Config.bufCap) :
    ∃ u, respLoop chk rs.length false t = .ok ⟨⟩ u ∧ Progress s u bytes (ps ++ rs.map Prod.fst) [] rest ∧
      u.ackok = t.ackok := by
  induction rs generalizing t ps with
  | nil => exact ⟨t, rfl, by simpa using h, rfl⟩
  | cons r rs ih =>
    have hne := Reply.fits_ne (h.replies.fits r (by simp))
    have hrc : ((r :: rs).map Prod.fst).flatten.length = r.1.length + (rs.map Prod.fst).flatten.length := by simp
    have hpc : (ps ++ [r.1]).flatten.length = ps.flatten.length + r.1.length := by simp
    obtain ⟨u, k1, g1, a1, -⟩ := h.recv hs
    obtain ⟨v, k2, g2, a2, -⟩ := g1.store (p := r.1) hne (by omega) hps
    obtain ⟨x, k3, g3, a3⟩ := ih g2 (by
        intro q hq
        rw [List.mem_append, List.mem_singleton] at hq
        rcases hq with hq | rfl
        · exact hps q hq
        · exact hne) (by omega)
    refine ⟨x, ?_, ?_, a3.trans (a2.trans a1)⟩
    · rw [List.length_cons]
      unfold respLoop
      rw [Ctl.bind_apply, Ctl.get_apply]
      dsimp only
      rw [Ctl.bind_apply, k1]
      dsimp only
      rw [Ctl.bind_apply, k2]
      dsimp only
      rw [if_neg (by simp)]
      exact k3
    · rw [List.append_assoc] at g3
      exact g3

/-- The first response of an exchange op (R519): stored, and ACKOK is its check. -/
theorem respLoop_first {r : Reply} (chk : Bool) (n : Nat) (hs : Live s) (h : Progress s t bytes [] (r :: rs) rest)
    (hc : r.1.length ≤ Config.bufCap) :
    ∃ u, Progress s u bytes [r.1] rs rest ∧ u.ackok = s.ackFlag r.1 ∧ u.lastst = ⟨r.1.headD 0, true⟩ ∧
      respLoop chk (n + 1) true t = if chk && !s.ackFlag r.1 then .error (.raised .noAck) u else respLoop chk n false u := by
  have hne := Reply.fits_ne (h.replies.fits r (by simp))
  obtain ⟨u, k1, g1, -, l1⟩ := h.recv hs
  obtain ⟨v, k2, g2, -, l2⟩ := g1.store (p := r.1) hne (by simpa using hc) (by simp)
  have hf : v.ackFlag r.1 = s.ackFlag r.1 := by
    simp only [State.ackFlag, State.valid, State.chkReturn, g2.step.prof, g2.step.cfgvalid]
  refine ⟨{ v with ackok := s.ackFlag r.1 }, g2.ack _, rfl, l2.trans l1, ?_⟩
  conv => lhs; unfold respLoop
  rw [Ctl.bind_apply, Ctl.get_apply]
  dsimp only
  rw [Ctl.bind_apply, k1]
  dsimp only
  rw [Ctl.bind_apply, k2]
  dsimp only
  rw [if_pos rfl, Ctl.bind_apply, Ctl.get_apply]
  dsimp only
  unfold setAckok
  rw [Ctl.bind_apply, Ctl.modify_apply]
  dsimp only
  rw [hf]
  cases hb : (chk && !s.ackFlag r.1) with
  | true => rfl
  | false => rfl

/-! ### Receives without POLL -/

/-- Without POLL a receive sends nothing (R504, D25). -/
theorem recvLoop_quiet {R : State → State → Prop} (hT : AllowsTime R) (hr : AllowsRead R) (hd : AllowsDecode R) (m : Byte)
    (dl : Deadline) (bound k : Nat) (s : State) (hb : s.busy = true) (hp : s.prof.poll = false) (hf : s.fuel < bound) :
    WithinAt R (fun p => p ≠ [] ∧ p.length ≤ 65535) (recvLoop m dl bound k) s := by
  induction bound generalizing k s with
  | zero => omega
  | succ bound ih =>
    unfold recvLoop
    refine WithinAt.bind hT.toChains
      (mark_within hT (fun h => { h with attempts := k }) (fun _ => rfl) (fun _ => rfl) s hb) fun _ t ht _ rt _ => ?_
    have ft := ((mark_within Spends.allowsTime (fun h => { h with attempts := k }) (fun _ => rfl)
      (fun _ => rfl)).ok hb ht).2.1
    have bt := rt.busy.trans hb
    have pt : t.prof.poll = false := by
      cases ht
      exact hp
    have poll : pollRequest k t = .ok ⟨⟩ t := by
      unfold pollRequest
      rw [Ctl.bind_apply, Ctl.get_apply]
      dsimp only
      rw [pt, Bool.and_false, if_neg (by simp)]
      rfl
    refine WithinAt.bind hT.toChains (P := fun _ => True) ?_ fun _ u hu _ _ _ => ?_
    · unfold WithinAt
      rw [poll]
      exact ⟨StillRunning.refl t, hT.refl t, trivial⟩
    rw [poll] at hu
    cases hu
    refine WithinAt.bind hT.toChains (decodeFrame_within hT hd .channel (fun _ => hr) m dl t bt) fun r v hv hr' rv _ => ?_
    have fv := decodeFrame_spends m dl t v r bt hv
    have bv := rv.busy.trans bt
    have pv : v.prof.poll = false := by
      have o := ((decodeFrame_within (OpStep.allowsTime Decoding) (OpStep.allowsDecode rfl) .channel
        (fun _ => OpStep.allowsRead rfl) m dl).ok bt hv).2.1
      rw [o.prof]
      exact pt
    split
    · next p => exact Within.pure hT.toChains (hr'.1 p rfl) v bv
    · refine WithinAt.bind hT.toChains (P := fun _ => True) ⟨StillRunning.refl v, hT.refl v, trivial⟩ fun w x hw _ _ _ => ?_
      cases hw
      split
      · exact Within.raise hT.toChains rfl v bv
      · next hx =>
        refine ih _ v bv pv ?_
        unfold Spends at ft
        rcases fv with h | h
        · omega
        · exact absurd h hx

theorem recvFrame_quiet {R : State → State → Prop} (hT : AllowsTime R) (hr : AllowsRead R) (hd : AllowsDecode R) (m : Byte)
    (s : State) (hb : s.busy = true) (hp : s.prof.poll = false) :
    WithinAt R (fun p => p ≠ [] ∧ p.length ≤ 65535) (recvFrame m) s := by
  unfold recvFrame recvUntil
  refine WithinAt.bind hT.toChains (P := fun _ => True) ⟨StillRunning.refl s, hT.refl s, trivial⟩ fun u t hu _ _ _ => ?_
  cases hu
  refine WithinAt.bind hT.toChains (mark_within hT (fun h => { h with huntDl := ⟨s.now, s.hid.tsnap⟩ }) (fun _ => rfl)
    (fun _ => rfl) s hb) fun _ t ht _ rt _ => ?_
  have pt : t.prof.poll = false := by
    cases ht
    exact hp
  refine WithinAt.bind hT.toChains (P := fun _ => True) ⟨StillRunning.refl t, hT.refl t, trivial⟩ fun v x hv _ _ _ => ?_
  cases hv
  exact recvLoop_quiet hT hr hd m _ _ _ t (rt.busy.trans hb) pt (Nat.lt_succ_self _)

/-- Every way c ends from s, `complete` or `raise`, meets P. -/
def Ends {α : Type} (P : State → Prop) (c : Ctl α) (s : State) : Prop :=
  match c s with
  | .ok _ t => P t
  | .error (.raised _) t => P t
  | .error .blockReset _ => False
  | .error .endless _ => False

theorem Ends.of_within {α : Type} {P : State → Prop} {R : State → State → Prop} {Q : α → Prop} {c : Ctl α} {s : State}
    (hs : Live s) (h : WithinAt R Q c s) (hp : ∀ t, R s t → P t) : Ends P c s := by
  unfold WithinAt at h
  unfold Ends
  revert h
  cases c s with
  | ok a t => exact fun h => hp t h.2.1
  | error e t =>
    cases e with
    | raised e => exact fun h => hp t h.2.1
    | blockReset => exact fun h => h.asserted hs.2
    | endless => exact id

theorem Ends.bind_ok {α β : Type} {P : State → Prop} {c : Ctl α} {k : α → Ctl β} {s t : State} {a : α}
    (h : c s = .ok a t) (hk : Ends P (k a) t) : Ends P (c >>= k) s := by
  unfold Ends
  rw [Ctl.bind_apply, h]
  exact hk

theorem Ends.bind_within {α β : Type} {P : State → Prop} {R : State → State → Prop} {Q : α → Prop} {c : Ctl α}
    {k : α → Ctl β} {s : State} (hs : Live s) (h : WithinAt R Q c s) (hp : ∀ t, R s t → P t)
    (hk : ∀ a t, R s t → Q a → Ends P (k a) t) : Ends P (c >>= k) s := by
  unfold WithinAt at h
  unfold Ends
  rw [Ctl.bind_apply]
  revert h
  cases hc : c s with
  | ok a t => exact fun h => hk a t h.2.1 h.2.2
  | error e t =>
    cases e with
    | raised e => exact fun h => hp t h.2.1
    | blockReset => exact fun h => h.asserted hs.2
    | endless => exact id

/-- What every end of the pseudocode meets, the completed command meets. -/
theorem command_ends {P : State → Prop} {rx : Bool} {ph : Phase} {body : Ctl Unit} {s : State} {g : Gate} (hs : Live s)
    (h : ∀ t, Waited (s.begin rx ph) t 0 → Live t → Ends P body t) (hf : ∀ u x e, P u → P (u.finish x e))
    (h0 : ∀ x e, P (s.finish x e)) : ∃ t, command g rx ph body s = .next t ∧ P t := by
  unfold command
  cases g.refusal with
  | some e => exact ⟨_, rfl, h0 _ _⟩
  | none =>
    obtain ⟨t, h1, w⟩ := pass_ok (hs.begin rx ph)
    have ht := h t w (w.step.live (hs.begin rx ph))
    have e : runBody body (s.begin rx ph) = body t := by
      unfold runBody
      rw [Ctl.bind_apply, h1]
    dsimp only
    rw [e]
    unfold Ends at ht
    revert ht
    cases body t with
    | ok a u => exact fun hu => ⟨_, rfl, hf _ _ _ hu⟩
    | error e u =>
      cases e with
      | raised e => exact fun hu => ⟨_, rfl, hf _ _ _ hu⟩
      | blockReset => exact fun hu => hu.elim
      | endless => exact fun hu => hu.elim

end Sys2Proof.Machine
end

