-- ==== Sys2Proof/Tests/Slice0.lean ====
section
/-! SUPPORT. The tests: ill-formed instructions, every operation's word written out bit by bit from 30_encoding.md R300-R305,
single commands with the results of 95_test_vectors.md (or worked by hand from the rules where its frames are long), and for
every statement with hypotheses a state and operands that meet them. -/

namespace Sys2Proof.Tests

-- One theorem at a time: each kernel evaluation that waits for the ones before it would hold a thread of its own.
set_option Elab.async false

open Sys2Proof Sys2Proof.Machine

/-! ### Ill-formed instructions (R301) -/

theorem test_command_marker_with_etb_is_refused :
    (Instr.sendFrame false true false).wellFormed = false ∧ (Instr.encode false true true).wellFormed = false := by decide

theorem test_check_without_response_is_refused :
    (Instr.chipErase 0 true).wellFormed = false ∧ (Instr.secSet 0 true).wellFormed = false ∧
    (Instr.secGet 0 true).wellFormed = false ∧ (Instr.secRelease 0 true).wellFormed = false ∧
    (Instr.signature 0 true).wellFormed = false ∧ (Instr.optRead 0 true).wellFormed = false ∧
    (Instr.optWrite 0 true).wellFormed = false ∧ (Instr.status 0 true).wellFormed = false ∧
    (Instr.rawCmd 0x70 0 true false).wellFormed = false := by decide

/-! ### Encodings: bits 31:23 reserved, MSEL, FTR, FBC, CHK, NRESP (3), IMM8 (8), OP (8) -/

theorem test_decode_sendFrame : decodeWord 0b00000000011100000000000000000001 = .ok (.sendFrame true true true) := by decide
theorem test_decode_recvFrame : decodeWord 0b00000000010000000000000000000010 = .ok (.recvFrame true) := by decide
theorem test_decode_recv : decodeWord 0b00000000000000000000000000000011 = .ok (.recv false) := by decide
theorem test_decode_encode : decodeWord 0b00000000010100000000000000000100 = .ok (.encode true false true) := by decide
theorem test_decode_decode : decodeWord 0b00000000010000000000000000000101 = .ok (.decode true) := by decide
theorem test_decode_rawSend : decodeWord 0b00000000000000000000000000000110 = .ok .rawSend := by decide
theorem test_decode_rawRecv : decodeWord 0b00000000000000000000000000000111 = .ok .rawRecv := by decide
theorem test_decode_entry : decodeWord 0b00000000000000000000000000010000 = .ok .entry := by decide
theorem test_decode_pin : decodeWord 0b00000000000000000000011100010001 = .ok (.pin .pinmux true) := by decide
theorem test_decode_delay : decodeWord 0b00000000000000000000000000010010 = .ok .delay := by decide
theorem test_decode_baud : decodeWord 0b00000000000000000000000000010011 = .ok .baud := by decide
theorem test_decode_unlock : decodeWord 0b00000000000000000000000000010100 = .ok .unlock := by decide
theorem test_decode_reset : decodeWord 0b00000000000000000000000000100000 = .ok .reset := by decide
theorem test_decode_read : decodeWord 0b00000000000000000000000000100001 = .ok .read := by decide
theorem test_decode_program : decodeWord 0b00000000000000000000000000100010 = .ok .program := by decide
theorem test_decode_verify : decodeWord 0b00000000000000000000000000100011 = .ok .verify := by decide
theorem test_decode_blockErase : decodeWord 0b00000000000000000000000000100100 = .ok .blockErase := by decide
theorem test_decode_checksum : decodeWord 0b00000000000000000000000000100101 = .ok .checksum := by decide
theorem test_decode_checksums : decodeWord 0b00000000000000000000000000100110 = .ok .checksums := by decide
theorem test_decode_chipErase : decodeWord 0b00000000000010010000000000100111 = .ok (.chipErase 1 true) := by decide
theorem test_decode_secSet : decodeWord 0b00000000000001000000000000101000 = .ok (.secSet 4 false) := by decide
theorem test_decode_secGet : decodeWord 0b00000000000010100000000000101001 = .ok (.secGet 2 true) := by decide
theorem test_decode_secRelease : decodeWord 0b00000000000000010000000000101010 = .ok (.secRelease 1 false) := by decide
theorem test_decode_signature : decodeWord 0b00000000000011110000000000101011 = .ok (.signature 7 true) := by decide
theorem test_decode_optRead : decodeWord 0b00000000000000110000000000101100 = .ok (.optRead 3 false) := by decide
theorem test_decode_optWrite : decodeWord 0b00000000000011010000000000101101 = .ok (.optWrite 5 true) := by decide
theorem test_decode_status : decodeWord 0b00000000000000000000000000101110 = .ok (.status 0 false) := by decide
theorem test_decode_rawCmd : decodeWord 0b00000000000111101010010100101111 = .ok (.rawCmd 0xA5 6 true true) := by decide
theorem test_decode_endSession : decodeWord 0b00000000000000000000000000110000 = .ok .endSession := by decide

/-- The words of V-ENC-2. -/
theorem test_illegal_words_are_refused : ([0x00000000, 0x00000008, 0x0000000F, 0x00000015, 0x0000001F, 0x00000031,
    0x000000FF, 0xFFFFFFFF, 0x00800003, 0x00200001, 0x00200004, 0x00200002, 0x00100003, 0x00080027, 0x00000811, 0x00010021,
    0x0000012E, 0x00100027, 0x00400020, 0x00000130] : List Word).all (fun w => !(decodeWord w).isOk) = true := by
  decide +kernel

/-- The same word read from its bytes, and from a table row with 8 bits. -/
theorem test_decode_bytes : decodeTableWord 32 0x00400003 = some (.recv true) ∧ decodeTableWord 8 0x30 = some .endSession ∧
    decodeTableWord 32 0x00000031 = none := by decide +kernel

/-! ### States of the tests -/

/-- An accepted command in the state right after reset, TIMEOUT and TSNAP 1000. -/
def accepted : State := { State.reset with busy := true, hid := { Hidden.reset with tsnap := 1000 } }

/-- TXBUF holds these bytes and TXLEN is their count. -/
def withTx (bs : List Byte) (s : State) : State :=
  { s with mem := s.mem.putAll 0x10000 bs, txlen := BitVec.ofNat 17 bs.length }

/-- Bytes arriving at a tick. -/
def arriving (t : Nat) (bs : List Byte) : List RxByte := bs.map fun b => ⟨t, b⟩

/-- The stream of the command. -/
def withRx (rx : List RxByte) (s : State) : State := { s with rx := rx }

/-- The opcode registers of the vectors: RESET 0x00, READ 0x50, PROGRAM 0x40, VERIFY 0x41, ERASE 0x22, CHECKSUM 0xB0,
CHIP_ERASE 0x20, SEC_SET 0x23, SEC_GET 0x24, SEC_RELEASE 0x25, SIGNATURE 0x26, OPT_READ 0x27, OPT_WRITE 0x2D, STATUS 0x70. -/
def opcodes : Vector Byte 14 :=
  #v[0x00, 0x50, 0x40, 0x41, 0x22, 0xB0, 0x20, 0x23, 0x24, 0x25, 0x26, 0x27, 0x2D, 0x70]

/-- The profile of program P2. -/
def generic : Profile := { Profile.reset with pulses := 1, tPulse := 10, tSettle := 100, ackCode := 0x06, opc := opcodes }

/-- The profile of program P4. -/
def ext4 : Profile :=
  { generic with family := .ext4, addrW := 4, lenW := true, stxTx := 0x11, stxRx := 0x81, tEcho := 50 }

/-- The profile of V-SEQ-4. -/
def sw8 : Profile :=
  { generic with family := .sw8, baudSw := 115200, tSync := 1000
                 ptram := (((generic.ptram.set 0 0x00006404).set 1 0x00003202).set 2 0x00003206) }

/-- The profile of program P5. -/
def alt : Profile :=
  { generic with family := .alt, probe := 0x7F, unlockCmd := 0xA5, lockAddr := 0x00FFF0, keyLo := 0x44332211, keyHi := 0x776655
                 tEcho := 100, tSpacing := 5
                 ptram := (((generic.ptram.set 0 0x00000A01).set 1 0x00000A04).set 2 0x00006405) }

/-- An accepted command with this profile, every register of it written. -/
def configured (p : Profile) : State := { accepted with prof := p, cfgvalid := 0x3FFF1FFF }

/-- An accepted session op in READY. -/
def ready : State := { configured generic with sess := .ready }

/-- The state an instruction ends in. -/
def after (i : Instr) (s : State) : State :=
  match exec i s with
  | .next t => t
  | .fault _ => State.reset
  | .refused _ => State.reset

/-- The acknowledgment frame of the device, and one with another status. -/
def ack : List Byte := [0x02, 0x01, 0x06, 0xF9, 0x03]
def nack : List Byte := [0x02, 0x01, 0x15, 0xEA, 0x03]

/-! ### Codec operations -/

/-- V-BLD-1, `.data.etb.bad` with payload 70. -/
theorem test_sendFrame : (after (.sendFrame true true true) (withTx [0x70] accepted)).sent =
    [0x02, 0x01, 0x70, 0x90, 0x17] := by decide +kernel

/-- V-BLD-2: TXLEN = 0. -/
theorem test_sendFrame_empty : (after (.sendFrame false false false) accepted).err = .param := by decide +kernel

/-- V-BLD-1, `.soh.bad` with payload 00: the checksum wraps to 0x00. -/
theorem test_encode_corrupted_wraps : (after (.encode false false true) (withTx [0x00] accepted)).rxPayload =
    [0x01, 0x01, 0x00, 0x00, 0x03] := by decide +kernel

/-- V-BLD-1, `.data.etb` with LEN_W = 1 and STX_TX = 0x11. -/
theorem test_encode_two_byte_length :
    (after (.encode true true false) (withTx [0x40, 0xDE, 0xAD, 0xBE, 0xEF] (configured ext4))).rxPayload =
      [0x11, 0x00, 0x05, 0x40, 0xDE, 0xAD, 0xBE, 0xEF, 0x83, 0x17] := by decide +kernel

/-- V-DEC-1 row 4: only the first byte is tested for 0x00. -/
theorem test_decode_skips_junk :
    let t := after (.decode true) (withTx [0x55, 0x00, 0x02, 0x01, 0x06, 0xF9, 0x03] accepted)
    t.err = .none ∧ t.rxPayload = [0x06] ∧ t.skipcnt = 2 ∧ t.regRead .diag = 0x0103F9F9 ∧ t.regRead .lastst = 0x106 ∧
      t.ackok = false := by decide +kernel

/-- V-DEC-1 row 7: the footer is checked before the checksum. -/
theorem test_decode_footer_first :
    let t := after (.decode true) (withTx [0x02, 0x01, 0x06, 0xF9 + 1, 0x04] accepted)
    t.err = .invalidFooter ∧ t.rxlen = 0 ∧ t.regRead .diag = 0x0104F9FA ∧ t.lastst.valid = false := by decide +kernel

/-- V-RX-1: a marker that arrives at the deadline is late and stays. -/
theorem test_recvFrame_late :
    let t := after (.recvFrame true) (withRx (arriving 1000 [0x02])
      { accepted with prof := { Profile.reset with tHunt := 1000 } })
    t.err = .noResponse ∧ t.rx.length = 1 ∧ t.time = 1000 := by decide +kernel

/-- V-RX-1: a corrupted frame is not retried. -/
theorem test_recvFrame_no_retry :
    let t := after (.recvFrame true) (withRx (arriving 0 ([0x02, 0x01, 0x06, 0xFA, 0x03] ++ ack)) accepted)
    t.err = .invalidChecksum ∧ t.rx.length = 5 := by decide +kernel

/-- V-RECV-3: the marker arrives before the deadline, the rest after it. -/
theorem test_recv_marker_in_time :
    let t := after (.recv true) (withRx (arriving 999 [0x02] ++ arriving 1500 [0x01, 0x06, 0xF9, 0x03]) accepted)
    t.err = .none ∧ t.rxPayload = [0x06] ∧ t.time = 1500 := by decide +kernel

/-- V-RECV-8: with POLL = 1 a status request before the second attempt. -/
theorem test_recv_polls :
    let t := after (.recv true) (withRx (arriving 0 [0x00] ++ arriving 10 ack)
      { accepted with prof := { Profile.reset with poll := true } })
    t.err = .none ∧ t.sent = [0x01, 0x01, 0x70, 0x8F, 0x03] ∧ t.time = 10 := by decide +kernel

/-- V-RAW-1. -/
theorem test_rawSend : (after .rawSend (withTx [0xA5, 0x00, 0x01, 0x00] accepted)).sent = [0xA5, 0x00, 0x01, 0x00] := by
  decide +kernel

/-- V-RAW-1: two of four bytes. -/
theorem test_rawRecv_short :
    let t := after .rawRecv (withRx (arriving 10 [0x11, 0x22]) { accepted with arg0 := 4 })
    t.err = .noResponse ∧ t.time = 1000 ∧ t.rxPayload = [0x11, 0x22] ∧ t.rxframes = 0 := by decide +kernel

/-- V-RAW-1: ARG0 = 65537. -/
theorem test_rawRecv_too_long : (after .rawRecv { accepted with arg0 := 65537 }).err = .param := by decide +kernel

/-! ### Sequencer operations -/

/-- V-SEQ-3 (d). -/
theorem test_entry_ext4 :
    let t := after .entry (withRx (arriving 80 [0xFF] ++ arriving 90 [0x00] ++ arriving 100 [0xC1])
      (configured { ext4 with pulses := 2, tPulse := 5, tSettle := 50, tEcho := 20 }))
    t.err = .none ∧ t.sent = [0x00, 0x00, 0x55] ∧ t.time = 100 ∧ t.pinSettings = [(.reset, false), (.mode, false),
      (.mode, true), (.mode, false), (.mode, true), (.reset, true)] := by decide +kernel

/-- V-SEQ-4 (a). -/
theorem test_entry_sw8 :
    let t := after .entry (withRx (arriving 300 [0x00]) (configured sw8))
    t.regRead .status = 0x000D0002 ∧ t.events = [.pin .pinmux false 0, .pin .mode true 0, .pin .data false 100,
      .pin .data true 150, .pin .pinmux true 200, .baud 115200 200, .rxb 0x00 300, .done .none 300] := by decide +kernel

/-- By hand from R501 and R211: a host read of STATUS in the last tick of ENTRY sees BUSY = 1 with STATE = RESET; STATE
changes only with BUSY. -/
theorem test_entry_state_while_running :
    let t := after .entry { configured generic with host := [⟨130, true, .read Reg.status.addr .word⟩] }
    t.resp = [.data 0x00031001] ∧ t.time = 130 ∧ t.sess = .unknown ∧ t.busy = false := by decide +kernel

/-- V-PIN-1. -/
theorem test_pin :
    let t := after (.pin .reset true) accepted
    t.regRead .status = 0x00020002 ∧ t.events = [.pin .reset true 0, .done .none 0] := by decide +kernel

/-- V-PIN-1. -/
theorem test_delay : (after .delay { accepted with arg0 := 1000, time := 5 }).time = 1005 := by decide +kernel

/-- V-PIN-1. -/
theorem test_baud : (after .baud { accepted with arg0 := 115200 }).events = [.baud 115200 0, .done .none 0] := by
  decide +kernel

/-- V-UNL-1. -/
theorem test_unlock : (after .unlock (configured alt)).sent =
    [0xA5, 0x00, 0xFF, 0xF0, 0x11, 0x22, 0x33, 0x44, 0x55, 0x66, 0x77] := by decide +kernel

/-! ### Sessions -/

/-- Program P2, its RESET. -/
theorem test_reset :
    let t := after .reset (withRx (arriving 200 ack) (configured generic))
    t.regRead .status = 0x00032006 ∧ t.sent = [0x00, 0x00, 0x01, 0x01, 0x00, 0xFF, 0x03] ∧ t.time = 200 ∧
      t.rxPayload = [0x06] := by decide +kernel

/-- V-CMD-RESET (a). -/
theorem test_reset_nack :
    let t := after .reset (withRx (arriving 200 nack) (configured generic))
    t.err = .noAck ∧ t.sess = .unknown ∧ t.rxPayload = [0x15] ∧ t.regRead .lastst = 0x115 := by decide +kernel

/-- READ of 2 bytes at 0x000100 answered with two one-byte frames, by hand from R511. -/
theorem test_read :
    let t := after .read (withRx (arriving 0 (ack ++ [0x02, 0x01, 0xAA, 0x55, 0x03] ++ [0x02, 0x01, 0xBB, 0x44, 0x17]))
      { ready with arg0 := 0x100, arg1 := 2 })
    t.err = .none ∧ t.rxPayload = [0xAA, 0xBB] ∧ t.rxframes = 2 ∧ t.ackok = true ∧ t.sent =
      [0x01, 0x07, 0x50, 0x00, 0x01, 0x00, 0x00, 0x01, 0x01, 0xA6, 0x03] ++ [0x02, 0x01, 0x06, 0xF9, 0x17] ++
      [0x02, 0x01, 0x06, 0xF9, 0x17] := by decide +kernel

/-- V-CMD-READ-3: past the end of the address space. -/
theorem test_read_past_the_end : (after .read { ready with arg0 := 0xFFFFFF, arg1 := 2 }).err = .param := by decide +kernel

/-- V-CMD-PROG (e). -/
theorem test_program_ext4 :
    let a := [0x81, 0x00, 0x01, 0x06, 0xF9, 0x03]
    let t := after .program (withRx (arriving 0 (a ++ a)) (withTx [0xDE, 0xAD, 0xBE, 0xEF]
      { ready with prof := ext4, arg0 := 0x100 }))
    t.err = .none ∧ t.ackok = true ∧ t.sent =
      [0x01, 0x00, 0x09, 0x40, 0x00, 0x00, 0x01, 0x00, 0x00, 0x00, 0x01, 0x03, 0xB2, 0x03] ++
      [0x11, 0x00, 0x05, 0x40, 0xDE, 0xAD, 0xBE, 0xEF, 0x83, 0x17] := by decide +kernel

/-- V-CMD-PROG (c): the final status does not fail the op. -/
theorem test_program_final_nack :
    let t := after .program (withRx (arriving 0 (ack ++ nack)) (withTx [0x01] ready))
    t.err = .none ∧ t.ackok = false ∧ t.rxPayload = [0x15] := by decide +kernel

/-- V-CMD-VER. -/
theorem test_verify_empty :
    let t := after .verify ready
    t.err = .none ∧ t.sent = [] ∧ t.rxlen = 0 ∧ t.ackok = false ∧ t.sess = .ready := by decide +kernel

/-- V-CMD-ERASE (b). -/
theorem test_blockErase :
    let t := after .blockErase (withRx (arriving 0 (ack ++ nack)) { ready with arg0 := 0x1000 })
    t.err = .noAck ∧ t.rxPayload = [0x06, 0x15] ∧ t.rxframes = 2 ∧ t.sess = .ready ∧ t.sent =
      [0x01, 0x07, 0x22, 0x00, 0x10, 0x00, 0x00, 0x1F, 0xFF, 0xA9, 0x03] := by decide +kernel

/-- V-CMD-ERASE (d): the block sizes on both sides of BLK_SPLIT. -/
theorem test_block_sizes :
    let s := { ready with prof := { ext4 with blkA := 0x40, blkB := 0x400, blkSplit := 0x2000 } }
    s.range 0x1FC0 (0x1FC0 + s.blockSize 0x1FC0 - 1) = [0x00, 0x00, 0x1F, 0xC0, 0x00, 0x00, 0x1F, 0xFF] ∧
    s.range 0x2000 (0x2000 + s.blockSize 0x2000 - 1) = [0x00, 0x00, 0x20, 0x00, 0x00, 0x00, 0x23, 0xFF] := by decide +kernel

/-- V-CMD-CHK, the first row. -/
theorem test_checksum :
    let t := after .checksum (withRx (arriving 0 [0x02, 0x02, 0x06, 0x12, 0xE6, 0x03]) { ready with arg1 := 0xFF })
    t.err = .none ∧ t.rxPayload = [0x06, 0x12] ∧ t.ackok = false ∧ t.sent =
      [0x01, 0x07, 0xB0, 0x00, 0x00, 0x00, 0x00, 0x00, 0xFF, 0x4A, 0x03] := by decide +kernel

/-- V-CMD-CHK, the third row: the last window is one byte. -/
theorem test_checksums :
    let t := after .checksums (withRx (arriving 0 (ack ++ ack)) { ready with arg0 := 0x10, arg1 := 0x110 })
    t.err = .none ∧ t.rxframes = 2 ∧ t.sent =
      [0x01, 0x07, 0xB0, 0x00, 0x00, 0x10, 0x00, 0x01, 0x0F, 0x29, 0x03] ++
      [0x01, 0x07, 0xB0, 0x00, 0x01, 0x10, 0x00, 0x01, 0x10, 0x27, 0x03] := by decide +kernel

/-- V-CMD-XCHG, CHIP_ERASE. -/
theorem test_chipErase :
    let t := after (.chipErase 1 true) (withRx (arriving 0 ack) ready)
    t.err = .none ∧ t.ackok = true ∧ t.sent = [0x01, 0x01, 0x20, 0xDF, 0x03] := by decide +kernel

/-- By hand from R519 and R521: SEC_SET without responses. -/
theorem test_secSet : (after (.secSet 0 false) (withTx [0x01] ready)).sent = [0x01, 0x02, 0x23, 0x01, 0xDA, 0x03] := by
  decide +kernel

/-- V-CMD-XCHG, SEC_GET. -/
theorem test_secGet :
    let t := after (.secGet 2 true) (withRx (arriving 0 (ack ++ [0x02, 0x05, 0xFE, 0xFF, 0xFF, 0x03, 0x00, 0xFC, 0x03])) ready)
    t.err = .none ∧ t.rxlen = 6 ∧ t.rxframes = 2 ∧ t.regRead (.rxflen 0) = 1 ∧ t.regRead (.rxflen 1) = 5 ∧
      t.ackok = true := by decide +kernel

/-- V-CMD-XCHG, SEC_RELEASE with and without CHK. -/
theorem test_secRelease :
    let t := after (.secRelease 1 true) (withRx (arriving 0 nack) ready)
    let u := after (.secRelease 1 false) (withRx (arriving 0 nack) ready)
    t.err = .noAck ∧ t.rxPayload = [0x15] ∧ t.ackok = false ∧ u.err = .none ∧ u.ackok = false := by decide +kernel

/-- By hand from R519 and R524. -/
theorem test_signature : (after (.signature 0 false) ready).sent = [0x01, 0x01, 0x26, 0xD9, 0x03] := by decide +kernel

/-- By hand from R519 and R525. -/
theorem test_optRead : (after (.optRead 0 false) ready).sent = [0x01, 0x01, 0x27, 0xD8, 0x03] := by decide +kernel

/-- V-CMD-XCHG, OPT_WRITE. -/
theorem test_optWrite :
    let t := after (.optWrite 1 true) (withRx (arriving 0 ack) (withTx [0x01, 0x02, 0x03, 0x04] ready))
    t.err = .none ∧ t.sent = [0x01, 0x05, 0x2D, 0x01, 0x02, 0x03, 0x04, 0xC4, 0x03] := by decide +kernel

/-- V-CMD-XCHG, STATUS with NRESP = 0: the answer stays in the stream. -/
theorem test_status :
    let t := after (.status 0 false) (withRx (arriving 0 ack) ready)
    t.err = .none ∧ t.sent = [0x01, 0x01, 0x70, 0x8F, 0x03] ∧ t.rx.length = 5 ∧ t.ackok = false := by decide +kernel

/-- V-CMD-XCHG, RAW_CMD with the checksum corrupted. -/
theorem test_rawCmd :
    let t := after (.rawCmd 0x70 1 false true) (withRx (arriving 0 nack) ready)
    t.err = .none ∧ t.sent = [0x01, 0x01, 0x70, 0x90, 0x03] ∧ t.rxPayload = [0x15] := by decide +kernel

/-- V-CMD-END. -/
theorem test_endSession :
    let t := after .endSession ready
    t.err = .none ∧ t.sess = .unknown ∧ t.events = [.done .none 0] := by decide +kernel

/-! ### The host (V-ACC-1, V-HOST-2, V-HOST-3, V-HOST-5) -/

/-- A host action at tick 0. -/
def offering (act : HostAct) (s : State) : State := { s with host := [⟨0, true, act⟩] }

/-- The state one step later. -/
def stepped (s : State) : State :=
  match step s with
  | .next t => t
  | .fault _ => State.reset
  | .refused _ => State.reset

/-- V-ACC-1: READ right after reset, through the CMD register. -/
theorem test_read_from_reset :
    let t := stepped (offering (.write 0x004 .word 0x00000021) State.reset)
    t.regRead .status = 0x00000802 ∧ t.cmd = 0x21 := by decide +kernel

/-- V-HOST-2: ADDR_W = 5 is illegal. -/
theorem test_illegal_profile :
    let t := stepped (offering (.write 0x080 .word 0x00000014) State.reset)
    t.wign = true ∧ t.cfgvalid = 0x20000000 ∧ t.prof = Profile.reset := by decide +kernel

/-- V-HOST-3: writes while DELAY runs. -/
theorem test_writes_while_delay_runs :
    let t := after .delay { accepted with cmd := 0x12, arg0 := 1000, host := [⟨5, true, .write 0x004 .word 0x06⟩,
      ⟨6, true, .write 0x010 .word 3⟩, ⟨7, true, .write 0x024 .word 5⟩] }
    t.regRead .status = 0x0000001A ∧ t.cmd = 0x12 ∧ t.arg0 = 1000 ∧ t.timeout = 5 ∧ t.time = 1000 := by decide +kernel

/-- V-HOST-5. -/
theorem test_bus_lanes :
    let s := { State.reset with mem := Memory.putAll [] 0x10000 [0x70, 0x01, 0x02, 0x03] }
    (s.busRead 0x10000 .word).resp = [.data 0x03020170] ∧ (s.busRead 0x10002 .half).resp = [.data 0x0302] ∧
    (s.busRead 0x10001 .half).resp = [.busError] ∧ (s.busWrite 0x004 .byte 0x06).resp = [.busError] := by decide +kernel

/-! ### Witnesses: states and operands that meet the hypotheses of the statements -/

theorem noReset_nil : NoReset [] := fun _ h => absurd h (by simp)

/-- A command that starts with ACKOK, DONE and ERR cleared and no host action to come. -/
theorem accepted_of (s : State) (h1 : s.busy = true) (h2 : s.done = false) (h3 : s.err = .none) (h4 : s.ackok = false)
    (h5 : s.host = []) : Accepted s := ⟨h1, h2, h3, h4, h5 ▸ noReset_nil⟩

/-- An accepted command answers a next state. -/
theorem exec_after (i : Instr) {s : State} (h : Accepted s) : exec i s = .next (after i s) := by
  unfold after
  rcases exec_cases i s h.busy with ⟨t, e, ht, -⟩ | ⟨t, ht, -⟩ <;> rw [ht]

theorem queued_of (bs : List Byte) (rest : List RxByte) (s : State) :
    Queued { s with rx := arriving 0 bs ++ rest } bs rest := by
  refine ⟨arriving 0 bs, rfl, by simp [arriving, Function.comp_def], fun x hx => ?_⟩
  simp only [arriving, List.mem_map] at hx
  obtain ⟨b, -, rfl⟩ := hx
  exact Nat.zero_le _

theorem two_of {a x y : BitVec 18} (h : a ∈ [x, y]) : a = x ∨ a = y := by
  rcases List.mem_cons.1 h with h | h
  · exact .inl h
  · exact .inr (List.mem_singleton.1 h)

theorem nextAct_of (act : HostAct) (s : State) : NextAct (offering act s) act := ⟨_, _, rfl, rfl⟩

/-! #### Encoding and stepping -/

theorem witness_DecodeEncodeRoundTrip : (Instr.rawCmd 0xFF 7 true true).wellFormed = true := by decide

theorem witness_DecodedWordIsTheEncoding : decodeWord 0x001FFF2F = .ok (.rawCmd 0xFF 7 true true) := by decide

/-- The OP values at the ends of the reserved ranges, and those next to them. -/
theorem witness_ReservedOperationsAreRefused :
    (∀ op ∈ ([0x00, 0x08, 0x0F, 0x15, 0x1F, 0x31, 0xFF] : List Nat),
      op = 0 ∨ (0x08 ≤ op ∧ op ≤ 0x0F) ∨ (0x15 ≤ op ∧ op ≤ 0x1F) ∨ 0x31 ≤ op) ∧
    (∀ op ∈ ([0x01, 0x07, 0x10, 0x14, 0x20, 0x30] : List Nat),
      ¬ (op = 0 ∨ (0x08 ≤ op ∧ op ≤ 0x0F) ∨ (0x15 ≤ op ∧ op ≤ 0x1F) ∨ 0x31 ≤ op)) := by decide

/-- One word for each way of R601, and a legal one. -/
theorem witness_IllegalWordsCompleteWithBadop :
    (IllegalWord 0x00000031 ∧ IllegalWord 0x00800003 ∧ IllegalWord 0x0000012E ∧ IllegalWord 0x00010021 ∧
      IllegalWord 0x00080021 ∧ IllegalWord 0x00100003 ∧ IllegalWord 0x00200002 ∧ IllegalWord 0x00400020 ∧
      IllegalWord 0x00200001 ∧ IllegalWord 0x00080027 ∧ IllegalWord 0x00000811) ∧ ¬ IllegalWord 0x00000711 := by
  refine ⟨⟨?_, ?_, ?_, ?_, ?_, ?_, ?_, ?_, ?_, ?_, ?_⟩, ?_⟩ <;> unfold IllegalWord <;> decide +kernel

/-- An accepted CMD write, one for each way a CMD access runs no instruction, a read, a reset, and no host action. -/
theorem witness_StepRunsTheDecodedCommand :
    (offering (.write Reg.cmd.addr .word 0x30) State.reset).host = [⟨0, true, .write Reg.cmd.addr .word 0x30⟩] ∧
    State.reset.busy = false ∧ decodeWord 0x30 = .ok .endSession ∧ State.reset.host = [] ∧
    (offering (.write Reg.cmd.addr .word 0x30) accepted).host = [⟨0, true, .write Reg.cmd.addr .word 0x30⟩] ∧
    accepted.busy = true ∧ Size.byte ≠ .word ∧ Reg.status.addr ≠ Reg.cmd.addr ∧
    (offering (.read Reg.status.addr .word) State.reset).host = [⟨0, true, .read Reg.status.addr .word⟩] ∧
    (offering (.reset 3) State.reset).host = [⟨0, true, .reset 3⟩] := by decide

theorem witness_EveryStepKeepsTheInvariant : (State.reset.idle).Inv := by
  refine ⟨rfl, .inl rfl, rfl, by decide, by decide, by decide, by decide, by decide, by decide, ?_, by decide, ?_,
    by decide, by decide, by decide, ?_, by decide, by decide, by decide⟩
  · exact fun _ _ _ _ => rfl
  · rintro k (rfl | rfl | rfl | rfl | rfl) <;> decide
  · exact fun j _ => by revert j; decide

/-- A DELAY of 1000 ticks with an access served before the reset at tick 999, and a RECV whose reset is asserted while it
waits for its first byte. -/
theorem witness_ResetInputClearsTheBlock :
    NextAct (offering (.reset 3) State.reset) (.reset 3) ∧
    (∀ x ∈ ([(.delay, { accepted with arg0 := 1000, host := [⟨5, true, .read Reg.status.addr .word⟩] }),
        (.recv true, accepted)] : List (Instr × State)),
      Accepted x.2 ∧ exec x.1 x.2 = .next (after x.1 x.2) ∧ (after x.1 x.2).err ≠ .config ∧
      (after x.1 x.2).err ≠ .state ∧ (after x.1 x.2).err ≠ .param ∧ (after x.1 x.2).host = [] ∧
      999 < (after x.1 x.2).time) := by
  refine ⟨nextAct_of _ _, fun x hx => ?_⟩
  simp only [List.mem_cons, List.not_mem_nil, or_false] at hx
  rcases hx with rfl | rfl
  · have acc : Accepted { accepted with arg0 := 1000, host := [⟨5, true, .read Reg.status.addr .word⟩] } := by
      refine ⟨rfl, rfl, rfl, rfl, fun h hh d => ?_⟩
      rw [List.mem_singleton] at hh
      rw [hh]
      exact fun e => by cases e
    exact ⟨acc, exec_after _ acc, by decide +kernel⟩
  · have acc : Accepted accepted := accepted_of _ rfl rfl rfl rfl rfl
    exact ⟨acc, exec_after _ acc, by decide +kernel⟩

/-! #### Host accesses -/

/-- On both sides of the buffers' ends. -/
theorem witness_WrongAccessesGetABusError :
    ∀ a ∈ ([0x0FFFC, 0x0FFFF, 0x10000, 0x10001, 0x2FFFE, 0x2FFFF, 0x30000, 0x30002] : List (BitVec 18)),
      NextAct (offering (.read a .half) State.reset) (.read a .half) ∧
      NextAct (offering (.write a .half 1) accepted) (.write a .half 1) ∧
      HostAct.write a .half 1 ≠ .write Reg.cmd.addr .word 1 := by
  intro a _
  exact ⟨nextAct_of _ _, nextAct_of _ _, by simp⟩

theorem witness_BufferAccessesAreLittleEndian :
    State.reset.busy = false ∧ NextAct (offering (.write 0x1FFFC .word 0x01020304) State.reset) (.write 0x1FFFC .word 0x01020304) ∧
    0x10000 ≤ (0x1FFFC : BitVec 18).toNat ∧ (0x1FFFC : BitVec 18).toNat < 0x20000 ∧
    (0x1FFFC : BitVec 18).toNat % Size.word.bytes = 0 := ⟨rfl, nextAct_of _ _, by decide, by decide, by decide⟩

/-- RXBUF's ends, and TXBUF's while BUSY = 1. -/
theorem witness_IgnoredBufferWritesSetWign :
    (∀ a ∈ ([0x20000, 0x2FFFF] : List (BitVec 18)), NextAct (offering (.write a .byte 1) State.reset) (.write a .byte 1) ∧
      a.toNat % Size.byte.bytes = 0 ∧ 0x20000 ≤ a.toNat ∧ a.toNat < 0x30000) ∧
    (∀ a ∈ ([0x10000, 0x1FFFF] : List (BitVec 18)), NextAct (offering (.write a .byte 1) accepted) (.write a .byte 1) ∧
      a.toNat % Size.byte.bytes = 0 ∧ 0x10000 ≤ a.toNat ∧ a.toNat < 0x20000) ∧ accepted.busy = true :=
  ⟨fun a ha => ⟨nextAct_of _ _, by rcases two_of ha with rfl | rfl <;> decide⟩,
    fun a ha => ⟨nextAct_of _ _, by rcases two_of ha with rfl | rfl <;> decide⟩, rfl⟩

theorem witness_WritesWhileBusy :
    accepted.busy = true ∧ (∀ a ∈ ([0x10000, 0x1FFFC] : List (BitVec 18)), 0x10000 ≤ a.toNat ∧ a.toNat < 0x20000 ∧
      a.toNat % Size.word.bytes = 0) ∧
    HostInput.due ⟨5, true, .write 0x10000 .word 1⟩ 5 = true ∧
    HostInput.due ⟨5, false, .write 0x10000 .word 1⟩ 6 = true :=
  ⟨rfl, fun a ha => by rcases two_of ha with rfl | rfl <;> decide, by decide, by decide⟩

theorem witness_LockedRegistersNeedUnknown :
    NextAct (offering (.write (Reg.locked .tFrame).addr .word 5) State.reset) (.write (Reg.locked .tFrame).addr .word 5) ∧
    State.reset.sess = .unknown ∧ State.reset.busy = false ∧ ¬ LockedReg.Illegal .tFrame 5 ∧
    NextAct (offering (.write (Reg.locked .tFrame).addr .word 5) { State.reset with sess := .ready })
      (.write (Reg.locked .tFrame).addr .word 5) ∧ accepted.busy = true :=
  ⟨nextAct_of _ _, rfl, rfl, id, nextAct_of _ _, rfl⟩

/-- Legal values at the ends of their ranges. -/
theorem witness_LockedWritesStoreAndMarkValid :
    ¬ LockedReg.Illegal .profile 0xFFFFFFF0 ∧ ¬ LockedReg.Illegal .profile 0x00000004 ∧
    ¬ LockedReg.Illegal .blkszA 0x01000000 ∧ ¬ LockedReg.Illegal .blkszB 1 ∧ ¬ LockedReg.Illegal .markers 0x8111 ∧
    ¬ LockedReg.Illegal .baudSw 1 ∧ State.reset.sess = .unknown ∧ State.reset.busy = false ∧
    NextAct (offering (.write (Reg.locked .blkszB).addr .word 1) State.reset) (.write (Reg.locked .blkszB).addr .word 1) := by
  refine ⟨?_, ?_, ?_, ?_, ?_, ?_, rfl, rfl, nextAct_of _ _⟩ <;> simp [LockedReg.Illegal]

/-- Illegal values at the ends of their ranges. -/
theorem witness_IllegalValuesAreIgnored :
    LockedReg.Illegal .profile 0x00000000 ∧ LockedReg.Illegal .profile 0x00000014 ∧ LockedReg.Illegal .markers 0x0303 ∧
    LockedReg.Illegal .blkszA 0x01000001 ∧ LockedReg.Illegal .blkszB 0x02000000 ∧ LockedReg.Illegal .baudSw 0 ∧
    State.reset.sess = .unknown ∧ State.reset.busy = false ∧ 65536 < (65537 : Word).toNat ∧
    NextAct (offering (.write (Reg.locked .baudSw).addr .word 0) State.reset) (.write (Reg.locked .baudSw).addr .word 0) ∧
    NextAct (offering (.write Reg.txlen.addr .word 65537) State.reset) (.write Reg.txlen.addr .word 65537) := by
  refine ⟨?_, ?_, ?_, ?_, ?_, ?_, rfl, rfl, by decide, nextAct_of _ _, nextAct_of _ _⟩ <;> simp [LockedReg.Illegal]

/-- The unassigned offset 0x03C and the first reserved one. -/
theorem witness_UnassignedAndReadOnlyOffsets :
    (∀ a ∈ ([0x0003C, 0x30000] : List (BitVec 18)), a.toNat % 4 = 0 ∧ (a.toNat < 0x10000 ∨ 0x30000 ≤ a.toNat) ∧
      (∀ r : Reg, r.addr ≠ a) ∧ NextAct (offering (.read a .word) State.reset) (.read a .word) ∧
      NextAct (offering (.write a .word 1) State.reset) (.write a .word 1)) ∧
    NextAct (offering (.write Reg.now.addr .word 1) State.reset) (.write Reg.now.addr .word 1) := by
  refine ⟨fun a ha => ?_, nextAct_of _ _⟩
  refine ⟨by rcases two_of ha with rfl | rfl <;> decide, by rcases two_of ha with rfl | rfl <;> decide,
    fun r hr => ?_, nextAct_of _ _, nextAct_of _ _⟩
  have h1 := Reg.ofOffset_offset r
  rw [← Reg.addr_toNat, hr] at h1
  simp only [List.mem_cons, List.not_mem_nil, or_false] at ha
  rcases ha with rfl | rfl <;> exact nomatch h1

theorem witness_StatusWritesClearStickyBits :
    NextAct (offering (.write Reg.status.addr .word 0x1A) State.reset) (.write Reg.status.addr .word 0x1A) := nextAct_of _ _

theorem witness_OperandWritesAreStored :
    State.reset.busy = false ∧ (65536 : Word).toNat ≤ 65536 ∧
    (∀ r ∈ ([.arg0, .arg1, .txlen, .timeout, .ctrl] : List Reg),
      NextAct (offering (.write r.addr .word 65536) State.reset) (.write r.addr .word 65536)) :=
  ⟨rfl, by decide, fun _ _ => nextAct_of _ _⟩

theorem witness_ReadsHaveNoSideEffects :
    (∀ a ∈ ([0x10000, 0x2FFFC] : List (BitVec 18)), State.reset.busy = false ∧ 0x10000 ≤ a.toNat ∧ a.toNat < 0x30000 ∧
      a.toNat % Size.word.bytes = 0 ∧ NextAct (offering (.read a .word) State.reset) (.read a .word)) ∧
    (offering (.read Reg.id.addr .word) State.reset).host = [⟨0, true, .read Reg.id.addr .word⟩] :=
  ⟨fun a ha => ⟨rfl, by rcases two_of ha with rfl | rfl <;> decide, by rcases two_of ha with rfl | rfl <;> decide, by rcases two_of ha with rfl | rfl <;> decide,
    nextAct_of _ _⟩, rfl⟩

/-! #### Acceptance and completion -/

theorem witness_EveryCommandFinishesOnce :
    (offering (.write Reg.cmd.addr .word 0x21) State.reset).host = [⟨0, true, .write Reg.cmd.addr .word 0x21⟩] ∧
    State.reset.busy = false ∧ NoReset [] := ⟨rfl, rfl, noReset_nil⟩

theorem accepted_accepted : Accepted accepted := accepted_of _ rfl rfl rfl rfl rfl

theorem ready_accepted : Accepted ready := accepted_of _ rfl rfl rfl rfl rfl

theorem ready_open : SessionOpen ready := ⟨by decide, rfl⟩

theorem witness_CommandsKeepTheirOperands : Accepted accepted := accepted_accepted

theorem witness_SessionStateTable : Accepted accepted ∧ Accepted ready := ⟨accepted_accepted, ready_accepted⟩

theorem witness_SessionOpsNeedReady :
    (Instr.rawCmd 0 0 false false).isSession = true ∧ accepted.prof.family ≠ .alt ∧ accepted.sess ≠ .ready := by decide

theorem witness_FamilyRestrictions :
    (Instr.read.isSession = true ∧ (configured alt).prof.family = .alt) ∧ (configured generic).prof.family ≠ .alt ∧
    (Instr.entry.isSession = false ∧ Instr.entry ≠ .unlock ∧ Accepted (configured sw8) ∧
      (∀ k, k ≤ 29 → (configured sw8).valid k = true ∨ k = 13 ∨ k = 14 ∨ k = 15) ∧ (configured sw8).trainClean = true) :=
  ⟨by decide, by decide, rfl, by decide, accepted_of _ rfl rfl rfl rfl rfl, by decide, by decide +kernel⟩

/-- An unwritten register, and a train with a reserved bit. -/
theorem witness_UnwrittenRegistersAreRefused :
    (SessionOpen { accepted with sess := .ready } ∧ 17 ∈ configNeeds .read accepted.prof.family ∧
      accepted.valid 17 = false) ∧
    ((configured sw8).prof.family = .sw8 ∧
      ∃ e ∈ (configured { sw8 with ptram := sw8.ptram.set 1 0x00003212 }).train, e.extractLsb' 4 4 ≠ 0) :=
  ⟨⟨⟨by decide, rfl⟩, by decide, by decide⟩, rfl, 0x00003212, by decide +kernel, by decide⟩

theorem ready_needs (i : Instr) (h : ∀ k ∈ configNeeds i .generic, k < 30 ∧ k ≠ 13 ∧ k ≠ 14 ∧ k ≠ 15 := by decide) :
    ∀ k ∈ configNeeds i ready.prof.family, ready.valid k = true := by
  intro k hk
  have := h k hk
  have all : ∀ k, k < 30 → k ≠ 13 ∧ k ≠ 14 ∧ k ≠ 15 → ready.valid k = true := by decide
  exact all k this.1 this.2

/-- READ at both sides of its bounds. -/
theorem witness_OutOfRangeOperandsAreRefused :
    Accepted ready ∧ SessionOpen ready ∧ (∀ k ∈ configNeeds .read ready.prof.family, ready.valid k = true) ∧
    paramBad .read ready ∧ paramBad .read { ready with arg0 := 0xFFFFFF, arg1 := 2 } ∧
    ¬ paramBad .read { ready with arg0 := 0xFFFFFF, arg1 := 1 } ∧ ¬ paramBad .read { ready with arg1 := 65536 } ∧
    paramBad .read { ready with arg1 := 65537 } := by
  refine ⟨ready_accepted, ready_open, ready_needs .read, ?_, ?_, ?_, ?_, ?_⟩ <;> unfold paramBad <;> decide

/-! #### Frames -/

theorem witness_SendingOpsFrame : Accepted accepted ∧ ∃ m f b, Instr.sendFrame true true false = .sendFrame m f b :=
  ⟨accepted_accepted, _, _, _, rfl⟩

theorem witness_PinOpsFrame : Accepted accepted ∧ ∃ p v, Instr.pin .data true = .pin p v := ⟨accepted_accepted, _, _, rfl⟩

theorem witness_OfflineCodecFrame : Accepted accepted ∧ ∃ m, Instr.decode true = .decode m := ⟨accepted_accepted, _, rfl⟩

theorem witness_ReceivingOpsFrame : Accepted accepted ∧ ∃ m, Instr.recv true = .recv m := ⟨accepted_accepted, _, rfl⟩

theorem witness_SessionOpsFrame : Accepted ready ∧ Instr.read.isSession = true := ⟨ready_accepted, rfl⟩

/-! #### Codec -/

/-- The least and greatest payloads of the two widths. -/
theorem witness_FrameSizes : encodable false 1 = true ∧ encodable false 256 = true ∧ encodable true 1 = true ∧
    encodable true 65535 = true ∧ encodable false 257 = false ∧ encodable true 65536 = false ∧ encodable true 0 = false := by
  decide

/-- Payloads of the two widths; the narrowest and the widest address. -/
theorem witness_FrameLayout : encodable false [(0x70 : Byte)].length = true ∧ encodable true [(0x70 : Byte)].length = true ∧
    (∀ w ∈ ([1, 4] : List (BitVec 3)), 0 < { Profile.reset with addrW := w }.addrW.toNat) := by
  decide

/-- TXLEN at its bounds, and the alternate family's registers. -/
theorem witness_SendingOpsSendTheirBytes :
    Accepted { accepted with txlen := 256 } ∧ 1 ≤ (1 : BitVec 17).toNat ∧
    (256 : BitVec 17).toNat ≤ largestPayload { accepted with txlen := 256 } ∧ Accepted (configured alt) ∧
    (configured alt).prof.family = .alt ∧ ∀ k ∈ [3, 4, 5, 6], (configured alt).valid k = true :=
  ⟨accepted_of _ rfl rfl rfl rfl rfl, by decide, by decide, accepted_of _ rfl rfl rfl rfl rfl, rfl, by decide⟩

/-- The longest frame that fits in RXBUF, and the next one (V-BLD-2). -/
theorem witness_EncodeStoresTheFrame :
    Accepted { configured ext4 with txlen := 65532 } ∧ 65532 ≤ largestPayload (configured ext4) ∧
    (buildFrame true 0x01 { configured ext4 with txlen := 65531 }.txPayload 0x03 false).length = 65536 ∧
    (buildFrame true 0x01 { configured ext4 with txlen := 65532 }.txPayload 0x03 false).length = 65537 := by
  refine ⟨accepted_of _ rfl rfl rfl rfl rfl, by decide, ?_, ?_⟩ <;>
    rw [buildFrame_length, State.txPayload, List.length_map, List.length_range] <;> rfl

theorem junk_of (m : Byte) (bs : List Byte) (h : (bs.all (· != m) && bs.head? != some 0 && decide (bs.length ≤ 256)) = true) :
    Junk m bs := by
  simp only [Bool.and_eq_true, List.all_eq_true, bne_iff_ne, decide_eq_true_eq] at h
  exact ⟨h.1.1, h.1.2, h.2⟩

/-- The greatest number of junk bytes (V-DEC-1 rows 4 and 5), and bytes after the frame. -/
theorem witness_DecodeReturnsThePayload :
    Accepted (withTx ([0x55, 0x00] ++ ack ++ [0x99]) accepted) ∧ Junk 0x02 [0x55, 0x00] ∧
    Junk 0x02 (List.replicate 256 0x55) ∧ encodable false [(0x06 : Byte)].length = true ∧
    (withTx ([0x55, 0x00] ++ ack ++ [0x99]) accepted).txPayload =
      [0x55, 0x00] ++ buildFrame false 0x02 [0x06] 0x03 false ++ [0x99] :=
  ⟨accepted_of _ rfl rfl rfl rfl rfl, junk_of _ _ (by decide), junk_of _ _ (by decide +kernel), by decide, by decide +kernel⟩

/-- A checksum byte and a footer changed, from TXBUF and from the channel (V-SRC-3). -/
theorem witness_CorruptedFramesAreRejected :
    encodable false [(0x06 : Byte)].length = true ∧
    (withTx ([0x02] ++ lenField false 1 ++ [0x06] ++ [0xFA] ++ [0x03]) accepted).txPayload =
      [0x02] ++ lenField false 1 ++ [0x06] ++ [0xFA] ++ [0x03] ∧ (0xFA : Byte) ≠ csum (lenField false 1 ++ [0x06]) ∧
    Queued (withRx (arriving 0 ([0x02] ++ lenField false 1 ++ [0x06] ++ [0xF9] ++ [0x04]) ++ []) accepted)
      ([0x02] ++ lenField false 1 ++ [0x06] ++ [0xF9] ++ [0x04]) [] ∧ (0x04 : Byte) ≠ 0x03 ∧ (0x04 : Byte) ≠ 0x17 :=
  ⟨by decide, by decide +kernel, by decide, queued_of _ _ _, by decide, by decide⟩

/-- Each clause at the ends of its ranges: a first byte 0x00; no byte, and 256 bytes without the marker; 257 of them and a
byte after; the length field missing, and its second byte missing; a 2-byte length of 0; the two ends of a cut frame; a
wrong footer with a right checksum, and a wrong checksum with a right footer. -/
theorem witness_DecodeErrors :
    (withTx [0x00] accepted).txPayload = [0x00] ∧
    (withTx [] accepted).txPayload = [] ∧ (∀ b ∈ List.replicate 256 (0x55 : Byte), b ≠ 0x02) ∧
    (List.replicate 257 (0x55 : Byte)).length = 257 ∧
    (withTx (List.replicate 257 0x55 ++ [0x02]) accepted).txPayload = List.replicate 257 0x55 ++ [0x02] ∧
    Junk 0x02 [0x55] ∧ (withTx ([0x55] ++ 0x02 :: []) accepted).txPayload = [0x55] ++ 0x02 :: [] ∧
    Junk 0x81 [0x55] ∧ (configured ext4).prof.lenW = true ∧
    (withTx ([0x55] ++ 0x81 :: [0x00]) (configured ext4)).txPayload = [0x55] ++ 0x81 :: [0x00] ∧
    ([0x00] : List Byte).length ≤ true.toNat ∧
    (withTx ([0x55] ++ 0x81 :: 0 :: 0 :: [0x06]) (configured ext4)).txPayload = [0x55] ++ 0x81 :: 0 :: 0 :: [0x06] ∧
    (∀ k ∈ ([2, 4] : List Nat), (withTx ([0x55] ++ (buildFrame false 0x02 [0x06] 0x03 false).take k) accepted).txPayload =
      [0x55] ++ (buildFrame false 0x02 [0x06] 0x03 false).take k ∧ false.toNat + 2 ≤ k ∧ k ≤ false.toNat + 1 + 3) ∧
    encodable false [(0x06 : Byte)].length = true ∧ (0x04 : Byte) ≠ 0x03 ∧ (0x04 : Byte) ≠ 0x17 ∧
    (withTx ([0x55] ++ ([0x02] ++ lenField false 1 ++ [0x06] ++ [0xF9] ++ [0x04]) ++ []) accepted).txPayload =
      [0x55] ++ ([0x02] ++ lenField false 1 ++ [0x06] ++ [0xF9] ++ [0x04]) ++ [] ∧
    (0xFA : Byte) ≠ csum (lenField false 1 ++ [0x06]) := by
  refine ⟨by decide +kernel, by decide +kernel, fun b hb => by rw [List.eq_of_mem_replicate hb]; decide,
    List.length_replicate, by decide +kernel, junk_of _ _ (by decide), by decide +kernel, junk_of _ _ (by decide), rfl,
    by decide +kernel, by decide, by decide +kernel, by decide +kernel, by decide, by decide, by decide, by decide +kernel,
    by decide⟩

theorem witness_RecvFrameReturnsThePayload :
    Accepted (withRx (arriving 0 ([0x55] ++ buildFrame false 0x02 [0x06] 0x03 false) ++ []) accepted) ∧ Junk 0x02 [0x55] ∧
    Queued (withRx (arriving 0 ([0x55] ++ buildFrame false 0x02 [0x06] 0x03 false) ++ []) accepted)
      ([0x55] ++ buildFrame false 0x02 [0x06] 0x03 false) [] ∧ encodable false [(0x06 : Byte)].length = true ∧
    accepted.rx = [] ∧ accepted.lags = [] ∧ accepted.hid.tacc = accepted.now :=
  ⟨accepted_of _ rfl rfl rfl rfl rfl, junk_of _ _ (by decide), queued_of _ _ _, by decide, rfl, rfl, rfl⟩

/-- At the first attempt; and behind a failed attempt of each kind, with a draw of 999 ticks that leads up to the deadline
and no further. -/
theorem witness_RecvReturnsThePayload :
    Accepted (withRx (arriving 0 ([0x55] ++ buildFrame false 0x02 [0x06] 0x17 false) ++ []) accepted) ∧ Junk 0x02 [0x55] ∧
    Queued (withRx (arriving 0 ([0x55] ++ buildFrame false 0x02 [0x06] 0x17 false) ++ []) accepted)
      ([0x55] ++ buildFrame false 0x02 [0x06] 0x17 false) [] ∧ encodable false [(0x06 : Byte)].length = true ∧
    (∀ b ∈ ([[0x00], List.replicate 257 0x55, [] ++ ([0x02] ++ lenField false 1 ++ [0x06] ++ [0xFA] ++ [0x03])] : List (List Byte)),
      FailedAttempt false 0x02 b) ∧
    FailedAttempt true 0x81 ([] ++ [0x81, 0x00, 0x00]) ∧
    Accepted { accepted with lags := [999] } ∧ { accepted with lags := [999] }.hid.tacc = { accepted with lags := [999] }.now ∧
    { accepted with lags := [999] }.lags.sum < { accepted with lags := [999] }.hid.tsnap.toNat ∧
    Queued { { accepted with lags := [999] } with rx := arriving 0 ([[0x00]].flatten ++ [0x55] ++
      buildFrame false 0x02 [0x06] 0x17 false) ++ [] } ([[0x00]].flatten ++ [0x55] ++ buildFrame false 0x02 [0x06] 0x17 false) [] := by
  refine ⟨accepted_of _ rfl rfl rfl rfl rfl, junk_of _ _ (by decide), queued_of _ _ _, by decide, fun b hb => ?_,
    .noLength [] rfl (junk_of _ _ rfl), accepted_of _ rfl rfl rfl rfl rfl, rfl, by decide, queued_of _ _ _⟩
  simp only [List.mem_cons, List.not_mem_nil, or_false] at hb
  rcases hb with rfl | rfl | rfl
  · exact .silence (by decide)
  · exact .noMarker _ (fun b hb => by rw [List.eq_of_mem_replicate hb]; decide) (by decide) List.length_replicate
  · exact .badFrame [] [0x06] 0xFA 0x03 (junk_of _ _ rfl) (by decide) (.inl (by decide))

/-- The last tick in time and the first that is late (V-RECV-1, V-RECV-2). -/
theorem witness_RecvTimingLaw : ∀ a ∈ ([999, 1000] : List Nat),
    let s := withRx (arriving a (buildFrame false 0x02 [0x06] 0x03 false)) accepted
    Accepted s ∧ s.lags = [] ∧ s.hid.tacc = s.now ∧ 0 < a ∧
    s.rx.map RxByte.byte = buildFrame s.prof.lenW s.prof.stxRx [0x06] 0x03 false ∧
    (s.rx.head?.map RxByte.arrival) = some (s.time + a) ∧
    (∀ x ∈ s.rx, s.time + a ≤ x.arrival ∧ (x.arrival = s.time + a ∨ x.arrival < s.time + a + s.prof.tFrame.toNat)) ∧
    (a < s.hid.tsnap.toNat ∨ s.hid.tsnap.toNat ≤ a) := by
  intro a ha
  simp only [List.mem_cons, List.not_mem_nil, or_false] at ha
  rcases ha with rfl | rfl <;> exact ⟨accepted_of _ rfl rfl rfl rfl rfl, by decide +kernel⟩

theorem witness_RecvFailsOnlyAtItsDeadline : Accepted accepted := accepted_accepted

/-- As many bytes as asked for, and one fewer. -/
theorem witness_RawRecvStoresTheBytes :
    let s := { withRx (arriving 0 [0x11, 0x22] ++ []) accepted with arg0 := 2 }
    let u := { withRx (arriving 0 [0x11, 0x22] ++ []) accepted with arg0 := 3 }
    Accepted s ∧ Queued s [0x11, 0x22] [] ∧ [(0x11 : Byte), 0x22].length = s.arg0.toNat ∧ 1 ≤ s.arg0.toNat ∧
    s.arg0.toNat ≤ 65536 ∧ Accepted u ∧ Queued u [0x11, 0x22] [] ∧ [(0x11 : Byte), 0x22].length < u.arg0.toNat :=
  ⟨accepted_of _ rfl rfl rfl rfl rfl, queued_of _ _ { accepted with arg0 := 2 }, by decide, by decide, by decide,
    accepted_of _ rfl rfl rfl rfl rfl, queued_of _ _ { accepted with arg0 := 3 }, by decide⟩

/-! #### Sequencer -/

theorem witness_PinSetsOnePin : Accepted accepted := accepted_accepted

theorem witness_DelayBaudAndEnd : Accepted { accepted with arg0 := 1 } ∧ { accepted with arg0 := 1 }.arg0 ≠ 0 :=
  ⟨accepted_of _ rfl rfl rfl rfl rfl, by decide⟩

theorem entry_ready (p : Profile) (h : ∀ k ∈ configNeeds .entry p.family, (configured p).valid k = true)
    (ht : (configured p).trainClean = true) (rx : List RxByte) : EntryConfigured (withRx rx (configured p)) :=
  ⟨h, fun _ => ht⟩

/-- Each family with its handshake's bytes. -/
theorem witness_EntrySucceeds : ∀ p ∈ ([generic, ext4, sw8, alt] : List Profile),
    let s := withRx (arriving 0 (configured p).entryReads ++ []) (configured p)
    Accepted s ∧ EntryConfigured s ∧ Queued s s.entryReads [] := by
  intro p hp
  refine ⟨accepted_of _ rfl rfl rfl rfl rfl, entry_ready p ?_ ?_ _, queued_of _ _ (configured p)⟩
  · simp only [List.mem_cons, List.not_mem_nil, or_false] at hp
    rcases hp with rfl | rfl | rfl | rfl <;> decide
  · simp only [List.mem_cons, List.not_mem_nil, or_false] at hp
    rcases hp with rfl | rfl | rfl | rfl <;> decide +kernel

/-- A wrong byte, silence, and for EXT4 the last round that may succeed and thirty that do not. -/
theorem witness_EntryHandshakeFailures :
    Accepted (withRx [] (configured sw8)) ∧ EntryConfigured (withRx [] (configured sw8)) ∧
    EntryConfigured (withRx [] (configured alt)) ∧ EntryConfigured (withRx [] (configured ext4)) ∧
    (withRx [] (configured sw8)).rx = [] ∧
    Queued (withRx (arriving 0 [0xFF] ++ []) (configured sw8)) [0xFF] [] ∧ (0xFF : Byte) ≠ 0x00 ∧
    Queued (withRx (arriving 0 [0x00] ++ []) (configured alt)) [0x00] [] ∧ (0x00 : Byte) ≠ (configured alt).prof.probe ∧
    Queued (withRx (arriving 0 (List.replicate 29 0xFF ++ [0x00, 0x00]) ++ []) (configured ext4))
      (List.replicate 29 0xFF ++ [0x00, 0x00]) [] ∧ (∀ x ∈ List.replicate 30 (0xFF : Byte), x ≠ 0x00) ∧
    Queued (withRx (arriving 0 (List.replicate 30 0xFF) ++ []) (configured ext4)) (List.replicate 30 0xFF) [] :=
  ⟨accepted_of _ rfl rfl rfl rfl rfl, entry_ready sw8 (by decide) (by decide +kernel) _,
    entry_ready alt (by decide) (by decide +kernel) _, entry_ready ext4 (by decide) (by decide +kernel) _, rfl,
    queued_of _ _ (configured sw8), by decide, queued_of _ _ (configured alt), by decide, queued_of _ _ (configured ext4),
    fun x hx => by rw [List.eq_of_mem_replicate hx]; decide, queued_of _ _ (configured ext4)⟩

/-! #### Sessions -/

/-- A reply with one byte fits. -/
theorem fits_of (s : State) (b : Byte) (h : encodable s.prof.lenW 1 = true) : Reply.fits s ([b], 0x03) := ⟨h, .inl rfl⟩

theorem replies_of (s : State) (h : encodable s.prof.lenW 1 = true) (bs : List Byte) (rest : List RxByte) :
    Replies { s with rx := arriving 0 (s.replyBytes (bs.map fun b => ([b], 0x03))) ++ rest } (bs.map fun b => ([b], 0x03))
      rest := by
  refine ⟨fun r hr => ?_, queued_of _ _ s⟩
  obtain ⟨b, -, rfl⟩ := List.mem_map.1 hr
  exact fits_of _ b h

/-- The generic family with an ACK and with another status, and the alternate family. -/
theorem witness_ResetReachesReady :
    let r : Reply := ([0x06], 0x03)
    let s := withRx (arriving 0 ((configured generic).entryReads ++ (configured generic).replyBytes [r]) ++ [])
      (configured generic)
    let u := withRx (arriving 0 (configured alt).entryReads ++ []) (configured alt)
    Accepted s ∧ EntryConfigured s ∧ (∀ k ∈ configNeeds .reset s.prof.family, s.valid k = true) ∧ s.prof.family ≠ .alt ∧
    r.fits s ∧ Queued s (s.entryReads ++ s.replyBytes [r]) [] ∧ r.acks s ∧ ¬ Reply.acks s ([0x15], 0x03) ∧
    Accepted u ∧ EntryConfigured u ∧ (∀ k ∈ configNeeds .reset u.prof.family, u.valid k = true) ∧ u.prof.family = .alt ∧
    Queued u u.entryReads [] :=
  ⟨accepted_of _ rfl rfl rfl rfl rfl, entry_ready generic (by decide) (by decide +kernel) _, by decide, by decide,
    fits_of _ _ rfl, queued_of _ _ (configured generic), by unfold Reply.acks; decide, by unfold Reply.acks; decide,
    accepted_of _ rfl rfl rfl rfl rfl, entry_ready alt (by decide) (by decide +kernel) _, by decide, rfl,
    queued_of _ _ (configured alt)⟩

/-- Two data frames of which the second is needed. -/
theorem witness_ReadCollectsTheData :
    let s := { ready with arg0 := 0xFFFFFE, arg1 := 2
                          rx := arriving 0 (ready.replyBytes ([0x06, 0xAA, 0xBB].map fun b => ([b], 0x03))) ++ [] }
    Accepted s ∧ SessionOpen s ∧ (∀ k ∈ configNeeds .read s.prof.family, s.valid k = true) ∧ ¬ paramBad .read s ∧
    Replies s ([0x06, 0xAA, 0xBB].map fun b => ([b], 0x03)) [] ∧ Reply.acks s ([0x06], 0x03) ∧
    1 < s.arg1.toNat ∧ s.arg1.toNat ≤ 2 :=
  ⟨accepted_of _ rfl rfl rfl rfl rfl, ⟨by decide, rfl⟩, ready_needs .read, by unfold paramBad; decide,
    replies_of { ready with arg0 := 0xFFFFFE, arg1 := 2 } rfl [0x06, 0xAA, 0xBB] [], by unfold Reply.acks; decide, by decide,
    by decide⟩

/-- The least and the greatest TXLEN, and none. -/
theorem witness_ProgramAndVerifyTransfer :
    let s := { ready with txlen := 256, rx := arriving 0 (ready.replyBytes ([0x06, 0x15].map fun b => ([b], 0x03))) ++ [] }
    Accepted s ∧ SessionOpen s ∧ (∀ b ∈ configNeeds .program s.prof.family, s.valid b = true) ∧
    (∀ b ∈ configNeeds .verify s.prof.family, s.valid b = true) ∧ ¬ paramBad .program s ∧ ¬ paramBad .verify s ∧
    1 ≤ s.txlen.toNat ∧ ¬ paramBad .program { ready with txlen := 1 } ∧
    Replies s ([0x06, 0x15].map fun b => ([b], 0x03)) [] ∧ Reply.acks s ([0x06], 0x03) ∧ ready.txlen = 0 ∧
    (∀ b ∈ [19, 1], ready.valid b = true) :=
  ⟨accepted_of _ rfl rfl rfl rfl rfl, ⟨by decide, rfl⟩, ready_needs .program, ready_needs .verify, by unfold paramBad; decide,
    by unfold paramBad; decide, by decide, by unfold paramBad; decide, replies_of { ready with txlen := 256 } rfl [0x06, 0x15] [],
    by unfold Reply.acks; decide, rfl, by decide⟩

/-- The last block, and a block past the end. -/
theorem witness_BlockEraseNeedsTwoAcks :
    let s := { ready with arg0 := 0xFFF000, rx := arriving 0 (ready.replyBytes ([0x06, 0x15].map fun b => ([b], 0x03))) ++ [] }
    Accepted s ∧ SessionOpen s ∧ (∀ b ∈ configNeeds .blockErase s.prof.family, s.valid b = true) ∧
    ¬ paramBad .blockErase s ∧ paramBad .blockErase { ready with arg0 := 0xFFF001 } ∧ Reply.acks s ([0x06], 0x03) ∧
    ¬ Reply.acks s ([0x15], 0x03) ∧ Replies s ([0x06, 0x15].map fun b => ([b], 0x03)) [] :=
  ⟨accepted_of _ rfl rfl rfl rfl rfl, ⟨by decide, rfl⟩, ready_needs .blockErase, by unfold paramBad; decide,
    by unfold paramBad; decide, by unfold Reply.acks; decide, by unfold Reply.acks; decide,
    replies_of { ready with arg0 := 0xFFF000 } rfl [0x06, 0x15] []⟩

/-- One window, and a second one of one byte. -/
theorem witness_ChecksumsCoverTheRange :
    let s := { ready with arg0 := 0x10, arg1 := 0x110
                          rx := arriving 0 (ready.replyBytes ([0x11, 0x22].map fun b => ([b], 0x03))) ++ [] }
    Accepted s ∧ SessionOpen s ∧ s.valid 21 = true ∧ ¬ paramBad .checksum s ∧
    Replies s ([0x11, 0x22].map fun b => ([b], 0x03)) [] ∧ (s.arg1.toNat - s.arg0.toNat) / 256 + 1 = 2 ∧
    (0x10F - 0x10) / 256 + 1 = 1 :=
  ⟨accepted_of _ rfl rfl rfl rfl rfl, ⟨by decide, rfl⟩, by decide, by unfold paramBad; decide,
    replies_of { ready with arg0 := 0x10, arg1 := 0x110 } rfl [0x11, 0x22] [], by decide, by decide⟩

/-- The greatest TXLEN, one response with CHK, and none. -/
theorem witness_ExchangeOpsReceiveTheirResponses :
    let s := { ready with txlen := 255, rx := arriving 0 (ready.replyBytes ([0x06].map fun b => ([b], 0x03))) ++ [] }
    exchangeOperands (.status 1 true) = some (some 13, 1, true) ∧ exchangeOperands (.status 0 false) = some (some 13, 0, false) ∧
    Accepted s ∧ SessionOpen s ∧ (∀ b ∈ configNeeds (.status 1 true) s.prof.family, s.valid b = true) ∧
    ¬ paramBad (.status 1 true) s ∧ Replies s ([0x06].map fun b => ([b], 0x03)) [] ∧ (1 : BitVec 3).toNat = 1 ∧
    Reply.acks s ([0x06], 0x03) :=
  ⟨rfl, rfl, accepted_of _ rfl rfl rfl rfl rfl, ⟨by decide, rfl⟩, ready_needs (.status 1 true), by unfold paramBad; decide,
    replies_of { ready with txlen := 255 } rfl [0x06] [], rfl, by unfold Reply.acks; decide⟩

/-- A status that is not ACK, for each kind of op the statement names. -/
theorem witness_NackEndsSessionOps :
    let s := { ready with txlen := 1, arg1 := 1, rx := arriving 0 (ready.replyBytes ([0x15].map fun b => ([b], 0x03))) ++ [] }
    Accepted s ∧ SessionOpen s ∧ Replies s ([0x15].map fun b => ([b], 0x03)) [] ∧ ¬ Reply.acks s ([0x15], 0x03) ∧
    s.txlen ≠ 0 ∧
    (∀ i ∈ ([.read, .program, .verify, .blockErase, .rawCmd 0x70 1 true false] : List Instr),
      (∀ b ∈ configNeeds i s.prof.family, s.valid b = true) ∧ ¬ paramBad i s) := by
  refine ⟨accepted_of _ rfl rfl rfl rfl rfl, ⟨by decide, rfl⟩, replies_of { ready with txlen := 1, arg1 := 1 } rfl [0x15] [],
    by unfold Reply.acks; decide, by decide, ?_⟩
  intro i hi
  simp only [List.mem_cons, List.not_mem_nil, or_false] at hi
  rcases hi with rfl | rfl | rfl | rfl | rfl
  · exact ⟨ready_needs .read, by unfold paramBad; decide⟩
  · exact ⟨ready_needs .program, by unfold paramBad; decide⟩
  · exact ⟨ready_needs .verify, by unfold paramBad; decide⟩
  · exact ⟨ready_needs .blockErase, by unfold paramBad; decide⟩
  · exact ⟨ready_needs (.rawCmd 0x70 1 true false), by unfold paramBad; decide⟩

theorem witness_NoFlashCommandIsRepeated : Accepted ready ∧ ready.prof.poll = false := ⟨ready_accepted, rfl⟩

end Sys2Proof.Tests
end

section
/-! The host accesses between commands and while one runs (10_state.md R100-R145): each statement is the one equation that
`step`, or `busWrite`, has for the access, read off field by field. -/

namespace Sys2Proof.Machine

/-! ### Accesses outside the registers -/

/-- A write to a buffer starts no command. -/
theorem step_writeBuffer {s : State} {h : HostInput} {hs : List HostInput} {a : BitVec 18} {sz : Size} {v : Word}
    (hh : s.host = h :: hs) (ha : h.act = .write a sz v) (hbuf : Config.txBase ≤ a.toNat) :
    step s = .next ((s.take h hs).busWrite a sz v) := by
  refine step_write hh ha ?_
  rintro ⟨rfl, -, -⟩
  exact absurd hbuf (by decide)

theorem State.busRead_unassigned {s : State} {a : BitVec 18} (h4 : a.toNat % 4 = 0)
    (ha : a.toNat < Config.txBase ∨ Config.rxEnd ≤ a.toNat) (hr : ∀ r : Reg, r.addr ≠ a) :
    s.busRead a .word = s.respond (.data 0) := by
  simp [State.busRead, accessLegal_other ha, Region.ofOffset_other ha, Reg.ofOffset_none hr, h4]

theorem State.busWrite_unassigned {s : State} {a : BitVec 18} {v : Word} (h4 : a.toNat % 4 = 0)
    (ha : a.toNat < Config.txBase ∨ Config.rxEnd ≤ a.toNat) (hr : ∀ r : Reg, r.addr ≠ a) :
    s.busWrite a .word v = s.respond .written := by
  simp [State.busWrite, State.writeEffect, accessLegal_other ha, Region.ofOffset_other ha, Reg.ofOffset_none hr, h4]

/-- A host write that has fallen due while a command lets time pass is the bus write at its own time (log 7). -/
theorem serve_write {t : Nat} {h : HostInput} {a : BitVec 18} {sz : Size} {v : Word} (hd : h.due t = true)
    (ha : h.act = .write a sz v) (hs : List HostInput) (s : State) :
    serve t (h :: hs) s = serve t hs ((s.take h hs).busWrite a sz v) := by
  simp only [serve, hd, ha, if_true, Ctl.bind_apply, Ctl.modify_apply]
  rfl

/-! ### Register values -/

/-- The statement's table of CFGVALID bits is the model's. -/
theorem cfgvalidBit_eq_validBit (r : LockedReg) : cfgvalidBit r = r.validBit := by cases r <;> rfl

theorem fieldAt_extractLsb'_eq {v : Word} {n : Nat} (h : v.toNat < 2 ^ n) : fieldAt (v.extractLsb' 0 n) 0 = v := by
  apply BitVec.eq_of_toNat_eq
  simp [fieldAt, BitVec.extractLsb'_toNat, Nat.mod_eq_of_lt h, Nat.mod_eq_of_lt v.isLt]

theorem bitAt_getLsbD_zero (v : Word) : bitAt (v.getLsbD 0) 0 = v &&& 1 := by
  apply BitVec.eq_of_getLsbD_eq
  intro i hi
  rw [getLsbD_bitAt, BitVec.getLsbD_and]
  by_cases h0 : i = 0 <;> simp [h0, hi]

/-- The bits of the STATUS word (R103). -/
theorem State.getLsbD_statusWord (s : State) (i : Nat) (hi : i < 32) : s.statusWord.getLsbD i =
    (i == 0 && s.busy || i == 1 && s.done || i == 2 && s.ackok || i == 3 && s.wign || i == 4 && s.ovr ||
      i == 5 && s.irq || decide (8 ≤ i) && s.err.code.getLsbD (i - 8) ||
      decide (12 ≤ i) && s.sess.code.getLsbD (i - 12) || i == 16 && s.pinMode || i == 17 && s.pinReset ||
      i == 18 && s.pinData || i == 19 && s.pinMux) := by
  simp only [State.statusWord, BitVec.getLsbD_or, getLsbD_fieldAt, getLsbD_bitAt, hi, decide_true, Bool.true_and]
  rfl

theorem State.statusWord_err (s : State) : s.statusWord.extractLsb' 8 4 = s.err.code := by
  apply BitVec.eq_of_getLsbD_eq
  intro i hi
  rw [BitVec.getLsbD_extractLsb', s.getLsbD_statusWord _ (by omega)]
  interval_cases i <;> simp

theorem State.statusWord_sess (s : State) : s.statusWord.extractLsb' 12 3 = s.sess.code := by
  apply BitVec.eq_of_getLsbD_eq
  intro i hi
  rw [BitVec.getLsbD_extractLsb', s.getLsbD_statusWord _ (by omega)]
  interval_cases i <;> simp

/-- The reserved fields of STATUS read 0 (R103, R113). -/
theorem State.statusWord_reserved (s : State) :
    s.statusWord.extractLsb' 6 2 = 0 ∧ s.statusWord.getLsbD 15 = false ∧ s.statusWord.extractLsb' 20 12 = 0 := by
  refine ⟨?_, by rw [s.getLsbD_statusWord _ (by decide)]; simp, ?_⟩
  all_goals
    apply BitVec.eq_of_getLsbD_eq
    intro i hi
    rw [BitVec.getLsbD_extractLsb', s.getLsbD_statusWord _ (by omega)]
    interval_cases i <;> simp

end Sys2Proof.Machine

namespace Sys2Proof.Machine

/-- Settles O13: both kinds of write are `setWign` on the bus. -/
theorem ignoredBufferWritesSetWign : Obligations.IgnoredBufferWritesSetWign := by
  rintro s a sz v hal ⟨h, hs, hh, ha⟩ hbuf
  have ignored : (s.take h hs).busWrite a sz v = (s.take h hs).setWign.respond .written := by
    rcases hbuf with ⟨h1, h2⟩ | ⟨hb, h1, h2⟩
    · exact State.busWrite_rx v h1 h2 hal
    · exact (State.busWrite_tx v h1 h2 hal).trans (by rw [State.take_busy, hb]; rfl)
  have hstep := step_writeBuffer hh ha (by simp only [Config.txBase]; omega)
  exact ⟨_, hstep, by rw [ignored]; rfl, by rw [ignored]; rfl⟩

/-- Settles O14: each register write by its equation while BUSY = 1; the last clause is `serve_write`. -/
theorem writesWhileBusy : Obligations.WritesWhileBusy := by
  intro s v hb
  refine ⟨fun r hr => ?_, fun a sz h1 h2 hal => ?_, State.busWrite_reg .., State.busWrite_reg .., State.busWrite_reg ..,
    State.busWrite_reg .., fun t h hs a sz hd ha => serve_write hd ha hs s⟩
  · rw [State.busWrite_reg, State.regWrite_busy hb hr]
  · rw [State.busWrite_tx v h1 h2 hal, if_pos hb]

/-- Settles O15: the write is stored when the lock is open and the value legal, and `setWign` when the lock is closed. -/
theorem lockedRegistersNeedUnknown : Obligations.LockedRegistersNeedUnknown := by
  rintro s r v ⟨h, hs, hh, ha⟩
  have hstep : step s = .next (((s.take h hs).lockedWrite r v).respond .written) := step_writeReg hh ha nofun
  refine ⟨_, hstep, fun hu hb hl => ?_, fun hlock => ?_⟩
  · rw [State.lockedWrite_ok (s := s.take h hs) hu hb ((r.legal_iff v).2 hl)]
    exact ⟨s.prof.read_write_same r v, rfl⟩
  · rw [State.lockedWrite_ignored (s := s.take h hs) (hlock.imp_right .inl)]
    rfl

/-- Settles O16: `Profile.read_write_same`, `Profile.read_write_other` and `getLsbD_markValid` on the stored state. -/
theorem lockedWritesStoreAndMarkValid : Obligations.LockedWritesStoreAndMarkValid := by
  rintro s r v ⟨h, hs, hh, ha⟩ hu hb hl
  have hstep : step s = .next (((s.take h hs).lockedWrite r v).respond .written) := step_writeReg hh ha nofun
  rw [State.lockedWrite_ok (s := s.take h hs) hu hb ((r.legal_iff v).2 hl)] at hstep
  refine ⟨_, hstep, rfl, s.prof.read_write_same r v, fun q hq => s.prof.read_write_other r q v hq, fun k => ?_⟩
  rw [cfgvalidBit_eq_validBit]
  exact getLsbD_markValid s.cfgvalid r.validBit (fun k hk => Nat.lt_trans (LockedReg.validBit_range hk) (by decide)) k

/-- Settles O17: an illegal value fails `LockedReg.legal`, a TXLEN above 65536 its range check. -/
theorem illegalValuesAreIgnored : Obligations.IllegalValuesAreIgnored := by
  refine fun s v hb => ⟨?_, ?_⟩
  · rintro r hu hl ⟨h, hs, hh, ha⟩
    have hstep : step s = .next (((s.take h hs).lockedWrite r v).respond .written) := step_writeReg hh ha nofun
    have illegal : r.legal v = false := by
      rw [Bool.eq_false_iff, Ne, r.legal_iff]
      exact not_not_intro hl
    rw [State.lockedWrite_ignored (.inr (.inr illegal))] at hstep
    exact ⟨_, hstep, rfl⟩
  · rintro hv ⟨h, hs, hh, ha⟩
    have hstep := step_writeReg hh ha nofun
    have ignored : (s.take h hs).regWrite .txlen v = (s.take h hs).setWign :=
      if_pos (by simp [Config.bufCap, hv])
    rw [ignored] at hstep
    exact ⟨_, hstep, rfl⟩

/-- Settles O18: the register map has no register at the offset; a read-only register is written to no effect. -/
theorem unassignedAndReadOnlyOffsets : Obligations.UnassignedAndReadOnlyOffsets := by
  refine ⟨fun s a h4 ha hr => ⟨?_, ?_⟩, ?_⟩
  · rintro ⟨h, hs, hh, hact⟩
    have hstep := step_read hh hact
    rw [State.busRead_unassigned h4 ha hr] at hstep
    exact ⟨_, hstep, rfl, rfl⟩
  · rintro v ⟨h, hs, hh, hact⟩
    have hstep := step_write hh hact fun hc => hr _ hc.1.symm
    rw [State.busWrite_unassigned h4 ha hr] at hstep
    exact ⟨_, hstep, rfl, rfl⟩
  · rintro s r v hr ⟨h, hs, hh, ha⟩
    refine ⟨_, step_writeReg hh ha ?_, ?_⟩
    · rintro rfl
      simp at hr
    · have readOnly : (s.take h hs).regWrite r v = s.take h hs := by
        rcases hr with rfl | rfl | rfl | rfl | rfl | rfl | rfl | rfl | ⟨j, rfl⟩ <;> rfl
      rw [readOnly]
      rfl

/-- Settles O6: the equations of `step`, one per host action; the word that `withFetchWord` queues is the word itself. -/
theorem stepRunsTheDecodedCommand : Obligations.StepRunsTheDecodedCommand := by
  refine ⟨fun s h hs hh => ⟨fun w ha hb => step_command hh ha hb, fun a sz v ha hn => step_write hh ha ?_,
    fun a sz ha => step_read hh ha, fun n ha => step_reset hh ha⟩, fun s hh => step_nothing hh, fun s w i hw => ?_,
    fun s w => ?_⟩
  · rintro ⟨rfl, rfl, hb⟩
    simp [hb] at hn
  · simp only [runCommand, hw]
  · have word : BitVec.ofNat 32 (w.toNat % 2 ^ 32) = w := by
      rw [Nat.mod_eq_of_lt w.isLt, BitVec.ofNat_toNat, BitVec.setWidth_eq]
    have hstep : step (s.withFetchWord 32 w.toNat) =
        runCommand (BitVec.ofNat 32 (w.toNat % 2 ^ 32)) _ := step_command rfl rfl rfl
    rw [word] at hstep
    exact ⟨_, hstep, rfl, rfl, rfl⟩

/-- Settles O7: by evaluation of the reset state. -/
theorem resetRegisterValues : Obligations.ResetRegisterValues := by
  refine ⟨rfl, rfl, rfl, rfl, rfl, rfl, rfl, rfl, rfl, rfl, ?_, ?_, ?_, ?_, rfl, rfl, rfl⟩ <;> decide

/-- Settles O19: the write is `clearSticky`, whether or not BUSY = 1. -/
theorem statusWritesClearStickyBits : Obligations.StatusWritesClearStickyBits := by
  rintro s v ⟨h, hs, hh, ha⟩
  exact ⟨_, step_writeReg hh ha nofun, rfl, rfl, rfl, rfl⟩

/-- Settles O20: one register write each, none of them ignored while BUSY = 0. -/
theorem operandWritesAreStored : Obligations.OperandWritesAreStored := by
  refine fun s v hb => ⟨?_, ?_, ?_, ?_, ?_⟩
  · rintro ⟨h, hs, hh, ha⟩
    have stored : (s.take h hs).regWrite .arg0 v = { s.take h hs with arg0 := v } := if_neg (by simp [hb])
    exact ⟨_, step_writeReg hh ha nofun, by rw [stored]; rfl⟩
  · rintro ⟨h, hs, hh, ha⟩
    have stored : (s.take h hs).regWrite .arg1 v = { s.take h hs with arg1 := v } := if_neg (by simp [hb])
    exact ⟨_, step_writeReg hh ha nofun, by rw [stored]; rfl⟩
  · rintro hv ⟨h, hs, hh, ha⟩
    have stored : (s.take h hs).regWrite .txlen v = { s.take h hs with txlen := v.extractLsb' 0 17 } :=
      if_neg (by simp [hb, Config.bufCap, Nat.not_lt.2 hv])
    exact ⟨_, step_writeReg hh ha nofun, by rw [stored]; rfl,
      by rw [stored]; exact fieldAt_extractLsb'_eq (Nat.lt_of_le_of_lt hv (by decide))⟩
  · rintro ⟨h, hs, hh, ha⟩
    exact ⟨_, step_writeReg hh ha nofun, rfl⟩
  · rintro ⟨h, hs, hh, ha⟩
    exact ⟨_, step_writeReg hh ha nofun, rfl, bitAt_getLsbD_zero v⟩

/-- Settles O22: bit by bit from `State.getLsbD_statusWord`; the code tables are injective. -/
theorem statusWordLayout : Obligations.StatusWordLayout := by
  intro s
  have bit := s.getLsbD_statusWord
  obtain ⟨low, mid, high⟩ := s.statusWord_reserved
  simp only [State.regRead, s.statusWord_err, s.statusWord_sess]
  refine ⟨?_, ?_, ?_, ?_, ?_, ?_, low, mid, ?_, ?_, ?_, ?_, high, ?err, ?sess⟩
  case err => cases s.err <;> decide
  case sess => cases s.sess <;> decide
  all_goals exact (bit _ (by decide)).trans (by simp [State.irq])

end Sys2Proof.Machine
end

section
/-! What a command leaves unchanged, for every instruction at once: `Ending` splits a command into its beginning, the steps
`Instr.allow` permits its pseudocode, and the completion; a relation that each part keeps, the command keeps. -/

namespace Sys2Proof.Machine

variable {i : Instr} {s t u : State} {e : Err}

/-! ### What the parts of a command keep -/

theorem SameConfig.trans (h : SameConfig s t) (k : SameConfig t u) : SameConfig s u where
  cmd := k.cmd.trans h.cmd
  arg0 := k.arg0.trans h.arg0
  arg1 := k.arg1.trans h.arg1
  txlen := k.txlen.trans h.txlen
  cfgvalid := k.cfgvalid.trans h.cfgvalid
  prof := k.prof.trans h.prof
  tsnap := k.tsnap.trans h.tsnap
  tacc := k.tacc.trans h.tacc
  epoch := k.epoch.trans h.epoch
  txbuf := fun j hj => (k.txbuf j hj).trans (h.txbuf j hj)

theorem SameHostSide.trans (h : SameHostSide s t) (k : SameHostSide t u) : SameHostSide s u :=
  ⟨k.timeout.trans h.timeout, k.ie.trans h.ie, k.wign.trans h.wign, k.ovr.trans h.ovr, k.host.trans h.host,
    k.resp.trans h.resp, k.draws.trans h.draws⟩

theorem SameRx.trans (h : SameRx s t) (k : SameRx t u) : SameRx s u :=
  ⟨k.rxlen.trans h.rxlen, k.rxframes.trans h.rxframes, k.rxflen.trans h.rxflen,
    fun a => (k.bytes a).trans (h.bytes a), k.lastst.trans h.lastst, k.diag.trans h.diag, k.skipcnt.trans h.skipcnt⟩

theorem State.begin_sameConfig (s : State) (rx : Bool) (ph : Phase) : SameConfig s (s.begin rx ph) := by
  constructor <;> simp [State.txByte]

theorem State.begin_samePins (s : State) (rx : Bool) (ph : Phase) : SamePins s (s.begin rx ph) := by
  constructor <;> simp [State.pinSettings, State.rates]

theorem State.begin_sameDiag (s : State) (rx : Bool) (ph : Phase) : SameDiag s (s.begin rx ph) := by
  constructor <;> simp

theorem State.begin_sameHostSide (s : State) (rx : Bool) (ph : Phase) : SameHostSide s (s.begin rx ph) := by
  constructor <;> simp

theorem State.begin_sameRx (s : State) (ph : Phase) : SameRx s (s.begin false ph) := by
  constructor <;> intros <;> rfl

theorem State.finish_sameConfig (s : State) (q : Sess) (e : Err) : SameConfig s (s.finish q e) := by
  constructor <;> intros <;> rfl

theorem State.finish_samePins (s : State) (q : Sess) (e : Err) : SamePins s (s.finish q e) := by
  constructor <;> simp [State.pinSettings, State.rates, Event.pinLevel, Event.newRate]

theorem State.finish_sameHostSide (s : State) (q : Sess) (e : Err) : SameHostSide s (s.finish q e) := by
  constructor <;> rfl

theorem State.finish_sameRx (s : State) (q : Sess) (e : Err) : SameRx s (s.finish q e) := by
  constructor <;> intros <;> rfl

theorem State.finish_sent (s : State) (q : Sess) (e : Err) : (s.finish q e).sent = s.sent := by
  simp [State.sent, Event.sentByte]

theorem State.finish_consumed (s : State) (q : Sess) (e : Err) : (s.finish q e).consumed = s.consumed := by
  simp [State.consumed, Event.readByte]

theorem State.finish_outcomes (s : State) (q : Sess) (e : Err) : (s.finish q e).outcomes = s.outcomes ++ [e] := by
  simp [State.outcomes, Event.doneCode]

theorem State.begin_sent (s : State) (rx : Bool) (ph : Phase) : (s.begin rx ph).sent = s.sent := by
  simp [State.sent]

theorem State.begin_consumed (s : State) (rx : Bool) (ph : Phase) : (s.begin rx ph).consumed = s.consumed := by
  simp [State.consumed]

theorem State.begin_outcomes (s : State) (rx : Bool) (ph : Phase) : (s.begin rx ph).outcomes = s.outcomes := by
  simp [State.outcomes]

theorem OpStep.sameConfig {a : Allow} (h : OpStep a s t) : SameConfig s t :=
  ⟨h.cmd, h.arg0, h.arg1, h.txlen, h.cfgvalid, h.prof, h.tsnap, h.tacc, h.epoch, h.txByte⟩

/-- With an empty queue the host changes nothing while a command runs. -/
theorem OpStep.sameHostSide {a : Allow} (h : OpStep a s t) (hs : s.host = []) : SameHostSide s t := by
  obtain ⟨timeout, ie, wign, ovr, resp, draws, -⟩ := h.quiet hs
  have host : t.host = [] := List.suffix_nil.1 (hs ▸ h.host)
  exact ⟨timeout, ie, wign, ovr, host.trans hs.symm, resp, draws⟩

theorem OpStep.sameRx {a : Allow} (h : OpStep a s t) (hs : a.store = false) (hd : a.decode = false) : SameRx s t := by
  obtain ⟨rxlen, rxframes, rxflen, -⟩ := h.stored hs
  obtain ⟨lastst, diag, skipcnt⟩ := h.decode hd
  exact ⟨rxlen, rxframes, rxflen, h.byteAt hs, lastst, diag, skipcnt⟩

/-! ### What a whole command keeps -/

/-- With the reset input released an accepted command ends, refused or run. -/
theorem exec_ends (i : Instr) (h : Accepted s) : ∃ t e, exec i s = .next t ∧ Ending i s t e := by
  rcases exec_cases i s h.busy with ended | ⟨t, -, hr⟩
  · exact ended
  · exact absurd h.noReset hr.asserted

/-- A transitive relation that the beginning, the permitted steps and the completion keep, a command keeps. -/
theorem Ending.keeps {R : State → State → Prop} (h : Ending i s t e)
    (trans : ∀ {x y z : State}, R x y → R y z → R x z) (begins : R s (s.begin i.writesRx i.phase))
    (steps : ∀ {x y : State}, OpStep i.allow x y → R x y) (ends : ∀ (x : State) (q : Sess), R x (x.finish q e)) :
    R s t := by
  cases h with
  | refused ht _ => exact ht ▸ ends s s.sess
  | ran v _ hv ht _ => exact ht ▸ trans (trans begins (steps hv)) (ends v _)

theorem Ending.sameConfig (h : Ending i s t e) : SameConfig s t :=
  h.keeps SameConfig.trans (s.begin_sameConfig ..) OpStep.sameConfig (State.finish_sameConfig · · e)

theorem Ending.samePins (h : Ending i s t e) (hp : i.allow.pins = false) : SamePins s t :=
  h.keeps SamePins.trans (s.begin_samePins ..) (fun o => o.pins hp) (State.finish_samePins · · e)

theorem Ending.sameDiag (h : Ending i s t e) (hd : i.allow.decode = false) : SameDiag s t :=
  h.keeps SameDiag.trans (s.begin_sameDiag ..) (fun o => o.decode hd) fun _ _ => ⟨rfl, rfl, rfl⟩

theorem Ending.sameRx (h : Ending i s t e) (hw : i.writesRx = false) (hs : i.allow.store = false)
    (hd : i.allow.decode = false) : SameRx s t :=
  h.keeps SameRx.trans (by rw [hw]; exact s.begin_sameRx i.phase) (fun o => o.sameRx hs hd) (State.finish_sameRx · · e)

theorem Ending.sameHostSide (h : Ending i s t e) : s.host = [] → SameHostSide s t :=
  h.keeps (R := fun x y => x.host = [] → SameHostSide x y)
    (fun hxy hyz hx => (hxy hx).trans (hyz ((hxy hx).host.trans hx))) (fun _ => s.begin_sameHostSide ..)
    (fun o => o.sameHostSide) fun x q _ => x.finish_sameHostSide q e

theorem Ending.ackok (h : Ending i s t e) (ha : i.allow.ack = false) : t.ackok = s.ackok :=
  h.keeps (R := fun x y => y.ackok = x.ackok) (fun hxy hyz => hyz.trans hxy) (s.begin_ackok ..) (fun o => o.ack ha)
    fun _ _ => rfl

theorem Ending.sent (h : Ending i s t e) (hs : i.allow.send = false) : t.sent = s.sent :=
  h.keeps (R := fun x y => y.sent = x.sent) (fun hxy hyz => hyz.trans hxy) (s.begin_sent ..) (fun o => o.sent hs)
    (State.finish_sent · · e)

/-- A command that does not receive takes nothing from the stream. -/
theorem Ending.unread (h : Ending i s t e) (hr : i.allow.read = false) : t.rx = s.rx ∧ t.consumed = s.consumed :=
  h.keeps (R := fun x y => y.rx = x.rx ∧ y.consumed = x.consumed)
    (fun hxy hyz => ⟨hyz.1.trans hxy.1, hyz.2.trans hxy.2⟩) ⟨s.begin_rx .., s.begin_consumed ..⟩
    (fun o => o.unread hr) fun x q => ⟨rfl, x.finish_consumed q e⟩

theorem Ending.streamReadInOrder (h : Ending i s t e) : StreamReadInOrder s t := by
  cases h with
  | refused ht _ => exact ht ▸ ⟨0, by simp, by simp [State.finish_consumed]⟩
  | ran v _ hv ht _ =>
    obtain ⟨k, hrx, hcons⟩ := hv.stream
    rw [State.begin_rx] at hrx hcons
    rw [State.begin_consumed] at hcons
    exact ht ▸ ⟨k, hrx, (v.finish_consumed _ _).trans hcons⟩

/-- The store rule (10_state.md R143): the bytes from RX[0] to the final RXLEN are the only ones stored to. -/
theorem Ending.rxStoresOnly (h : Ending i s t e) : RxStoresOnly s t := by
  intro a ha
  cases h with
  | refused ht _ => rw [ht]; rfl
  | ran v _ hv ht _ =>
    subst ht
    have outside := hv.bytes a (ha.imp_left (Nat.lt_add_right _))
    exact outside.trans (s.begin_byteAt ..)

/-- The ops with the row "unchanged" of the state table (R501). -/
theorem Ending.sess_unchanged (h : Ending i s t e) (hp : i.phase = .unchanged) : t.sess = s.sess := by
  cases h with
  | refused ht _ => rw [ht]; rfl
  | ran v _ hv ht _ =>
    have kept : v.sess = s.sess := by rw [hv.sess, hp]; rfl
    subst ht
    rw [hp]
    split <;> exact kept

theorem Ending.completed (h : Ending i s t e) : Completed t e := by
  cases h with
  | refused ht _ => exact ht ▸ ⟨rfl, rfl, rfl⟩
  | ran v _ _ ht _ => exact ht ▸ ⟨rfl, rfl, rfl⟩

theorem Ending.outcomes (h : Ending i s t e) : t.outcomes = s.outcomes ++ [e] := by
  cases h with
  | refused ht _ => exact ht ▸ s.finish_outcomes _ e
  | ran v _ hv ht _ =>
    subst ht
    rw [State.finish_outcomes, hv.outcomes, State.begin_outcomes]

/-! ### The acceptance checks -/

/-- A register check that fails behind a passed STATE check refuses with CONFIG, as a family check before it would. -/
theorem Gate.refusal_of_config {g : Gate} (hs : g.stateOk = true) (hc : g.configOk = false) :
    g.refusal = some .config := by
  simp [Gate.refusal, hs, hc]

theorem Gate.refusal_of_passed {g : Gate} (hf : g.familyOk = true) (hs : g.stateOk = true) (hc : g.configOk = true)
    (hp : g.paramOk = true) : g.refusal = none := by
  simp [Gate.refusal, hf, hs, hc, hp]

theorem State.written_iff (s : State) (bits : List Nat) : s.written bits = true ↔ ∀ k ∈ bits, s.valid k = true :=
  List.all_eq_true

theorem State.exchangeGate_configOk_iff (s : State) (k : Nat) (c : Bool) :
    (s.exchangeGate [k] c).configOk = true ↔ ∀ b ∈ k :: (if c then [1] else []), s.valid b = true := by
  refine (s.written_iff _).trans ?_
  cases c <;> simp [ackCodeBit, and_comm]

/-- The CONFIG check of an entry sequence (R450, R460). -/
theorem State.entryReady_iff (s : State) : s.entryReady = true ↔
    (∀ k ∈ configNeeds .entry s.prof.family, s.valid k = true) ∧
      (s.prof.family.usesTrain = true → s.trainClean = true) := by
  have needs : entryNeeds s.prof.family = configNeeds .entry s.prof.family := by cases s.prof.family <;> rfl
  rw [State.entryReady, Bool.and_eq_true, s.written_iff, needs]
  cases s.prof.family.usesTrain <;> simp

/-- The CONFIG check of an op that runs no entry sequence: the registers it needs are written. -/
theorem gate_configOk_iff_written (i : Instr) (s : State) (he : i ≠ .entry) (hr : i ≠ .reset) :
    (i.gate s).configOk = true ↔ ∀ k ∈ configNeeds i s.prof.family, s.valid k = true := by
  cases i with
  | entry => exact absurd rfl he
  | reset => exact absurd rfl hr
  | unlock | read | program | verify | blockErase | checksum | checksums => exact s.written_iff _
  | chipErase _ c | secSet _ c | secGet _ c | secRelease _ c | signature _ c | optRead _ c | optWrite _ c | status _ c =>
    exact s.exchangeGate_configOk_iff _ c
  | rawCmd _ _ c _ => cases c <;> exact s.written_iff _
  | _ => simp [Instr.gate, configNeeds]

/-- The CONFIG check passes exactly when the registers the op needs are written and the train it runs is clean. -/
theorem gate_configOk_iff (i : Instr) (s : State) : (i.gate s).configOk = true ↔
    (∀ k ∈ configNeeds i s.prof.family, s.valid k = true) ∧
      (i = .entry ∨ i = .reset → s.prof.family.usesTrain = true → s.trainClean = true) := by
  by_cases he : i = .entry
  · subst he
    exact s.entryReady_iff.trans (by simp)
  · by_cases hr : i = .reset
    · subst hr
      have needs : configNeeds .reset s.prof.family = configNeeds .entry s.prof.family ++ s.resetNeeds := by
        unfold State.resetNeeds
        cases s.prof.family <;> rfl
      simp only [Instr.gate, Bool.and_eq_true, s.entryReady_iff, s.written_iff, needs, List.forall_mem_append]
      simp [and_right_comm]
    · simpa [he, hr] using gate_configOk_iff_written i s he hr

/-- A session op passes its STATE check in READY, every other op in any state. -/
theorem gate_stateOk (i : Instr) (s : State) (h : i.isSession = true → SessionOpen s) : (i.gate s).stateOk = true := by
  have ready : i.isSession = true → (s.sess == .ready) = true := fun hi => beq_iff_eq.2 (h hi).ready
  cases i with
  | read | program | verify | blockErase | checksum | checksums | chipErase | secSet | secGet | secRelease | signature
  | optRead | optWrite | status | rawCmd => exact ready rfl
  | _ => rfl

end Sys2Proof.Machine

namespace Sys2Proof.Machine

/-- Settles O23: a refused word completes at once, and an accepted one ends exactly once (`Ending`). -/
theorem everyCommandFinishesOnce : Obligations.EveryCommandFinishesOnce := by
  intro s h hs w hh ha hb hn
  rw [step_command hh ha hb, runCommand]
  cases decodeWord w with
  | error _ => exact ⟨_, rfl, ⟨rfl, rfl, rfl⟩, rfl, rfl, rfl, State.finish_outcomes ..⟩
  | ok i =>
    have accepted : Accepted (((s.take h hs).respond .written).accept w) := ⟨rfl, rfl, rfl, rfl, hn⟩
    obtain ⟨t, e, hexec, hend⟩ := exec_ends i accepted
    obtain rfl : t.err = e := hend.completed.err
    have config := hend.sameConfig
    exact ⟨t, hexec, hend.completed, config.cmd, config.tsnap, config.tacc, hend.outcomes⟩

/-- Settles O24: no part of a command changes the configuration. -/
theorem commandsKeepTheirOperands : Obligations.CommandsKeepTheirOperands := by
  intro i s hs
  obtain ⟨t, e, hexec, hend⟩ := exec_ends i hs
  exact ⟨t, hexec, hend.sameConfig⟩

/-- Settles O28: the CONFIG check fails, and the STATE check before it passes. -/
theorem unwrittenRegistersAreRefused : Obligations.UnwrittenRegistersAreRefused := by
  intro i s hsess hbad
  have unready : (i.gate s).configOk = false := by
    rw [Bool.eq_false_iff, Ne, gate_configOk_iff]
    rintro ⟨written, clean⟩
    rcases hbad with ⟨k, hk, hv⟩ | ⟨hi, hfam, x, hx, hres⟩
    · rw [written k hk] at hv
      cases hv
    · have uses : s.prof.family.usesTrain = true := by rcases hfam with hf | hf <;> rw [hf] <;> rfl
      exact hres (beq_iff_eq.1 (List.all_eq_true.1 (clean hi uses) x hx))
  exact exec_refused (Gate.refusal_of_config (gate_stateOk i s hsess) unready)

/-- Settles O30: these ops may send and nothing else. -/
theorem sendingOpsFrame : Obligations.SendingOpsFrame := by
  intro i s hs hi
  obtain ⟨hread, hpins, hdec, hst, hack, hw, hph⟩ : i.allow.read = false ∧ i.allow.pins = false ∧
      i.allow.decode = false ∧ i.allow.store = false ∧ i.allow.ack = false ∧ i.writesRx = false ∧
      i.phase = .unchanged := by
    rcases hi with ⟨m, f, b, rfl⟩ | rfl | rfl | rfl <;> exact ⟨rfl, rfl, rfl, rfl, rfl, rfl, rfl⟩
  obtain ⟨t, e, hexec, hend⟩ := exec_ends i hs
  obtain ⟨rx, consumed⟩ := hend.unread hread
  exact ⟨t, hexec, hend.sameConfig, hend.samePins hpins, hend.sameRx hw hst hdec, hend.ackok hack,
    hend.sess_unchanged hph, rx, consumed, fun hd => hend.sent (hd ▸ rfl), hend.sameHostSide⟩

/-- Settles O31: these ops neither decode nor store; all but ENTRY leave the channel alone. -/
theorem pinOpsFrame : Obligations.PinOpsFrame := by
  intro i s hs hi
  obtain ⟨hdec, hst, hack, hw, hchan, hpins⟩ : i.allow.decode = false ∧ i.allow.store = false ∧ i.allow.ack = false ∧
      i.writesRx = false ∧ (i ≠ .entry → i.allow.send = false ∧ i.allow.read = false) ∧
      (i = .endSession → i.allow.pins = false) := by
    rcases hi with ⟨p, v, rfl⟩ | rfl | rfl | rfl <;> simp [Instr.allow, Instr.writesRx]
  obtain ⟨t, e, hexec, hend⟩ := exec_ends i hs
  exact ⟨t, hexec, hend.sameConfig, hend.sameRx hw hst hdec, hend.ackok hack, hend.streamReadInOrder,
    fun hne => ⟨hend.sent (hchan hne).1, hend.unread (hchan hne).2⟩, fun he => hend.samePins (hpins he),
    hend.sameHostSide⟩

/-- Settles O32: the codec ops neither send, read nor touch the pins. -/
theorem offlineCodecFrame : Obligations.OfflineCodecFrame := by
  intro i s hs hi
  obtain ⟨hsend, hread, hpins, hph, henc⟩ : i.allow.send = false ∧ i.allow.read = false ∧ i.allow.pins = false ∧
      i.phase = .unchanged ∧ ((∃ m f b, i = .encode m f b) → i.allow.decode = false ∧ i.allow.ack = false) := by
    rcases hi with ⟨m, f, b, rfl⟩ | ⟨m, rfl⟩ <;> simp [Instr.allow, Instr.phase]
  obtain ⟨t, e, hexec, hend⟩ := exec_ends i hs
  obtain ⟨rx, consumed⟩ := hend.unread hread
  exact ⟨t, hexec, hend.sameConfig, hend.samePins hpins, hend.sess_unchanged hph, hend.sent hsend, rx, consumed,
    hend.rxStoresOnly, fun he => ⟨hend.sameDiag (henc he).1, hend.ackok (henc he).2⟩, hend.sameHostSide⟩

/-- Settles O33: the receiving ops never touch the pins, and RECV alone sends. -/
theorem receivingOpsFrame : Obligations.ReceivingOpsFrame := by
  intro i s hs hi
  obtain ⟨hpins, hph, hsend, hraw⟩ : i.allow.pins = false ∧ i.phase = .unchanged ∧
      ((∀ m, i ≠ .recv m) → i.allow.send = false) ∧
      (i = .rawRecv → i.allow.decode = false ∧ i.allow.ack = false) := by
    rcases hi with ⟨m, rfl⟩ | ⟨m, rfl⟩ | rfl <;> simp [Instr.allow, Instr.phase]
  obtain ⟨t, e, hexec, hend⟩ := exec_ends i hs
  exact ⟨t, hexec, hend.sameConfig, hend.samePins hpins, hend.sess_unchanged hph, hend.rxStoresOnly,
    hend.streamReadInOrder, fun hne => hend.sent (hsend hne),
    fun hr => ⟨hend.sameDiag (hraw hr).1, hend.ackok (hraw hr).2⟩, hend.sameHostSide⟩

/-- Settles O34: the store rule and the stream order hold of every op; the session ops never touch the pins. -/
theorem sessionOpsFrame : Obligations.SessionOpsFrame := by
  intro i s hs _
  have hpins : i.isSession = true → i.allow.pins = false := by cases i <;> simp [Instr.isSession, Instr.allow]
  have hack : i = .checksum ∨ i = .checksums → i.allow.ack = false := by rintro (rfl | rfl) <;> rfl
  obtain ⟨t, e, hexec, hend⟩ := exec_ends i hs
  exact ⟨t, hexec, hend.sameConfig, hend.rxStoresOnly, hend.streamReadInOrder, fun hi => hend.samePins (hpins hi),
    fun hi => hend.ackok (hack hi), hend.sameHostSide⟩

end Sys2Proof.Machine
end

section
/-! BLOCK_ERASE (42_command.md R514) as a conversation: the command, the first status, the second status. -/

namespace Sys2Proof.Machine

variable {s t u : State} {bytes : List Byte} {ps : List (List Byte)} {rs : List Reply} {rest : List RxByte}

/-- The pseudocode of a session op starts, after some processing, with RXBUF empty and the replies still to be read. -/
theorem session_starts (hs : Accepted s) (hr : Replies s rs rest) (ph : Phase) :
    ∃ t, pass (s.begin true ph) = .ok ⟨⟩ t ∧ OpStep {} (s.begin true ph) t ∧ Progress t t [] [] rs rest := by
  obtain ⟨t, hpass, w⟩ := pass_ok (hs.live.begin true ph)
  have empty : RxHolds (s.begin true ph) [] :=
    have clear := RxHolds.clear s
    ⟨clear.bytes, clear.length, clear.frames, clear.lengths⟩
  have waiting : Replies (s.begin true ph) rs rest := hr.congr (s.begin_prof ..) (s.begin_rx ..) (Nat.le_refl _)
  exact ⟨t, hpass, w.step, .start (empty.step w.step rfl) (waiting.step w.step rfl)⟩

/-- When every reply has been read, the completion leaves the rest of the stream and what RXBUF holds. -/
theorem Progress.finish (h : Progress s u bytes ps [] rest) (q : Sess) (e : Err) :
    (u.finish q e).rx = rest ∧ RxHolds (u.finish q e) ps ∧ (u.finish q e).sent = s.sent ++ bytes := by
  have held := h.holds
  exact ⟨Queued.nil.1 h.replies.queued, ⟨held.bytes, held.length, held.frames, held.lengths⟩,
    (u.finish_sent q e).trans h.sent⟩

theorem blockErase_gate (ho : SessionOpen s) (hv : ∀ b ∈ configNeeds .blockErase s.prof.family, s.valid b = true)
    (hp : ¬ paramBad .blockErase s) : (Instr.blockErase.gate s).refusal = none :=
  Gate.refusal_of_passed (bne_iff_ne.2 ho.framed) (gate_stateOk .blockErase s fun _ => ho)
    ((gate_configOk_iff_written .blockErase s nofun nofun).2 hv) (decide_eq_true (Nat.not_lt.1 hp))

/-- The bytes of BLOCK_ERASE's command frame: one block at ARG0. -/
def State.eraseFrame (s : State) : List Byte :=
  s.cmdFrame (s.opcode opcErase :: s.range s.arg0.toNat (s.arg0.toNat + s.blockSize s.arg0.toNat - 1))

theorem SameConfig.eraseFrame (h : SameConfig s t) : t.eraseFrame = s.eraseFrame := by
  simp only [State.eraseFrame, cmdFrame_congr h.prof, opcode_congr h.prof, range_congr h.prof, State.blockSize, h.prof,
    h.arg0]

/-- BLOCK_ERASE after a first ACK: both statuses are stored, and the second decides how it completes. -/
theorem execBlockErase_acked {s1 s2 : Reply} (hs : Accepted s) (hg : (Instr.blockErase.gate s).refusal = none)
    (hack : s1.acks s) (hr : Replies s [s1, s2] rest) (hc : s1.1.length + s2.1.length ≤ Config.bufCap) :
    ∃ t u, OpStep {} (s.begin true (.session .erasing)) t ∧ Progress t u t.eraseFrame [s1.1, s2.1] [] rest ∧
      u.ackok = t.ackok ∧ exec .blockErase s =
        .next (if s.chkReturn s2.1 then { u with ackok := true }.finish .ready .none else u.finish .ready .noAck) := by
  obtain ⟨t, hpass, o, g⟩ := session_starts hs hr (.session .erasing)
  have live : Live t := o.live (hs.live.begin ..)
  have chk (p : List Byte) : t.chkReturn p = s.chkReturn p := by
    simp only [State.chkReturn, o.prof, State.begin_prof]
  have ne1 := Reply.fits_ne (hr.fits s1 (by simp))
  have ne2 := Reply.fits_ne (hr.fits s2 (by simp))
  obtain ⟨t1, t2, hsend, hrecv1, g2, a2, -⟩ := g.exchange live (t.opcode opcErase)
    (t.range t.arg0.toNat (t.arg0.toNat + t.blockSize t.arg0.toNat - 1))
  obtain ⟨t3, hstore1, g3, a3, -⟩ := g2.store ne1 (by simp; omega) (by simp)
  obtain ⟨t4, hrecv2, g4, a4, -⟩ := g3.recv live
  obtain ⟨u, hstore2, g5, a5, -⟩ := g4.store ne2 (by simpa using hc) (by simpa using ne1)
  rw [g3.step.prof] at hrecv2
  refine ⟨t, u, o, g5, a5.trans (a4.trans (a3.trans a2)), ?_⟩
  have hack1 : s.chkReturn s1.1 = true := hack
  cases hchk : s.chkReturn s2.1 with
  | true =>
    refine command_ok hg ?_
    simp [runBody, hpass, hsend, hrecv1, hstore1, chk, hack1, hrecv2, hstore2, hchk, setAckok]
  | false =>
    refine command_raised hg ?_
    simp [runBody, hpass, hsend, hrecv1, hstore1, chk, hack1, hrecv2, hstore2, hchk]

end Sys2Proof.Machine

namespace Sys2Proof.Machine

/-- Settles O55: the two ways `execBlockErase_acked` leaves for the second status. -/
theorem blockEraseNeedsTwoAcks : Obligations.BlockEraseNeedsTwoAcks := by
  intro s s1 s2 rest hs ho hv hp hack hr hc
  obtain ⟨t, u, o, g, ha, hexec⟩ := execBlockErase_acked hs (blockErase_gate ho hv hp) hack hr hc
  have noAck : u.ackok = false := by rw [ha, o.ack rfl, State.begin_ackok, hs.ackok]
  have sent : t.sent ++ t.eraseFrame = s.sent ++ s.eraseFrame := by
    rw [((s.begin_sameConfig ..).trans o.sameConfig).eraseFrame, o.sent rfl, State.begin_sent]
  cases hchk : s.chkReturn s2.1 with
  | true =>
    rw [hchk, if_pos rfl] at hexec
    obtain ⟨rx, holds, hsent⟩ := (g.ack true).finish .ready .none
    exact ⟨_, hexec, rfl, rx, holds, fun _ => ⟨⟨rfl, rfl, rfl⟩, rfl⟩, fun hn => absurd hchk hn, hsent.trans sent⟩
  | false =>
    rw [hchk, if_neg nofun] at hexec
    obtain ⟨rx, holds, hsent⟩ := g.finish .ready .noAck
    exact ⟨_, hexec, rfl, rx, holds, fun hy => absurd hy (by rw [Reply.acks, hchk]; nofun), fun _ => ⟨⟨rfl, rfl, rfl⟩, noAck⟩,
      hsent.trans sent⟩

end Sys2Proof.Machine
end

section
/-! The accesses of the host to the buffers, and the bus errors (20_memory.md R204-R210): the answer that `busRead` and
`busWrite` give, and the bytes that a word packs. -/

namespace Sys2Proof.Machine

/-! ### Which accesses are answered with a bus error -/

/-- R206 and R207 at their window offsets. -/
theorem accessLegal_eq_false_iff (a : Nat) (sz : Size) : accessLegal a sz = false ↔
    if 0x10000 ≤ a ∧ a < 0x30000 then a % sz.bytes ≠ 0 else sz ≠ .word ∨ a % 4 ≠ 0 := by
  by_cases hbuf : 0x10000 ≤ a ∧ a < 0x30000
  · rw [if_pos hbuf, accessLegal_buffer hbuf.1 hbuf.2, beq_eq_false_iff_ne]
  · have ha : a < Config.txBase ∨ Config.rxEnd ≤ a := by simp only [Config.txBase, Config.rxEnd]; omega
    rw [if_neg hbuf, accessLegal_other ha, Bool.and_eq_false_iff, beq_eq_false_iff_ne, beq_eq_false_iff_ne]

theorem State.busRead_illegal {s : State} {a : BitVec 18} {sz : Size} (hl : accessLegal a.toNat sz = false) :
    s.busRead a sz = s.respond .busError := by
  simp only [State.busRead, hl]
  rfl

theorem State.busWrite_illegal {s : State} {a : BitVec 18} {sz : Size} (v : Word)
    (hl : accessLegal a.toNat sz = false) : s.busWrite a sz v = s.respond .busError := by
  simp only [State.busWrite, hl]
  rfl

theorem State.busRead_legal_resp {s : State} {a : BitVec 18} {sz : Size} (hl : accessLegal a.toNat sz = true) :
    ∃ v, (s.busRead a sz).resp = s.resp ++ [.data v] := by
  simp only [State.busRead, hl, if_true]
  split
  · exact ⟨_, rfl⟩
  · exact ⟨_, rfl⟩
  · split <;> exact ⟨_, rfl⟩

@[simp] theorem State.lockedWrite_resp (s : State) (r : LockedReg) (v : Word) : (s.lockedWrite r v).resp = s.resp := by
  unfold State.lockedWrite
  split <;> rfl

/-- A register write gives no response of its own: `busWrite` gives it. -/
@[simp] theorem State.regWrite_resp (s : State) (r : Reg) (v : Word) : (s.regWrite r v).resp = s.resp := by
  cases r
  case locked q => exact s.lockedWrite_resp q v
  case arg0 => exact (apply_ite State.resp ..).trans (ite_self _)
  case arg1 => exact (apply_ite State.resp ..).trans (ite_self _)
  case txlen => exact (apply_ite State.resp ..).trans (ite_self _)
  all_goals rfl

@[simp] theorem State.writeEffect_resp (s : State) (a : Nat) (sz : Size)
    (v : Word) : (s.writeEffect a sz v).resp = s.resp := by
  unfold State.writeEffect
  split
  · split
    · exact s.regWrite_resp _ v
    · rfl
  · split <;> rfl
  · rfl

theorem State.busWrite_legal_resp {s : State} {a : BitVec 18} {sz : Size} (v : Word)
    (hl : accessLegal a.toNat sz = true) : (s.busWrite a sz v).resp = s.resp ++ [.written] := by
  rw [State.busWrite, if_pos hl, State.respond_resp, State.writeEffect_resp]

/-- A host access that starts no command: an illegal one is answered with a bus error and nothing else happens; a legal
one has another answer. -/
theorem step_access {s : State} {a : BitVec 18} {sz : Size} {v : Word} {act : HostAct}
    (hact : act = .read a sz ∨ act = .write a sz v) (hn : NextAct s act)
    (hc : s.busy = false → act ≠ .write Reg.cmd.addr .word v) :
    ∃ t, step s = .next t ∧
      (accessLegal a.toNat sz = false → t.resp = s.resp ++ [.busError] ∧ t = s.served t) ∧
      (accessLegal a.toNat sz = true → ∃ r, r ≠ .busError ∧ t.resp = s.resp ++ [r]) := by
  obtain ⟨h, hs, hh, ha⟩ := hn
  rcases hact with rfl | rfl
  · refine ⟨_, step_read hh ha, fun hl => ?_, fun hl => ?_⟩
    · rw [State.busRead_illegal hl]
      exact ⟨rfl, rfl⟩
    · obtain ⟨w, hw⟩ := (s.take h hs).busRead_legal_resp hl
      exact ⟨.data w, nofun, hw⟩
  · have noCommand : ¬ (a = Reg.cmd.addr ∧ sz = .word ∧ s.busy = false) := by
      rintro ⟨rfl, rfl, hb⟩
      exact hc hb rfl
    refine ⟨_, step_write hh ha noCommand, fun hl => ?_, fun hl => ?_⟩
    · rw [State.busWrite_illegal v hl]
      exact ⟨rfl, rfl⟩
    · exact ⟨.written, nofun, State.busWrite_legal_resp v hl⟩

/-- A naturally aligned access stays inside one 4-byte group. -/
theorem Size.aligned_within_group {a : Nat} {sz : Size} (h : a % sz.bytes = 0) : a / 4 = (a + sz.bytes - 1) / 4 := by
  cases sz <;> simp only [Size.bytes] at * <;> omega

/-! ### Bytes packed in a word (R204) -/

theorem Size.bytes_le (sz : Size) : sz.bytes ≤ 4 := by cases sz <;> decide

theorem leWord_toNat_lt (bs : List Byte) (hl : bs.length ≤ 4) : (leWord bs).toNat < 2 ^ (8 * bs.length) := by
  refine Nat.lt_pow_two_of_testBit _ fun i hi => ?_
  rw [BitVec.testBit_toNat]
  by_cases h32 : i < 32
  · rw [leWord_getLsbD bs hl i h32, List.getElem?_eq_none (by omega)]
    simp
  · exact BitVec.getLsbD_of_ge _ _ (Nat.le_of_not_lt h32)

theorem leWord_extractLsb' (bs : List Byte) (hl : bs.length ≤ 4) (i : Nat) (hi : i < bs.length) :
    (leWord bs).extractLsb' (8 * i) 8 = bs[i] := by
  apply BitVec.eq_of_getLsbD_eq
  intro j hj
  have lane : (8 * i + j) / 8 = i := by omega
  have bit : (8 * i + j) % 8 = j := by omega
  rw [BitVec.getLsbD_extractLsb', leWord_getLsbD bs hl _ (by omega), lane, bit, List.getElem?_eq_getElem hi]
  simp [hj]

/-- Unpacking n bytes of a value and packing them again keeps its low 8n bits. -/
theorem leWord_leBytes (n : Nat) (hn : n ≤ 4) (v : Word) :
    leWord (leBytes n v) = v &&& BitVec.ofNat 32 (2 ^ (8 * n) - 1) := by
  apply BitVec.eq_of_getLsbD_eq
  intro i hi
  rw [leWord_getLsbD _ (by rw [leBytes_length]; exact hn) i hi, BitVec.getLsbD_and, BitVec.getLsbD_ofNat,
    Nat.testBit_two_pow_sub_one]
  by_cases hin : i / 8 < n
  · have low : i < 8 * n := by omega
    rw [leBytes_getElem? n v _ hin]
    simp [hi, low, Nat.mod_lt, Nat.div_add_mod]
  · have high : ¬ i < 8 * n := by omega
    rw [List.getElem?_eq_none (by rw [leBytes_length]; omega)]
    simp [high]

@[simp] theorem State.bufBytes_length (s : State) (a n : Nat) : (s.bufBytes a n).length = n := by simp [State.bufBytes]

@[simp] theorem State.bufBytes_getElem (s : State) (a n i : Nat) (h : i < (s.bufBytes a n).length) :
    (s.bufBytes a n)[i] = s.byteAt (a + i) := by simp [State.bufBytes]

/-- A read of a place that holds the bytes of a value returns the value's low bytes (R204, R208). -/
theorem State.busRead_leBytes {s : State} {a : BitVec 18} {sz : Size} {v : Word} (hb : s.busy = false)
    (h1 : Config.txBase ≤ a.toNat) (h2 : a.toNat < Config.rxEnd) (h3 : a.toNat % sz.bytes = 0)
    (hv : s.bufBytes a.toNat sz.bytes = leBytes sz.bytes v) :
    s.busRead a sz = s.respond (.data (v &&& BitVec.ofNat 32 (2 ^ (8 * sz.bytes) - 1))) := by
  rw [State.busRead_buffer hb h1 h2 h3, hv, leWord_leBytes _ sz.bytes_le]

/-! ### A write to TXBUF -/

/-- The state after the bytes of a TXBUF write are stored (R142). -/
def State.txStored (s : State) (a n : Nat) (v : Word) : State := { s with mem := s.mem.putAll a (leBytes n v) }

theorem State.busWrite_tx_idle {s : State} {a : BitVec 18} {sz : Size} (v : Word) (hb : s.busy = false)
    (h1 : Config.txBase ≤ a.toNat) (h2 : a.toNat < Config.rxBase) (h3 : a.toNat % sz.bytes = 0) :
    s.busWrite a sz v = (s.txStored a.toNat sz.bytes v).respond .written := by
  rw [State.busWrite_tx v h1 h2 h3, if_neg (by simp [hb])]
  rfl

theorem State.txStored_byteAt_inside (s : State) (a n : Nat) (v : Word) (i : Nat) (hi : i < n) :
    (s.txStored a n v).byteAt (a + i) = v.extractLsb' (8 * i) 8 := by
  have hlen : i < (leBytes n v).length := by rw [leBytes_length]; exact hi
  refine (s.byteAt_putAll_inside a (leBytes n v) i hlen).trans ?_
  exact Option.some.inj ((List.getElem?_eq_getElem hlen).symm.trans (leBytes_getElem? n v i hi))

theorem State.txStored_byteAt_outside (s : State) (a n : Nat) (v : Word) (x : Nat) (h : x < a ∨ a + n ≤ x) :
    (s.txStored a n v).byteAt x = s.byteAt x :=
  s.byteAt_putAll a (leBytes n v) x (by rw [leBytes_length]; exact h)

theorem State.txStored_bufBytes (s : State) (a n : Nat) (v : Word) : (s.txStored a n v).bufBytes a n = leBytes n v := by
  refine List.ext_getElem? fun i => ?_
  by_cases hi : i < n
  · rw [leBytes_getElem? n v i hi, List.getElem?_eq_getElem (by rw [State.bufBytes_length]; exact hi),
      State.bufBytes_getElem, State.txStored_byteAt_inside s a n v i hi]
  · rw [List.getElem?_eq_none (by rw [State.bufBytes_length]; omega),
      List.getElem?_eq_none (by rw [leBytes_length]; omega)]

/-- A read right after a TXBUF write of the same place and width. -/
theorem State.busRead_busWrite_tx {s : State} {a : BitVec 18} {sz : Size} (v : Word) (hb : s.busy = false)
    (h1 : Config.txBase ≤ a.toNat) (h2 : a.toNat < Config.rxBase) (h3 : a.toNat % sz.bytes = 0) :
    (s.busWrite a sz v).busRead a sz =
      (s.busWrite a sz v).respond (.data (v &&& BitVec.ofNat 32 (2 ^ (8 * sz.bytes) - 1))) := by
  rw [State.busWrite_tx_idle v hb h1 h2 h3]
  have stored : ((s.txStored a.toNat sz.bytes v).respond .written).bufBytes a.toNat sz.bytes = leBytes sz.bytes v :=
    s.txStored_bufBytes a.toNat sz.bytes v
  exact State.busRead_leBytes hb h1 (Nat.lt_trans h2 (by decide)) h3 stored

end Sys2Proof.Machine

namespace Sys2Proof.Machine

/-- Settles O11: `accessLegal_eq_false_iff` says which accesses are wrong, `step_access` how they are answered. -/
theorem wrongAccessesGetABusError : Obligations.WrongAccessesGetABusError := by
  intro s a sz v act hact hn hc buffer wrong
  have illegal : wrong ↔ accessLegal a.toNat sz = false := (accessLegal_eq_false_iff a.toNat sz).symm
  obtain ⟨t, hstep, refused, answered⟩ := step_access hact hn hc
  refine ⟨t, hstep, ⟨fun hw => (refused (illegal.1 hw)).1, fun hresp => ?_⟩, fun hw => (refused (illegal.1 hw)).2,
    fun hbuf hw => ?_⟩
  · by_contra hw
    obtain ⟨r, notError, hr⟩ := answered (by rwa [illegal, Bool.not_eq_false] at hw)
    exact notError (by simpa using hr.symm.trans hresp)
  · have aligned : ¬ a.toNat % sz.bytes ≠ 0 := fun h => hw ((if_pos hbuf).mpr h)
    exact Size.aligned_within_group (not_not.1 aligned)

/-- Settles O12: the write is `State.txStored`, and the read packs the bytes that it unpacked. -/
theorem bufferAccessesAreLittleEndian : Obligations.BufferAccessesAreLittleEndian := by
  rintro s a sz v hb h1 h2 hal ⟨h, hs, hh, ha⟩
  have hstep := step_writeBuffer hh ha h1
  have readBack := State.busRead_busWrite_tx (s := s.take h hs) v hb h1 h2 hal
  rw [State.busWrite_tx_idle (s := s.take h hs) v hb h1 h2 hal] at hstep readBack
  exact ⟨_, hstep, rfl, (s.take h hs).txStored_byteAt_inside a.toNat sz.bytes v,
    (s.take h hs).txStored_byteAt_outside a.toNat sz.bytes v, rfl, congrArg State.resp readBack⟩

/-- Settles O21: a read changes only the model's record; a register read answers `regRead`, a buffer read the packed
bytes. -/
theorem readsHaveNoSideEffects : Obligations.ReadsHaveNoSideEffects := by
  refine ⟨?_, fun s h hs r hh ha => ?_, ?_⟩
  · rintro s a sz ⟨h, hs, hh, ha⟩
    exact ⟨_, step_read hh ha, (s.take h hs).busRead_served a sz⟩
  · exact ⟨_, step_read hh ha, by rw [State.busRead_reg]; rfl⟩
  · rintro s a sz hb h1 h2 hal ⟨h, hs, hh, ha⟩
    have hlen := (s.take h hs).bufBytes_length a.toNat sz.bytes
    have short : ((s.take h hs).bufBytes a.toNat sz.bytes).length ≤ 4 := by rw [hlen]; exact sz.bytes_le
    have range := leWord_toNat_lt _ short
    refine ⟨_, leWord ((s.take h hs).bufBytes a.toNat sz.bytes), step_read hh ha, ?_, by rwa [hlen] at range,
      fun i hi => ?_⟩
    · rw [State.busRead_buffer (s := s.take h hs) hb h1 h2 hal]
      rfl
    · rw [leWord_extractLsb' _ short i (hlen.symm ▸ hi), State.bufBytes_getElem, State.take_byteAt]

end Sys2Proof.Machine
end

section
/-! The command word (30_encoding.md R300-R306): the decoder takes the encoding of every well-formed instruction, and
takes nothing else. -/

namespace Sys2Proof

/-! ### Decoding an encoding -/

/-- What is left of a legal word's checks, once its fields are known, is the check of R301 on its operands. -/
theorem decodeFields_encodeFields {i : Instr} (h : i.wellFormed = true) : decodeFields (encodeFields i) = .ok i := by
  cases i with
  | sendFrame msel ftr | encode msel ftr => exact if_pos (c := footerFits msel ftr = true) h
  | chipErase n c | secSet n c | secGet n c | secRelease n c | signature n c | optRead n c | optWrite n c | status n c
  | rawCmd _ n c => exact if_pos (c := checkFits n c = true) h
  | pin p lvl => cases p <;> cases lvl <;> rfl
  | _ => rfl

theorem decodeWord_encode {i : Instr} (h : i.wellFormed = true) : decodeWord (encode i) = .ok i := by
  rw [decodeWord, encode, Fields.ofWord_toWord, decodeFields_encodeFields h]

/-! ### Encoding a decoded word -/

/-- A check of the decoder that a legal word has passed. -/
theorem passed_of_ok {c : Prop} [Decidable c] {x : Except Illegal Instr} {e : Illegal} {i : Instr}
    (h : (if c then x else .error e) = .ok i) : c ∧ x = .ok i := by
  split at h
  · exact ⟨‹c›, h⟩
  · cases h

/-- Fields within `u` are the fields `u` names, and 0 elsewhere. -/
theorem Fields.masked_of_within {f : Fields} {u : Uses} {n : Nat} (hr : f.reserved = 0) (hn : f.op.toNat = n)
    (h : f.within u = true) :
    { op := BitVec.ofNat 8 n, imm8 := if u.imm8 then f.imm8 else 0, nresp := if u.nresp then f.nresp else 0,
      chk := u.chk && f.chk, fbc := u.fbc && f.fbc, ftr := u.ftr && f.ftr, msel := u.msel && f.msel,
      reserved := 0 } = f := by
  simp only [Fields.within, Bool.and_eq_true, Bool.or_eq_true, beq_iff_eq, Bool.not_eq_true'] at h
  obtain ⟨⟨⟨⟨⟨imm8, nresp⟩, chk⟩, fbc⟩, ftr⟩, msel⟩ := h
  obtain ⟨_, _, _, _, _, _, _, _⟩ := f
  subst hn
  grind

/-- The selector and the level put together again (R305). -/
theorem pinImmediate_eq {b : Byte} (h : b.extractLsb' 3 5 = 0) :
    (0 : BitVec 5) ++ (BitVec.ofBool (b.getLsbD 2) ++ bitsOfPin (pinOfBits (b.extractLsb' 0 2))) = b := by
  revert b
  decide

theorem decodePin_eq_ok {f : Fields} {i : Instr} (hr : f.reserved = 0) (hn : f.op.toNat = 0x11)
    (h : decodePin f = .ok i) : i.wellFormed = true ∧ encodeFields i = f := by
  obtain ⟨hu, h⟩ := passed_of_ok h
  obtain ⟨hz, hi⟩ := passed_of_ok h
  cases hi
  have fields := Fields.masked_of_within hr hn hu
  rw [← pinImmediate_eq hz] at fields
  exact ⟨rfl, fields⟩

theorem decodeFields_eq_ok {f : Fields} {i : Instr} (h : decodeFields f = .ok i) :
    i.wellFormed = true ∧ encodeFields i = f := by
  unfold decodeFields at h
  split at h
  · cases h
  · next hr =>
    replace hr : f.reserved = 0 := by simpa using hr
    split at h
    -- PIN, the reserved numbers, the ops whose operands R301 checks, and last the ops with no such check
    case h_9 hn => exact decodePin_eq_ok hr hn h
    case h_30 => cases h
    case h_1 hn | h_4 hn | h_20 hn | h_21 hn | h_22 hn | h_23 hn | h_24 hn | h_25 hn | h_26 hn | h_27 hn | h_28 hn =>
      obtain ⟨hu, h⟩ := passed_of_ok h
      obtain ⟨hc, hi⟩ := passed_of_ok h
      cases hi
      exact ⟨hc, Fields.masked_of_within hr hn hu⟩
    all_goals
      rename_i hn
      obtain ⟨hu, hi⟩ := passed_of_ok h
      cases hi
      exact ⟨rfl, Fields.masked_of_within hr hn hu⟩

theorem decodeWord_eq_ok {w : Word} {i : Instr} (h : decodeWord w = .ok i) : i.wellFormed = true ∧ encode i = w := by
  obtain ⟨legal, fields⟩ := decodeFields_eq_ok h
  exact ⟨legal, by rw [encode, fields, Fields.toWord_ofWord]⟩

/-! ### The operation numbers (R302, R303) -/

/-- The OP values of R303. -/
def ReservedOp (op : Nat) : Prop := op = 0 ∨ (0x08 ≤ op ∧ op ≤ 0x0F) ∨ (0x15 ≤ op ∧ op ≤ 0x1F) ∨ 0x31 ≤ op

theorem Fields.ofWord_op_toNat (w : Word) : (Fields.ofWord w).op.toNat = w.toNat % 256 := by
  simp [Fields.ofWord, BitVec.extractLsb'_toNat]

theorem encodeFields_op (i : Instr) : (encodeFields i).op = i.opNumber := by cases i <;> rfl

theorem encode_op (i : Instr) : (encode i).toNat % 256 = i.opNumber.toNat := by
  rw [← Fields.ofWord_op_toNat, encode, Fields.ofWord_toWord, encodeFields_op]

theorem Instr.opNumber_not_reserved (i : Instr) : ¬ ReservedOp i.opNumber.toNat := by
  cases i <;> simp [Instr.opNumber, ReservedOp]

theorem decodeWord_reserved {w : Word} (h : ReservedOp (w.toNat % 256)) : ∃ e, decodeWord w = .error e := by
  cases hd : decodeWord w with
  | error e => exact ⟨e, rfl⟩
  | ok i =>
    obtain ⟨-, rfl⟩ := decodeWord_eq_ok hd
    rw [encode_op] at h
    exact absurd h i.opNumber_not_reserved

/-- The word of an assigned operation number with every operand 0 is legal. -/
theorem exists_opNumber_eq {op : BitVec 8} (h : ¬ ReservedOp op.toNat) :
    ∃ i : Instr, i.wellFormed = true ∧ i.opNumber = op := by
  have legal : ∀ op : BitVec 8, ¬ ReservedOp op.toNat → (decodeFields (.plainOf op)).toBool = true := by
    unfold ReservedOp
    decide
  cases hd : decodeFields (.plainOf op) with
  | error e => exact absurd (legal op h) (by rw [hd]; nofun)
  | ok i =>
    obtain ⟨wf, fields⟩ := decodeFields_eq_ok hd
    exact ⟨i, wf, by rw [← encodeFields_op, fields]; rfl⟩

end Sys2Proof

namespace Sys2Proof.Machine

/-- Settles O1: the decoder takes the fields of every well-formed instruction. -/
theorem decodeEncodeRoundTrip : Obligations.DecodeEncodeRoundTrip := fun _ => decodeWord_encode

/-- Settles O2: the fields the decoder takes are those of the instruction it names. -/
theorem decodedWordIsTheEncoding : Obligations.DecodedWordIsTheEncoding := fun _ _ => decodeWord_eq_ok

/-- Settles O3: no instruction has a reserved number, and each other number is that of a word without operands. -/
theorem reservedOperationsAreRefused : Obligations.ReservedOperationsAreRefused := by
  intro w _ _
  refine ⟨fun hres s => ?_, fun hres => ?_⟩
  · obtain ⟨e, he⟩ := decodeWord_reserved hres
    rw [runCommand, he]
  · have assigned : ¬ ReservedOp (Fields.ofWord w).op.toNat := by rw [Fields.ofWord_op_toNat]; exact hres
    obtain ⟨i, legal, number⟩ := exists_opNumber_eq assigned
    exact ⟨i, legal, by rw [encode_op, number, Fields.ofWord_op_toNat]⟩

/-- Settles O5: each word is the encoding of its operation. -/
theorem sampleWordsDecode : Obligations.SampleWordsDecode :=
  ⟨decodeWord_encode (i := .sendFrame true true false) rfl, decodeWord_encode (i := .recv true) rfl,
    decodeWord_encode (i := .status 1 false) rfl, decodeWord_encode (i := .rawCmd 0x70 1 true true) rfl,
    decodeWord_encode (i := .read) rfl, decodeWord_encode (i := .pin .data true) rfl,
    decodeWord_encode (i := .endSession) rfl⟩

end Sys2Proof.Machine
end

section
/-! The sizes of frames (30_encoding.md R316). -/

namespace Sys2Proof.Machine

/-- Settles O36: a frame is its payload and 4 or 5 more bytes. -/
theorem frameSizes : Obligations.FrameSizes := by
  intro lenW m f x
  simp only [encodable_iff, buildFrame_length]
  refine ⟨fun p hp => ?_, fun n hn => ⟨List.replicate (n - if lenW then 5 else 4) 0, ?_⟩⟩
  · cases lenW <;> simp only [maxPay, if_true, Bool.false_eq_true, if_false] at hp ⊢ <;> omega
  · rw [List.length_replicate]
    cases lenW <;> simp only [maxPay, if_true, Bool.false_eq_true, if_false] at hn ⊢ <;> omega

end Sys2Proof.Machine
end

section
/-! PROGRAM and VERIFY (42_command.md R512, R513) as a conversation: the command with its range, a first status, the
data frame, the final status. -/

namespace Sys2Proof.Machine

variable {s t u : State} {bytes : List Byte} {ps : List (List Byte)} {rs : List Reply} {rest : List RxByte}

/-- The bytes of the command frame of PROGRAM and VERIFY: the range of TXLEN bytes at ARG0. -/
def State.transferFrame (s : State) (opc : Byte) : List Byte :=
  s.cmdFrame (opc :: s.range s.arg0.toNat (s.arg0.toNat + s.txlen.toNat - 1))

theorem SameConfig.transferFrame (h : SameConfig s t) (opc : Byte) : t.transferFrame opc = s.transferFrame opc := by
  simp only [State.transferFrame, cmdFrame_congr h.prof, range_congr h.prof, h.arg0, h.txlen]

theorem SameConfig.txPayload (h : SameConfig s t) (hc : s.txlen.toNat ≤ Config.bufCap) :
    t.txPayload = s.txPayload := by
  unfold State.txPayload
  rw [h.txlen]
  exact List.map_congr_left fun i hi => h.txbuf i (Nat.lt_of_lt_of_le (List.mem_range.1 hi) hc)

theorem SameConfig.transferPayload (h : SameConfig s t) (hc : s.txlen.toNat ≤ Config.bufCap) (opc : Byte) :
    t.transferPayload opc = s.transferPayload opc := by
  simp only [State.transferPayload, h.prof, h.txPayload hc]

theorem dataFrame_congr (h : t.prof = s.prof) (p : List Byte) : t.dataFrame p = s.dataFrame p := by
  simp only [State.dataFrame, State.dataFooter, h]

theorem chkReturn_congr (h : t.prof = s.prof) (p : List Byte) : t.chkReturn p = s.chkReturn p := by
  simp only [State.chkReturn, h]

/-- A data frame is sent. -/
theorem Progress.sendData (h : Progress s t bytes ps rs rest) (hs : Live s) (p : List Byte) :
    ∃ u, Machine.sendData p t = .ok ⟨⟩ u ∧ Progress s u (bytes ++ s.dataFrame p) ps rs rest := by
  obtain ⟨u, hsend, g, -⟩ := h.send hs (s.dataFrame p)
  rw [← dataFrame_congr h.step.prof] at hsend
  exact ⟨u, hsend, g⟩

theorem maxPay_le (lenW : Bool) : maxPay lenW ≤ 65535 := by cases lenW <;> decide

theorem Reply.fits_length_le {r : Reply} (h : Reply.fits s r) : r.1.length ≤ 65535 :=
  Nat.le_trans ((encodable_iff _ _).1 h.1).2 (maxPay_le _)

/-- The exchange after a first ACK: the final status is stored, and sets ACKOK whatever it is. -/
theorem transfer_acked {st fin : Reply} (hs : Live s) (hh : RxHolds s []) (hr : Replies s [st, fin] rest)
    (hack : st.acks s) (opc : Byte) : ∃ u, transfer opc s = .ok ⟨⟩ { u with ackok := s.chkReturn fin.1 } ∧
      Progress s u (s.transferFrame opc ++ s.dataFrame (s.transferPayload opc)) [fin.1] [] rest := by
  have ne := Reply.fits_ne (hr.fits fin (by simp))
  have short := Reply.fits_length_le (hr.fits fin (by simp))
  obtain ⟨t1, t2, hsend, hrecv1, g2, -⟩ := (Progress.start hh hr).exchange hs opc
    (s.range s.arg0.toNat (s.arg0.toNat + s.txlen.toNat - 1))
  obtain ⟨t3, hdata, g3⟩ := g2.sendData hs (s.transferPayload opc)
  obtain ⟨t4, hrecv2, g4, -⟩ := g3.recv hs
  obtain ⟨u, hstore, g5, -⟩ := g4.store ne (by simpa using short.trans (by decide)) (by simp)
  rw [g3.step.prof] at hrecv2
  have hack : s.chkReturn st.1 = true := hack
  refine ⟨u, ?_, g5⟩
  simp [transfer, hsend, hrecv1, hack, hdata, hrecv2, hstore, setAckok]

/-! ### The acceptance checks -/

theorem session_gate {i : Instr} (hi : i.isSession = true) (ho : SessionOpen s)
    (hv : ∀ b ∈ configNeeds i s.prof.family, s.valid b = true) (hp : (i.gate s).paramOk = true) :
    (i.gate s).refusal = none := by
  have framed : (i.gate s).familyOk = true := by
    cases i with
    | read | program | verify | blockErase | checksum | checksums | chipErase | secSet | secGet | secRelease | signature
    | optRead | optWrite | status | rawCmd => exact bne_iff_ne.2 ho.framed
    | _ => cases hi
  have written := (gate_configOk_iff_written i s (by rintro rfl; cases hi) (by rintro rfl; cases hi)).2 hv
  exact Gate.refusal_of_passed framed (gate_stateOk i s fun _ => ho) written hp

/-- The PARAM conditions of R512 and R513 on the range and the payload. -/
theorem State.transferFits_iff (s : State) : s.transferFits = true ↔
    ¬ (s.amax < s.arg0.toNat + s.txlen.toNat - 1 ∨ maxPay s.prof.lenW < s.transferLength) := by
  simp [State.transferFits]

theorem State.transferFits_txlen (h : s.transferFits = true) : s.txlen.toNat ≤ Config.bufCap := by
  have most : s.transferLength ≤ maxPay s.prof.lenW := Nat.not_lt.1 (not_or.1 (s.transferFits_iff.1 h)).2
  have data : s.txlen.toNat ≤ s.transferLength := by
    unfold State.transferLength
    split <;> omega
  exact data.trans (most.trans ((maxPay_le _).trans (by decide)))

/-! ### The whole command -/

theorem session_ok {g : Gate} {q : Sess} {body : Ctl Unit} (hg : g.refusal = none)
    (h : runBody body (s.begin true (.session q)) = .ok ⟨⟩ u) :
    command g true (.session q) body s = .next (u.finish .ready .none) := command_ok hg h

/-- A session op whose pseudocode is the exchange of PROGRAM and VERIFY, after a first ACK. -/
theorem command_transfer {g : Gate} {q : Sess} {body : Ctl Unit} {k : Fin 14} {st fin : Reply} (hs : Accepted s)
    (hg : g.refusal = none) (hbody : ∀ t, SameConfig s t → body t = transfer (t.opcode k) t)
    (hc : s.txlen.toNat ≤ Config.bufCap) (hr : Replies s [st, fin] rest) (hack : st.acks s) :
    ∃ t, command g true (.session q) body s = .next t ∧ Completed t .none ∧ t.sess = .ready ∧
      t.ackok = s.chkReturn fin.1 ∧ t.rx = rest ∧ RxHolds t [fin.1] ∧
      t.sent = s.sent ++ s.transferFrame (s.opcode k) ++ s.dataFrame (s.transferPayload (s.opcode k)) := by
  obtain ⟨t, hpass, o, g⟩ := session_starts hs hr (.session q)
  have config : SameConfig s t := (s.begin_sameConfig ..).trans o.sameConfig
  have sent : t.sent = s.sent := (o.sent rfl).trans (s.begin_sent ..)
  have hackt : st.acks t := (chkReturn_congr config.prof st.1).trans hack
  obtain ⟨u, hrun, gu⟩ := transfer_acked (o.live (hs.live.begin ..)) g.holds g.replies hackt (t.opcode k)
  obtain ⟨rx, holds, hsent⟩ := (gu.ack (t.chkReturn fin.1)).finish .ready .none
  have ran : runBody body (s.begin true (.session q)) = .ok ⟨⟩ { u with ackok := t.chkReturn fin.1 } := by
    simp [runBody, hpass, hbody t config, hrun]
  refine ⟨_, session_ok hg ran, ⟨rfl, rfl, rfl⟩, rfl,
    chkReturn_congr config.prof fin.1, rx, holds, hsent.trans ?_⟩
  rw [sent, config.transferFrame, config.transferPayload hc, dataFrame_congr config.prof, opcode_congr config.prof,
    List.append_assoc]

/-- VERIFY without data (R513). -/
theorem execVerify_empty (hs : Accepted s) (hg : (Instr.verify.gate s).refusal = none) (h0 : s.txlen = 0) :
    ∃ t, exec .verify s = .next t ∧ Completed t .none ∧ t.sess = .ready ∧ t.ackok = false ∧ RxHolds t [] ∧
      t.sent = s.sent ∧ t.rx = s.rx := by
  have unread : Replies s [] s.rx := ⟨by simp, Queued.nil.2 rfl⟩
  obtain ⟨t, hpass, o, g⟩ := session_starts hs unread (.session .verifying)
  obtain ⟨rx, holds, sent⟩ := g.finish .ready .none
  have empty : t.txlen = 0 := o.txlen.trans ((s.begin_txlen ..).trans h0)
  refine ⟨_, session_ok hg (by simp [runBody, hpass, empty]), ⟨rfl, rfl, rfl⟩, rfl, ?_, holds, ?_, rx⟩
  · exact (o.ack rfl).trans ((s.begin_ackok ..).trans hs.ackok)
  · rw [sent, List.append_nil, o.sent rfl, State.begin_sent]

end Sys2Proof.Machine

namespace Sys2Proof.Machine

/-- Settles O54: both ops are `command_transfer`, and VERIFY without data is `execVerify_empty`. -/
theorem programAndVerifyTransfer : Obligations.ProgramAndVerifyTransfer := by
  refine ⟨fun s i k st fin rest hs ho hi hv hp hr hack => ?_, fun s hs ho hv h0 => ?_⟩
  · rcases hi with ⟨rfl, rfl⟩ | ⟨rfl, rfl, hpos⟩
    · obtain ⟨ne, bad⟩ := not_or.1 hp
      have fits := s.transferFits_iff.2 bad
      have param : (Instr.program.gate s).paramOk = true :=
        Bool.and_eq_true_iff.2 ⟨bne_iff_ne.2 fun h0 => ne (congrArg BitVec.toNat h0), fits⟩
      exact command_transfer hs (session_gate rfl ho hv param) (fun _ _ => rfl) (State.transferFits_txlen fits) hr hack
    · have fits := s.transferFits_iff.2 fun bad => hp ⟨hpos, bad⟩
      have param : (Instr.verify.gate s).paramOk = true := Bool.or_eq_true_iff.2 (.inr fits)
      refine command_transfer hs (session_gate rfl ho hv param) (fun t ht => ?_) (State.transferFits_txlen fits) hr hack
      have data : t.txlen ≠ 0 := fun h0 => by
        rw [← ht.txlen, h0] at hpos
        exact absurd hpos (by decide)
      show (if t.txlen = 0 then pure () else transfer (t.opcode opcVerify)) t = _
      rw [if_neg data]
      rfl
  · exact execVerify_empty hs (session_gate rfl ho hv (Bool.or_eq_true_iff.2 (.inl (beq_iff_eq.2 h0)))) h0

end Sys2Proof.Machine
end

section
/-! The operand checks of every instruction (42_command.md R500, R602). -/

namespace Sys2Proof.Machine

theorem bitVec_bne_zero_iff {n : Nat} (v : BitVec n) : (v != 0) = true ↔ ¬ v.toNat = 0 := by
  rw [bne_iff_ne, Ne, ← BitVec.toNat_inj]
  rfl

/-- The PARAM condition of R402. -/
theorem encodable_iff_largestPayload (s : State) (n : Nat) :
    encodable s.prof.lenW n = true ↔ ¬ (n = 0 ∨ largestPayload s < n) := by
  rw [encodable_iff, not_or, Nat.not_lt]
  exact and_congr_left' Nat.one_le_iff_ne_zero

/-- The PARAM check passes exactly when no operand is out of range. -/
theorem gate_paramOk_iff (i : Instr) (s : State) : (i.gate s).paramOk = true ↔ ¬ paramBad i s := by
  cases i with
  | sendFrame | encode => exact encodable_iff_largestPayload s s.txlen.toNat
  | rawRecv =>
    simp only [Instr.gate, paramBad, Bool.and_eq_true, bitVec_bne_zero_iff, decide_eq_true_eq, not_or, Nat.not_lt]
    rfl
  | baud => exact bitVec_bne_zero_iff s.arg0
  | read =>
    simp only [Instr.gate, State.sessionGate, paramBad, Bool.and_eq_true, bitVec_bne_zero_iff, decide_eq_true_eq,
      not_or, Nat.not_lt, and_assoc]
    rfl
  | program =>
    simp only [Instr.gate, State.sessionGate, paramBad, Bool.and_eq_true, bitVec_bne_zero_iff, not_or (p := _ = 0),
      s.transferFits_iff]
    rfl
  | verify =>
    have data : (s.txlen == 0) = true ↔ ¬ 1 ≤ s.txlen.toNat := by
      rw [beq_iff_eq, ← BitVec.toNat_inj, Nat.not_le]
      exact Nat.lt_one_iff.symm
    simp only [Instr.gate, State.sessionGate, paramBad, Bool.or_eq_true, data, not_and_or (a := 1 ≤ _),
      s.transferFits_iff]
    rfl
  | blockErase => exact decide_eq_true_iff.trans Nat.not_lt.symm
  | checksum | checksums =>
    simp only [Instr.gate, State.sessionGate, State.checksumFits, paramBad, Bool.and_eq_true, decide_eq_true_eq, not_or,
      Nat.not_lt]
    rfl
  | chipErase | secSet | secGet | secRelease | signature | optRead | optWrite | status | rawCmd =>
    exact decide_eq_true_iff.trans Nat.not_lt.symm
  | _ => exact iff_of_true rfl not_false

theorem Gate.refusal_of_param {g : Gate} (hf : g.familyOk = true) (hs : g.stateOk = true) (hc : g.configOk = true)
    (hp : g.paramOk = false) : g.refusal = some .param := by
  simp [Gate.refusal, hf, hs, hc, hp]

/-- UNLOCK, which has no operand, is the only op outside the session ops that depends on the family. -/
theorem gate_familyOk (i : Instr) (s : State) (h : i.isSession = true → SessionOpen s) (hu : i ≠ .unlock) :
    (i.gate s).familyOk = true := by
  have framed : i.isSession = true → (s.prof.family != .alt) = true := fun hi => bne_iff_ne.2 (h hi).framed
  cases i with
  | read | program | verify | blockErase | checksum | checksums | chipErase | secSet | secGet | secRelease | signature
  | optRead | optWrite | status | rawCmd => exact framed rfl
  | unlock => exact absurd rfl hu
  | _ => rfl

/-- A command that ends with PARAM was refused by its operand check. -/
theorem Ending.paramOk_false {i : Instr} {s t : State} (h : Ending i s t .param) : (i.gate s).paramOk = false := by
  cases h with
  | refused _ hg => exact Gate.refusal_param hg
  | ran _ _ _ _ he => exact absurd he (by simp [Err.raisable])

end Sys2Proof.Machine

namespace Sys2Proof.Machine

/-- Settles O29: `gate_paramOk_iff`, with the checks before it passed. -/
theorem outOfRangeOperandsAreRefused : Obligations.OutOfRangeOperandsAreRefused := by
  intro i s hs hsess hv
  refine ⟨fun bad => ?_, fun good => ?_⟩
  · have operands : i ≠ .unlock ∧ i ≠ .entry ∧ i ≠ .reset := by
      refine ⟨?_, ?_, ?_⟩ <;> rintro rfl <;> exact bad
    obtain ⟨hu, he, hr⟩ := operands
    have outOfRange : (i.gate s).paramOk = false := by
      rw [Bool.eq_false_iff, Ne, gate_paramOk_iff]
      exact not_not.2 bad
    exact exec_refused (Gate.refusal_of_param (gate_familyOk i s hsess hu) (gate_stateOk i s hsess)
      ((gate_configOk_iff_written i s he hr).2 hv) outOfRange)
  · obtain ⟨t, e, hexec, hend⟩ := exec_ends i hs
    refine ⟨t, hexec, ?_⟩
    rw [hend.completed.err]
    rintro rfl
    rw [← gate_paramOk_iff, hend.paramOk_false] at good
    cases good

end Sys2Proof.Machine
end

section
/-! The arithmetic of frames: the checksum of a span (40_codec.md R401), the bytes of a frame by position (R403,
30_encoding.md R310-R314), and those of an address range (R315). -/

namespace Sys2Proof.Machine

/-- The byte at position j of a big-endian field (20_memory.md R202). -/
theorem beBytes_getElem? (n v j : Nat) (h : j < n) :
    (beBytes n v)[j]? = some (BitVec.ofNat 8 (v / 256 ^ (n - 1 - j))) := by
  induction n generalizing j with
  | zero => exact absurd h (Nat.not_lt_zero j)
  | succ n ih =>
    cases j with
    | zero => rfl
    | succ j =>
      rw [beBytes, List.getElem?_cons_succ, ih j (by omega)]
      congr 4
      omega

theorem beBytes_length (n v : Nat) : (beBytes n v).length = n := by
  induction n with
  | zero => rfl
  | succ n ih => rw [beBytes, List.length_cons, ih]

/-- The bytes of a frame that its checksum covers: the length field and the payload (R403). -/
def frameSpan (lenW : Bool) (p : List Byte) : List Byte := lenField lenW p.length ++ p

theorem frameSpan_length (lenW : Bool) (p : List Byte) :
    (frameSpan lenW p).length = (if lenW then 2 else 1) + p.length := by
  rw [frameSpan, List.length_append, lenField_length]

theorem frameSpan_payload (lenW : Bool) (p : List Byte) (j : Nat) :
    (frameSpan lenW p)[(if lenW then 2 else 1) + j]? = p[j]? := by
  rw [frameSpan, ← lenField_length lenW p.length, List.getElem?_append_right (by omega), Nat.add_sub_cancel_left]

/-- A frame is its marker, its span, the checksum of the span, and its footer (R403). -/
theorem buildFrame_eq (lenW : Bool) (m : Byte) (p : List Byte) (f : Byte) (x : Bool) :
    buildFrame lenW m p f x = m :: (frameSpan lenW p ++ [csum (frameSpan lenW p) + (if x then 1 else 0), f]) := by
  simp [buildFrame, frameSpan]

/-- A byte of an address range, counted from the start of one of its two addresses. -/
theorem range_getElem? (s : State) (a e j : Nat) (h : j < s.addrBytes) :
    (s.range a e)[j]? = some (BitVec.ofNat 8 (a / 256 ^ (s.addrBytes - 1 - j))) ∧
      (s.range a e)[s.addrBytes + j]? = some (BitVec.ofNat 8 (e / 256 ^ (s.addrBytes - 1 - j))) := by
  constructor
  · rw [State.range, List.getElem?_append_left (by rwa [beBytes_length]), beBytes_getElem? _ _ _ h]
  · rw [State.range, List.getElem?_append_right (by rw [beBytes_length]; omega), beBytes_length,
      Nat.add_sub_cancel_left, beBytes_getElem? _ _ _ h]

end Sys2Proof.Machine

namespace Sys2Proof.Machine

/-- Settles O35: `csum_toNat`, and the checksum makes the sum a multiple of 256. -/
theorem checksumClosedForm : Obligations.ChecksumClosedForm := by
  intro bs
  have closes : ((bs.map BitVec.toNat).sum + (csum bs).toNat) % 256 = 0 := by
    rw [csum_toNat]
    omega
  exact ⟨csum_toNat bs, closes, by simpa using closes⟩

/-- Settles O38: each part of a frame at its offset, and the two addresses of a range. -/
theorem frameLayout : Obligations.FrameLayout := by
  refine ⟨fun lenW m f p x hp => ?_, fun s p => ⟨rfl, rfl⟩, fun s a e => ⟨?_, fun j hj => ?_⟩⟩
  · obtain ⟨-, most⟩ := (encodable_iff _ _).1 hp
    have span := frameSpan_length lenW p
    refine ⟨buildFrame_length .., ?_⟩
    rw [buildFrame_eq]
    refine ⟨rfl, ?_, ?_, fun j hj => ?_, ?_, ?_⟩
    · rintro rfl
      rfl
    · rintro rfl
      have high : p.length / 256 % 256 = p.length / 256 := by
        have most : p.length ≤ 65535 := most
        omega
      exact ⟨congrArg some high, by simp [frameSpan, lenField, beBytes]⟩
    · rw [Nat.add_assoc, Nat.add_comm 1, List.getElem?_cons_succ, List.getElem?_append_left (by omega),
        frameSpan_payload]
    · rw [Nat.add_assoc, Nat.add_comm 1, List.getElem?_cons_succ, ← span, List.drop_one, List.tail_cons,
        List.take_left, List.getElem?_append_right (Nat.le_refl _), Nat.sub_self]
      rfl
    · rw [Nat.add_assoc, Nat.add_comm 2, ← span, List.getElem?_cons_succ,
        List.getElem?_append_right (Nat.le_add_right _ _), Nat.add_sub_cancel_left]
      rfl
  · simp [State.range, beBytes_length, State.addrBytes, Nat.two_mul]
  · obtain ⟨start, stop⟩ := range_getElem? s a e j hj
    exact ⟨congrArg (Option.map BitVec.toNat) start, congrArg (Option.map BitVec.toNat) stop⟩

end Sys2Proof.Machine
end

section
/-! The codec operations that decode nothing: SEND_FRAME, RAW_SEND and UNLOCK send bytes (40_codec.md R420, R424,
41_sequencer.md R473); ENCODE and RAW_RECV store bytes that are no frame payloads (40_codec.md R422, R425). -/

namespace Sys2Proof.Machine

variable {s t u : State} {bs cs : List Byte} {rest : List RxByte}

/-! ### Sending -/

theorem OpStep.txPayload_of_not_store {a : Allow} (h : OpStep a s t) (ha : a.store = false) :
    t.txPayload = s.txPayload := txPayload_congr h.txlen (h.stored ha).2.2.2 h.epoch

theorem State.begin_txPayload (s : State) (rx : Bool) (ph : Phase) : (s.begin rx ph).txPayload = s.txPayload :=
  txPayload_congr (s.begin_txlen ..) (s.begin_mem ..) (s.begin_epoch ..)

/-- An op that sends bytes of the profile and of TXBUF, and does nothing else, completes and has sent them. -/
theorem command_sends {g : Gate} (hs : Accepted s) (hg : g.refusal = none) (bytes : State → List Byte)
    (hb : ∀ t, t.prof = s.prof → t.txPayload = s.txPayload → bytes t = bytes s) :
    ∃ t, command g false .unchanged (do let s ← get; chSend (bytes s)) s = .next t ∧ Completed t .none ∧
      t.sent = s.sent ++ bytes s := by
  have body : ∀ t, Waited (s.begin false .unchanged) t 0 → Live t →
      ∃ u, (do let s ← get; chSend (bytes s) : Ctl Unit) t = .ok ⟨⟩ u ∧ u.sent = s.sent ++ bytes s := by
    intro t w live
    obtain ⟨u, hsend, -, sent, -⟩ := chSend_ok (bytes t) live
    have same : bytes t = bytes s := hb t (w.step.prof.trans (s.begin_prof ..))
      ((w.step.txPayload_of_not_store rfl).trans (s.begin_txPayload ..))
    exact ⟨u, hsend, by rw [sent, same, w.step.sent rfl, State.begin_sent]⟩
  obtain ⟨u, hrun, sent⟩ := runBody_ok (hs.live.begin ..) body
  exact ⟨_, command_ok hg hrun, ⟨rfl, rfl, rfl⟩, (u.finish_sent ..).trans sent⟩

/-- The frame of SEND_FRAME and ENCODE depends on the profile and on TXBUF. -/
theorem operandFrame_congr (hp : t.prof = s.prof) (ht : t.txPayload = s.txPayload) (msel ftr fbc : Bool) :
    t.operandFrame msel ftr fbc = s.operandFrame msel ftr fbc := by
  simp only [State.operandFrame, State.sendMarker, hp, ht]

theorem operands_fit (h1 : 1 ≤ s.txlen.toNat) (h2 : s.txlen.toNat ≤ largestPayload s) :
    ¬ (s.txlen.toNat = 0 ∨ largestPayload s < s.txlen.toNat) :=
  not_or.2 ⟨Nat.one_le_iff_ne_zero.1 h1, Nat.not_lt.2 h2⟩

/-- The bytes of the unlock exchange, spelt out (R473). -/
theorem Profile.unlockBytes_eq (p : Profile) :
    p.unlockBytes = [p.unlockCmd, p.lockAddr.extractLsb' 16 8, p.lockAddr.extractLsb' 8 8,
      p.lockAddr.extractLsb' 0 8] ++ p.keyBytes := by
  have byte (k : Nat) : BitVec.ofNat 8 (p.lockAddr.toNat / 256 ^ k) = p.lockAddr.extractLsb' (8 * k) 8 := by
    rw [BitVec.extractLsb', Nat.shiftRight_eq_div_pow, Nat.pow_mul]
  simp only [Profile.unlockBytes, beBytes, byte]
  rfl

/-! ### Storing bytes that are no payloads -/

theorem RxHoldsRaw.step {a : Allow} (h : RxHoldsRaw s bs) (o : OpStep a s t) (ha : a.store = false) :
    RxHoldsRaw t bs := by
  obtain ⟨rxlen, rxframes, rxflen, mem⟩ := o.stored ha
  exact ⟨(rxPayload_congr rxlen mem o.epoch).trans h.bytes, by rw [rxlen]; exact h.length, rxframes.trans h.frames,
    fun j => by rw [rxflen]; exact h.lengths j⟩

theorem RxHoldsRaw.finish (h : RxHoldsRaw s bs) (q : Sess) (e : Err) : RxHoldsRaw (s.finish q e) bs :=
  ⟨h.bytes, h.length, h.frames, h.lengths⟩

/-- An op that writes RXBUF starts with nothing in it (10_state.md R143). -/
theorem RxHoldsRaw.begin (s : State) (ph : Phase) : RxHoldsRaw (s.begin true ph) [] := by
  have clear := RxHolds.clear s
  exact ⟨clear.bytes, clear.length, clear.frames, clear.lengths⟩

/-- RXappend adds its bytes to those that are there. -/
theorem RxHoldsRaw.append (h : RxHoldsRaw s bs) (hc : bs.length + cs.length ≤ Config.bufCap) :
    RxHoldsRaw (s.rxStore cs) (bs ++ cs) := by
  have fits : s.rxlen.toNat + cs.length ≤ Config.bufCap := by rw [h.length]; exact hc
  refine ⟨?_, ?_, h.frames, h.lengths⟩
  · rw [s.rxStore_rxPayload cs fits, h.bytes]
  · rw [s.rxStore_rxlen_toNat cs fits, h.length, List.length_append]

theorem rxAppend_fits (h : s.rxlen.toNat + bs.length ≤ Config.bufCap) : rxAppend bs s = .ok ⟨⟩ (s.rxStore bs) := by
  simp [rxAppend, Nat.not_lt.2 h]

theorem rxAppend_overflow (h : Config.bufCap < s.rxlen.toNat + bs.length) :
    rxAppend bs s = .error (.raised .overflow) s := by
  simp [rxAppend, h]

/-- One turn of RAW_RECV, for a byte that is there. -/
theorem rawRecvLoop_succ {dl : Deadline} {b : Byte} (n : Nat) (h : chRecv dl s = .ok (some b) t) :
    rawRecvLoop dl (n + 1) s = rawRecvLoop dl n (t.rxStore [b]) := by
  rw [rawRecvLoop, Ctl.bind_apply, h]
  rfl

/-- RAW_RECV starts its loop with RXBUF empty and the stream as it was; how the loop ends, the op ends. -/
theorem execRawRecv_starts (hs : Accepted s) (hp : ¬ paramBad .rawRecv s) (hq : Queued s bs rest) :
    ∃ t dl, Live t ∧ Queued t bs rest ∧ RxHoldsRaw t [] ∧
      (∀ u, rawRecvLoop dl s.arg0.toNat t = .ok ⟨⟩ u → exec .rawRecv s = .next (u.finish u.sess .none)) ∧
      (∀ u e, rawRecvLoop dl s.arg0.toNat t = .error (.raised e) u → exec .rawRecv s = .next (u.finish u.sess e)) := by
  have gate := Gate.refusal_of_passed (g := Instr.rawRecv.gate s) rfl rfl rfl ((gate_paramOk_iff _ s).2 hp)
  obtain ⟨t, hpass, w⟩ := pass_ok (hs.live.begin true .unchanged)
  have arg : t.arg0 = s.arg0 := w.step.arg0.trans (s.begin_arg0 ..)
  have o := w.step.trans (mark_step {} t (fun h => { h with huntDl := ⟨t.hid.tacc, t.hid.tsnap⟩ }) rfl rfl)
  have waiting : Queued (s.begin true .unchanged) bs rest := hq.later (s.begin_rx ..) (s.begin_time ..).ge
  refine ⟨_, ⟨t.hid.tacc, t.hid.tsnap⟩, o.live (hs.live.begin ..), waiting.step o rfl,
    (RxHoldsRaw.begin s .unchanged).step o rfl, fun u h => command_ok gate ?_, fun u e h => command_raised gate ?_⟩
  all_goals
    rw [← arg] at h
    rw [runBody, Ctl.bind_apply, hpass]
    exact h

/-- RAW_RECV takes the bytes that wait in the stream and stores each (R425). -/
theorem rawRecvLoop_queued (dl : Deadline) (k : Nat) {got : List Byte} (h : Live s) (hq : Queued s bs rest)
    (hh : RxHoldsRaw s got) (hc : got.length + bs.length ≤ Config.bufCap) :
    ∃ t, rawRecvLoop dl (bs.length + k) s = rawRecvLoop dl k t ∧ Live t ∧ t.rx = rest ∧ RxHoldsRaw t (got ++ bs) := by
  induction bs generalizing s got with
  | nil => exact ⟨s, by rw [List.length_nil, Nat.zero_add], h, Queued.nil.1 hq, by rwa [List.append_nil]⟩
  | cons b bs ih =>
    rw [List.length_cons] at hc
    obtain ⟨t, hrecv, o, q, -⟩ := chRecv_queued dl h hq
    have held : RxHoldsRaw (t.rxStore [b]) (got ++ [b]) := (hh.step o rfl).append (by simp; omega)
    obtain ⟨u, hrest, live, rx, holds⟩ := ih (s := t.rxStore [b]) (o.live h) q held (by simp; omega)
    refine ⟨u, ?_, live, rx, by simpa using holds⟩
    rw [List.length_cons, Nat.add_right_comm, rawRecvLoop_succ _ hrecv, hrest]

end Sys2Proof.Machine

namespace Sys2Proof.Machine

/-- Settles O37: the three ops are `command_sends`. -/
theorem sendingOpsSendTheirBytes : Obligations.SendingOpsSendTheirBytes := by
  refine fun s hs => ⟨fun msel ftr fbc h1 h2 => ?_, ?_, fun hf hv => ?_⟩
  · have gate : ((Instr.sendFrame msel ftr fbc).gate s).refusal = none :=
      Gate.refusal_of_passed rfl rfl rfl ((gate_paramOk_iff _ s).2 (operands_fit h1 h2))
    exact command_sends hs gate (·.operandFrame msel ftr fbc) fun t hp ht => operandFrame_congr hp ht msel ftr fbc
  · exact command_sends hs (g := {}) rfl State.txPayload fun _ _ ht => ht
  · have gate := Gate.refusal_of_passed (g := Instr.unlock.gate s) (beq_iff_eq.2 hf) rfl ((s.written_iff _).2 hv) rfl
    have sends := command_sends hs gate (·.prof.unlockBytes) fun t hp _ => congrArg Profile.unlockBytes hp
    rw [Profile.unlockBytes_eq] at sends
    exact sends

/-- Settles O39: the op is one RXappend into an empty buffer. -/
theorem encodeStoresTheFrame : Obligations.EncodeStoresTheFrame := by
  intro s msel ftr fbc hs h1 h2 frame
  have gate : ((Instr.encode msel ftr fbc).gate s).refusal = none :=
    Gate.refusal_of_passed rfl rfl rfl ((gate_paramOk_iff _ s).2 (operands_fit h1 h2))
  obtain ⟨t, hpass, w⟩ := pass_ok (hs.live.begin true .unchanged)
  have empty : RxHoldsRaw t [] := (RxHoldsRaw.begin s .unchanged).step w.step rfl
  have total : t.rxlen.toNat + frame.length = frame.length := by simp [empty.length]
  have same : t.operandFrame msel ftr fbc = frame := operandFrame_congr (w.step.prof.trans (s.begin_prof ..))
    ((w.step.txPayload_of_not_store rfl).trans (s.begin_txPayload ..)) msel ftr fbc
  have run : runBody (do let s ← get; rxAppend (s.operandFrame msel ftr fbc)) (s.begin true .unchanged) =
      rxAppend frame t := by
    rw [runBody, Ctl.bind_apply, hpass, ← same]
    rfl
  refine ⟨fun fits => ?_, fun large => ?_⟩
  · exact ⟨_, command_ok gate (run.trans (rxAppend_fits (total.trans_le fits))), ⟨rfl, rfl, rfl⟩,
      (empty.append ((Nat.zero_add _).trans_le fits)).finish _ _⟩
  · exact ⟨_, command_raised gate (run.trans (rxAppend_overflow (large.trans_eq total.symm))), ⟨rfl, rfl, rfl⟩,
      empty.finish _ _⟩

/-- Settles O47: `rawRecvLoop_queued` takes the bytes that are there; the loop has then ended, or times out. -/
theorem rawRecvStoresTheBytes : Obligations.RawRecvStoresTheBytes := by
  intro s bs rest hs h1 h2 hq
  have fits : ¬ paramBad .rawRecv s := not_or.2 ⟨Nat.one_le_iff_ne_zero.1 h1, Nat.not_lt.2 h2⟩
  obtain ⟨t, dl, live, waiting, empty, onOk, onError⟩ := execRawRecv_starts hs fits hq
  refine ⟨fun enough => ?_, fun few ends => ?_⟩
  · have cap : bs.length ≤ Config.bufCap := enough.trans_le h2
    obtain ⟨u, hloop, -, rx, holds⟩ := rawRecvLoop_queued dl 0 live waiting empty (by simpa using cap)
    rw [Nat.add_zero, enough] at hloop
    exact ⟨_, onOk u hloop, ⟨rfl, rfl, rfl⟩, holds.finish _ _, rx⟩
  · have cap : bs.length ≤ Config.bufCap := few.le.trans h2
    obtain ⟨k, missing⟩ : ∃ k, bs.length + (k + 1) = s.arg0.toNat := ⟨s.arg0.toNat - bs.length - 1, by omega⟩
    obtain ⟨u, hloop, live', rx, holds⟩ := rawRecvLoop_queued dl (k + 1) live waiting empty (by simpa using cap)
    obtain ⟨v, htimeout, o, -⟩ := chRecv_empty dl live' (rx.trans ends)
    rw [missing] at hloop
    exact ⟨_, onError v .noResponse (by simp [hloop, rawRecvLoop, htimeout]), ⟨rfl, rfl, rfl⟩,
      (holds.step o rfl).finish _ _, (o.unread rfl).1.trans (rx.trans ends)⟩

end Sys2Proof.Machine
end

section
/-! DECODE and RECV_FRAME (40_codec.md R421, R423): one decode attempt, from TXBUF or from the channel, and what is made
of its result. Each statement is about the attempt on the bytes that the source holds at acceptance. -/

namespace Sys2Proof.Machine

variable {src : Source} {msel : Bool} {s t u : State} {dl : Deadline} {m f c : Byte} {junk p bs : List Byte}
  {rest : List RxByte} {cap : Nat} {after : List Byte}

/-! ### Attempts on bytes that end early (R411, R412) -/

/-- A length field that the source does not hold whole. -/
theorem lengthField_dry (lenW : Bool) (dl : Deadline) (h : Live s) (hf : Feeds src [] cap [] s bs)
    (hl : bs.length ≤ lenW.toNat) :
    ∃ t, lengthField src lenW dl s = .ok none t ∧ OpStep Decoding s t ∧ SameDiag s t := by
  cases bs with
  | nil =>
    obtain ⟨t, hget, o, -, d, -⟩ := getByte_dry dl h hf.dry
    exact ⟨t, by simp [lengthField, hget], o, d⟩
  | cons b bs =>
    cases lenW with
    | false => simp at hl
    | true =>
      obtain rfl : bs = [] := by simpa using hl
      obtain ⟨t, hget, o, f, d⟩ := getByte_feeds dl h hf
      obtain ⟨u, hend, o', -, d', -⟩ := getByte_dry dl (o.live h) f.dry
      exact ⟨u, by simp [lengthField, hget, hend], o.trans o', d.trans d'⟩

/-- The state in which a deadline for the length field or the body has started (R410 steps 2 and 3). -/
def State.timing (s : State) (d : Word) : State := { s with hid := { s.hid with frameDl := ⟨s.now, d⟩ } }

theorem State.timing_step (s : State) (d : Word) : OpStep Decoding s (s.timing d) :=
  mark_step Decoding s (fun h => { h with frameDl := ⟨s.now, d⟩ }) rfl rfl

theorem Feeds.timing (h : Feeds src rest cap after s bs) (d : Word) : Feeds src rest cap after (s.timing d) bs :=
  h.congr rfl rfl rfl rfl rfl rfl rfl

theorem Skipped.trans_sameDiag {n : Nat} (h : Skipped s t n) (k : SameDiag t u) : Skipped s u n :=
  ⟨k.skipcnt.trans h.skipcnt, k.diag.trans h.diag, k.lastst.trans h.lastst⟩

/-- The hunt over junk and the marker, with the deadline that then starts. -/
theorem hunt_junk_marker (dl : Deadline) (h : Live s) (hj : Junk m junk)
    (hf : Feeds src rest cap after s (junk ++ m :: bs)) :
    ∃ t, hunt src m dl Config.maxSkip 0 true s = .ok none t ∧ t.prof.lenW = s.prof.lenW ∧
      OpStep Decoding s (t.timing t.prof.tFrame) ∧ Feeds src rest cap after (t.timing t.prof.tFrame) bs ∧
      Skipped s (t.timing t.prof.tFrame) junk.length := by
  have most : junk.length ≤ 256 := hj.bounded
  obtain ⟨t, found, o, f, skipped⟩ := hunt_found m dl junk bs Config.maxSkip 0 true h hf hj.notMarker
    (fun _ => hj.notSilence) hj.bounded (by omega)
  rw [Nat.zero_add] at skipped
  exact ⟨t, found, congrArg Profile.lenW o.prof, o.trans (t.timing_step _), f.timing _,
    skipped.trans_sameDiag ⟨rfl, rfl, rfl⟩⟩

/-- Behind the marker the source does not hold the whole length field: INVALID_HEADER. -/
theorem decodeFrame_length_missing (dl : Deadline) (h : Live s) (hj : Junk m junk)
    (hf : Feeds src [] cap [] s (junk ++ m :: bs)) (hl : bs.length ≤ s.prof.lenW.toNat) :
    ∃ t, decodeFrame src m dl s = .ok (.error .invalidHeader) t ∧ OpStep Decoding s t ∧ Skipped s t junk.length := by
  obtain ⟨t, found, lenW, o, f, skipped⟩ := hunt_junk_marker dl h hj hf
  obtain ⟨u, missing, o', d⟩ := lengthField_dry t.prof.lenW ⟨t.now, t.prof.tFrame⟩ (o.live h) f (by rwa [lenW])
  exact ⟨u, decodeFrame_length_fails m dl found missing, o.trans o', skipped.trans_sameDiag d⟩

/-- The body that is read behind a length field goes to the checks. -/
theorem decodeFrame_length_ok {v : State} {lb buf : List Byte} {n : Nat}
    (h : hunt src m dl Config.maxSkip 0 true s = .ok none t)
    (hl : lengthField src t.prof.lenW ⟨t.now, t.prof.tFrame⟩ (t.timing t.prof.tFrame) = .ok (some (lb, n)) u)
    (hb : readUpTo src ⟨u.now, t.prof.tFrame⟩ (n + 2) (u.timing t.prof.tFrame) = .ok buf v) :
    decodeFrame src m dl s = checkBody lb n buf v := by
  unfold State.timing at hl hb
  simp [decodeFrame, h, frameDeadline_step, hl, hb]

/-- Behind the length field the source does not hold the whole body and trailer: INVALID_FOOTER, and DIAG is 0. -/
theorem decodeFrame_body_missing (dl : Deadline) {n : Nat} (h : Live s) (hj : Junk m junk)
    (hn : encodable s.prof.lenW n = true) (hf : Feeds src [] cap [] s (junk ++ m :: (lenField s.prof.lenW n ++ bs)))
    (hl : bs.length < n + 2) :
    ∃ t, decodeFrame src m dl s = .ok (.error .invalidFooter) { t with diag := ⟨0, 0, 0, false⟩ } ∧
      OpStep Decoding s t ∧ Skipped s t junk.length := by
  obtain ⟨t, found, lenW, o, f, skipped⟩ := hunt_junk_marker dl h hj hf
  obtain ⟨u, length, o', f', d⟩ := lengthField_feeds s.prof.lenW n bs ⟨t.now, t.prof.tFrame⟩ (o.live h) hn f
  have live := (u.timing_step t.prof.tFrame).live (o'.live (o.live h))
  obtain ⟨v, body, o'', d'⟩ := readUpTo_dry ⟨u.now, t.prof.tFrame⟩ (n + 2) bs live hl (f'.timing t.prof.tFrame)
  have toChecks := decodeFrame_length_ok found (by rwa [lenW]) body
  exact ⟨v, toChecks.trans (checkBody_short _ _ _ _ hl),
    ((o.trans o').trans (u.timing_step t.prof.tFrame)).trans o'',
    (skipped.trans_sameDiag d).trans_sameDiag ⟨d'.lastst, d'.diag, d'.skipcnt⟩⟩

/-- A frame cut behind its length field: the part of payload and trailer that is left. -/
theorem take_buildFrame (lenW : Bool) (m : Byte) (p : List Byte) (f : Byte) (x : Bool) {k : Nat}
    (h1 : lenW.toNat + 2 ≤ k) (h2 : k ≤ lenW.toNat + p.length + 3) :
    ∃ body, (buildFrame lenW m p f x).take k = m :: (lenField lenW p.length ++ body) ∧ body.length < p.length + 2 := by
  have marked : (m :: lenField lenW p.length).length = lenW.toNat + 2 := by
    rw [List.length_cons, lenField_length]
    cases lenW <;> rfl
  refine ⟨(p ++ [csum (lenField lenW p.length ++ p) + (if x then 1 else 0), f]).take (k - (lenW.toNat + 2)), ?_, ?_⟩
  · rw [show buildFrame lenW m p f x = m :: lenField lenW p.length ++ _ by simp [buildFrame]; rfl,
      List.take_append, List.take_of_length_le (marked.trans_le h1), marked]
    rfl
  · rw [List.length_take]
    omega

/-! ### An attempt within its command -/

theorem RxHolds.begin (s : State) (ph : Phase) : RxHolds (s.begin true ph) [] := by
  obtain ⟨bytes, length, frames, lengths⟩ := RxHolds.clear s
  exact ⟨bytes, length, frames, lengths⟩

theorem RxHolds.finish {ps : List (List Byte)} (h : RxHolds s ps) (q : Sess) (e : Err) : RxHolds (s.finish q e) ps :=
  ⟨h.bytes, h.length, h.frames, h.lengths⟩

/-- The op that makes one decode attempt from the source. -/
def Source.op : Source → Bool → Instr
  | .channel, msel => .recvFrame msel
  | .buffer, msel => .decode msel

/-- At acceptance the source holds these bytes: delivered in the stream, with `rest` after them, or in TXBUF, with
`after` after them. -/
def Offers (src : Source) (rest : List RxByte) (after : List Byte) (s : State) (bs : List Byte) : Prop :=
  match src with
  | .channel => Queued s bs rest
  | .buffer => s.txPayload = bs ++ after

/-- The attempt of the op accepted in s starts in t, with the hunt deadline dl. -/
structure AttemptStart (src : Source) (s t : State) (dl : Deadline) : Prop where
  step : OpStep {} (s.begin true .unchanged) t
  index : src = .buffer → t.hid.txIndex = 0
  deadline : src = .channel → dl = ⟨s.hid.tacc, s.prof.tHunt⟩
  time : t.time = s.time + s.lags.headD 0
  lags : t.lags = s.lags.tail

theorem AttemptStart.prof (h : AttemptStart src s t dl) : t.prof = s.prof := h.step.prof.trans (s.begin_prof ..)

theorem AttemptStart.live (h : AttemptStart src s t dl) (hs : Accepted s) : Live t := h.step.live (hs.live.begin ..)

theorem AttemptStart.sameDiag (h : AttemptStart src s t dl) : SameDiag s t :=
  (s.begin_sameDiag ..).trans (h.step.decode rfl)

theorem AttemptStart.empty (h : AttemptStart src s t dl) : RxHolds t [] := (RxHolds.begin s .unchanged).step h.step rfl

theorem AttemptStart.feeds (h : AttemptStart src s t dl) (ho : Offers src rest after s bs) :
    Feeds src rest t.horizon after t bs := by
  cases src with
  | channel => exact ⟨Queued.step (Queued.later ho (s.begin_rx ..) (s.begin_time ..).ge) h.step rfl, Nat.le_refl _⟩
  | buffer =>
    have same := (h.step.txPayload_of_not_store rfl).trans (s.begin_txPayload ..)
    rw [Feeds, h.index rfl, List.drop_zero, same]
    exact ho

/-- A command whose pseudocode comes to `deliver` ends as that does. -/
theorem command_delivers {body : Ctl Unit} {r : Except Err (List Byte)}
    (h : runBody body (s.begin true .unchanged) = deliver r u) :
    (∀ v, deliver r u = .ok ⟨⟩ v → command {} true .unchanged body s = .next (v.finish v.sess .none)) ∧
      (∀ v e, deliver r u = .error (.raised e) v → command {} true .unchanged body s = .next (v.finish v.sess e)) :=
  ⟨fun _ hv => command_ok rfl (h.trans hv), fun _ _ hv => command_raised rfl (h.trans hv)⟩

/-- The op makes its attempt, and ends as `deliver` ends on the attempt's result (R421, R423). -/
theorem attempt_starts (src : Source) (msel : Bool) (hs : Accepted s) : ∃ t dl, AttemptStart src s t dl ∧
    ∀ r u, decodeFrame src (s.recvMarker msel) dl t = .ok r u →
      (∀ v, deliver r u = .ok ⟨⟩ v → exec (src.op msel) s = .next (v.finish v.sess .none)) ∧
      (∀ v e, deliver r u = .error (.raised e) v → exec (src.op msel) s = .next (v.finish v.sess e)) := by
  obtain ⟨t, hpass, w⟩ := pass_ok (hs.live.begin true .unchanged)
  have prof : t.prof = s.prof := w.step.prof.trans (s.begin_prof ..)
  have marker : t.recvMarker msel = s.recvMarker msel := by simp only [State.recvMarker, prof]
  rw [← marker]
  cases src with
  | channel =>
    have o := w.step.trans (mark_step {} t (fun h => { h with huntDl := ⟨t.hid.tacc, t.prof.tHunt⟩ }) rfl rfl)
    have acceptance : (⟨t.hid.tacc, t.prof.tHunt⟩ : Deadline) = ⟨s.hid.tacc, s.prof.tHunt⟩ := by
      rw [w.step.tacc, prof, State.begin_hid]
    exact ⟨_, _, ⟨o, nofun, fun _ => acceptance, w.time, w.lags⟩,
      fun r u h => command_delivers (by simp [runBody, hpass, h])⟩
  | buffer =>
    have o := w.step.trans (mark_step {} t (fun h => { h with txIndex := 0 }) rfl rfl)
    exact ⟨_, t.hid.huntDl, ⟨o, fun _ => rfl, nofun, w.time, w.lags⟩,
      fun r u h => command_delivers (by simp [runBody, hpass, h])⟩

/-! ### An attempt that succeeds -/

/-- A payload is stored as RXBUF's one frame and checked (R421, R423). -/
theorem deliver_ok (h : RxHolds s []) (hp : encodable s.prof.lenW p.length = true) :
    ∃ t, deliver (.ok p) s = .ok ⟨⟩ t ∧ OpStep { store := true, ack := true } s t ∧ RxHolds t [p] ∧
      t.ackok = (s.valid 1 && (p.head? == some s.prof.ackCode)) := by
  obtain ⟨most1, most⟩ := (encodable_iff _ _).1 hp
  have ne : p ≠ [] := List.length_pos_iff.1 most1
  have cap : p.length ≤ Config.bufCap := most.trans ((maxPay_le _).trans (by decide))
  obtain ⟨t, hstore, o, -, holds⟩ := store_holds p h ne ((Nat.zero_add _).trans_le cap) nofun
  have acked : OpStep { ack := true } t { t with ackok := t.ackFlag p } := (OpStep.allowsAck rfl).ack t _
  have flag : t.ackFlag p = (s.valid 1 && (p.head? == some s.prof.ackCode)) := by
    simp only [State.ackFlag, State.valid, State.chkReturn, o.cfgvalid, o.prof]
    cases p <;> rfl
  exact ⟨_, by simp [deliver, hstore, setAckok], (o.widen rfl).trans (acked.widen rfl), holds.step acked rfl, flag⟩

/-- DECODE and RECV_FRAME on a frame that is there, behind junk (R413). -/
theorem exec_attempt_frame (src : Source) (msel : Bool) (hs : Accepted s) (hj : Junk (s.recvMarker msel) junk)
    (hp : encodable s.prof.lenW p.length = true) (hf : f = 0x03 ∨ f = 0x17)
    (ho : Offers src rest after s (junk ++ buildFrame s.prof.lenW (s.recvMarker msel) p f false)) :
    ∃ t, exec (src.op msel) s = .next t ∧ Completed t .none ∧ DecodedAs s t junk.length p f ∧
      (src = .channel → t.rx = rest) := by
  obtain ⟨t, dl, start, ends⟩ := attempt_starts src msel hs
  have prof := start.prof
  rw [← prof] at hp ho
  obtain ⟨u, decoded, o, fed, d⟩ := decodeFrame_frame (s.recvMarker msel) dl junk p f (start.live hs) hj hp hf
    (start.feeds ho)
  obtain ⟨v, delivered, o', holds, ack⟩ := deliver_ok (start.empty.step o rfl) (o.prof ▸ hp)
  obtain ⟨lastst, diag, skipcnt⟩ := o'.decode rfl
  have most : junk.length ≤ 256 := hj.bounded
  refine ⟨_, (ends _ u decoded).1 v delivered, ⟨rfl, rfl, rfl⟩,
    ⟨holds.finish _ _, ?_, lastst.trans d.lastst, ?_, ?_⟩, fun hsrc => ?_⟩
  · have valid : u.valid 1 = s.valid 1 := by
      simp only [State.valid, o.cfgvalid, start.step.cfgvalid, State.begin_cfgvalid]
    rw [State.finish_ackok, ack, valid, o.prof, prof]
  · rw [State.finish_skipcnt, skipcnt, d.skipcnt, BitVec.toNat_ofNat, Nat.mod_eq_of_lt (by omega)]
  · rw [State.finish_diag, diag, d.diag, prof]
  · subst hsrc
    exact (o'.unread rfl).1.trans (Queued.nil.1 fed.1)

/-! ### An attempt that fails -/

theorem Junk.length_le (h : Junk m junk) : junk.length ≤ 257 := Nat.le_succ_of_le h.bounded

/-- What a failed attempt leaves in the diagnostics: SKIPCNT, DIAG, and LASTST as it was (R411, R412). -/
structure Failed (s t : State) (skipped : Nat) (d : Diag) : Prop where
  skipcnt : t.skipcnt = BitVec.ofNat 9 skipped
  diag : t.diag = d
  lastst : t.lastst = s.lastst

/-- The body was not reached. -/
theorem Skipped.failed {n : Nat} (h : Skipped s t n) : Failed s t n s.diag := ⟨h.skipcnt, h.diag, h.lastst⟩

/-- The checks failed. -/
theorem Skipped.failed_diag {n : Nat} (h : Skipped s t n) (d : Diag) : Failed s { t with diag := d } n d :=
  ⟨h.skipcnt, rfl, h.lastst⟩

/-- DECODE or RECV_FRAME ends with e, nothing stored. -/
def Rejects (src : Source) (msel : Bool) (s : State) (e : Err) (skipped : Nat) (d : Diag) : Prop :=
  ∃ t, exec (src.op msel) s = .next t ∧ Completed t e ∧ RxHolds t [] ∧ t.skipcnt.toNat = skipped ∧ t.diag = d ∧
    t.lastst = s.lastst

/-- The op rejects what its attempt fails on. -/
theorem rejects_of_failed {e : Err} {n : Nat} {d : Diag} (hs : Accepted s) (hn : n ≤ 257)
    (h : ∀ t dl, AttemptStart src s t dl → ∃ u, decodeFrame src (s.recvMarker msel) dl t = .ok (.error e) u ∧
      OpStep Decoding t u ∧ Failed t u n d) : Rejects src msel s e n d := by
  obtain ⟨t, dl, start, ends⟩ := attempt_starts src msel hs
  obtain ⟨u, failed, o, skipcnt, diag, lastst⟩ := h t dl start
  refine ⟨_, (ends _ u failed).2 u e rfl, ⟨rfl, rfl, rfl⟩, (start.empty.step o rfl).finish _ _, ?_,
    diag, lastst.trans start.sameDiag.lastst⟩
  rw [State.finish_skipcnt, skipcnt, BitVec.toNat_ofNat, Nat.mod_eq_of_lt (by omega)]

/-- The hunt fails. -/
theorem rejects_of_hunt {e : Err} {n : Nat} (hs : Accepted s) (hn : n ≤ 257)
    (h : ∀ t dl, AttemptStart src s t dl →
      ∃ u, hunt src (s.recvMarker msel) dl Config.maxSkip 0 true t = .ok (some e) u ∧ OpStep Decoding t u ∧
        Skipped t u n) : Rejects src msel s e n s.diag :=
  rejects_of_failed hs hn fun t dl start => by
    obtain ⟨u, failed, o, skipped⟩ := h t dl start
    exact ⟨u, decodeFrame_hunt_fails _ dl failed, o, start.sameDiag.diag ▸ skipped.failed⟩

/-- A first byte 0x00 that is not the marker. -/
theorem rejects_silence (hs : Accepted s) (hm : s.recvMarker msel ≠ 0) (ho : Offers src rest after s (0 :: bs)) :
    Rejects src msel s .noResponse 0 s.diag :=
  rejects_of_hunt hs (Nat.zero_le _) fun _ dl start => by
    obtain ⟨u, silent, o, -, skipped⟩ := hunt_silence _ dl bs Config.maxSkip 0 (start.live hs) (start.feeds ho) hm
      (Nat.zero_le _)
    exact ⟨u, silent, o, skipped⟩

/-- The source ends before a marker. -/
theorem rejects_noMarker (hs : Accepted s) (hj : Junk (s.recvMarker msel) junk) (ho : Offers src [] [] s junk) :
    Rejects src msel s .noResponse junk.length s.diag :=
  rejects_of_hunt hs hj.length_le fun _ dl start => by
    obtain ⟨u, dry, o, -, skipped, -⟩ := hunt_dry _ dl junk Config.maxSkip 0 true (start.live hs) (start.feeds ho)
      hj.notMarker (fun _ => hj.notSilence) hj.bounded ((Nat.zero_add _).trans_le hj.length_le)
    exact ⟨u, dry, o, by rwa [Nat.zero_add] at skipped⟩

/-- One byte more than the hunt may discard, and none is the marker. -/
theorem rejects_junk (hs : Accepted s) (hj : ∀ b ∈ junk, b ≠ s.recvMarker msel) (h0 : junk.head? ≠ some 0)
    (hl : junk.length = 257) (ho : Offers src rest after s (junk ++ bs)) :
    Rejects src msel s .invalidHeader junk.length s.diag :=
  rejects_of_hunt hs hl.le fun _ dl start => by
    obtain ⟨u, lost, o, -, skipped⟩ := hunt_junk _ dl junk bs Config.maxSkip 0 true (start.live hs) (start.feeds ho) hj
      (fun _ => h0) hl (Nat.le_refl _)
    exact ⟨u, lost, o, by rwa [Nat.zero_add] at skipped⟩

/-- A missing length byte. -/
theorem rejects_length_missing (hs : Accepted s) (hj : Junk (s.recvMarker msel) junk)
    (hl : bs.length ≤ s.prof.lenW.toNat) (ho : Offers src [] [] s (junk ++ s.recvMarker msel :: bs)) :
    Rejects src msel s .invalidHeader junk.length s.diag :=
  rejects_of_failed hs hj.length_le fun _ dl start => by
    obtain ⟨u, missing, o, skipped⟩ := decodeFrame_length_missing dl (start.live hs) hj (start.feeds ho)
      (by rwa [start.prof])
    exact ⟨u, missing, o, start.sameDiag.diag ▸ skipped.failed⟩

/-- A 2-byte length of 0. -/
theorem rejects_length_zero (hs : Accepted s) (hj : Junk (s.recvMarker msel) junk) (hw : s.prof.lenW = true)
    (ho : Offers src rest after s (junk ++ s.recvMarker msel :: 0 :: 0 :: bs)) :
    Rejects src msel s .invalidHeader junk.length s.diag :=
  rejects_of_failed hs hj.length_le fun _ dl start => by
    obtain ⟨u, zero, o, -, skipped⟩ := decodeFrame_length_zero _ dl junk bs (start.live hs) hj (by rwa [start.prof])
      (start.feeds ho)
    exact ⟨u, zero, o, start.sameDiag.diag ▸ skipped.failed⟩

/-- A frame that ends before its footer. -/
theorem rejects_body_missing {n : Nat} (hs : Accepted s) (hj : Junk (s.recvMarker msel) junk)
    (hn : encodable s.prof.lenW n = true) (hl : bs.length < n + 2)
    (ho : Offers src [] [] s (junk ++ s.recvMarker msel :: (lenField s.prof.lenW n ++ bs))) :
    Rejects src msel s .invalidFooter junk.length ⟨0, 0, 0, false⟩ :=
  rejects_of_failed hs hj.length_le fun _ dl start => by
    rw [← start.prof] at ho hn
    obtain ⟨u, missing, o, skipped⟩ := decodeFrame_body_missing dl (start.live hs) hj hn (start.feeds ho) hl
    exact ⟨_, missing, o.trans (setDiag_step u _ fun _ => rfl), skipped.failed_diag _⟩

/-- A frame of which the footer is none, or the checksum another (R414). -/
theorem rejects_badFrame (src : Source) (msel : Bool) (hs : Accepted s) (hj : Junk (s.recvMarker msel) junk)
    (hp : encodable s.prof.lenW p.length = true)
    (ho : Offers src rest after s (junk ++ ([s.recvMarker msel] ++ lenField s.prof.lenW p.length ++ p ++ [c] ++ [f]))) :
    let sum := csum (lenField s.prof.lenW p.length ++ p)
    (f ≠ 0x03 → f ≠ 0x17 → Rejects src msel s .invalidFooter junk.length ⟨c, sum, f, true⟩) ∧
    (f = 0x03 ∨ f = 0x17 → c ≠ sum → Rejects src msel s .invalidChecksum junk.length ⟨c, sum, f, true⟩) := by
  intro sum
  have checked (t dl) (start : AttemptStart src s t dl) : ∃ u, decodeFrame src (s.recvMarker msel) dl t =
      checkBody (lenField s.prof.lenW p.length) p.length (p ++ [c] ++ [f]) u ∧
      OpStep Decoding t { u with diag := ⟨c, sum, f, true⟩ } ∧
      Failed t { u with diag := ⟨c, sum, f, true⟩ } junk.length ⟨c, sum, f, true⟩ := by
    rw [← List.append_nil (junk ++ _), ← start.prof] at ho
    obtain ⟨u, h, o, -, skipped⟩ := decodeFrame_body (s.recvMarker msel) dl junk p [] c f (start.live hs) hj
      (start.prof ▸ hp) (start.feeds ho)
    rw [start.prof] at h
    exact ⟨u, h, o.trans (setDiag_step u _ nofun), skipped.failed_diag _⟩
  refine ⟨fun h3 h17 => rejects_of_failed hs hj.length_le fun t dl start => ?_,
    fun hf hc => rejects_of_failed hs hj.length_le fun t dl start => ?_⟩
  · obtain ⟨u, h, o, failed⟩ := checked t dl start
    have illegal : footerLegal f = false := by
      rw [Bool.eq_false_iff, Ne, footerLegal_iff]
      exact not_or.2 ⟨h3, h17⟩
    exact ⟨_, by rw [h, checkBody_eq, if_pos illegal], o, failed⟩
  · obtain ⟨u, h, o, failed⟩ := checked t dl start
    have legal : ¬ footerLegal f = false := by simp [(footerLegal_iff f).2 hf]
    exact ⟨_, by rw [h, checkBody_eq, if_neg legal, if_pos hc], o, failed⟩

end Sys2Proof.Machine

namespace Sys2Proof.Machine

/-- Settles O40: DECODE is `exec_attempt_frame` from TXBUF. -/
theorem decodeReturnsThePayload : Obligations.DecodeReturnsThePayload := by
  intro s msel junk p after f hs m hj hp hf htx
  obtain ⟨t, hexec, done, decoded, -⟩ :=
    exec_attempt_frame (rest := []) (after := after) .buffer msel hs hj hp hf htx
  exact ⟨t, hexec, done, decoded⟩

/-- Settles O41: both ops are `rejects_badFrame`, without junk. -/
theorem corruptedFramesAreRejected : Obligations.CorruptedFramesAreRejected := by
  intro s i msel p c f hs m lb bytes hp hi
  obtain ⟨src, rest, rfl, offered⟩ : ∃ src rest, i = Source.op src msel ∧ Offers src rest [] s bytes := by
    rcases hi with ⟨rfl, htx⟩ | ⟨rfl, rest, hq⟩
    · exact ⟨.buffer, [], rfl, htx.trans (List.append_nil _).symm⟩
    · exact ⟨.channel, rest, rfl, hq⟩
  obtain ⟨footer, sum⟩ := rejects_badFrame src msel hs (Junk.nil m) hp offered
  refine ⟨fun hc hf => ?_, fun h3 h17 => ?_⟩
  · obtain ⟨t, hexec, done, holds, -⟩ := sum hf hc
    exact ⟨t, hexec, done, holds⟩
  · obtain ⟨t, hexec, done, holds, -⟩ := footer h3 h17
    exact ⟨t, hexec, done, holds⟩

/-- Settles O42: the clauses are the ways in which an attempt fails, from TXBUF. -/
theorem decodeErrors : Obligations.DecodeErrors := by
  intro s msel bs hs htx m lenW fails
  have offers {xs : List Byte} (h : bs = xs) : Offers .buffer [] [] s xs := htx.trans (h.trans (List.append_nil _).symm)
  refine ⟨fun h0 hm => ?_, fun hj h0 hl => ?_, fun junk after hj h0 hl hb => ?_, fun junk after hj hb hl => ?_,
    fun junk after hj hw hb => ?_, fun junk p f k hj hp hb h1 h2 => ?_, fun junk p c f after hj hp hb => ?_⟩
  · obtain ⟨more, hb⟩ := List.head?_eq_some_iff.1 h0
    exact rejects_silence hs hm (offers hb)
  · exact rejects_noMarker hs ⟨hj, h0, hl⟩ (offers rfl)
  · exact hl ▸ rejects_junk (src := .buffer) hs hj h0 hl (offers hb)
  · exact rejects_length_missing hs hj hl (offers hb)
  · exact rejects_length_zero hs hj hw (offers hb)
  · obtain ⟨body, cut, short⟩ := take_buildFrame lenW m p f false h1 h2
    exact rejects_body_missing hs hj hp short (offers (cut ▸ hb))
  · exact rejects_badFrame (rest := []) .buffer msel hs hj hp (htx.trans hb)

/-- Settles O43: RECV_FRAME is `exec_attempt_frame` from the channel; on an empty stream its hunt runs dry. -/
theorem recvFrameReturnsThePayload : Obligations.RecvFrameReturnsThePayload := by
  intro s msel hs m
  refine ⟨fun junk p f rest hj hp hf hq => ?_, fun hr => ?_⟩
  · obtain ⟨t, hexec, done, decoded, rx⟩ := exec_attempt_frame (after := []) .channel msel hs hj hp hf hq
    exact ⟨t, hexec, done, decoded, rx rfl⟩
  · obtain ⟨t, dl, start, ends⟩ := attempt_starts .channel msel hs
    obtain ⟨u, dry, o, -, -, time⟩ := hunt_dry m dl [] Config.maxSkip 0 true (start.live hs)
      (start.feeds (after := []) (Queued.nil.2 hr)) nofun nofun (Nat.zero_le _) (by decide)
    refine ⟨_, (ends _ u (decodeFrame_hunt_fails m dl dry)).2 u .noResponse rfl, ⟨rfl, rfl, rfl⟩,
      (start.empty.step o rfl).finish _ _, fun hl ha => ?_⟩
    have now : t.time = s.time := by rw [start.time, hl]; rfl
    have waits : t.left dl = s.prof.tHunt.toNat := by
      simp [State.left, State.now, start.deadline rfl, ha, now]
    rw [State.finish_time, (time rfl rfl).1, waits, now]
    exact Nat.le_add_right _ _

end Sys2Proof.Machine
end

section
/-! The sequencer ops: PIN, DELAY, BAUD, END (41_sequencer.md R470-R472, 42_command.md R530) and ENTRY (R460). Each runs
its pseudocode after some processing; ENTRY completes by what its sequence answers. -/

namespace Sys2Proof.Machine

variable {s t u : State} {bs bytes : List Byte} {rest : List RxByte} {ok : Bool}

theorem runBody_of_pass {body : Ctl Unit} (h : pass s = .ok ⟨⟩ t) : runBody body s = body t := by
  rw [runBody, Ctl.bind_apply, h]

/-- An op that does not write RXBUF and keeps STATE while it runs starts from the accepted state (R500, R501). -/
theorem State.begin_eq_self {ph : Phase} (h : ph.running = none) : s.begin false ph = s := by
  rw [State.begin, h]
  rfl

/-- Such an op completes when its pseudocode answers. -/
theorem command_completes {g : Gate} {ph : Phase} {body : Ctl Unit} (hg : g.refusal = none) (hph : ph.running = none)
    (hpass : pass s = .ok ⟨⟩ t) (h : body t = .ok ⟨⟩ u) :
    command g false ph body s = .next (u.finish (ph.onOk.getD u.sess) .none) := by
  refine command_ok hg ?_
  rw [State.begin_eq_self hph, runBody_of_pass hpass, h]

/-! ### Whole entry sequences, answered or not (R460-R465) -/

/-- The family's sequence answers `ok`, with all its pins, rates and time, having sent `bytes` and left `rest` unread. -/
def SequenceAnswers (s : State) (ok : Bool) (bytes : List Byte) (rest : List RxByte) : Prop :=
  ∃ t, entrySequence s.prof s = .ok ok t ∧ Entered s t bytes s.entryPins s.entryRates s.entryTicks rest

theorem sequenceAnswers_of_sw8 (hf : s.prof.family = .sw8)
    (h : ∃ t, entrySw8 s.prof s = .ok ok t ∧ Entered s t bytes
      ((Pin.pinmux, false) :: s.trainPins ++ [(Pin.pinmux, true)]) [s.prof.baudSw] (s.train.map trainDelay).sum rest) :
    SequenceAnswers s ok bytes rest := by
  simpa only [SequenceAnswers, entrySequence, State.entryPins, State.entryRates, State.entryTicks, hf] using h

theorem sequenceAnswers_of_alt (hf : s.prof.family = .alt)
    (h : ∃ t, entryAlt s.prof s = .ok ok t ∧ Entered s t bytes s.trainPins []
      ((s.train.map trainDelay).sum + 16 * s.prof.tSpacing.toNat) rest) : SequenceAnswers s ok bytes rest := by
  simpa only [SequenceAnswers, entrySequence, State.entryPins, State.entryRates, State.entryTicks, hf] using h

theorem sequenceAnswers_of_ext4 (hf : s.prof.family = .ext4)
    (h : ∃ t, entryExt4 s.prof s = .ok ok t ∧ Entered s t bytes s.prof.pulsePins []
      (s.prof.tPulse.toNat * (1 + 2 * s.prof.pulses.toNat) + s.prof.tSettle.toNat) rest) :
    SequenceAnswers s ok bytes rest := by
  simpa only [SequenceAnswers, entrySequence, State.entryPins, State.entryRates, State.entryTicks, hf] using h

theorem State.entrySends_alt (hf : s.prof.family = .alt) :
    s.entrySends = List.replicate 16 0 ++ [s.prof.probe] := by
  simp only [State.entrySends, hf]

/-- The extended entry fails when none of its 30 rounds is echoed 0x00 (R462). -/
theorem sequenceAnswers_ext4_wrong (hs : Live s) (hf : s.prof.family = .ext4) (hq : Queued s bs rest)
    (hl : bs.length = 30) (hn : ∀ x ∈ bs, x ≠ 0x00) : SequenceAnswers s false (List.replicate 30 0x00) rest := by
  refine sequenceAnswers_of_ext4 hf (entryExt4_padding s.prof _ rest hs fun t o => ?_)
  have padded := paddingLoop_wrong s.prof.tEcho bs (o.live hs) (hq.step o rfl) hn
  rwa [hl] at padded

/-- The extended entry fails when the device stays silent through its 30 rounds (R462). -/
theorem sequenceAnswers_ext4_silent (hs : Live s) (hf : s.prof.family = .ext4) (hr : s.rx = []) :
    SequenceAnswers s false (List.replicate 30 0x00) [] :=
  sequenceAnswers_of_ext4 hf (entryExt4_padding s.prof _ [] hs fun _ o =>
    paddingLoop_silent s.prof.tEcho 30 (o.live hs) ((o.unread rfl).1.trans hr))

/-! ### ENTRY -/

theorem entryReady_of_configured (h : EntryConfigured s) : s.entryReady = true := by
  obtain ⟨written, clean⟩ := h
  refine s.entryReady_iff.2 ⟨written, fun uses => clean ?_⟩
  cases hf : s.prof.family with
  | sw8 => exact .inl rfl
  | alt => exact .inr rfl
  | generic | ext4 => rw [hf] at uses; cases uses

/-- What ENTRY's sequence starts with: the profile and the stream of the accepted state. -/
structure SequenceStart (s t : State) : Prop where
  live : Live t
  prof : t.prof = s.prof
  stream : t.rx = s.rx
  time : s.time ≤ t.time

theorem SequenceStart.queued (h : SequenceStart s t) (hq : Queued s bs rest) : Queued t bs rest :=
  hq.later h.stream h.time

/-- ENTRY has ended with `e`: its pins, rates and time are the sequence's, it sent `bytes` and left `rest` unread. -/
def EntryEnds (s : State) (e : Err) (bytes : List Byte) (rest : List RxByte) : Prop :=
  ∃ t, exec .entry s = .next t ∧ Completed t e ∧ t.sess = .unknown ∧ t.sent = s.sent ++ bytes ∧
    t.pinSettings = s.pinSettings ++ s.entryPins ∧ t.rates = s.rates ++ s.entryRates ∧
    s.time + s.entryTicks ≤ t.time ∧ t.rx = rest

/-- ENTRY completes by the answer of its sequence, which starts after some processing. -/
theorem entryEnds_of_answers (hs : Accepted s) (hc : EntryConfigured s)
    (h : ∀ t, SequenceStart s t → SequenceAnswers t ok bytes rest) :
    EntryEnds s (if ok then .none else .noResponse) bytes rest := by
  have gate : ({ configOk := s.entryReady } : Gate).refusal = none :=
    Gate.refusal_of_passed rfl rfl (entryReady_of_configured hc) rfl
  have live := hs.live.begin false .entry
  obtain ⟨t, hpass, w⟩ := pass_ok live
  have start : SequenceStart s t := ⟨w.step.live live, w.step.prof, (w.step.unread rfl).1, w.step.time⟩
  have pins := (s.begin_samePins false .entry).trans (w.step.pins rfl)
  have sent : t.sent = s.sent := (w.step.sent rfl).trans (s.begin_sent ..)
  obtain ⟨u, hseq, entered⟩ := h t start
  have ends (e : Err) (hexec : exec .entry s = .next (u.finish .unknown e)) : EntryEnds s e bytes rest := by
    have final := u.finish_samePins .unknown e
    refine ⟨_, hexec, ⟨rfl, rfl, rfl⟩, rfl, ?_, ?_, ?_, ?_, entered.stream⟩
    · rw [State.finish_sent, entered.sent, sent]
    · rw [final.settings, entered.settings, pins.settings, State.entryPins_congr start.prof]
    · rw [final.rates, entered.newRates, pins.rates, State.entryRates_congr start.prof]
    · rw [← State.entryTicks_congr start.prof]
      exact (Nat.add_le_add_right start.time _).trans entered.time
  cases ok with
  | true => exact ends .none (command_ok gate (by rw [runBody_of_pass hpass]; simp [hseq]))
  | false => exact ends .noResponse (command_raised gate (by rw [runBody_of_pass hpass]; simp [hseq]))

end Sys2Proof.Machine

namespace Sys2Proof.Machine

/-- Settles O48: the command is one `pinSet` after some processing. -/
theorem pinSetsOnePin : Obligations.PinSetsOnePin := by
  intro s p v hs
  obtain ⟨t, hpass, w⟩ := pass_ok hs.live
  obtain ⟨u, hset, o, mode, reset, data, mux, settings, rate, -⟩ := pinSet_ok p v (w.step.live hs.live)
  have hexec : exec (.pin p v) s = .next (u.finish u.sess .none) :=
    command_completes (g := {}) (ph := .unchanged) rfl rfl hpass hset
  have same := w.step.pins rfl
  rw [same.mode] at mode
  rw [same.reset] at reset
  rw [same.data] at data
  rw [same.mux] at mux
  rw [same.settings, ← (u.finish_samePins u.sess .none).settings] at settings
  exact ⟨_, hexec, ⟨rfl, rfl, rfl⟩, o.sess.trans w.step.sess, rate.trans same.rate, mode, reset, data, mux, settings⟩

/-- Settles O49: a wait, a change of rate, and nothing, each after some processing. -/
theorem delayBaudAndEnd : Obligations.DelayBaudAndEnd := by
  intro s hs
  obtain ⟨t, hpass, w⟩ := pass_ok hs.live
  have live := w.step.live hs.live
  have arg := w.step.arg0
  have same := w.step.pins rfl
  refine ⟨?_, fun h0 => ?_, ?_⟩
  · obtain ⟨u, hwait, waited⟩ := wait_ok t.arg0.toNat live
    have hexec : exec .delay s = .next (u.finish u.sess .none) :=
      command_completes (g := {}) (ph := .unchanged) rfl rfl hpass hwait
    refine ⟨_, hexec, ⟨rfl, rfl, rfl⟩, waited.step.sess.trans w.step.sess, ?_⟩
    rw [State.finish_time, waited.time, arg]
    exact (Nat.add_le_add_right w.step.time _).trans (Nat.le_add_right _ _)
  · obtain ⟨u, hrate, o, rate, rates, -, mode, reset, data, mux⟩ := reconfigure_ok t.arg0 live
    have gate : (Instr.baud.gate s).refusal = none := Gate.refusal_of_passed rfl rfl rfl (bne_iff_ne.2 h0)
    have hexec : exec .baud s = .next (u.finish u.sess .none) :=
      command_completes (ph := .unchanged) gate rfl hpass hrate
    rw [arg] at rate
    rw [arg, same.rates, ← (u.finish_samePins u.sess .none).rates] at rates
    exact ⟨_, hexec, ⟨rfl, rfl, rfl⟩, o.sess.trans w.step.sess, rate, rates, mode.trans same.mode,
      reset.trans same.reset, data.trans same.data, mux.trans same.mux⟩
  · have hexec : exec .endSession s = .next (t.finish .unknown .none) :=
      command_completes (g := {}) (ph := .endOp) rfl rfl hpass rfl
    exact ⟨_, hexec, ⟨rfl, rfl, rfl⟩, rfl⟩

/-- Settles O50: `entrySequence_ok`, made a command. -/
theorem entrySucceeds : Obligations.EntrySucceeds := by
  intro s rest hs hc hq
  refine entryEnds_of_answers (ok := true) hs hc fun t start => ?_
  have waiting := start.queued hq
  rw [← State.entryReads_congr start.prof] at waiting
  rw [← State.entrySends_congr start.prof]
  exact entrySequence_ok start.live waiting

/-- Settles O51: each clause is a way in which the family's sequence fails, made a command. -/
theorem entryHandshakeFailures : Obligations.EntryHandshakeFailures := by
  intro s hs hc fails
  have failed {bytes : List Byte} {rest : List RxByte}
      (h : ∀ t, SequenceStart s t → SequenceAnswers t false bytes rest) : fails bytes rest := by
    obtain ⟨t, hexec, done, sess, sent, pins, -, -, rx⟩ := entryEnds_of_answers hs hc h
    exact ⟨t, hexec, done, sess, sent, pins, rx⟩
  refine ⟨fun b rest hf hq hb => ?_, fun hf hr => ?_, fun b rest hf hq hb => ?_, fun hf hr => ?_,
    fun bs b rest hf hq hl hn hb => ?_, fun bs rest hf hq hl hn => ?_, fun hf hr => ?_⟩
  all_goals refine failed fun t start => ?_
  all_goals rw [← start.prof] at hf
  · have answer := (entrySw8_ok start.live).1 b rest (start.queued hq)
    rw [beq_false_of_ne hb] at answer
    exact sequenceAnswers_of_sw8 hf answer
  · exact sequenceAnswers_of_sw8 hf ((entrySw8_ok start.live).2 (start.stream.trans hr))
  · have answer := (entryAlt_ok start.live).1 b rest (start.queued hq)
    rw [beq_false_of_ne (start.prof ▸ hb)] at answer
    rw [← State.entrySends_congr start.prof, State.entrySends_alt hf]
    exact sequenceAnswers_of_alt hf answer
  · rw [← State.entrySends_congr start.prof, State.entrySends_alt hf]
    exact sequenceAnswers_of_alt hf ((entryAlt_ok start.live).2 (start.stream.trans hr))
  · have answer := entryExt4_answered t.prof bs b start.live (start.queued hq) hn hl
    rw [beq_false_of_ne hb] at answer
    exact sequenceAnswers_of_ext4 hf answer
  · exact sequenceAnswers_ext4_wrong start.live hf (start.queued hq) hl hn
  · exact sequenceAnswers_ext4_silent start.live hf (start.stream.trans hr)

end Sys2Proof.Machine
end

section
/-! The invariant between steps (42_command.md R501, 10_state.md R108-R120, R144): what it says of the stored registers and
of the receive side, what each kind of step keeps of it, and the state table that gives STATE after a command. -/

namespace Sys2Proof.Machine

variable {i : Instr} {s t : State} {e : Err}

/-! ### The state table (R501) -/

/-- The final STATE of a row of the table is `Instr.sessAfter`. -/
theorem phase_final (i : Instr) (before : Sess) (e : Err) :
    (if e = .none then i.phase.onOk else i.phase.onError).getD (i.phase.running.getD before) =
      i.sessAfter before e := by
  by_cases h : e = .none
  · rw [if_pos h]
    cases i with
    | reset => exact (if_pos h).symm
    | _ => rfl
  · rw [if_neg h]
    cases i with
    | reset => exact (if_neg h).symm
    | _ => rfl

theorem sessAfter_settled (i : Instr) {before : Sess} (e : Err) (h : before = .unknown ∨ before = .ready) :
    i.sessAfter before e = .unknown ∨ i.sessAfter before e = .ready := by
  cases i with
  | entry | endSession => exact .inl rfl
  | reset =>
    by_cases he : e = .none
    · exact .inr (if_pos he)
    · exact .inl (if_neg he)
  | read | program | verify | blockErase | checksum | checksums | chipErase | secSet | secGet | secRelease | signature
  | optRead | optWrite | status | rawCmd => exact .inr rfl
  | _ => exact h

/-- STATE after a command: unchanged when it was refused, else the table's. -/
theorem Ending.sess (h : Ending i s t e) :
    (t = s.finish s.sess e ∧ (i.gate s).refusal = some e) ∨
      (t.sess = i.sessAfter s.sess e ∧ (e = .none ∨ e.raisable = true)) := by
  cases h with
  | refused ht hg => exact .inl ⟨ht, hg⟩
  | ran u hg hu ht he =>
    subst ht
    refine .inr ⟨?_, he⟩
    rw [State.finish_sess, hu.sess, State.begin_sess, phase_final]

/-! ### The parts of the invariant -/

/-- The profile fields that hold legal values from reset on (10_state.md R130-R133, R144). -/
structure ProfileLegal (p : Profile) : Prop where
  addrW : 1 ≤ p.addrW.toNat ∧ p.addrW.toNat ≤ 4
  stxTx : markerLegal p.stxTx = true
  stxRx : markerLegal p.stxRx = true
  blkA : 1 ≤ p.blkA.toNat ∧ p.blkA.toNat ≤ Config.maxBlock
  blkB : 1 ≤ p.blkB.toNat ∧ p.blkB.toNat ≤ Config.maxBlock

/-- CFGVALID and the profile agree (R112, D15). -/
structure ValidBitsAgree (s : State) : Prop where
  baudSw : s.valid 2 = true → s.prof.baudSw ≠ 0
  unwritten : ∀ r k, LockedReg.validBit r = some k → s.valid k = false → s.prof.read r = Profile.reset.read r
  opcStatus : s.valid 29 = true
  reserved : ∀ k, k = 13 ∨ k = 14 ∨ k = 15 ∨ k = 30 ∨ k = 31 → s.valid k = false

theorem State.inv_iff (s : State) : s.Inv ↔ s.busy = false ∧ (s.sess = .unknown ∨ s.sess = .ready) ∧
    ProfileLegal s.prof ∧ ValidBitsAgree s ∧ s.txlen.toNat ≤ Config.bufCap ∧ RxOk s := by
  constructor
  · exact fun h => ⟨h.idle, h.settled, ⟨h.addrW, h.stxTx, h.stxRx, h.blkA, h.blkB⟩,
      ⟨h.baudSw, h.unwritten, h.opcStatus, h.validReserved⟩, h.txlen,
      ⟨h.mem, h.rxlen, h.frames, h.flens, h.lastst, h.diag, h.skipcnt⟩⟩
  · rintro ⟨idle, settled, p, v, txlen, rx⟩
    exact ⟨idle, settled, rx.mem, p.addrW, p.stxTx, p.stxRx, p.blkA, p.blkB, v.baudSw, v.unwritten, v.opcStatus,
      v.reserved, txlen, rx.rxlen, rx.frames, rx.flens, rx.lastst, rx.diag, rx.skipcnt⟩

theorem ValidBitsAgree.congr (h : ValidBitsAgree s) (hp : t.prof = s.prof) (hc : t.cfgvalid = s.cfgvalid) :
    ValidBitsAgree t := by
  have valid (k : Nat) : t.valid k = s.valid k := congrArg (BitVec.getLsbD · k) hc
  refine ⟨?_, ?_, ?_, ?_⟩
  · rw [valid, hp]
    exact h.baudSw
  · intro r k
    rw [valid, hp]
    exact h.unwritten r k
  · rw [valid]
    exact h.opcStatus
  · intro k
    rw [valid]
    exact h.reserved k

/-- A state that differs only in what the invariant does not speak of. -/
theorem State.Inv.congr (h : s.Inv) (hb : t.busy = s.busy) (hs : t.sess = s.sess) (hp : t.prof = s.prof)
    (hc : t.cfgvalid = s.cfgvalid) (hl : t.txlen = s.txlen) (hr : RxOk t) : t.Inv := by
  obtain ⟨idle, settled, p, v, txlen, -⟩ := s.inv_iff.1 h
  exact t.inv_iff.2 ⟨hb.trans idle, hs ▸ settled, hp ▸ p, v.congr hp hc, hl ▸ txlen, hr⟩

theorem State.Inv.rxOk (h : s.Inv) : RxOk s := by
  obtain ⟨-, -, -, -, -, rx⟩ := s.inv_iff.1 h
  exact rx

/-- The fields the invariant speaks of. -/
def State.invFields (s : State) :=
  ((s.busy, s.sess, s.prof, s.cfgvalid, s.txlen), s.mem, s.rxlen, s.rxframes, s.rxflen, s.lastst, s.diag, s.skipcnt)

theorem State.Inv.same (h : s.Inv) (e : t.invFields = s.invFields) : t.Inv := by
  simp only [State.invFields, Prod.mk.injEq] at e
  obtain ⟨⟨busy, sess, prof, cfgvalid, txlen⟩, mem, rxlen, rxframes, rxflen, lastst, diag, skipcnt⟩ := e
  exact h.congr busy sess prof cfgvalid txlen (h.rxOk.congr mem rxlen rxframes rxflen lastst diag skipcnt)

theorem State.reset_inv : State.reset.Inv := by
  refine State.reset.inv_iff.2 ⟨rfl, .inl rfl, ?_, ?_, by decide, ?_⟩
  · constructor <;> decide
  · refine ⟨by decide, fun _ _ _ _ => rfl, by decide, ?_⟩
    rintro k (rfl | rfl | rfl | rfl | rfl) <;> decide
  · refine ⟨State.reset_mem_wf, by decide, by decide, fun j _ => ?_, by decide, by decide, by decide⟩
    revert j
    decide

theorem State.blockReset_inv (s : State) (n : Nat) : (s.blockReset n).Inv :=
  State.reset_inv.same rfl

/-! ### Register writes -/

/-- A block size that a write stores (R133, R144). -/
theorem blockLegal_range {v : Word} (h : blockLegal v = true) :
    1 ≤ (v.extractLsb' 0 25).toNat ∧ (v.extractLsb' 0 25).toNat ≤ Config.maxBlock := by
  rw [blockLegal, Bool.and_eq_true, bitVec_bne_zero_iff, decide_eq_true_eq] at h
  have most : Config.maxBlock = 0x1000000 := rfl
  simp only [BitVec.extractLsb'_toNat, Nat.shiftRight_zero]
  omega

/-- A legal write stores legal values (R144). -/
theorem ProfileLegal.write {p : Profile} (h : ProfileLegal p) {r : LockedReg} {v : Word} (hl : r.legal v = true) :
    ProfileLegal (p.write r v) := by
  obtain ⟨addrW, stxTx, stxRx, blkA, blkB⟩ := h
  cases r with
  | profile =>
    rw [LockedReg.legal, Bool.and_eq_true, decide_eq_true_eq, decide_eq_true_eq] at hl
    exact ⟨hl, stxTx, stxRx, blkA, blkB⟩
  | markers =>
    rw [LockedReg.legal, Bool.and_eq_true] at hl
    exact ⟨addrW, hl.1, hl.2, blkA, blkB⟩
  | blkszA => exact ⟨addrW, stxTx, stxRx, blockLegal_range hl, blkB⟩
  | blkszB => exact ⟨addrW, stxTx, stxRx, blkA, blockLegal_range hl⟩
  | _ => exact ⟨addrW, stxTx, stxRx, blkA, blkB⟩

/-- An accepted write to a locked register. -/
def State.stored (s : State) (r : LockedReg) (v : Word) : State :=
  { s with prof := s.prof.write r v, cfgvalid := markValid s.cfgvalid r.validBit }

theorem State.stored_valid (s : State) (r : LockedReg) (v : Word) (k : Nat) :
    (s.stored r v).valid k = (s.valid k || r.validBit == some k) :=
  getLsbD_markValid s.cfgvalid r.validBit (fun _ h => Nat.lt_trans (LockedReg.validBit_range h) (by decide)) k

/-- No locked register has a CFGVALID bit that R112 reserves. -/
theorem LockedReg.validBit_ne_reserved (r : LockedReg) {k : Nat} (h : k = 13 ∨ k = 14 ∨ k = 15 ∨ k = 30 ∨ k = 31) :
    r.validBit ≠ some k := by
  cases r with
  | opc j =>
    have low := j.isLt
    simp only [LockedReg.validBit, opcBit, ne_eq, Option.some.injEq]
    omega
  | _ => simp only [LockedReg.validBit, ackCodeBit, ne_eq, Option.some.injEq, reduceCtorEq, not_false_eq_true] <;> omega

theorem baudSw_of_validBit {r : LockedReg} (h : r.validBit = some 2) : r = .baudSw := by
  cases r with
  | baudSw => rfl
  | opc j =>
    simp only [LockedReg.validBit, opcBit, Option.some.injEq] at h
    omega
  | _ => simp [LockedReg.validBit, ackCodeBit] at h

/-- Writing another register leaves BAUD_SW alone. -/
theorem Profile.write_baudSw (p : Profile) {r : LockedReg} (v : Word) (h : r ≠ .baudSw) :
    (p.write r v).baudSw = p.baudSw := p.read_write_other r .baudSw v h.symm

theorem ValidBitsAgree.stored (h : ValidBitsAgree s) {r : LockedReg} {v : Word} (hl : r.legal v = true) :
    ValidBitsAgree (s.stored r v) := by
  refine ⟨fun hv => ?_, fun q k hq hv => ?_, ?_, fun k hk => ?_⟩
  · by_cases hr : r = .baudSw
    · subst hr
      exact bne_iff_ne.1 hl
    · rw [State.stored_valid, Bool.or_eq_true, beq_iff_eq] at hv
      rw [show (s.stored r v).prof.baudSw = s.prof.baudSw from s.prof.write_baudSw v hr]
      exact h.baudSw (hv.resolve_right fun h2 => hr (baudSw_of_validBit h2))
  · rw [State.stored_valid, Bool.or_eq_false_iff, beq_eq_false_iff_ne] at hv
    have other : q ≠ r := fun e => hv.2 (e ▸ hq)
    exact (s.prof.read_write_other r q v other).trans (h.unwritten q k hq hv.1)
  · rw [State.stored_valid, h.opcStatus, Bool.true_or]
  · rw [State.stored_valid, h.reserved k hk, Bool.false_or, beq_eq_false_iff_ne]
    exact r.validBit_ne_reserved hk

theorem State.Inv.stored (h : s.Inv) {r : LockedReg} {v : Word} (hl : r.legal v = true) : (s.stored r v).Inv := by
  obtain ⟨idle, settled, p, valid, txlen, rx⟩ := s.inv_iff.1 h
  exact (State.inv_iff _).2 ⟨idle, settled, p.write hl, valid.stored hl, txlen, rx.congr rfl rfl rfl rfl rfl rfl rfl⟩

theorem State.Inv.setWign (h : s.Inv) : s.setWign.Inv :=
  h.same rfl

theorem State.Inv.lockedWrite (h : s.Inv) (r : LockedReg) (v : Word) : (s.lockedWrite r v).Inv := by
  unfold State.lockedWrite
  split
  · next hc =>
    rw [Bool.and_eq_true] at hc
    exact h.stored hc.2
  · exact h.setWign

/-- A register write between commands that the bus lets through. -/
theorem State.Inv.regWrite (h : s.Inv) (r : Reg) (v : Word) : (s.regWrite r v).Inv := by
  have free : ¬ s.busy = true := Bool.eq_false_iff.1 h.idle
  cases r with
  | locked r => exact h.lockedWrite r v
  | txlen =>
    show (if (s.busy || decide (Config.bufCap < v.toNat)) = true then s.setWign
      else { s with txlen := v.extractLsb' 0 17 }).Inv
    split
    · exact h.setWign
    · next hc =>
      obtain ⟨idle, settled, p, valid, -, rx⟩ := s.inv_iff.1 h
      refine (State.inv_iff _).2 ⟨idle, settled, p, valid.congr rfl rfl, ?_, rx.congr rfl rfl rfl rfl rfl rfl rfl⟩
      simp only [Bool.or_eq_true, decide_eq_true_eq, not_or, Nat.not_lt] at hc
      simp only [BitVec.extractLsb'_toNat, Nat.shiftRight_zero]
      exact (Nat.mod_le _ _).trans hc.2
  | arg0 =>
    show (if s.busy = true then s.setWign else { s with arg0 := v }).Inv
    rw [if_neg free]
    exact h.same rfl
  | arg1 =>
    show (if s.busy = true then s.setWign else { s with arg1 := v }).Inv
    rw [if_neg free]
    exact h.same rfl
  | _ => exact h.same rfl

/-! ### Bus accesses -/

theorem State.Inv.take (h : s.Inv) (x : HostInput) (hs : List HostInput) : (s.take x hs).Inv :=
  h.same rfl

theorem State.Inv.respond (h : s.Inv) (r : BusResp) : (s.respond r).Inv :=
  h.same rfl

theorem State.Inv.idleTick (h : s.Inv) : s.idle.Inv :=
  h.same rfl

theorem State.Inv.busRead (h : s.Inv) (a : BitVec 18) (sz : Size) : (s.busRead a sz).Inv := by
  rw [s.busRead_served a sz]
  exact h.same rfl

theorem Region.ofOffset_eq_tx {a : Nat} (h : Region.ofOffset a = .tx) : Config.txBase ≤ a ∧ a < Config.rxBase := by
  unfold Region.ofOffset at h
  split at h
  · next hc => exact hc
  · split at h <;> cases h

/-- Bytes written in TXBUF keep memory canonical (R142, log 8). -/
theorem State.Inv.txWrite (h : s.Inv) {a : Nat} (ha : Region.ofOffset a = .tx) (sz : Size) (v : Word) :
    State.Inv { s with mem := s.mem.putAll a (leBytes sz.bytes v) } := by
  have rx := h.rxOk
  obtain ⟨low, high⟩ := Region.ofOffset_eq_tx ha
  have mem : (s.mem.putAll a (leBytes sz.bytes v)).wf = true := by
    refine Memory.wf_putAll _ _ _ rx.mem low ?_
    have most := sz.bytes_le
    rw [leBytes_length]
    simp only [Config.rxBase, Config.rxEnd] at *
    omega
  exact h.congr rfl rfl rfl rfl rfl ⟨mem, rx.rxlen, rx.frames, rx.flens, rx.lastst, rx.diag, rx.skipcnt⟩

theorem State.Inv.writeEffect (h : s.Inv) (a : Nat) (sz : Size) (v : Word) : (s.writeEffect a sz v).Inv := by
  unfold State.writeEffect
  split
  · split
    · exact h.regWrite _ v
    · exact h
  · next ha =>
    rw [if_neg (Bool.eq_false_iff.1 h.idle)]
    exact h.txWrite ha sz v
  · exact h.setWign

theorem State.Inv.busWrite (h : s.Inv) (a : BitVec 18) (sz : Size) (v : Word) : (s.busWrite a sz v).Inv := by
  unfold State.busWrite
  split
  · exact (h.writeEffect a.toNat sz v).respond .written
  · exact h.respond .busError

/-! ### Commands -/

theorem RxOk.begin (h : RxOk s) (rx : Bool) (ph : Phase) : RxOk (s.begin rx ph) := by
  cases rx with
  | false => exact h.congr rfl rfl rfl rfl rfl rfl rfl
  | true =>
    refine ⟨h.mem, Nat.zero_le _, Nat.le_refl 0, fun j _ => ?_, h.lastst, h.diag, h.skipcnt⟩
    show (Vector.replicate 8 (0 : BitVec 17)).get j = 0
    rw [Vector.get_eq_getElem, Vector.getElem_replicate]

theorem Ending.rxOk (h : Ending i s t e) (hr : RxOk s) : RxOk t := by
  cases h with
  | refused ht _ => exact ht ▸ hr.congr rfl rfl rfl rfl rfl rfl rfl
  | ran u _ hu ht _ => exact ht ▸ (hu.rxOk (hr.begin _ _)).congr rfl rfl rfl rfl rfl rfl rfl

theorem Ending.settled (h : Ending i s t e) (hs : s.sess = .unknown ∨ s.sess = .ready) :
    t.sess = .unknown ∨ t.sess = .ready := by
  rcases h.sess with ⟨rfl, -⟩ | ⟨after, -⟩
  · exact hs
  · rw [after]
    exact sessAfter_settled i e hs

/-- A command word from a state that meets the invariant: refused, run to its end, or ended by a block reset. -/
theorem State.Inv.runCommand (h : s.Inv) (w : Word) : ∃ t, runCommand w s = .next t ∧ t.Inv := by
  obtain ⟨-, settled, p, valid, txlen, rx⟩ := s.inv_iff.1 h
  unfold Machine.runCommand
  cases decodeWord w with
  | error _ => exact ⟨_, rfl, h.congr h.idle.symm rfl rfl rfl rfl (rx.congr rfl rfl rfl rfl rfl rfl rfl)⟩
  | ok i =>
    rcases exec_cases i (s.accept w) rfl with ⟨t, e, hexec, ending⟩ | ⟨t, hexec, hreset⟩
    · have config := ending.sameConfig
      refine ⟨t, hexec, t.inv_iff.2 ⟨ending.completed.idle, ending.settled settled, config.prof ▸ p,
        valid.congr config.prof config.cfgvalid, config.txlen ▸ txlen,
        ending.rxOk (rx.congr rfl rfl rfl rfl rfl rfl rfl)⟩⟩
    · obtain ⟨u, d, rfl⟩ := hreset.values
      exact ⟨_, hexec, u.blockReset_inv d⟩

/-- A bus write: a command word, or an access. -/
theorem step_write_keeps_inv {x : HostInput} {hs : List HostInput} {a : BitVec 18} {sz : Size} {v : Word} (h : s.Inv)
    (hh : s.host = x :: hs) (ha : x.act = .write a sz v) : ∃ t, step s = .next t ∧ t.Inv := by
  by_cases hc : a = Reg.cmd.addr ∧ sz = .word
  · obtain ⟨rfl, rfl⟩ := hc
    rw [step_command hh ha h.idle]
    exact ((h.take x hs).respond .written).runCommand v
  · exact ⟨_, step_write hh ha fun ⟨h1, h2, _⟩ => hc ⟨h1, h2⟩, (h.take x hs).busWrite a sz v⟩

end Sys2Proof.Machine

namespace Sys2Proof.Machine

/-- Settles O9: the next host action is a read, a write, a reset, or there is none; each keeps the invariant. -/
theorem everyStepKeepsTheInvariant : Obligations.EveryStepKeepsTheInvariant := by
  intro s h
  cases hh : s.host with
  | nil => exact ⟨_, step_nothing hh, h.idleTick⟩
  | cons x hs =>
    cases ha : x.act with
    | read a sz => exact ⟨_, step_read hh ha, (h.take x hs).busRead a sz⟩
    | write a sz v => exact step_write_keeps_inv h hh ha
    | reset n => exact ⟨_, step_reset hh ha, State.blockReset_inv _ n⟩

/-- Settles O25: `Ending.sess`; a command that ran ends with none of the three codes of a refusal. -/
theorem sessionStateTable : Obligations.SessionStateTable := by
  intro i s hs
  obtain ⟨t, e, hexec, ending⟩ := exec_ends i hs
  obtain rfl : t.err = e := ending.completed.err
  refine ⟨t, hexec, ?_⟩
  rcases ending.sess with ⟨refused, hg⟩ | ⟨after, code⟩
  · refine ⟨fun _ => refused, fun config state param => ?_⟩
    rcases Gate.refusal_cases hg with hc | hst | hp
    · exact absurd hc config
    · exact absurd hst state
    · exact absurd hp param
  · refine ⟨fun refusal => ?_, fun _ _ _ => after⟩
    rcases refusal with hc | hc | hc <;> rw [hc] at code <;> simp [Err.raisable] at code

end Sys2Proof.Machine
end

section
/-! The family and STATE checks of acceptance (42_command.md R500, R507). -/

namespace Sys2Proof.Machine

variable {i : Instr} {s t : State}

/-- The first two checks of a session op (R500, R507). -/
theorem gate_of_session (s : State) (hi : i.isSession = true) :
    (i.gate s).familyOk = (s.prof.family != .alt) ∧ (i.gate s).stateOk = (s.sess == .ready) := by
  cases i with
  | read | program | verify | blockErase | checksum | checksums | chipErase | secSet | secGet | secRelease | signature
  | optRead | optWrite | status | rawCmd => exact ⟨rfl, rfl⟩
  | _ => cases hi

theorem Gate.refusal_of_family {g : Gate} (hf : g.familyOk = false) : g.refusal = some .config := by
  simp [Gate.refusal, hf]

theorem Gate.refusal_of_state {g : Gate} (hf : g.familyOk = true) (hs : g.stateOk = false) :
    g.refusal = some .state := by
  simp [Gate.refusal, hf, hs]

/-- Every CFGVALID bit that an op outside the session ops and UNLOCK needs is one of R112. -/
theorem configNeeds_range (hi : i.isSession = false) (hu : i ≠ .unlock) (f : Family) {k : Nat}
    (hk : k ∈ configNeeds i f) : k ≤ 29 ∧ k ≠ 13 ∧ k ≠ 14 ∧ k ≠ 15 := by
  cases i with
  | unlock => exact absurd rfl hu
  | entry | reset =>
    revert k
    cases f <;> decide
  | read | program | verify | blockErase | checksum | checksums | chipErase | secSet | secGet | secRelease | signature
  | optRead | optWrite | status | rawCmd => cases hi
  | _ => cases hk

/-- A command that ends with CONFIG was refused by its family or its register check. -/
theorem Ending.config_refused (h : Ending i s t .config) : (i.gate s).familyOk = false ∨ (i.gate s).configOk = false := by
  cases h with
  | refused _ hg => exact Gate.refusal_config hg
  | ran _ _ _ _ he => exact absurd he (by simp [Err.raisable])

end Sys2Proof.Machine

namespace Sys2Proof.Machine

/-- Settles O27: the family check is the first; without it CONFIG needs an unwritten register or an unclean train. -/
theorem familyRestrictions : Obligations.FamilyRestrictions := by
  intro i s
  refine ⟨fun hi hf => ?_, fun hi hf => ?_, fun hi hu hs written clean => ?_⟩
  · refine exec_refused (Gate.refusal_of_family ?_)
    rw [(gate_of_session s hi).1, hf]
    rfl
  · subst hi
    exact exec_refused (Gate.refusal_of_family (beq_false_of_ne hf))
  · obtain ⟨t, e, hexec, ending⟩ := exec_ends i hs
    refine ⟨t, hexec, ?_⟩
    rw [ending.completed.err]
    rintro rfl
    rcases ending.config_refused with hf | hc
    · rw [gate_familyOk i s (fun h => by rw [hi] at h; cases h) hu] at hf
      cases hf
    · have needs : ∀ k ∈ configNeeds i s.prof.family, s.valid k = true := fun k hk => by
        obtain ⟨most, n13, n14, n15⟩ := configNeeds_range hi hu _ hk
        exact (written k most).resolve_right (by omega)
      rw [(gate_configOk_iff i s).2 ⟨needs, fun _ _ => clean⟩] at hc
      cases hc

/-- Settles O26: the family check passes and the STATE check is the next one. -/
theorem sessionOpsNeedReady : Obligations.SessionOpsNeedReady := by
  intro i s hi hf hs
  obtain ⟨family, state⟩ := gate_of_session s hi
  exact exec_refused (Gate.refusal_of_state (family.trans (bne_iff_ne.2 hf)) (state.trans (beq_false_of_ne hs)))

end Sys2Proof.Machine
end

section
/-! The session ops as conversations (42_command.md R511-R528): what an op's pseudocode does to the replies it finds, made a
whole command by `command_session`. READ, CHECKSUM and CHECKSUMS, the exchange ops, and a first status that is no ACK. -/

namespace Sys2Proof.Machine

variable {i : Instr} {s t u : State} {bytes : List Byte} {ps : List (List Byte)} {r st : Reply} {rs ds : List Reply}
  {rest : List RxByte} {e : Err} {ack chk x : Bool} {k : Option (Fin 14)} {n : BitVec 3} {opc : Byte}

/-! ### A session op from its start to its completion -/

/-- The pseudocode of a session op accepted in s starts in t: RXBUF is empty and the replies are still to be read. -/
structure SessionStart (s t : State) (rs : List Reply) (rest : List RxByte) : Prop where
  live : Live t
  config : SameConfig s t
  sent : t.sent = s.sent
  ackok : t.ackok = false
  talk : Progress t t [] [] rs rest

/-- The pseudocode c, run from s, completes (e is NONE) or raises e; it has sent `bytes`, stored `ps`, read all replies
and left ACKOK at `ack`, and LASTST meets `last`. -/
def Concludes (c : Ctl Unit) (s : State) (e : Err) (ack : Bool) (bytes : List Byte) (ps : List (List Byte))
    (rest : List RxByte) (last : LastStatus → Prop) : Prop :=
  ∃ u, c s = (if e = .none then .ok ⟨⟩ u else .error (.raised e) u) ∧ Progress s u bytes ps [] rest ∧
    u.ackok = ack ∧ last u.lastst

theorem Concludes.congr {c d : Ctl Unit} {last : LastStatus → Prop} (h : Concludes c s e ack bytes ps rest last)
    (hd : d s = c s) : Concludes d s e ack bytes ps rest last := by
  obtain ⟨u, hc, told, hack, hlast⟩ := h
  exact ⟨u, hd.trans hc, told, hack, hlast⟩

/-- The session op has completed in v: what it answered, sent and stored, and what it left in the stream. -/
structure SessionEnd (s v : State) (e : Err) (ack : Bool) (bytes : List Byte) (ps : List (List Byte))
    (rest : List RxByte) : Prop where
  completed : Completed v e
  sess : v.sess = .ready
  ackok : v.ackok = ack
  sent : v.sent = s.sent ++ bytes
  holds : RxHolds v ps
  stream : v.rx = rest

/-- A session op whose checks pass completes as its pseudocode ends. -/
theorem command_session {g : Gate} {q : Sess} {body : Ctl Unit} {last : LastStatus → Prop} (hs : Accepted s)
    (hg : g.refusal = none) (hr : Replies s rs rest)
    (h : ∀ t, SessionStart s t rs rest → Concludes body t e ack bytes ps rest last) :
    ∃ v, command g true (.session q) body s = .next v ∧ SessionEnd s v e ack bytes ps rest ∧ last v.lastst := by
  obtain ⟨t, hpass, o, talk⟩ := session_starts hs hr (.session q)
  have sent : t.sent = s.sent := (o.sent rfl).trans (s.begin_sent ..)
  obtain ⟨u, hbody, told, hack, hlast⟩ := h t ⟨o.live (hs.live.begin ..),
    (s.begin_sameConfig ..).trans o.sameConfig, sent, (o.ack rfl).trans ((s.begin_ackok ..).trans hs.ackok), talk⟩
  obtain ⟨rx, holds, hsent⟩ := told.finish .ready e
  have done : SessionEnd s (u.finish .ready e) e ack bytes ps rest :=
    ⟨⟨rfl, rfl, rfl⟩, rfl, hack, sent ▸ hsent, holds, rx⟩
  have ran := (runBody_of_pass hpass).trans hbody
  refine ⟨_, ?_, done, hlast⟩
  by_cases he : e = .none
  · subst he
    exact command_ok hg ran
  · rw [if_neg he] at ran
    exact command_raised hg ran

/-! ### READ (R511) -/

/-- The bytes of READ's command frame: the range of ARG1 bytes at ARG0. -/
def State.readFrame (s : State) : List Byte :=
  s.cmdFrame (s.opcode opcRead :: s.range s.arg0.toNat (s.arg0.toNat + s.arg1.toNat - 1))

theorem SameConfig.readFrame (h : SameConfig s t) : t.readFrame = s.readFrame := by
  simp only [State.readFrame, cmdFrame_congr h.prof, opcode_congr h.prof, range_congr h.prof, h.arg0, h.arg1]

/-- The pseudocode of READ. -/
def readBody : Ctl Unit := do
  let s ← get
  mark fun h => { h with readCount := 0 }
  sendCmd (s.opcode opcRead) (s.range s.arg0.toNat (s.arg0.toNat + s.arg1.toNat - 1))
  let st ← recvFrame s.prof.stxRx
  if s.chkReturn st then do
    setAckok true
    readLoop s.arg1.toNat s.arg1.toNat
  else raise .noAck

theorem exec_read (s : State) :
    exec .read s = command (Instr.read.gate s) true (.session .reading) readBody s := rfl

/-- READ receives its first status. -/
theorem readBody_status (hs : Live t) (h : Progress t t [] [] (st :: ds) rest) :
    ∃ u, Progress t u t.readFrame [] ds rest ∧ u.ackok = t.ackok ∧ u.lastst = ⟨st.1.headD 0, true⟩ ∧
      readBody t = if t.chkReturn st.1 then readLoop t.arg1.toNat t.arg1.toNat { u with ackok := true }
        else .error (.raised .noAck) u := by
  have counted := h.quiet (OpStep.hidStep {} t { t.hid with readCount := 0 } rfl rfl)
  obtain ⟨v, u, hsend, hrecv, told, hack, hlast⟩ := counted.exchange hs (t.opcode opcRead)
    (t.range t.arg0.toNat (t.arg0.toNat + t.arg1.toNat - 1))
  refine ⟨u, told, hack, hlast, ?_⟩
  by_cases hchk : t.chkReturn st.1 = true <;> simp [readBody, hsend, hrecv, hchk, setAckok]

/-- READ after an ACK: the loop collects the data frames. -/
theorem readBody_acked (hs : Live t) (h : Progress t t [] [] (st :: ds) rest) (hack : st.acks t)
    (hshort : (ds.dropLast.map Prod.fst).flatten.length < t.arg1.toNat)
    (hlong : t.arg1.toNat ≤ (ds.map Prod.fst).flatten.length)
    (hcap : (ds.map Prod.fst).flatten.length ≤ Config.bufCap) :
    Concludes readBody t .none true
      (t.readFrame ++ (List.replicate ds.length (t.dataFrame [t.prof.ackCode])).flatten) (ds.map Prod.fst) rest
      fun _ => True := by
  obtain ⟨u, told, -, -, hbody⟩ := readBody_status hs h
  obtain ⟨v, hloop, collected, hv⟩ := readLoop_ok t.arg1.toNat hs ds t.arg1.toNat (told.ack true) nofun
    (by simpa using hlong) (by simp) (fun _ => by simpa using hshort) (by simpa using hcap)
  have acked : t.chkReturn st.1 = true := hack
  exact ⟨v, hbody.trans ((if_pos acked).trans hloop), collected, hv, trivial⟩

/-! ### CHECKSUM and CHECKSUMS (R515, R516) -/

/-- The pseudocode of CHECKSUM. -/
def checksumBody : Ctl Unit := do
  let s ← get
  sendCmd (s.opcode opcChecksum) (s.range s.arg0.toNat s.arg1.toNat)
  let p ← recvFrame s.prof.stxRx
  store p

theorem exec_checksum (s : State) :
    exec .checksum s = command (Instr.checksum.gate s) true (.session .verifying) checksumBody s := rfl

theorem checksumBody_answered (hs : Live t) (h : Progress t t [] [] [r] rest) (hc : r.1.length ≤ Config.bufCap) :
    Concludes checksumBody t .none t.ackok
      (t.cmdFrame (t.opcode opcChecksum :: t.range t.arg0.toNat t.arg1.toNat)) [r.1] rest fun _ => True := by
  have ne := Reply.fits_ne (h.replies.fits r (by simp))
  obtain ⟨v, w, hsend, hrecv, told, hw, -⟩ := h.exchange hs (t.opcode opcChecksum) (t.range t.arg0.toNat t.arg1.toNat)
  obtain ⟨u, hstore, stored, hu, -⟩ := told.store ne (by simpa using hc) nofun
  exact ⟨u, by simp [checksumBody, hsend, hrecv, hstore], stored, hu.trans hw, trivial⟩

theorem SameConfig.windowFrames (h : SameConfig s t) (e more w : Nat) :
    t.windowFrames e more w = s.windowFrames e more w := by
  simp only [State.windowFrames_eq, cmdFrame_congr h.prof, opcode_congr h.prof, range_congr h.prof]

/-- The pseudocode of CHECKSUMS. -/
def checksumsBody : Ctl Unit := do
  let s ← get
  windowLoop s.arg1.toNat ((s.arg1.toNat - s.arg0.toNat) / Config.checksumWindow) s.arg0.toNat

theorem exec_checksums (s : State) :
    exec .checksums s = command (Instr.checksums.gate s) true (.session .verifying) checksumsBody s := rfl

theorem checksumsBody_answered (hs : Live t) (h : Progress t t [] [] rs rest)
    (hl : rs.length = (t.arg1.toNat - t.arg0.toNat) / 256 + 1)
    (hc : (rs.map Prod.fst).flatten.length ≤ Config.bufCap) :
    Concludes checksumsBody t .none t.ackok
      (t.windowFrames t.arg1.toNat ((t.arg1.toNat - t.arg0.toNat) / 256) t.arg0.toNat) (rs.map Prod.fst) rest
      fun _ => True := by
  obtain ⟨u, hloop, answered, hu⟩ := windowLoop_ok t.arg1.toNat hs _ rs t.arg0.toNat h hl nofun (by simpa using hc)
  exact ⟨u, hloop, answered, hu, trivial⟩

/-! ### The exchange ops (R519-R528) -/

/-- The opcode byte of an exchange op: its register, or the immediate of RAW_CMD. -/
def exchangeOpcode (t : State) : Instr → Byte
  | .rawCmd imm _ _ _ => imm
  | i => match exchangeOperands i with
    | some (some k, _, _) => t.opcode k
    | _ => 0

/-- The checksum corruption of an exchange op: RAW_CMD with FBC = 1. -/
def corrupted : Instr → Bool
  | .rawCmd _ _ _ fbc => fbc
  | _ => false

/-- The pseudocode of an exchange op is `exchange`; its checks are those of R519. -/
structure IsExchange (i : Instr) (n : BitVec 3) (chk : Bool) (q : Sess) (body : Ctl Unit) : Prop where
  session : i.isSession = true
  exec : ∀ s, exec i s = command (i.gate s) true (.session q) body s
  body : ∀ t, body t = exchange (exchangeOpcode t i) (corrupted i) n chk t
  frame : ∀ t, exchangeFrame t i =
    buildFrame t.prof.lenW Config.soh (exchangeOpcode t i :: t.txPayload) Config.etx (corrupted i)
  param : ∀ s, ¬ paramBad i s → 1 + s.txlen.toNat ≤ maxPay s.prof.lenW
  ackCode : ∀ f, chk = true → 1 ∈ configNeeds i f

theorem isExchange_of_operands (h : exchangeOperands i = some (k, n, chk)) : ∃ q body, IsExchange i n chk q body := by
  have needs (k : Nat) (hc : chk = true) : 1 ∈ k :: (if chk then [1] else []) := by simp [hc]
  cases i with
  | chipErase | secSet | secGet | secRelease | signature | optRead | optWrite | status =>
    cases h
    exact ⟨_, _, rfl, fun _ => rfl, fun _ => rfl, fun _ => rfl, fun _ => Nat.not_lt.1, fun _ => needs _⟩
  | rawCmd imm n c fbc =>
    cases h
    exact ⟨_, _, rfl, fun _ => rfl, fun _ => rfl, fun _ => rfl, fun _ => Nat.not_lt.1,
      fun _ hc => by simp [configNeeds, hc]⟩
  | _ => cases h

theorem exchangeFrame_congr (hp : t.prof = s.prof) (ht : t.txPayload = s.txPayload) (i : Instr) :
    exchangeFrame t i = exchangeFrame s i := by
  unfold exchangeFrame
  simp only [hp, ht, cmdFrame_congr hp, opcode_congr hp]

theorem IsExchange.exchangeFrame {q : Sess} {body : Ctl Unit} (h : IsExchange i n chk q body)
    (config : SameConfig s t) (hp : ¬ paramBad i s) : exchangeFrame t i = exchangeFrame s i := by
  have most := h.param s hp
  have width := maxPay_le s.prof.lenW
  have cap : Config.bufCap = 65536 := rfl
  exact exchangeFrame_congr config.prof (config.txPayload (by omega)) i

/-- Responses to an exchange op of which the first passes its check, or is not checked, or none is asked for. -/
theorem exchange_answered (hs : Live t) (h : Progress t t [] [] rs rest) (ha : t.ackok = false) (hl : rs.length = n.toNat)
    (hc : (rs.map Prod.fst).flatten.length ≤ Config.bufCap)
    (hchk : chk = true → t.valid 1 = true ∧ ∀ r ∈ rs.head?, r.acks t) :
    Concludes (exchange opc x n chk) t .none (t.valid 1 && rs.head?.any fun r => t.chkReturn r.1)
      (buildFrame t.prof.lenW Config.soh (opc :: t.txPayload) Config.etx x) (rs.map Prod.fst) rest fun _ => True := by
  obtain ⟨u, hsend, told, hack, -⟩ := h.send hs (buildFrame t.prof.lenW Config.soh (opc :: t.txPayload) Config.etx x)
  have run : exchange opc x n chk t = respLoop chk rs.length true u := by
    simp [exchange, hsend, hl]
  unfold Concludes
  rw [run]
  cases rs with
  | nil => exact ⟨u, rfl, told, by rw [hack, ha]; simp, trivial⟩
  | cons r rs =>
    have cap : r.1.length + (rs.map Prod.fst).flatten.length ≤ Config.bufCap := by simpa using hc
    obtain ⟨v, first, hv, -, hfirst⟩ := respLoop_first chk rs.length hs told (Nat.le_of_add_right_le cap)
    obtain ⟨w, hrest, answered, hw⟩ := respLoop_rest chk hs rs first
      (by simpa using Reply.fits_ne (h.replies.fits r (by simp))) (by simpa using cap)
    have pass : (chk && !t.ackFlag r.1) = false := by
      cases chk with
      | false => rfl
      | true =>
        obtain ⟨valid, acks⟩ := hchk rfl
        have acked : t.chkReturn r.1 = true := acks r rfl
        simp [State.ackFlag, ackCodeBit, valid, acked]
    rw [pass] at hfirst
    exact ⟨w, hfirst.trans hrest, answered, hw.trans hv, trivial⟩

/-! ### A first status that is no ACK -/

/-- LASTST holds the status byte of the reply. -/
def IsLast (r : Reply) (l : LastStatus) : Prop := l = ⟨r.1.headD 0, true⟩

theorem readBody_nack (hs : Live t) (h : Progress t t [] [] [r] rest) (hn : ¬ r.acks t) :
    Concludes readBody t .noAck t.ackok t.readFrame [] rest (IsLast r) := by
  obtain ⟨u, told, hack, hlast, hbody⟩ := readBody_status hs h
  have refused : ¬ t.chkReturn r.1 = true := hn
  exact ⟨u, hbody.trans (if_neg refused), told, hack, hlast⟩

/-- PROGRAM and VERIFY (R512, R513). -/
theorem transfer_nack (hs : Live t) (h : Progress t t [] [] [r] rest) (hn : ¬ r.acks t) (opc : Byte) :
    Concludes (transfer opc) t .noAck t.ackok (t.transferFrame opc) [] rest (IsLast r) := by
  obtain ⟨v, u, hsend, hrecv, told, hack, hlast⟩ := h.exchange hs opc
    (t.range t.arg0.toNat (t.arg0.toNat + t.txlen.toNat - 1))
  have refused : t.chkReturn r.1 = false := Bool.eq_false_iff.2 hn
  exact ⟨u, by simp [transfer, hsend, hrecv, refused], told, hack, hlast⟩

/-- The pseudocode of PROGRAM (R512). -/
def programBody : Ctl Unit := do
  let s ← get
  transfer (s.opcode opcProgram)

theorem exec_program (s : State) :
    exec .program s = command (Instr.program.gate s) true (.session .programming) programBody s := rfl

theorem programBody_apply (t : State) : programBody t = transfer (t.opcode opcProgram) t := rfl

/-- The pseudocode of VERIFY (R513). -/
def verifyBody : Ctl Unit := do
  let s ← get
  if s.txlen = 0 then pure () else transfer (s.opcode opcVerify)

theorem exec_verify (s : State) :
    exec .verify s = command (Instr.verify.gate s) true (.session .verifying) verifyBody s := rfl

theorem verifyBody_apply (h : t.txlen ≠ 0) : verifyBody t = transfer (t.opcode opcVerify) t := by
  show (if t.txlen = 0 then pure () else transfer (t.opcode opcVerify)) t = _
  rw [if_neg h]

/-- The pseudocode of BLOCK_ERASE (R514). -/
def eraseBody : Ctl Unit := do
  let s ← get
  sendCmd (s.opcode opcErase) (s.range s.arg0.toNat (s.arg0.toNat + s.blockSize s.arg0.toNat - 1))
  let s1 ← recvFrame s.prof.stxRx
  store s1
  if s.chkReturn s1 then do
    let s2 ← recvFrame s.prof.stxRx
    store s2
    if s.chkReturn s2 then setAckok true else raise .noAck
  else raise .noAck

theorem exec_blockErase (s : State) :
    exec .blockErase s = command (Instr.blockErase.gate s) true (.session .erasing) eraseBody s := rfl

theorem reply_cap (h : Reply.fits s r) : r.1.length ≤ Config.bufCap := (Reply.fits_length_le h).trans (by decide)

theorem eraseBody_nack (hs : Live t) (h : Progress t t [] [] [r] rest) (hn : ¬ r.acks t) :
    Concludes eraseBody t .noAck t.ackok t.eraseFrame [r.1] rest (IsLast r) := by
  have fits := h.replies.fits r (by simp)
  obtain ⟨v, w, hsend, hrecv, told, hw, lw⟩ := h.exchange hs (t.opcode opcErase)
    (t.range t.arg0.toNat (t.arg0.toNat + t.blockSize t.arg0.toNat - 1))
  obtain ⟨u, hstore, stored, hu, lu⟩ := told.store (Reply.fits_ne fits) (by simpa using reply_cap fits) nofun
  have refused : t.chkReturn r.1 = false := Bool.eq_false_iff.2 hn
  exact ⟨u, by simp [eraseBody, hsend, hrecv, hstore, refused], stored, hu.trans hw, lu.trans lw⟩

/-- An exchange op with CHK = 1 (R519). -/
theorem exchange_nack (hs : Live t) (h : Progress t t [] [] [r] rest) (hn : ¬ r.acks t) (hn0 : n ≠ 0) :
    Concludes (exchange opc x n true) t .noAck false
      (buildFrame t.prof.lenW Config.soh (opc :: t.txPayload) Config.etx x) [r.1] rest (IsLast r) := by
  obtain ⟨m, hm⟩ : ∃ m, n.toNat = m + 1 := Nat.exists_eq_succ_of_ne_zero fun h0 => hn0 (BitVec.eq_of_toNat_eq h0)
  obtain ⟨v, hsend, told, -⟩ := h.send hs (buildFrame t.prof.lenW Config.soh (opc :: t.txPayload) Config.etx x)
  obtain ⟨u, first, hu, lu, hfirst⟩ := respLoop_first true m hs told (reply_cap (h.replies.fits r (by simp)))
  have refused : t.ackFlag r.1 = false := by simp [State.ackFlag, Bool.eq_false_iff.2 hn]
  rw [refused] at hu hfirst
  exact ⟨u, by simp [exchange, hsend, hm, hfirst], first, hu, lu⟩

end Sys2Proof.Machine

namespace Sys2Proof.Machine

/-- Settles O53: after the ACK READ is its loop, `readLoop_ok`. -/
theorem readCollectsTheData : Obligations.ReadCollectsTheData := by
  rintro s st ds rest hs ho hv hp hr hack - ⟨hshort, hlong, hcap⟩
  have gate := session_gate rfl ho hv ((gate_paramOk_iff .read s).2 hp)
  have body (t) (start : SessionStart s t (st :: ds) rest) : Concludes readBody t .none true
      (s.readFrame ++ (List.replicate ds.length (s.dataFrame [s.prof.ackCode])).flatten) (ds.map Prod.fst) rest
      fun _ => True := by
    have config := start.config
    rw [← config.arg1] at hshort hlong
    rw [← config.readFrame, ← dataFrame_congr config.prof, ← config.prof]
    exact readBody_acked start.live start.talk ((chkReturn_congr config.prof st.1).trans hack) hshort hlong hcap
  obtain ⟨v, hexec, done, -⟩ := command_session hs gate hr body
  exact ⟨v, hexec, done.completed, done.sess, done.ackok, done.stream, done.holds,
    by rw [done.sent, List.append_assoc]; rfl⟩

/-- Settles O56: CHECKSUM is one exchange, CHECKSUMS is `windowLoop_ok`. -/
theorem checksumsCoverTheRange : Obligations.ChecksumsCoverTheRange := by
  intro s rs rest hs ho hv hp hr hcap a e answered
  have needs : ∀ b ∈ [21], s.valid b = true := fun b hb => List.mem_singleton.1 hb ▸ hv
  refine ⟨fun hl => ?_, fun hl => ?_⟩
  · obtain ⟨r, rfl⟩ := List.length_eq_one_iff.1 hl
    have gate := session_gate (i := .checksum) rfl ho needs ((gate_paramOk_iff .checksum s).2 hp)
    have body (t) (start : SessionStart s t [r] rest) : Concludes checksumBody t .none false
        (s.cmdFrame (s.opcode opcChecksum :: s.range a e)) [r.1] rest fun _ => True := by
      have config := start.config
      rw [← cmdFrame_congr config.prof, ← opcode_congr config.prof, ← range_congr config.prof, ← start.ackok,
        show a = t.arg0.toNat by rw [config.arg0], show e = t.arg1.toNat by rw [config.arg1]]
      exact checksumBody_answered start.live start.talk (by simpa [Config.bufCap] using hcap)
    obtain ⟨v, hexec, done, -⟩ := command_session hs gate hr body
    exact ⟨v, hexec, done.completed, done.sess, done.ackok, done.stream, done.holds, by rw [done.sent]; simp; rfl⟩
  · rw [List.length_map, List.length_range] at hl
    have gate := session_gate (i := .checksums) rfl ho needs ((gate_paramOk_iff .checksums s).2 hp)
    have body (t) (start : SessionStart s t rs rest) : Concludes checksumsBody t .none false
        (s.windowFrames e ((e - a) / 256) a) (rs.map Prod.fst) rest fun _ => True := by
      have config := start.config
      rw [← config.windowFrames, ← start.ackok, show a = t.arg0.toNat by rw [config.arg0],
        show e = t.arg1.toNat by rw [config.arg1]]
      refine checksumsBody_answered start.live start.talk ?_ hcap
      rw [config.arg0, config.arg1]
      exact hl
    obtain ⟨v, hexec, done, -⟩ := command_session hs gate hr body
    refine ⟨v, hexec, done.completed, done.sess, done.ackok, done.stream, done.holds, ?_⟩
    rw [done.sent, State.windowFrames_eq, List.map_map]
    rfl

/-- Settles O57: every exchange op is `exchange`, which `exchange_answered` runs. -/
theorem exchangeOpsReceiveTheirResponses : Obligations.ExchangeOpsReceiveTheirResponses := by
  intro i s k n chk rs rest hi hs ho hv hp hr hl hcap hchk
  obtain ⟨q, body, op⟩ := isExchange_of_operands hi
  have gate := session_gate op.session ho hv ((gate_paramOk_iff i s).2 hp)
  have concludes (t) (start : SessionStart s t rs rest) : Concludes body t .none
      (s.valid 1 && rs.head?.any fun r => s.chkReturn r.1) (exchangeFrame s i) (rs.map Prod.fst) rest
      fun _ => True := by
    have config := start.config
    have valid : t.valid 1 = s.valid 1 := by simp only [State.valid, config.cfgvalid]
    have answered := exchange_answered (opc := exchangeOpcode t i) (x := corrupted i) start.live start.talk
      start.ackok hl hcap fun hc => ⟨valid.trans (hv 1 (op.ackCode _ hc)),
        fun r hr => (chkReturn_congr config.prof r.1).trans (hchk hc r hr)⟩
    rw [← op.frame, op.exchangeFrame config hp] at answered
    simp only [valid, chkReturn_congr config.prof] at answered
    exact answered.congr (op.body t)
  obtain ⟨v, hexec, done, -⟩ := command_session hs gate hr concludes
  exact ⟨v, (op.exec s).trans hexec, done.completed, done.sess, done.stream, done.holds, done.ackok, done.sent⟩

/-- Settles O58: each op is sent its command frame, and its pseudocode raises NO_ACK at the first status. -/
theorem nackEndsSessionOps : Obligations.NackEndsSessionOps := by
  intro i s r rest hs ho hv hp hr hn a nack
  have ended {g : Gate} {q : Sess} {body : Ctl Unit} {frame : List Byte} {stored : List (List Byte)}
      (hexec : exec i s = command g true (.session q) body s) (hg : g = i.gate s) (hi : i.isSession = true)
      (concludes : ∀ t, SessionStart s t [r] rest → ¬ r.acks t →
        Concludes body t .noAck false frame stored rest (IsLast r)) : nack frame stored := by
    have gate := session_gate hi ho hv ((gate_paramOk_iff i s).2 hp)
    obtain ⟨v, hcommand, done, hlast⟩ := command_session hs (hg ▸ gate) hr fun t start =>
      concludes t start fun hack => hn ((chkReturn_congr start.config.prof r.1).symm.trans hack)
    exact ⟨v, hexec.trans hcommand, done.completed, done.sess, done.ackok, done.stream, done.holds, hlast, done.sent⟩
  refine ⟨?_, ?_, ?_, ?_, fun k n hi hn0 => ?_⟩
  · rintro rfl
    refine ended (exec_read s) rfl rfl fun t start hnt => ?_
    have := readBody_nack start.live start.talk hnt
    rwa [start.ackok, start.config.readFrame] at this
  · rintro rfl
    refine ended (exec_program s) rfl rfl fun t start hnt => ?_
    have := transfer_nack start.live start.talk hnt (s.opcode opcProgram)
    rw [start.ackok, start.config.transferFrame] at this
    exact this.congr (by rw [programBody_apply, opcode_congr start.config.prof])
  · rintro rfl data
    refine ended (exec_verify s) rfl rfl fun t start hnt => ?_
    have := transfer_nack start.live start.talk hnt (s.opcode opcVerify)
    rw [start.ackok, start.config.transferFrame] at this
    exact this.congr (by rw [verifyBody_apply (start.config.txlen ▸ data), opcode_congr start.config.prof])
  · rintro rfl
    refine ended (exec_blockErase s) rfl rfl fun t start hnt => ?_
    have := eraseBody_nack start.live start.talk hnt
    rwa [start.ackok, start.config.eraseFrame] at this
  · obtain ⟨q, body, op⟩ := isExchange_of_operands hi
    refine ended (op.exec s) rfl op.session fun t start hnt => ?_
    have := exchange_nack (opc := exchangeOpcode t i) (x := corrupted i) start.live start.talk hnt hn0
    rw [← op.frame, op.exchangeFrame start.config hp] at this
    exact this.congr (op.body t)

end Sys2Proof.Machine
end

section
/-! RESET (42_command.md R510): the entry sequence, then the unlock exchange of the alternate family, or the RESET command
and its status. -/

namespace Sys2Proof.Machine

variable {s t u : State} {r : Reply} {bs cs : List Byte} {rest more : List RxByte}

/-- Bytes of the stream that wait behind others. -/
theorem Queued.split (h : Queued s (bs ++ cs) rest) :
    ∃ mid, Queued s bs (mid ++ rest) ∧ mid.map RxByte.byte = cs ∧ ∀ x ∈ mid, x.arrival ≤ s.time := by
  obtain ⟨pre, hrx, hbytes, arrived⟩ := h
  obtain ⟨front, mid, rfl, hfront, hmid⟩ := List.map_eq_append_iff.1 hbytes
  exact ⟨mid, ⟨front, by rw [hrx, List.append_assoc], hfront, fun x hx => arrived x (by simp [hx])⟩, hmid,
    fun x hx => arrived x (by simp [hx])⟩

/-- The pseudocode of RESET. -/
def resetBody : Ctl Unit := do
  let s ← get
  let ok ← entrySequence s.prof
  if !ok then raise .noResponse
  else if s.prof.family = .alt then chSend s.prof.unlockBytes
  else do
    sendCmd (s.opcode opcReset) []
    let p ← recvFrame s.prof.stxRx
    store p
    setAckok (s.chkReturn p)
    if s.chkReturn p then pure () else raise .noAck

theorem exec_reset (s : State) : exec .reset s = command (Instr.reset.gate s) true .resetOp resetBody s := rfl

theorem reset_gate (hc : EntryConfigured s) (hv : ∀ k ∈ configNeeds .reset s.prof.family, s.valid k = true) :
    (Instr.reset.gate s).refusal = none := by
  have clean : s.prof.family.usesTrain = true → s.trainClean = true :=
    (s.entryReady_iff.1 (entryReady_of_configured hc)).2
  exact Gate.refusal_of_passed rfl rfl ((gate_configOk_iff .reset s).2 ⟨hv, fun _ => clean⟩) rfl

/-- RESET's entry sequence has succeeded: the pseudocode, started in t, goes on in u. -/
structure ResetEntered (s t u : State) (rest : List RxByte) : Prop where
  entered : entrySequence s.prof t = .ok true u
  live : Live u
  before : SameConfig s t
  config : SameConfig s u
  sent : u.sent = s.sent ++ s.entrySends
  pins : u.pinSettings = s.pinSettings ++ s.entryPins
  ackok : u.ackok = false
  empty : RxHolds u []
  stream : u.rx = rest
  time : s.time ≤ u.time

/-- With the bytes of its handshake delivered RESET gets through its entry sequence. -/
theorem reset_enters (hs : Accepted s) (hq : Queued s s.entryReads rest) :
    ∃ t u, pass (s.begin true .resetOp) = .ok ⟨⟩ t ∧ ResetEntered s t u rest := by
  have live := hs.live.begin true .resetOp
  obtain ⟨t, hpass, w⟩ := pass_ok live
  have config := (s.begin_sameConfig true .resetOp).trans w.step.sameConfig
  have pins := (s.begin_samePins true .resetOp).trans (w.step.pins rfl)
  have waiting : Queued t t.entryReads rest := by
    rw [State.entryReads_congr config.prof]
    exact hq.later (w.step.unread rfl).1 w.step.time
  obtain ⟨u, hseq, e⟩ := entrySequence_ok (w.step.live live) waiting
  refine ⟨t, u, hpass, config.prof ▸ hseq, e.step.live (w.step.live live), config, config.trans e.step.sameConfig, ?_, ?_, ?_,
    ((RxHolds.begin s .resetOp).step w.step rfl).step e.step rfl, e.stream, w.step.time.trans e.step.time⟩
  · rw [e.sent, w.step.sent rfl, State.begin_sent, State.entrySends_congr config.prof]
  · rw [e.settings, pins.settings, State.entryPins_congr config.prof]
  · rw [e.step.ack rfl, w.step.ack rfl, State.begin_ackok, hs.ackok]

/-- The RESET command and its status, which sets ACKOK and decides how the pseudocode ends. -/
theorem resetBody_framed (h : ResetEntered s t u more) (hf : s.prof.family ≠ .alt) (hr : Replies u [r] rest) :
    ∃ v, Progress u v (s.cmdFrame [s.opcode opcReset]) [r.1] [] rest ∧ v.lastst = ⟨r.1.headD 0, true⟩ ∧
      v.ackok = s.chkReturn r.1 ∧
      resetBody t = if s.chkReturn r.1 then .ok ⟨⟩ v else .error (.raised .noAck) v := by
  have fits := hr.fits r (by simp)
  obtain ⟨a, b, hsend, hrecv, told, -, hlast⟩ := (Progress.start h.empty hr).exchange h.live (s.opcode opcReset) []
  obtain ⟨c, hstore, stored, -, hc⟩ := told.store (Reply.fits_ne fits) (by simpa using reply_cap fits) nofun
  rw [List.nil_append, cmdFrame_congr h.config.prof] at stored
  rw [h.config.prof] at hrecv
  have opcode : t.opcode opcReset = s.opcode opcReset := opcode_congr h.before.prof _
  have check : t.chkReturn r.1 = s.chkReturn r.1 := chkReturn_congr h.before.prof _
  refine ⟨_, stored.ack (s.chkReturn r.1), hc.trans hlast, rfl, ?_⟩
  cases hchk : s.chkReturn r.1 <;>
    simp [resetBody, h.before.prof, h.entered, hf, opcode, hsend, hrecv, hstore, setAckok, check, hchk]

/-- The unlock exchange of the alternate family. -/
theorem resetBody_alt (h : ResetEntered s t u rest) (hf : s.prof.family = .alt) :
    ∃ v, resetBody t = .ok ⟨⟩ v ∧ OpStep { send := true } u v ∧ v.sent = u.sent ++ s.prof.unlockBytes := by
  obtain ⟨v, hsend, o, sent, -⟩ := chSend_ok s.prof.unlockBytes h.live
  exact ⟨v, by simp [resetBody, h.before.prof, h.entered, hf, hsend], o, sent⟩

end Sys2Proof.Machine

namespace Sys2Proof.Machine

/-- Settles O52: behind `reset_enters` RESET is `resetBody_framed`, or `resetBody_alt`. -/
theorem resetReachesReady : Obligations.ResetReachesReady := by
  intro s r rest hs hc hv
  have gate := reset_gate hc hv
  refine ⟨fun hf fits hq => ?_, fun hf hq => ?_⟩
  · obtain ⟨mid, handshake, reply, arrived⟩ := hq.split
    obtain ⟨t, u, hpass, h⟩ := reset_enters hs handshake
    have behind : Replies { s with rx := mid ++ rest } [r] rest :=
      ⟨fun x hx => List.mem_singleton.1 hx ▸ fits, mid, rfl, reply, arrived⟩
    have waiting : Replies u [r] rest := behind.congr h.config.prof h.stream h.time
    obtain ⟨v, told, hlast, hack, hbody⟩ := resetBody_framed h hf waiting
    have sent : v.sent = s.sent ++ s.entrySends ++ s.cmdFrame [s.opcode 0] := by rw [told.sent, h.sent]; rfl
    have pins : v.pinSettings = s.pinSettings ++ s.entryPins := (told.step.pins rfl).settings.trans h.pins
    have ran := (runBody_of_pass hpass).trans hbody
    have ended (q : Sess) (e : Err) : RxHolds (v.finish q e) [r.1] ∧ (v.finish q e).rx = rest ∧
        (v.finish q e).lastst = ⟨r.1.headD 0, true⟩ ∧
        (v.finish q e).sent = s.sent ++ s.entrySends ++ s.cmdFrame [s.opcode 0] ∧
        (v.finish q e).pinSettings = s.pinSettings ++ s.entryPins :=
      have ⟨rx, holds, _⟩ := told.finish q e
      ⟨holds, rx, hlast, (v.finish_sent q e).trans sent, (v.finish_samePins q e).settings.trans pins⟩
    cases hchk : s.chkReturn r.1 with
    | true =>
      rw [hchk, if_pos rfl] at ran
      obtain ⟨holds, rx, last, sent, pins⟩ := ended .ready .none
      exact ⟨_, command_ok gate ran, holds, rx, last, sent, pins, fun _ => ⟨⟨rfl, rfl, rfl⟩, rfl, hack.trans hchk⟩,
        fun hn => absurd hchk hn⟩
    | false =>
      rw [hchk, if_neg nofun] at ran
      obtain ⟨holds, rx, last, sent, pins⟩ := ended .unknown .noAck
      exact ⟨_, command_raised gate ran, holds, rx, last, sent, pins,
        fun hy => absurd hy (Bool.eq_false_iff.1 hchk), fun _ => ⟨⟨rfl, rfl, rfl⟩, rfl, hack.trans hchk⟩⟩
  · obtain ⟨t, u, hpass, h⟩ := reset_enters hs hq
    obtain ⟨v, hbody, o, sent⟩ := resetBody_alt h hf
    have ran := (runBody_of_pass hpass).trans hbody
    refine ⟨_, command_ok gate ran, ⟨rfl, rfl, rfl⟩, rfl, (h.empty.step o rfl).finish _ _,
      (o.unread rfl).1.trans h.stream, ?_⟩
    rw [State.finish_sent, sent, h.sent]

end Sys2Proof.Machine
end

section
/-! RECV as a command (42_command.md R504, R505): it starts after some processing with the deadline of acceptance,
and ends with what its receive returns stored and checked, or with the error its receive raises. -/

namespace Sys2Proof.Machine

variable {s t u : State} {α β : Type} {msel : Bool} {p : List Byte} {f : Byte} {n : Nat}

/-! ### From acceptance to completion -/

/-- The receive of the RECV accepted in s starts in t: the stream is as at acceptance, RXBUF is empty. -/
structure RecvStart (s t : State) : Prop where
  live : Live t
  step : OpStep {} (s.begin true .unchanged) t
  time : t.time = s.time + s.lags.headD 0
  lags : t.lags = s.lags.tail

theorem RecvStart.prof (h : RecvStart s t) : t.prof = s.prof := h.step.prof.trans (s.begin_prof ..)

theorem RecvStart.rx (h : RecvStart s t) : t.rx = s.rx := (h.step.unread rfl).1.trans (s.begin_rx ..)

theorem RecvStart.sent (h : RecvStart s t) : t.sent = s.sent := (h.step.sent rfl).trans (s.begin_sent ..)

theorem RecvStart.empty (h : RecvStart s t) : RxHolds t [] := (RxHolds.begin s .unchanged).step h.step rfl

theorem RecvStart.horizon (h : RecvStart s t) : t.horizon = s.horizon := horizon_of_draw h.time h.lags

theorem RecvStart.queued {bs : List Byte} {rest : List RxByte} (h : RecvStart s t) (hq : Queued s bs rest) :
    Queued t bs rest :=
  hq.later h.rx (h.time ▸ Nat.le_add_right _ _)

/-- RECV's receive, with its deadline from acceptance, and what its command then does with the result. -/
theorem recv_starts (msel : Bool) (hs : Accepted s) : ∃ t, RecvStart s t ∧
    (∀ p u v, recvUntil (s.recvMarker msel) ⟨s.hid.tacc, s.hid.tsnap⟩ t = .ok p u → deliver (.ok p) u = .ok ⟨⟩ v →
      exec (.recv msel) s = .next (v.finish v.sess .none)) ∧
    (∀ e u, recvUntil (s.recvMarker msel) ⟨s.hid.tacc, s.hid.tsnap⟩ t = .error (.raised e) u →
      exec (.recv msel) s = .next (u.finish u.sess e)) := by
  have live := hs.live.begin true .unchanged
  obtain ⟨t, hpass, w⟩ := pass_ok live
  have start : RecvStart s t :=
    ⟨w.step.live live, w.step, w.time.trans (by simp), w.lags.trans (by simp)⟩
  have marker : t.recvMarker msel = s.recvMarker msel := by simp only [State.recvMarker, start.prof]
  have tacc : t.hid.tacc = s.hid.tacc := w.step.tacc.trans (by simp)
  have tsnap : t.hid.tsnap = s.hid.tsnap := w.step.tsnap.trans (by simp)
  rw [← marker, ← tacc, ← tsnap]
  refine ⟨t, start, fun p u v hrecv hdeliver => command_ok (g := {}) (ph := .unchanged) rfl ?_,
    fun e u hrecv => command_raised (g := {}) (ph := .unchanged) rfl ?_⟩
  · rw [runBody_of_pass hpass, Ctl.bind_apply, Ctl.get_apply]
    dsimp only
    rw [Ctl.bind_apply, hrecv]
    exact hdeliver
  · rw [runBody_of_pass hpass, Ctl.bind_apply, Ctl.get_apply]
    dsimp only
    rw [Ctl.bind_apply, hrecv]

/-- A receive that returns a payload: RECV completes with it stored, checked, and the receive's diagnostics. -/
theorem recv_delivers {a : Allow} (start : RecvStart s t) (o : OpStep a t u) (ha : a.store = false)
    (hp : encodable s.prof.lenW p.length = true) (d : Decoded t u n p f) (hn : n ≤ 256) :
    ∃ v, deliver (.ok p) u = .ok ⟨⟩ v ∧ DecodedAs s (v.finish v.sess .none) n p f ∧ v.rx = u.rx ∧ v.sent = u.sent := by
  have prof : u.prof = s.prof := o.prof.trans start.prof
  obtain ⟨v, delivered, o', holds, ack⟩ := deliver_ok (start.empty.step o ha) (prof ▸ hp)
  obtain ⟨lastst, diag, skipcnt⟩ := o'.decode rfl
  have valid : u.valid 1 = s.valid 1 := by
    simp only [State.valid, o.cfgvalid, start.step.cfgvalid, State.begin_cfgvalid]
  refine ⟨v, delivered, ⟨holds.finish _ _, ?_, lastst.trans d.lastst, ?_, ?_⟩, (o'.unread rfl).1, o'.sent rfl⟩
  · rw [State.finish_ackok, ack, valid, prof]
  · rw [State.finish_skipcnt, skipcnt, d.skipcnt, BitVec.toNat_ofNat, Nat.mod_eq_of_lt (by omega)]
  · rw [State.finish_diag, diag, d.diag, start.prof]

/-! ### Attempts that fail, then a frame (R504) -/

/-- The receive of RECV on what it finds, with the requests POLL = 1 asks for between its attempts. -/
theorem recv_attempts {m : Byte} {failed : List (List Byte)} {junk : List Byte} {rest : List RxByte}
    (start : RecvStart s t) (hfail : ∀ b ∈ failed, FailedAttempt s.prof.lenW m b)
    (hdl : failed ≠ [] → s.hid.tacc = s.now ∧ s.lags.sum < s.hid.tsnap.toNat) (hj : Junk m junk)
    (hp : encodable s.prof.lenW p.length = true) (hf : f = 0x03 ∨ f = 0x17)
    (hq : Queued s (failed.flatten ++ junk ++ buildFrame s.prof.lenW m p f false) rest) :
    ∃ u, recvUntil m ⟨s.hid.tacc, s.hid.tsnap⟩ t = .ok p u ∧ OpStep Receiving t u ∧ u.rx = rest ∧
      Decoded t u junk.length p f ∧ u.sent = t.sent ++ (List.replicate failed.length
        (if t.prof.poll = true then t.cmdFrame [t.opcode opcStatus] else [])).flatten := by
  have hq' := start.queued hq
  rw [← start.prof] at hfail hp hq'
  by_cases h0 : failed = []
  · subst h0
    obtain ⟨u, received, o, rx, d⟩ := recvUntil_frame m ⟨s.hid.tacc, s.hid.tsnap⟩ junk p f start.live hj hp hf hq'
    exact ⟨u, received, o.widen rfl, rx, d, (o.sent rfl).trans (List.append_nil _).symm⟩
  · obtain ⟨tacc, short⟩ := hdl h0
    rw [List.append_assoc] at hq'
    refine recvUntil_retries m _ failed junk p f s.time start.live hfail hj hp hf tacc
      (start.time ▸ Nat.le_add_right _ _) (fun _ => ?_) hq'
    rw [start.horizon]
    exact Nat.add_lt_add_left short _

/-- One request before each attempt but the first with POLL = 1, none with POLL = 0. -/
theorem requests_flatten (poll : Bool) (n : Nat) (frame : List Byte) :
    (List.replicate n (if poll = true then frame else [])).flatten =
      if poll = true then (List.replicate n frame).flatten else [] := by
  cases poll with
  | true => rfl
  | false => simp

/-! ### The first attempt of a receive -/

/-- The state in which a receive with the deadline dl makes its first attempt. -/
def State.attempting (s : State) (dl : Deadline) : State :=
  { s with hid := { s.hid with huntDl := dl, attempts := 0 } }

theorem State.attempting_step (s : State) (dl : Deadline) : OpStep Decoding s (s.attempting dl) :=
  mark_step Decoding s (fun h => { h with huntDl := dl, attempts := 0 }) rfl rfl

/-- The first attempt sends no request (R504). -/
theorem pollRequest_first (s : State) : pollRequest 0 s = .ok ⟨⟩ s := rfl

/-- A receive whose first attempt returns a payload. -/
theorem recvUntil_first {m : Byte} {dl : Deadline} (h : decodeFrame .channel m dl (s.attempting dl) = .ok (.ok p) t) :
    recvUntil m dl s = .ok p t := by
  unfold State.attempting at h
  simp [recvUntil, recvLoop, pollRequest_first, h]

/-- A receive whose first attempt fails with the deadline expired. -/
theorem recvUntil_first_late {m : Byte} {dl : Deadline} {e : Err}
    (h : decodeFrame .channel m dl (s.attempting dl) = .ok (.error e) t) (hx : t.expired dl = true) :
    recvUntil m dl s = .error (.raised .invalidFrame) t := by
  unfold State.attempting at h
  simp [recvUntil, recvLoop, pollRequest_first, h, hx]

/-! ### The hunt waits for the marker (R410 step 1, R508) -/

/-- The state in which a hunt waits for its first byte. -/
def State.hunting (s : State) : State := { s with hid := { s.hid with skipped := 0, first := true } }

theorem State.hunting_step (s : State) : OpStep Decoding s s.hunting :=
  mark_step Decoding s (fun h => { h with skipped := 0, first := true }) rfl rfl

/-- The marker is the first byte, and arrives before the deadline. -/
theorem hunt_waits {dl : Deadline} {x : RxByte} {xs : List RxByte} (h : Live s) (hx : s.rx = x :: xs)
    (ha : s.time < x.arrival) (hd : x.arrival < s.time + s.left dl) (hl : s.lags = []) :
    ∃ t, hunt .channel x.byte dl Config.maxSkip 0 true s = .ok none t ∧ OpStep Decoding s t ∧ t.rx = xs ∧
      t.time = x.arrival ∧ t.skipcnt = 0 := by
  obtain ⟨t, read, o, rx, -, time⟩ := chRecv_waits dl (s.hunting_step.live h) hx ha hd
  refine ⟨{ t with skipcnt := 0 }, ?_, (s.hunting_step.trans (o.widen rfl)).trans (setSkip_step t 0 (Nat.zero_le _)),
    rx, time.trans (by simp [State.hunting, hl]), rfl⟩
  unfold State.hunting at read
  unfold hunt
  simp [-bind_pure_comp, getByte, read, setSkip]

/-- Nothing arrives before the deadline, which has expired then. -/
theorem hunt_late (m : Byte) {dl : Deadline} {x : RxByte} {xs : List RxByte} (h : Live s) (hx : s.rx = x :: xs)
    (ha : s.time < x.arrival) (hd : s.time + s.left dl ≤ x.arrival) (hl : s.lags = []) :
    ∃ t, hunt .channel m dl Config.maxSkip 0 true s = .ok (some .noResponse) t ∧ OpStep Decoding s t ∧ t.rx = s.rx ∧
      t.expired dl = true := by
  obtain ⟨t, read, o, time, -⟩ := chRecv_late dl (s.hunting_step.live h) hx ha hd
  refine ⟨{ t with skipcnt := 0 }, ?_, (s.hunting_step.trans (o.widen rfl)).trans (setSkip_step t 0 (Nat.zero_le _)),
    (o.unread rfl).1, State.expired_of_left (s := s) (time.trans (by simp [State.hunting, State.left, State.now, hl]))⟩
  unfold State.hunting at read
  unfold hunt
  simp [-bind_pure_comp, getByte, read, setSkip]

/-! ### The bytes behind the marker arrive in time -/

/-- The stream is these bytes, each of them delivered or still to arrive before the time T, and no elapsed time is left to
draw. -/
structure Arriving (T : Nat) (s : State) (bs : List Byte) : Prop where
  bytes : s.rx.map RxByte.byte = bs
  timely : ∀ x ∈ s.rx, x.arrival ≤ s.time ∨ x.arrival < T
  lags : s.lags = []

/-- The deadline has started, and does not expire before the time T. -/
def Deadline.Reaches (dl : Deadline) (T : Nat) (s : State) : Prop :=
  ∃ t0, dl.t0 = BitVec.ofNat 32 t0 ∧ t0 ≤ s.time ∧ T ≤ t0 + dl.dur.toNat

theorem Deadline.Reaches.step {dl : Deadline} {T : Nat} {a : Allow} (h : dl.Reaches T s) (o : OpStep a s t) :
    dl.Reaches T t := by
  obtain ⟨t0, start, begun, most⟩ := h
  exact ⟨t0, start, begun.trans o.time, most⟩

/-- The deadline's end is T or later. -/
theorem Deadline.Reaches.le_left {dl : Deadline} {T : Nat} (h : dl.Reaches T s) :
    T ≤ s.time + s.left dl := by
  obtain ⟨t0, start, begun, most⟩ := h
  have small := dl.dur.isLt
  unfold State.left State.now
  rw [start, BitVec.toNat_sub, BitVec.toNat_ofNat, BitVec.toNat_ofNat]
  omega

/-- A read takes the next of the bytes. -/
theorem chRecv_arriving {T : Nat} {dl : Deadline} {b : Byte} {bs : List Byte} (h : Live s) (ha : Arriving T s (b :: bs))
    (hd : dl.Reaches T s) :
    ∃ t, chRecv dl s = .ok (some b) t ∧ OpStep Decoding s t ∧ Arriving T t bs ∧ SameDiag s t := by
  obtain ⟨bytes, timely, lags⟩ := ha
  obtain ⟨x, xs, hx, rfl, rest⟩ := List.map_eq_cons_iff.1 bytes
  have taken : ∃ t, chRecv dl s = .ok (some x.byte) t ∧ OpStep { read := true } s t ∧ t.rx = xs := by
    by_cases delivered : x.arrival ≤ s.time
    · obtain ⟨t, read, o, queued, -⟩ := chRecv_queued (b := x.byte) (bs := []) (rest := xs) dl h
        ⟨[x], hx, rfl, by simpa using delivered⟩
      exact ⟨t, read, o, Queued.nil.1 queued⟩
    · have before : x.arrival < T := (timely x (by simp [hx])).resolve_left delivered
      have future : s.time < x.arrival := Nat.lt_of_not_le delivered
      obtain ⟨t, read, o, rx, -⟩ := chRecv_waits dl h hx future (before.trans_le hd.le_left)
      exact ⟨t, read, o, rx⟩
  obtain ⟨t, read, o, rx⟩ := taken
  refine ⟨t, read, o.widen rfl, ⟨rx ▸ rest, fun y hy => ?_, List.suffix_nil.1 (lags ▸ o.lags)⟩, o.decode rfl⟩
  exact (timely y (by simp [hx, rx ▸ hy])).imp_left (·.trans o.time)

/-- The number a 1-byte length field gives: 0 stands for 256 (30_encoding.md R313). -/
theorem lenByte_value {n : Nat} (h1 : 1 ≤ n) (h2 : n ≤ 256) :
    (if BitVec.ofNat 8 n = 0 then 256 else (BitVec.ofNat 8 n).toNat) = n := by
  by_cases h : n = 256
  · subst h
    rfl
  · have value : (BitVec.ofNat 8 n).toNat = n := by
      rw [BitVec.toNat_ofNat]
      omega
    rw [if_neg, value]
    intro zero
    rw [zero] at value
    exact absurd value (by simp; omega)

/-- The number a 2-byte length field gives (R313). -/
theorem lenBytes_value {n : Nat} (h : n ≤ 65535) :
    256 * (BitVec.ofNat 8 (n / 256 ^ 1)).toNat + (BitVec.ofNat 8 (n / 256 ^ 0)).toNat = n := by
  simp only [BitVec.toNat_ofNat, pow_one, pow_zero, Nat.div_one]
  omega

theorem lengthField_arriving {T : Nat} {dl : Deadline} {bs : List Byte} (lenW : Bool) (h : Live s)
    (hn : encodable lenW n = true) (ha : Arriving T s (lenField lenW n ++ bs)) (hd : dl.Reaches T s) :
    ∃ t, lengthField .channel lenW dl s = .ok (some (lenField lenW n, n)) t ∧ OpStep Decoding s t ∧ Arriving T t bs ∧
      SameDiag s t := by
  obtain ⟨least, most⟩ := (encodable_iff _ _).1 hn
  cases lenW with
  | false =>
    obtain ⟨t, read, o, more, d⟩ := chRecv_arriving (b := BitVec.ofNat 8 n) (bs := bs) h ha hd
    refine ⟨t, ?_, o, more, d⟩
    unfold lengthField
    rw [Ctl.bind_apply, show getByte .channel dl s = _ from read]
    dsimp only
    rw [if_neg Bool.false_ne_true, lenByte_value least most]
    rfl
  | true =>
    obtain ⟨t, high, o, more, d⟩ := chRecv_arriving (b := BitVec.ofNat 8 (n / 256 ^ 1))
      (bs := BitVec.ofNat 8 (n / 256 ^ 0) :: bs) h ha hd
    obtain ⟨u, low, o', more', d'⟩ := chRecv_arriving (o.live h) more (hd.step o)
    refine ⟨u, ?_, o.trans o', more', d.trans d'⟩
    unfold lengthField
    rw [Ctl.bind_apply, show getByte .channel dl s = _ from high]
    dsimp only
    rw [if_pos rfl, Ctl.bind_apply, show getByte .channel dl t = _ from low]
    dsimp only
    rw [lenBytes_value most, if_neg (by omega)]
    rfl

theorem readUpTo_arriving {T : Nat} {dl : Deadline} (bs : List Byte) (h : Live s) (ha : Arriving T s bs)
    (hd : dl.Reaches T s) :
    ∃ t, readUpTo .channel dl bs.length s = .ok bs t ∧ OpStep Decoding s t ∧ Arriving T t [] ∧ SameDiag s t := by
  induction bs generalizing s with
  | nil => exact ⟨s, rfl, OpStep.refl _ s, ha, SameDiag.refl s⟩
  | cons b bs ih =>
    obtain ⟨t, read, o, more, d⟩ := chRecv_arriving h ha hd
    obtain ⟨u, body, o', none, d'⟩ := ih (o.live h) more (hd.step o)
    refine ⟨u, ?_, o.trans o', none, d.trans d'⟩
    rw [List.length_cons]
    simp [-bind_pure_comp, readUpTo, getByte, read, body]

theorem Arriving.timing {T : Nat} {bs : List Byte} (h : Arriving T s bs) (d : Word) : Arriving T (s.timing d) bs :=
  ⟨h.bytes, h.timely, h.lags⟩

/-- A deadline that starts no earlier than the time t0. -/
theorem Deadline.reaches_now (d : Word) {t0 : Nat} (h : t0 ≤ s.time) :
    (⟨s.now, d⟩ : Deadline).Reaches (t0 + d.toNat) (s.timing d) :=
  ⟨s.time, rfl, Nat.le_refl _, Nat.add_le_add_right h _⟩

/-- Behind a marker taken at the time t0, the other bytes of a frame arrive within T_FRAME: the attempt returns the
payload. -/
theorem decodeFrame_arriving {m : Byte} {dl : Deadline} {t0 : Nat} (h : Live t)
    (found : hunt .channel m dl Config.maxSkip 0 true s = .ok none t) (htime : t0 ≤ t.time)
    (hp : encodable t.prof.lenW p.length = true) (hf : f = 0x03 ∨ f = 0x17)
    (ha : Arriving (t0 + t.prof.tFrame.toNat) t
      (lenField t.prof.lenW p.length ++ (p ++ [csum (lenField t.prof.lenW p.length ++ p)] ++ [f]))) :
    ∃ u, decodeFrame .channel m dl s = .ok (.ok p) u ∧ OpStep Decoding t u ∧ u.rx = [] ∧ u.skipcnt = t.skipcnt ∧
      u.lastst = ⟨p.headD 0, true⟩ ∧ u.diag = ⟨csum (lenField t.prof.lenW p.length ++ p),
        csum (lenField t.prof.lenW p.length ++ p), f, true⟩ := by
  have o := t.timing_step t.prof.tFrame
  obtain ⟨u, length, o1, more, d1⟩ := lengthField_arriving t.prof.lenW (o.live h) hp (ha.timing _)
    (Deadline.reaches_now _ htime)
  have ou := o.trans o1
  have o2 := u.timing_step t.prof.tFrame
  obtain ⟨v, body, o3, none, d3⟩ := readUpTo_arriving _ (o2.live (ou.live h)) (more.timing t.prof.tFrame)
    (Deadline.reaches_now _ (htime.trans ou.time))
  rw [(body_parts p _ f).1] at body
  have checks := decodeFrame_length_ok found length body
  rw [checkBody_eq, if_neg (by simp [(footerLegal_iff f).2 hf]), if_neg (by simp)] at checks
  have o4 := setDiag_step v ⟨csum (lenField t.prof.lenW p.length ++ p), csum (lenField t.prof.lenW p.length ++ p), f,
    true⟩ nofun
  exact ⟨_, checks, (((ou.trans o2).trans o3).trans o4).trans (setLast_step _ _), List.map_eq_nil_iff.1 none.bytes,
    d3.skipcnt.trans d1.skipcnt, rfl, rfl⟩

/-! ### The timing law (R508) -/

/-- A receive starts with its whole deadline ahead; the first byte of the stream arrives a ticks later. -/
structure MarkerLater (t : State) (dl : Deadline) (x : RxByte) (xs : List RxByte) (a : Nat) : Prop where
  stream : t.rx = x :: xs
  lags : t.lags = []
  arrival : x.arrival = t.time + a
  left : t.left dl = dl.dur.toNat

/-- The marker arrives before the receive deadline, the other bytes within T_FRAME: the payload. -/
theorem recv_timely {dl : Deadline} {x : RxByte} {xs : List RxByte} {a : Nat} (h : Live t) (w : MarkerLater t dl x xs a)
    (ha : 0 < a) (hd : a < dl.dur.toNat) (hp : encodable t.prof.lenW p.length = true) (hf : f = 0x03 ∨ f = 0x17)
    (hb : (x :: xs).map RxByte.byte = buildFrame t.prof.lenW x.byte p f false)
    (htimely : ∀ y ∈ xs, y.arrival = t.time + a ∨ y.arrival < t.time + a + t.prof.tFrame.toNat) :
    ∃ u, recvUntil x.byte dl t = .ok p u ∧ OpStep Decoding t u ∧ u.rx = [] ∧ Decoded t u 0 p f := by
  obtain ⟨stream, lags, arrival, left⟩ := w
  have o := t.attempting_step dl
  obtain ⟨u, found, o1, rx, time, skipcnt⟩ := hunt_waits (dl := dl) (o.live h) stream
    (show t.time < _ by omega) (show _ < t.time + t.left dl by omega) lags
  have ou := o.trans o1
  have hprof := ou.prof
  have arriving : Arriving (x.arrival + u.prof.tFrame.toNat) u
      (lenField u.prof.lenW p.length ++ (p ++ [csum (lenField u.prof.lenW p.length ++ p)] ++ [f])) := by
    rw [hprof]
    refine ⟨?_, fun y hy => ?_, List.suffix_nil.1 (lags ▸ ou.lags)⟩
    · rw [rx]
      simpa [buildFrame] using hb
    · rw [time, arrival]
      exact (htimely y (rx ▸ hy)).imp_left le_of_eq
  obtain ⟨v, decoded, o2, none, skipcnt', lastst, diag⟩ := decodeFrame_arriving (ou.live h) found time.ge
    (hprof ▸ hp) hf arriving
  exact ⟨v, recvUntil_first decoded, ou.trans o2, none, ⟨lastst, skipcnt'.trans skipcnt, hprof ▸ diag⟩⟩

/-- The marker arrives when the receive deadline has passed, and stays in the stream. -/
theorem recv_late (m : Byte) {dl : Deadline} {x : RxByte} {xs : List RxByte} {a : Nat} (h : Live t)
    (w : MarkerLater t dl x xs a) (ha : 0 < a) (hd : dl.dur.toNat ≤ a) :
    ∃ u, recvUntil m dl t = .error (.raised .invalidFrame) u ∧ OpStep Decoding t u ∧ u.rx = t.rx := by
  obtain ⟨stream, lags, arrival, left⟩ := w
  have o := t.attempting_step dl
  obtain ⟨u, failed, o1, rx, expired⟩ := hunt_late m (dl := dl) (o.live h) stream
    (show t.time < _ by omega) (show t.time + t.left dl ≤ _ by omega) lags
  exact ⟨u, recvUntil_first_late (decodeFrame_hunt_fails m dl failed) expired, o.trans o1, rx⟩

/-! ### What a receive raises (R504) -/

/-- Pieces of pseudocode that raise no error. -/
def NeverRaises (c : Ctl α) : Prop := ∀ s e t, c s ≠ .error (.raised e) t

theorem NeverRaises.pure (a : α) : NeverRaises (Pure.pure a : Ctl α) := by simp [NeverRaises]

theorem NeverRaises.modify (g : State → State) : NeverRaises (modify g : Ctl PUnit) := by simp [NeverRaises]

theorem NeverRaises.set (v : State) : NeverRaises (set v : Ctl PUnit) := by simp [NeverRaises]

theorem NeverRaises.mark (g : Hidden → Hidden) : NeverRaises (mark g) := by simp [NeverRaises]

/-- An error that a sequence raises comes from its second part when its first part raises none. -/
theorem NeverRaises.raised_after {x : Ctl α} {g : α → Ctl β} {e : Err} (hx : NeverRaises x)
    (h : (x >>= g) s = .error (.raised e) t) : ∃ a u, x s = .ok a u ∧ g a u = .error (.raised e) t := by
  rw [Ctl.bind_apply] at h
  cases hxs : x s with
  | ok a u =>
    rw [hxs] at h
    exact ⟨a, u, rfl, h⟩
  | error r u =>
    rw [hxs] at h
    cases h
    exact absurd hxs (hx s e t)

theorem NeverRaises.bind {x : Ctl α} {g : α → Ctl β} (hx : NeverRaises x) (hg : ∀ a, NeverRaises (g a)) :
    NeverRaises (x >>= g) := by
  intro s e t h
  obtain ⟨a, u, -, h'⟩ := hx.raised_after h
  exact hg a u e t h'

theorem NeverRaises.get {g : State → Ctl β} (hg : ∀ s, NeverRaises (g s)) :
    NeverRaises ((MonadState.get : Ctl State) >>= g) := fun s => hg s s

theorem NeverRaises.ite {q : Prop} [Decidable q] {c d : Ctl α} (hc : NeverRaises c) (hd : NeverRaises d) :
    NeverRaises (if q then c else d) := by
  split
  · exact hc
  · exact hd

theorem serve_neverRaises (T : Nat) (hs : List HostInput) : NeverRaises (serve T hs) := by
  induction hs with
  | nil => exact .modify _
  | cons x hs ih =>
    unfold serve
    refine .ite ?_ (.modify _)
    split
    · exact .bind (.modify _) fun _ => ih
    · exact .bind (.modify _) fun _ => ih
    · exact .bind (.modify _) fun _ => by simp [NeverRaises]

theorem advance_neverRaises (T : Nat) : NeverRaises (advance T) := .get fun s => serve_neverRaises T s.host

theorem drawLag_neverRaises : NeverRaises drawLag := .get fun _ => .bind (.set _) fun _ => .pure _

theorem pass_neverRaises : NeverRaises pass :=
  .bind drawLag_neverRaises fun _ => .get fun _ => advance_neverRaises _

theorem takeByte_neverRaises (x : RxByte) : NeverRaises (takeByte x) :=
  .bind (.modify _) fun _ => .bind pass_neverRaises fun _ => .pure _

theorem timeoutAt_neverRaises (T : Nat) : NeverRaises (timeoutAt T) :=
  .bind (advance_neverRaises T) fun _ => .bind pass_neverRaises fun _ => .pure _

theorem chRecv_neverRaises (dl : Deadline) : NeverRaises (chRecv dl) := by
  refine .get fun s => ?_
  split
  · exact timeoutAt_neverRaises _
  · exact .ite (takeByte_neverRaises _)
      (.ite (.bind (advance_neverRaises _) fun _ => takeByte_neverRaises _) (timeoutAt_neverRaises _))

theorem chSend_neverRaises (bs : List Byte) : NeverRaises (chSend bs) := by
  induction bs with
  | nil => exact .pure _
  | cons b bs ih => exact .bind (.modify _) fun _ => .bind pass_neverRaises fun _ => ih

theorem frameDeadline_neverRaises (d : Word) : NeverRaises (frameDeadline d) :=
  .get fun _ => .bind (.mark _) fun _ => .pure _

theorem hunt_neverRaises (m : Byte) (dl : Deadline) (allowed skipped : Nat) (first : Bool) :
    NeverRaises (hunt .channel m dl allowed skipped first) := by
  have ends (k : Nat) (r : Option Err) : NeverRaises (do setSkip k; pure r : Ctl (Option Err)) :=
    .bind (.modify _) fun _ => .pure _
  induction allowed generalizing skipped first with
  | zero =>
    unfold hunt
    refine .bind (.mark _) fun _ => .bind (chRecv_neverRaises dl) fun r => ?_
    split
    · exact ends _ _
    · exact .ite (ends _ _) (.ite (ends _ _) (ends _ _))
  | succ k ih =>
    unfold hunt
    refine .bind (.mark _) fun _ => .bind (chRecv_neverRaises dl) fun r => ?_
    split
    · exact ends _ _
    · exact .ite (ends _ _) (.ite (ends _ _) (ih _ _))

theorem lengthField_neverRaises (lenW : Bool) (dl : Deadline) : NeverRaises (lengthField .channel lenW dl) := by
  refine .bind (chRecv_neverRaises dl) fun high => ?_
  split
  · exact .pure _
  · refine .ite (.bind (chRecv_neverRaises dl) fun low => ?_) (.pure _)
    split <;> exact .pure _

theorem readUpTo_neverRaises (dl : Deadline) (n : Nat) : NeverRaises (readUpTo .channel dl n) := by
  induction n with
  | zero => exact .pure _
  | succ n ih =>
    refine .bind (chRecv_neverRaises dl) fun r => ?_
    split
    · exact .pure _
    · exact .bind ih fun _ => .pure _

theorem checkBody_neverRaises (lb : List Byte) (n : Nat) (buf : List Byte) : NeverRaises (checkBody lb n buf) := by
  refine .ite (.bind (.modify _) fun _ => .pure _) (.bind (.modify _) fun _ => ?_)
  exact .ite (.pure _) (.ite (.pure _) (.bind (.modify _) fun _ => .pure _))

/-- A decode attempt answers its error, it does not raise it (R410). -/
theorem decodeFrame_neverRaises (m : Byte) (dl : Deadline) : NeverRaises (decodeFrame .channel m dl) := by
  refine .bind (hunt_neverRaises m dl _ _ _) fun found => ?_
  split
  · exact .pure _
  · refine .get fun s => .bind (frameDeadline_neverRaises _) fun ldl =>
      .bind (lengthField_neverRaises _ _) fun len => ?_
    split
    · exact .pure _
    · exact .bind (frameDeadline_neverRaises _) fun bdl => .bind (readUpTo_neverRaises _ _) fun buf =>
        checkBody_neverRaises _ _ _

theorem pollRequest_neverRaises (attempt : Nat) : NeverRaises (pollRequest attempt) :=
  .get fun _ => .ite (.get fun _ => chSend_neverRaises _) (.pure _)

/-- The retry loop raises INVALID_FRAME after an attempt that failed with the deadline expired, and nothing else. -/
theorem recvLoop_raised (m : Byte) (dl : Deadline) (bound attempt : Nat) {e : Err}
    (h : recvLoop m dl bound attempt s = .error (.raised e) t) : e = .invalidFrame ∧ t.expired dl = true := by
  induction bound generalizing attempt s with
  | zero => cases h
  | succ bound ih =>
    unfold recvLoop at h
    obtain ⟨-, v, -, h⟩ := (NeverRaises.mark _).raised_after h
    obtain ⟨-, w, -, h⟩ := (pollRequest_neverRaises attempt).raised_after h
    obtain ⟨r, u, -, h⟩ := (decodeFrame_neverRaises m dl).raised_after h
    cases r with
    | ok p => cases h
    | error _ =>
      dsimp only at h
      rw [Ctl.bind_apply, Ctl.get_apply] at h
      dsimp only at h
      split at h
      · next expired =>
        cases h
        exact ⟨rfl, expired⟩
      · exact ih _ h

theorem recvUntil_raised {m : Byte} {dl : Deadline} {e : Err} (h : recvUntil m dl s = .error (.raised e) t) :
    e = .invalidFrame ∧ t.expired dl = true := by
  obtain ⟨-, u, -, h⟩ := (NeverRaises.mark _).raised_after h
  exact recvLoop_raised m dl _ _ h

/-- What a receive returns fits the empty RXBUF. -/
theorem deliver_received (h : RxHolds s []) (hp : p ≠ []) (hl : p.length ≤ 65535) :
    ∃ t, deliver (.ok p) s = .ok ⟨⟩ t := by
  have cap : p.length ≤ Config.bufCap := hl.trans (by decide)
  obtain ⟨t, hstore, -⟩ := store_holds p h hp ((Nat.zero_add _).trans_le cap) nofun
  exact ⟨{ t with ackok := t.ackFlag p }, by simp [deliver, hstore, setAckok]⟩

end Sys2Proof.Machine

namespace Sys2Proof.Machine

/-- Settles O44: `recv_attempts`, delivered. -/
theorem recvReturnsThePayload : Obligations.RecvReturnsThePayload := by
  intro s msel failed junk p f rest hs m hfail hdl hj hp hf hq
  obtain ⟨t, start, completes, -⟩ := recv_starts msel hs
  obtain ⟨u, received, o, rx, d, sent⟩ := recv_attempts start hfail hdl hj hp hf hq
  obtain ⟨v, delivered, decoded, rx', sent'⟩ := recv_delivers start o rfl hp d hj.bounded
  refine ⟨_, completes p u v received delivered, ⟨rfl, rfl, rfl⟩, decoded, rx'.trans rx, ?_⟩
  have request : t.cmdFrame [t.opcode opcStatus] = s.cmdFrame [s.opcode opcStatus] := by
    simp only [State.cmdFrame, State.opcode, start.prof]
  rw [State.finish_sent, sent', sent, requests_flatten, start.prof, start.sent, request]
  rfl

/-- Settles O45: the marker is waited for until the deadline; before it `recv_timely`, from it on `recv_late`. -/
theorem recvTimingLaw : Obligations.RecvTimingLaw := by
  intro s p f a hs hl htacc ha hp hf hb hfirst htimely
  obtain ⟨x, xs, hx⟩ : ∃ x xs, s.rx = x :: xs := by
    cases hx : s.rx with
    | nil => simp [hx] at hfirst
    | cons x xs => exact ⟨x, xs, rfl⟩
  rw [hx] at hb hfirst
  have arrival : x.arrival = s.time + a := by simpa using hfirst
  have marker : x.byte = s.recvMarker true := by
    simp only [buildFrame, List.map_cons, List.cons_append, List.cons.injEq] at hb
    exact hb.1
  obtain ⟨t, start, completes, fails⟩ := recv_starts true hs
  have now : t.time = s.time := by rw [start.time, hl]; rfl
  have later : MarkerLater t ⟨s.hid.tacc, s.hid.tsnap⟩ x xs a := by
    refine ⟨start.rx.trans hx, by rw [start.lags, hl]; rfl, now ▸ arrival, ?_⟩
    simp [State.left, State.now, htacc, now]
  by_cases early : a < s.hid.tsnap.toNat
  · rw [← start.prof] at hb htimely
    obtain ⟨u, received, o, rx, d⟩ := recv_timely start.live later ha early (start.prof ▸ hp) hf
      (by rw [hb, marker, State.recvMarker, start.prof]; rfl)
      (fun y hy => now ▸ (htimely y (by simp [hx, hy])).2)
    obtain ⟨v, delivered, decoded, rx', -⟩ := recv_delivers start o rfl hp d (Nat.zero_le _)
    rw [marker] at received
    exact ⟨_, completes p u v received delivered, fun _ => ⟨⟨rfl, rfl, rfl⟩, decoded, rx'.trans rx⟩,
      fun late => absurd early (Nat.not_lt.2 late)⟩
  · obtain ⟨u, failed, o, rx⟩ := recv_late (s.recvMarker true) start.live later ha (Nat.not_lt.1 early)
    exact ⟨_, fails _ u failed, fun h => absurd h early,
      fun _ => ⟨⟨rfl, rfl, rfl⟩, (start.empty.step o rfl).finish _ _, rx.trans start.rx⟩⟩

/-- Settles O46: the receive returns a payload that fits, or raises what `recvUntil_raised` says. -/
theorem recvFailsOnlyAtItsDeadline : Obligations.RecvFailsOnlyAtItsDeadline := by
  intro s msel hs
  obtain ⟨t, start, completes, fails⟩ := recv_starts msel hs
  have receive := recvUntil_within (R := OpStep .receive) (OpStep.allowsTime _) (OpStep.allowsSend rfl)
    (OpStep.allowsRead rfl) (OpStep.allowsDecode rfl) (s.recvMarker msel) ⟨s.hid.tacc, s.hid.tsnap⟩
  rcases receive.result t start.live.1 start.live.2 with ⟨p, u, received, -, o, ne, most⟩ | ⟨e, u, raised, -⟩
  · obtain ⟨v, delivered⟩ := deliver_received (start.empty.step o rfl) ne most
    exact ⟨_, completes p u v received delivered, .inl rfl, nofun⟩
  · obtain ⟨rfl, expired⟩ := recvUntil_raised raised
    exact ⟨_, fails _ u raised, .inr rfl, fun _ => expired⟩

end Sys2Proof.Machine
end

section
/-! The illegal command words (60_exceptions.md R601): each shape of the decoder refuses the fields its operation does
not take and the operands its own check forbids. Put together over the operation map these are the ways R601 lists. -/

namespace Sys2Proof

variable {f : Fields}

/-! ### What each shape of the decoder refuses -/

/-- A decoder's check refuses the word when it fails, or when what follows it does. -/
theorem guard_refused {c : Prop} [Decidable c] {x : Except Illegal Instr} {e : Illegal} :
    (∃ e', (if c then x else .error e) = .error e') ↔ ¬ c ∨ ∃ e', x = .error e' := by
  by_cases h : c <;> simp [h]

/-- Some field that the operation does not take is not 0 (R301). -/
theorem Fields.within_eq_false {u : Uses} : f.within u = false ↔
    (u.imm8 = false ∧ f.imm8 ≠ 0) ∨ (u.nresp = false ∧ f.nresp ≠ 0) ∨ (u.chk = false ∧ f.chk = true) ∨
      (u.fbc = false ∧ f.fbc = true) ∨ (u.ftr = false ∧ f.ftr = true) ∨ (u.msel = false ∧ f.msel = true) := by
  simp only [Fields.within, Bool.and_eq_false_iff, Bool.or_eq_false_iff, beq_eq_false_iff_ne, Bool.not_eq_false',
    or_assoc]

theorem plain_refused {i : Instr} : (∃ e, plain f i = .error e) ↔
    f.imm8 ≠ 0 ∨ f.nresp ≠ 0 ∨ f.chk = true ∨ f.fbc = true ∨ f.ftr = true ∨ f.msel = true := by
  simp [plain, guard_refused, Fields.within_eq_false]

theorem withMarker_refused {mk : Bool → Instr} : (∃ e, withMarker f mk = .error e) ↔
    f.imm8 ≠ 0 ∨ f.nresp ≠ 0 ∨ f.chk = true ∨ f.fbc = true ∨ f.ftr = true := by
  simp [withMarker, guard_refused, Fields.within_eq_false]

theorem withFooter_refused {mk : Bool → Bool → Bool → Instr} : (∃ e, withFooter f mk = .error e) ↔
    f.imm8 ≠ 0 ∨ f.nresp ≠ 0 ∨ f.chk = true ∨ (f.msel = false ∧ f.ftr = true) := by
  simp [withFooter, guard_refused, Fields.within_eq_false, footerFits, or_assoc]

theorem withResponses_refused {mk : BitVec 3 → Bool → Instr} : (∃ e, withResponses f mk = .error e) ↔
    f.imm8 ≠ 0 ∨ f.fbc = true ∨ f.ftr = true ∨ f.msel = true ∨ (f.chk = true ∧ f.nresp = 0) := by
  simp [withResponses, guard_refused, Fields.within_eq_false, checkFits, or_assoc]

theorem decodeRawCmd_refused : (∃ e, decodeRawCmd f = .error e) ↔
    f.ftr = true ∨ f.msel = true ∨ (f.chk = true ∧ f.nresp = 0) := by
  simp [decodeRawCmd, guard_refused, Fields.within_eq_false, checkFits, or_assoc]

theorem extractLsb'_ne_zero {m : Nat} (v : BitVec m) (start len : Nat) :
    v.extractLsb' start len ≠ 0 ↔ v.toNat / 2 ^ start % 2 ^ len ≠ 0 := by
  simp [← BitVec.toNat_inj, Nat.shiftRight_eq_div_pow]

/-- IMM8[7:3] is 0 below 8 (R305). -/
theorem pinImmediate_ne_zero {b : Byte} : b.extractLsb' 3 5 ≠ 0 ↔ 8 ≤ b.toNat := by
  have bound := b.isLt
  rw [extractLsb'_ne_zero]
  omega

theorem decodePin_refused : (∃ e, decodePin f = .error e) ↔
    f.nresp ≠ 0 ∨ f.chk = true ∨ f.fbc = true ∨ f.ftr = true ∨ f.msel = true ∨ 8 ≤ f.imm8.toNat := by
  rw [← pinImmediate_ne_zero]
  simp [decodePin, guard_refused, Fields.within_eq_false, or_assoc]

/-- The reserved field is bits 31:23 (R300). -/
theorem Fields.ofWord_reserved_ne_zero {w : Word} : (Fields.ofWord w).reserved ≠ 0 ↔ 0x800000 ≤ w.toNat := by
  have bound := w.isLt
  rw [Fields.ofWord, extractLsb'_ne_zero]
  omega

/-! ### The operation map -/

/-- R601 lists what the decoder refuses: the cases are the rows of the operation map, by the shape of their operands. -/
theorem illegalWord_iff (w : Word) : IllegalWord w ↔ ∃ e, decodeWord w = .error e := by
  unfold IllegalWord decodeWord
  simp only [← Fields.ofWord_op_toNat, ← Fields.ofWord_reserved_ne_zero]
  generalize Fields.ofWord w = f
  unfold decodeFields
  split
  · next hr => exact iff_of_true (.inr (.inl (by simpa using hr))) ⟨_, rfl⟩
  · next hr =>
    replace hr : f.reserved = 0 := by simpa using hr
    split
    -- SEND_FRAME and ENCODE, the ops with a marker, PIN, the exchange ops, RAW_CMD, the reserved numbers, and last the
    -- ops without operands
    case h_1 hn | h_4 hn =>
      simp only [hn, hr, withFooter_refused]
      grind
    case h_2 hn | h_3 hn | h_5 hn =>
      simp only [hn, hr, withMarker_refused]
      grind
    case h_9 hn =>
      simp only [hn, hr, decodePin_refused]
      grind
    case h_20 hn | h_21 hn | h_22 hn | h_23 hn | h_24 hn | h_25 hn | h_26 hn | h_27 hn =>
      simp [hn, hr, withResponses_refused]
    case h_28 hn => simp [hn, hr, decodeRawCmd_refused]
    case h_30 =>
      simp only [imp_false] at *
      exact iff_of_true (.inl (by omega)) ⟨_, rfl⟩
    all_goals
      rename_i hn
      simp only [hn, hr, plain_refused]
      grind

end Sys2Proof

namespace Sys2Proof.Machine

/-- BADOP is no refusal of an acceptance check and no code that pseudocode raises (R500, R600). -/
theorem Ending.ne_badop {i : Instr} {s t : State} {e : Err} (h : Ending i s t e) : e ≠ .badop := by
  rintro rfl
  rcases h.sess with ⟨-, refusal⟩ | ⟨-, code⟩
  · rcases Gate.refusal_cases refusal with hc | hc | hc <;> cases hc
  · rcases code with hc | hc <;> cases hc

/-- The command of a legal word ends with another code, or a block reset ends it and ERR is NONE (R700). -/
theorem exec_accept_ne_badop (i : Instr) (w : Word) (s : State) :
    ∃ t, exec i (s.accept w) = .next t ∧ t.err ≠ .badop := by
  rcases exec_cases i (s.accept w) rfl with ⟨t, e, runs, ending⟩ | ⟨t, runs, asserted⟩
  · exact ⟨t, runs, ending.completed.err ▸ ending.ne_badop⟩
  · obtain ⟨u, d, rfl⟩ := asserted.values
    exact ⟨_, runs, nofun⟩

/-- Settles O4: R601 lists the refused words (`illegalWord_iff`), and no instruction ends with BADOP. -/
theorem illegalWordsCompleteWithBadop : Obligations.IllegalWordsCompleteWithBadop := by
  intro w s
  refine ⟨illegalWord_iff w, fun illegal => ?_, fun legal => ?_⟩
  · obtain ⟨e, refused⟩ := (illegalWord_iff w).1 illegal
    rw [runCommand, refused]
    rfl
  · rw [runCommand]
    cases decoded : decodeWord w with
    | error e => exact absurd ((illegalWord_iff w).2 ⟨e, decoded⟩) legal
    | ok i => exact exec_accept_ne_badop i w s

end Sys2Proof.Machine
end

section
/-! The reset input (70_reset_and_hazards.md R700): what a block reset leaves, whether it falls between commands or inside
one, which `exec_cutShort` then ends. -/

namespace Sys2Proof.Machine

/-- What the reset input leaves in the block (R700); the hidden state is that of log 11. -/
def State.ResetCleared (t : State) : Prop :=
  (∀ q : Reg, t.regRead q = State.reset.regRead q) ∧ t.busy = false ∧ t.events = [] ∧ t.irq = false ∧
    t.mem = [] ∧ t.rate = Config.baud0 ∧ t.hid = State.reset.hid ∧ ∀ x ∈ t.rx, 0 < x.arrival

theorem State.blockReset_regRead (s : State) (n : Nat) (q : Reg) :
    (s.blockReset n).regRead q = State.reset.regRead q := by cases q <;> rfl

/-- A delivery that a reset leaves in the stream is still to come at the reset's end (log 12). -/
theorem rebaseRx_arrival_pos (T : Nat) (xs : List RxByte) : ∀ x ∈ rebaseRx T xs, 0 < x.arrival := by
  induction xs with
  | nil => nofun
  | cons y ys ih =>
    unfold rebaseRx
    split
    · exact ih
    · next late => exact List.forall_mem_cons.2 ⟨Nat.sub_pos_of_lt (Nat.not_le.1 late), ih⟩

theorem State.blockReset_cleared (s : State) (n : Nat) : (s.blockReset n).ResetCleared :=
  ⟨s.blockReset_regRead n, rfl, rfl, rfl, rfl, rfl, rfl, rebaseRx_arrival_pos _ _⟩

/-- A command that does not end with the code of a refusal was not refused (42_command.md R500). -/
theorem gate_passed_of_err {i : Instr} {s t : State} (he : exec i s = .next t) (h1 : t.err ≠ .config)
    (h2 : t.err ≠ .state) (h3 : t.err ≠ .param) : (i.gate s).refusal = none := by
  refine Option.eq_none_iff_forall_ne_some.2 fun e refused => ?_
  obtain rfl : s.finish s.sess e = t := Host.Outcome.next.inj ((exec_refused refused).symm.trans he)
  rcases Gate.refusal_cases refused with rfl | rfl | rfl
  · exact h1 rfl
  · exact h2 rfl
  · exact h3 rfl

end Sys2Proof.Machine

namespace Sys2Proof.Machine

/-- Settles O8: `State.reset_inv`, which the step invariant O9 rests on too. -/
theorem resetMeetsTheInvariant : Obligations.ResetMeetsTheInvariant := State.reset_inv

/-- Settles O10: between commands the step is a block reset; inside a command that was not refused, `exec_cutShort` ends
it in one. -/
theorem resetInputClearsTheBlock : Obligations.ResetInputClearsTheBlock := by
  constructor
  · rintro s n ⟨h, hs, hh, ha⟩
    exact ⟨_, step_reset hh ha, State.blockReset_cleared _ n⟩
  · intro i s t h later n hs he hc hst hp hh ha htick
    obtain ⟨u, d, cut⟩ := exec_cutShort ha later i hs.live he (gate_passed_of_err he hc hst hp) hh htick
    exact ⟨_, cut, u.blockReset_cleared d⟩

end Sys2Proof.Machine
end

section
/-! Flash commands are not repeated (70_reset_and_hazards.md R724): without POLL a receive sends nothing, so PROGRAM, VERIFY,
BLOCK_ERASE and the exchange ops send their command frame once, and PROGRAM and VERIFY their data frame once behind it. -/

namespace Sys2Proof.Machine

variable {s t : State} {α β : Type}

/-! ### Pseudocode that sends nothing without POLL -/

/-- Every kind of step of a session op but sending. -/
abbrev Silent : Allow := { read := true, decode := true, store := true, ack := true }

/-- From every state of a running command with POLL = 0, c sends nothing, and its value satisfies Q. -/
def SendsNothing (Q : α → Prop) (c : Ctl α) : Prop :=
  ∀ s : State, s.busy = true → s.prof.poll = false → WithinAt (OpStep Silent) Q c s

theorem Within.sendsNothing {Q : α → Prop} {c : Ctl α} (h : Within (OpStep Silent) Q c) : SendsNothing Q c :=
  fun s hb _ => h s hb

theorem SendsNothing.bind {P : α → Prop} {Q : β → Prop} {x : Ctl α} {f : α → Ctl β} (hx : SendsNothing P x)
    (hf : ∀ a, P a → SendsNothing Q (f a)) : SendsNothing Q (x >>= f) := fun s hb hp =>
  .bind (OpStep.chains _) (hx s hb hp) fun a t _ ha run o => hf a ha t (run.busy.trans hb) (o.prof ▸ hp)

theorem SendsNothing.get {Q : β → Prop} {f : State → Ctl β} (hf : ∀ s, SendsNothing Q (f s)) :
    SendsNothing Q ((MonadState.get : Ctl State) >>= f) := fun s hb hp => hf s s hb hp

theorem SendsNothing.ite {Q : α → Prop} {p : Prop} [Decidable p] {c d : Ctl α} (hc : SendsNothing Q c)
    (hd : SendsNothing Q d) : SendsNothing Q (if p then c else d) := by
  split
  · exact hc
  · exact hd

theorem SendsNothing.pure {Q : α → Prop} {a : α} (ha : Q a) : SendsNothing Q (Pure.pure a) :=
  (Within.pure (OpStep.chains _) ha).sendsNothing

theorem SendsNothing.raise {Q : α → Prop} {e : Err} (he : e.raisable = true) :
    SendsNothing Q (Machine.raise e : Ctl α) := (Within.raise (OpStep.chains _) he).sendsNothing

theorem setAckok_sendsNothing (b : Bool) : SendsNothing (fun _ => True) (setAckok b) :=
  (setAckok_within (OpStep.allowsAck rfl) b).sendsNothing

/-- A response is received and stored (42_command.md R503, R504). -/
theorem recvStore_sendsNothing {Q : α → Prop} (m : Byte) {f : List Byte → Ctl α} (hf : ∀ p, SendsNothing Q (f p)) :
    SendsNothing Q (do let p ← recvFrame m; store p; f p) := by
  have received : SendsNothing (fun p => p ≠ [] ∧ p.length ≤ 65535) (recvFrame m) :=
    recvFrame_quiet (OpStep.allowsTime _) (OpStep.allowsRead rfl) (OpStep.allowsDecode rfl) m
  exact received.bind fun p sized =>
    (store_within (OpStep.chains _) (OpStep.allowsStore rfl) sized.1).sendsNothing.bind fun _ _ => hf p

theorem respLoop_sendsNothing (chk : Bool) (n : Nat) (first : Bool) :
    SendsNothing (fun _ => True) (respLoop chk n first) := by
  induction n generalizing first with
  | zero => exact .pure trivial
  | succ n ih =>
    exact .get fun _ => recvStore_sendsNothing _ fun p => .ite
      (.get fun _ => (setAckok_sendsNothing _).bind fun _ _ => .ite (.raise rfl) (ih _)) (ih _)

/-! ### At most the command frame and the data frame -/

/-- Since `before` nothing has been sent, or `cmd` once, or `cmd` and `data` once. -/
def SentAtMost (before cmd data : List Byte) (t : State) : Prop :=
  t.sent = before ∨ t.sent = before ++ cmd ∨ t.sent = before ++ cmd ++ data

/-- Bytes are sent, and then nothing. -/
theorem Ends.send_once (live : Live t) (poll : t.prof.poll = false) (bytes : List Byte) {Q : α → Prop} {c : Ctl α}
    (hc : SendsNothing Q c) : Ends (SentAtMost t.sent bytes []) (chSend bytes >>= fun _ => c) t := by
  obtain ⟨u, hsend, o, sent, -⟩ := chSend_ok bytes live
  have live' := o.live live
  exact .bind_ok hsend (.of_within live' (hc u live'.1 (o.prof ▸ poll)) fun v ov => .inr (.inl ((ov.sent rfl).trans sent)))

/-- The exchange of PROGRAM and VERIFY: the data frame goes out behind an ACK only (R512, R513). -/
theorem transfer_ends (live : Live t) (poll : t.prof.poll = false) (opc : Byte) :
    Ends (SentAtMost t.sent (t.transferFrame opc) (t.dataFrame (t.transferPayload opc))) (transfer opc) t := by
  obtain ⟨u, hsend, o, sent, -⟩ := chSend_ok (t.transferFrame opc) live
  have waiting := o.live live
  refine .bind_ok (Ctl.get_apply t) (.bind_ok (show sendCmd _ _ t = _ from hsend) ?_)
  refine .bind_within waiting (recvFrame_quiet (OpStep.allowsTime Silent) (OpStep.allowsRead rfl) (OpStep.allowsDecode rfl)
    _ u waiting.1 (o.prof ▸ poll)) (fun v ov => .inr (.inl ((ov.sent rfl).trans sent))) fun st v ov _ => ?_
  have sent' : v.sent = t.sent ++ t.transferFrame opc := (ov.sent rfl).trans sent
  have answered := ov.live waiting
  have prof : v.prof = t.prof := ov.prof.trans o.prof
  split
  · obtain ⟨w, hdata, ow, sentData, -⟩ := chSend_ok (v.dataFrame (t.transferPayload opc)) answered
    have live' := ow.live answered
    refine .bind_ok (show sendData _ v = _ from hdata) ?_
    refine .of_within live' (recvStore_sendsNothing _ (fun _ => setAckok_sendsNothing _) w live'.1
      (ow.prof ▸ prof ▸ poll)) fun x ox => .inr (.inr ?_)
    rw [ox.sent rfl, sentData, sent', dataFrame_congr prof]
  · exact .inr (.inl sent')

theorem eraseBody_ends (live : Live t) (poll : t.prof.poll = false) :
    Ends (SentAtMost t.sent t.eraseFrame []) eraseBody t :=
  .bind_ok (Ctl.get_apply t) (Ends.send_once live poll t.eraseFrame (recvStore_sendsNothing _ fun _ =>
    .ite (recvStore_sendsNothing _ fun _ => .ite (setAckok_sendsNothing _) (.raise rfl)) (.raise rfl)))

theorem exchange_ends (live : Live t) (poll : t.prof.poll = false) (opc : Byte) (x : Bool) (n : BitVec 3) (chk : Bool) :
    Ends (SentAtMost t.sent (buildFrame t.prof.lenW Config.soh (opc :: t.txPayload) Config.etx x) [])
      (exchange opc x n chk) t :=
  .bind_ok (Ctl.get_apply t) (Ends.send_once live poll _ (respLoop_sendsNothing chk n.toNat true))

theorem Ends.congr {P : State → Prop} {c d : Ctl α} (h : Ends P c s) (hd : d s = c s) : Ends P d s := by
  unfold Ends
  rw [hd]
  exact h

theorem transferPayload_congr (hp : t.prof = s.prof) (ht : t.txPayload = s.txPayload) (opc : Byte) :
    t.transferPayload opc = s.transferPayload opc := by
  simp only [State.transferPayload, hp, ht]

/-- What the pseudocode of a session op finds when it starts in t, of the state s in which it was accepted. -/
structure FlashStart (s t : State) : Prop where
  live : Live t
  config : SameConfig s t
  tx : t.txPayload = s.txPayload
  sent : t.sent = s.sent

theorem command_sentAtMost {g : Gate} {q : Sess} {body : Ctl Unit} {cmd data : List Byte} (hs : Accepted s)
    (h : ∀ t, FlashStart s t → Ends (SentAtMost t.sent cmd data) body t) :
    ∃ t, command g true (.session q) body s = .next t ∧ SentAtMost s.sent cmd data t := by
  refine command_ends hs.live (fun t w live => ?_) (fun u x e sent => ?_) fun x e => .inl (s.finish_sent x e)
  · have start : FlashStart s t := ⟨live, (s.begin_sameConfig ..).trans w.step.sameConfig,
      (w.step.txPayload_of_not_store rfl).trans (s.begin_txPayload ..), (w.step.sent rfl).trans (s.begin_sent ..)⟩
    exact start.sent ▸ h t start
  · unfold SentAtMost
    rw [u.finish_sent x e]
    exact sent

end Sys2Proof.Machine

namespace Sys2Proof.Machine

/-- Settles O59: each op sends its command frame before its first receive, and without POLL no receive sends. -/
theorem noFlashCommandIsRepeated : Obligations.NoFlashCommandIsRepeated := by
  intro i s hs poll a sends
  have quiet {t : State} (start : FlashStart s t) : t.prof.poll = false := start.config.prof ▸ poll
  have transfers {t : State} (start : FlashStart s t) (k : Fin 14) :
      Ends (SentAtMost t.sent (s.transferFrame (s.opcode k)) (s.dataFrame (s.transferPayload (s.opcode k))))
        (transfer (t.opcode k)) t := by
    have := transfer_ends start.live (quiet start) (s.opcode k)
    rw [start.config.transferFrame, transferPayload_congr start.config.prof start.tx,
      dataFrame_congr start.config.prof] at this
    rwa [opcode_congr start.config.prof]
  refine ⟨?_, ?_, ?_, ?_⟩
  · rintro rfl
    exact command_sentAtMost hs fun t start => (transfers start opcProgram).congr (programBody_apply t)
  · rintro rfl
    refine command_sentAtMost (body := verifyBody) hs fun t start => ?_
    by_cases empty : t.txlen = 0
    · refine .bind_ok (Ctl.get_apply t) ?_
      rw [if_pos empty]
      exact .inl rfl
    · exact (transfers start opcVerify).congr (verifyBody_apply empty)
  · rintro rfl
    refine command_sentAtMost hs fun t start => ?_
    have := eraseBody_ends start.live (quiet start)
    rwa [start.config.eraseFrame] at this
  · intro exchanges
    obtain ⟨k, n, chk, operands⟩ : ∃ k n chk, exchangeOperands i = some (k, n, chk) := by
      obtain ⟨n, chk, rfl | rfl⟩ := exchanges <;> exact ⟨_, _, _, rfl⟩
    obtain ⟨q, body, op⟩ := isExchange_of_operands operands
    obtain ⟨t, hexec, sent⟩ := command_sentAtMost hs fun t start => by
      have := exchange_ends start.live (quiet start) (exchangeOpcode t i) (corrupted i) n chk
      rw [← op.frame, exchangeFrame_congr start.config.prof start.tx] at this
      exact this.congr (op.body t)
    exact ⟨t, (op.exec s).trans hexec, sent⟩

end Sys2Proof.Machine
end
